-- ==== Sys2Proof/Word.lean ====
section
/-! DEFINITION. The lane index, the LaneValue container (R20) and the widths of 00_scope.md R9. -/

namespace Sys2Proof

/-- A lane slot, 0 to 3 (R20). Which slots are active is a parameter (`Params.active`). -/
abbrev Lane := Fin 4

/-- A data word: the width of an R register and of a data-memory lane word (`DATA_W`, R9). -/
abbrev Data := BitVec 12

/-- An accumulator value or pattern (`ACC_W`, R9, R26). -/
abbrev AccWord := BitVec 32

/-- An address or control word (`ADDR_W` and `CTRL_W`, R9). -/
abbrev Half := BitVec 16

/-- A descriptor word (R101). -/
abbrev Descr := BitVec 64

/-- A LaneValue: one value for each of the four lane slots (R20). -/
structure PerLane (α : Type) where
  l0 : α
  l1 : α
  l2 : α
  l3 : α
deriving DecidableEq, Repr

/-- The value of one lane. -/
def PerLane.get {α : Type} (v : PerLane α) (j : Lane) : α :=
  match j with
  | 0 => v.l0
  | 1 => v.l1
  | 2 => v.l2
  | 3 => v.l3

/-- The same LaneValue with lane `j` replaced. -/
def PerLane.set {α : Type} (v : PerLane α) (j : Lane) (x : α) : PerLane α :=
  match j with
  | 0 => { v with l0 := x }
  | 1 => { v with l1 := x }
  | 2 => { v with l2 := x }
  | 3 => { v with l3 := x }

/-- A LaneValue from its lanes. -/
def PerLane.ofFn {α : Type} (f : Lane → α) : PerLane α := ⟨f 0, f 1, f 2, f 3⟩

/-- The same value in every lane. -/
def PerLane.fill {α : Type} (x : α) : PerLane α := ⟨x, x, x, x⟩

/-- The lanes in ascending order, the order of every per-lane loop (R13). -/
def allLanes : List Lane := [0, 1, 2, 3]

@[simp] theorem PerLane.get_ofFn {α : Type} (f : Lane → α) (j : Lane) :
    (PerLane.ofFn f).get j = f j := by
  fin_cases j <;> rfl

@[simp] theorem PerLane.get_fill {α : Type} (x : α) (j : Lane) :
    (PerLane.fill x).get j = x := by
  fin_cases j <;> rfl

theorem PerLane.get_set {α : Type} (v : PerLane α) (i j : Lane) (x : α) :
    (v.set i x).get j = if i = j then x else v.get j := by
  fin_cases i <;> fin_cases j <;> rfl

theorem PerLane.ext_get {α : Type} {v w : PerLane α} (h : ∀ j, v.get j = w.get j) : v = w := by
  cases v; cases w
  have h0 := h 0; have h1 := h 1; have h2 := h 2; have h3 := h 3
  simp only [PerLane.get] at h0 h1 h2 h3
  subst h0 h1 h2 h3; rfl

@[simp] theorem mem_allLanes (j : Lane) : j ∈ allLanes := by fin_cases j <;> decide

end Sys2Proof
end

