-- ==== Sys2Proof/Config.lean ====
section
/-! DEFINITION. What an implementation fixes: the parameters of 00_scope.md R9 as plain data (held in
`State.cfg`, so that a statement about every state covers every value of them), and the constants
without a body that stand for what the spec leaves open. -/

namespace Sys2Proof

/-- `LANES`, one of 1, 2 or 4 (R9, R20). -/
inductive LaneCount where
  | one
  | two
  | four
deriving DecidableEq, Repr

/-- The number N of active lanes. -/
def LaneCount.n : LaneCount → Nat
  | .one => 1
  | .two => 2
  | .four => 4

/-- `ACC_OVF_WIDTH`: the width the 32-bit-accumulator overflow test checks (R166). -/
inductive OvfWidth where
  | w32
  | w24
deriving DecidableEq, Repr

/-- `SUBC_FORM`: the carry-in convention of SUBC and SUBBC (R168, R188, R190). -/
inductive SubcForm where
  | adsp
  | borrow
deriving DecidableEq, Repr

/-- `UM_SOURCE`: what sets UM and increments UMCOUNT (R81). -/
inductive UmSource where
  | unaligned
  | none
deriving DecidableEq, Repr

/-- `UNDEF_READ`: what a load delivers for an UNDEF lane (R83). -/
inductive UndefRead where
  | draw
  | fault
deriving DecidableEq, Repr

/-- `UNINIT_READ`: what reading a value that is unspecified since reset gives (R64). `fault` and `draw` are
the spec's; `held` is the model's own (DESIGN CHOICE, log 3): the read gives the value that the reset state
holds. -/
inductive UninitRead where
  | held
  | fault
  | draw
deriving DecidableEq, Repr

/-- A function of two flags as its truth table: bit `2 * (imaginary) + (real)` is the result. -/
abbrev FlagTable := BitVec 4

/-- The value of a flag table at a real and an imaginary flag. -/
def FlagTable.at (t : FlagTable) (re im : Bool) : Bool :=
  t.getLsbD (2 * im.toNat + re.toNat)

/-- `COMBINE` (R161): how each flag of ASTAT_C is formed from the real and the imaginary one.
AQ and UM are not written by COMBINE (log 6). -/
structure Combine where
  az : FlagTable
  an : FlagTable
  av : FlagTable
  ac : FlagTable
  as : FlagTable
  mv : FlagTable
  ss : FlagTable
  sv : FlagTable
deriving DecidableEq, Repr

/-- The table of the conjunction. -/
def FlagTable.and : FlagTable := 0b1000#4

/-- The table of the disjunction. -/
def FlagTable.or : FlagTable := 0b1110#4

/-- The default COMBINE of R161: AZ by conjunction, the others by disjunction. -/
def Combine.default : Combine :=
  { az := FlagTable.and, an := FlagTable.or, av := FlagTable.or, ac := FlagTable.or,
    as := FlagTable.or, mv := FlagTable.or, ss := FlagTable.or, sv := FlagTable.or }

/-- The parameters of R9 that are plain data. -/
structure Params where
  lanes : LaneCount
  regXLo : Fin 32
  regXHi : Fin 32
  resetEn : BitVec 4
  resetMaster : BitVec 4
  accOvfWidth : OvfWidth
  subcForm : SubcForm
  combine : Combine
  umSource : UmSource
  uninitRead : UninitRead
  undefRead : UndefRead
deriving DecidableEq, Repr

/-- The defaults of R9. DESIGN CHOICE, unsafe where a statement rests on these values: `LANES` is OPEN
and is 4 here (log 2); `UNINIT_READ`, `fault` in R9, is `held` here, so that a program can run from reset
(log 3). -/
def Params.default : Params :=
  { lanes := .four, regXLo := 0, regXHi := 31, resetEn := 0b0001#4, resetMaster := 0b0001#4,
    accOvfWidth := .w32, subcForm := .adsp, combine := Combine.default,
    umSource := .unaligned, uninitRead := .held, undefRead := .draw }

/-- Lane `j` is active: `j < N` (R20). -/
def Params.active (p : Params) (j : Lane) : Bool := decide (j.val < p.lanes.n)

/-- Exactly one bit of a 4-bit mask is set. -/
def oneHot4 (m : BitVec 4) : Bool :=
  m == 0b0001#4 || m == 0b0010#4 || m == 0b0100#4 || m == 0b1000#4

/-- Every set bit of a 4-bit mask is the bit of an active lane. -/
def Params.within (p : Params) (m : BitVec 4) : Bool :=
  allLanes.all fun j => !m.getLsbD j.val || p.active j

/-- The parameter values R9 and R363 admit: RESET_MASTER has exactly one bit, for a lane below N,
and RESET_EN enables no lane from N on (R21). -/
def Params.wf (p : Params) : Bool :=
  oneHot4 p.resetMaster && p.within p.resetMaster && p.within p.resetEn

/-- The external CORDIC primitive `vector(x, y) -> magnitude` (R229): OPEN, no body (log 5). -/
opaque Config.cordicVector : Int → Int → Int

/-- The external CORDIC primitive `rotate(magnitude, angle) -> (x, y)` (R229): OPEN, no body (log 5). -/
opaque Config.cordicRotate : Int → Int → Int × Int

/-- A free value: the mask entry of a disabled lane (R153), drawn at `State.draws` (log 4). -/
opaque Config.freeMask : Nat → Lane → Bool

/-- A free value: what a load delivers for an UNDEF lane (R83), drawn at `State.draws`; the second
argument tells the first from the second word of a double-word load (log 4). -/
opaque Config.freeWord : Nat → Nat → Lane → Data

/-- A free value: what a read of lane `j` of Rk gives while it is unspecified (R64), drawn at `State.draws`
(logs 4 and 29). -/
opaque Config.freeData : Nat → Fin 32 → Lane → Data

/-- A free value: the fields H, M and L that a read of lane `j` of ACCn gives while they are unspecified
(R64), drawn at `State.draws` (logs 4 and 29). -/
opaque Config.freeAcc : Nat → Fin 8 → Lane → AccWord

/-- A free value: what a read of a scalar register gives while it is unspecified (R64), by the register's
handle and the slot of its hazard entry, drawn at `State.draws` (logs 4 and 29). -/
opaque Config.freeHalf : Nat → BitVec 7 → Fin 3 → Half

end Sys2Proof
end

