-- ==== Sys2Proof/Syntax.lean ====
section
/-! DEFINITION. The operations of CORE: one constructor of `Instr` for each row of
spec/opcode_table.json (30_encoding.md R110, R118). -/

namespace Sys2Proof

/-- The 32 condition codes of R112, in the order of their numbers; the codes ending in `C` read
ASTAT_C. -/
inductive Cond where
  | eq | ne | gt | le | lt | ge | av | notAv | ac | notAc | sv | notSv | mv | notMv | notCe | true
  | eqC | neC | gtC | leC | ltC | geC | avC | notAvC | acC | notAcC | svC | notSvC | mvC | notMvC
  | umC | notUmC
deriving DecidableEq, Repr

/-- What every descriptor carries besides its operation: COND (R112) and EOB (R102). -/
structure Ctl where
  cond : Cond
  eob : Bool
deriving DecidableEq, Repr

/-- The three copies of the flag register (R47). -/
inductive Copy where
  | re
  | im
  | cx
deriving DecidableEq, Repr

/-- The registers a handle names (R104); `noReg` is NONE (R107). -/
inductive Handle where
  | r (k : Fin 32)
  | acc (n : Fin 8)
  | accH (n : Fin 8)
  | accM (n : Fin 8)
  | accL (n : Fin 8)
  | i (k : Fin 8)
  | m (k : Fin 8)
  | l (k : Fin 8)
  | b (k : Fin 8)
  | cntr
  | lpever
  | pcstack
  | lpstack
  | mstat
  | sstat
  | icntl
  | imask
  | irptl
  | ivec (k : Fin 4)
  | dstat0
  | dstat1
  | did
  | umcount
  | astat (c : Copy)
  | noReg
deriving DecidableEq, Repr

/-- A general-register pair (R2k, R2k+1), named by k (R108). -/
abbrev RPair := Fin 16

/-- An accumulator pair (ACC2k, ACC2k+1), named by k (R108). -/
abbrev AccPair := Fin 4

/-- The real (even) register of a pair. -/
def RPair.re (p : RPair) : Fin 32 := ⟨2 * p.val, by omega⟩

/-- The imaginary (odd) register of a pair. -/
def RPair.im (p : RPair) : Fin 32 := ⟨2 * p.val + 1, by omega⟩

/-- The real (even) accumulator of a pair. -/
def AccPair.re (p : AccPair) : Fin 8 := ⟨2 * p.val, by omega⟩

/-- The imaginary (odd) accumulator of a pair. -/
def AccPair.im (p : AccPair) : Fin 8 := ⟨2 * p.val + 1, by omega⟩

/-- The second operand of an ALU, bit, rotate or shift operation: SB, or IMM when IMMB = 1 (R115). -/
inductive Src where
  | reg (k : Fin 32)
  | imm (v : Half)
deriving DecidableEq, Repr

/-- The second operand of ADD.A and SUB.A (R203). -/
inductive AccSrc where
  | acc (n : Fin 8)
  | reg (k : Fin 32)
  | imm (v : Half)
deriving DecidableEq, Repr

/-- The source of a real shift: an R register or an accumulator (R118). -/
inductive ShiftSrc where
  | reg (k : Fin 32)
  | acc (n : Fin 8)
deriving DecidableEq, Repr

/-- The source of a complex shift: an R pair or an accumulator pair (R118). -/
inductive ShiftPair where
  | regs (p : RPair)
  | accs (p : AccPair)
deriving DecidableEq, Repr

/-- The amounts of a complex shift: an R pair, or the two bytes of IMM (R115, R280). -/
inductive AmountPair where
  | regs (p : RPair)
  | imm (v : Half)
deriving DecidableEq, Repr

/-- The operand signedness qualifier of the MAC family; the first letter is for SA (R113). -/
inductive SignMode where
  | ss
  | su
  | us
  | uu
deriving DecidableEq, Repr

/-- The field qualifier of the shift family (R113). -/
inductive Field where
  | dflt
  | hi
  | lo
deriving DecidableEq, Repr

/-- The cross-lane active-lane count `act` (R116). -/
inductive XAct where
  | two
  | four
deriving DecidableEq, Repr

/-- The number of lanes an `XAct` stands for. -/
def XAct.n : XAct → Nat
  | .two => 2
  | .four => 4

/-- The operations of CORE, one constructor for each row of spec/opcode_table.json. `c` is the
descriptor's COND and EOB; an absent destination is NONE (R44, R107, log 24); `k` and `m` name Ik and Mm. -/
inductive Instr where
  | add (c : Ctl) (dst : Option (Fin 32)) (sa : Fin 32) (b : Src)
  | addc (c : Ctl) (dst : Option (Fin 32)) (sa : Fin 32) (b : Src)
  | sub (c : Ctl) (dst : Option (Fin 32)) (sa : Fin 32) (b : Src)
  | subc (c : Ctl) (dst : Option (Fin 32)) (sa : Fin 32) (b : Src)
  | subb (c : Ctl) (dst : Option (Fin 32)) (sa : Fin 32) (b : Src)
  | subbc (c : Ctl) (dst : Option (Fin 32)) (sa : Fin 32) (b : Src)
  | and (c : Ctl) (dst : Option (Fin 32)) (sa : Fin 32) (b : Src)
  | or (c : Ctl) (dst : Option (Fin 32)) (sa : Fin 32) (b : Src)
  | xor (c : Ctl) (dst : Option (Fin 32)) (sa : Fin 32) (b : Src)
  | not (c : Ctl) (dst : Option (Fin 32)) (sa : Fin 32)
  | abs (c : Ctl) (dst : Option (Fin 32)) (sa : Fin 32)
  | inc (c : Ctl) (dst : Option (Fin 32)) (sa : Fin 32)
  | dec (c : Ctl) (dst : Option (Fin 32)) (sa : Fin 32)
  | tstbit (c : Ctl) (dst : Option (Fin 32)) (sa : Fin 32) (b : Src)
  | setbit (c : Ctl) (dst : Option (Fin 32)) (sa : Fin 32) (b : Src)
  | clrbit (c : Ctl) (dst : Option (Fin 32)) (sa : Fin 32) (b : Src)
  | tglbit (c : Ctl) (dst : Option (Fin 32)) (sa : Fin 32) (b : Src)
  | scr (c : Ctl) (dst : Option (Fin 32)) (sa : Fin 32) (b : Src)
  | addA (c : Ctl) (dst : Option (Fin 8)) (sa : Fin 8) (b : AccSrc)
  | subA (c : Ctl) (dst : Option (Fin 8)) (sa : Fin 8) (b : AccSrc)
  | addC (c : Ctl) (dst : Option RPair) (sa sb : RPair)
  | subC (c : Ctl) (dst : Option RPair) (sa sb : RPair)
  | rccwC (c : Ctl) (dst : Option RPair) (sa : RPair) (b : Src)
  | rcwC (c : Ctl) (dst : Option RPair) (sa : RPair) (b : Src)
  | magC (c : Ctl) (dst : Option (Fin 32)) (sa : RPair)
  | rectC (c : Ctl) (dst : Option RPair) (sa sb : Fin 32)
  | mpy (c : Ctl) (dst : Option (Fin 8)) (sa sb : Fin 32) (mode : SignMode) (rnd : Bool)
  | mac (c : Ctl) (dst : Option (Fin 8)) (sa sb : Fin 32) (mode : SignMode) (rnd : Bool)
  | mas (c : Ctl) (dst : Option (Fin 8)) (sa sb : Fin 32) (mode : SignMode) (rnd : Bool)
  | mpyC (c : Ctl) (dst : Option AccPair) (sa sb : RPair) (mode : SignMode) (rnd : Bool)
  | macC (c : Ctl) (dst : Option AccPair) (sa sb : RPair) (mode : SignMode) (rnd : Bool)
  | masC (c : Ctl) (dst : Option AccPair) (sa sb : RPair) (mode : SignMode) (rnd : Bool)
  | mpyRC (c : Ctl) (dst : Option AccPair) (sa : Fin 32) (sb : RPair) (mode : SignMode) (rnd : Bool)
  | macRC (c : Ctl) (dst : Option AccPair) (sa : Fin 32) (sb : RPair) (mode : SignMode) (rnd : Bool)
  | masRC (c : Ctl) (dst : Option AccPair) (sa : Fin 32) (sb : RPair) (mode : SignMode) (rnd : Bool)
  | rndacc (c : Ctl) (dst : Option (Fin 8)) (sa : Fin 8)
  | clracc (c : Ctl) (dst : Option (Fin 8))
  | ashift (c : Ctl) (dst : Option (Fin 8)) (sa : ShiftSrc) (n : Src) (f : Field) (rnd : Bool)
  | lshift (c : Ctl) (dst : Option (Fin 8)) (sa : ShiftSrc) (n : Src) (f : Field) (rnd : Bool)
  | ashiftor (c : Ctl) (dst : Option (Fin 8)) (sa : ShiftSrc) (n : Src) (f : Field) (rnd : Bool)
  | lshiftor (c : Ctl) (dst : Option (Fin 8)) (sa : ShiftSrc) (n : Src) (f : Field) (rnd : Bool)
  | ashiftC (c : Ctl) (dst : Option AccPair) (sa : ShiftPair) (n : AmountPair) (f : Field) (rnd : Bool)
  | lshiftC (c : Ctl) (dst : Option AccPair) (sa : ShiftPair) (n : AmountPair) (f : Field) (rnd : Bool)
  | ldDirect (c : Ctl) (dst : Handle) (addr : Half)
  | ldPost (c : Ctl) (dst : Handle) (k m : Fin 8)
  | stDirect (c : Ctl) (src : Handle) (addr : Half)
  | stPost (c : Ctl) (src : Handle) (k m : Fin 8)
  | lddDirect (c : Ctl) (dst : Option RPair) (addr : Half)
  | lddPost (c : Ctl) (dst : Option RPair) (k m : Fin 8)
  | stdDirect (c : Ctl) (src : RPair) (addr : Half)
  | stdPost (c : Ctl) (src : RPair) (k m : Fin 8)
  | modify (c : Ctl) (k m : Fin 8)
  | mov (c : Ctl) (dst src : Handle)
  | ldi (c : Ctl) (dst : Handle) (v : Half)
  | nop (c : Ctl)
  | xrd (c : Ctl) (dst src : Fin 32) (act : XAct) (off : Fin 4)
  | xwr (c : Ctl) (dst src : Fin 32) (act : XAct) (off : Fin 4)
deriving DecidableEq, Repr

/-- The COND and EOB of an operation. -/
def Instr.ctl : Instr → Ctl
  | .add c _ _ _ => c
  | .addc c _ _ _ => c
  | .sub c _ _ _ => c
  | .subc c _ _ _ => c
  | .subb c _ _ _ => c
  | .subbc c _ _ _ => c
  | .and c _ _ _ => c
  | .or c _ _ _ => c
  | .xor c _ _ _ => c
  | .not c _ _ => c
  | .abs c _ _ => c
  | .inc c _ _ => c
  | .dec c _ _ => c
  | .tstbit c _ _ _ => c
  | .setbit c _ _ _ => c
  | .clrbit c _ _ _ => c
  | .tglbit c _ _ _ => c
  | .scr c _ _ _ => c
  | .addA c _ _ _ => c
  | .subA c _ _ _ => c
  | .addC c _ _ _ => c
  | .subC c _ _ _ => c
  | .rccwC c _ _ _ => c
  | .rcwC c _ _ _ => c
  | .magC c _ _ => c
  | .rectC c _ _ _ => c
  | .mpy c _ _ _ _ _ => c
  | .mac c _ _ _ _ _ => c
  | .mas c _ _ _ _ _ => c
  | .mpyC c _ _ _ _ _ => c
  | .macC c _ _ _ _ _ => c
  | .masC c _ _ _ _ _ => c
  | .mpyRC c _ _ _ _ _ => c
  | .macRC c _ _ _ _ _ => c
  | .masRC c _ _ _ _ _ => c
  | .rndacc c _ _ => c
  | .clracc c _ => c
  | .ashift c _ _ _ _ _ => c
  | .lshift c _ _ _ _ _ => c
  | .ashiftor c _ _ _ _ _ => c
  | .lshiftor c _ _ _ _ _ => c
  | .ashiftC c _ _ _ _ _ => c
  | .lshiftC c _ _ _ _ _ => c
  | .ldDirect c _ _ => c
  | .ldPost c _ _ _ => c
  | .stDirect c _ _ => c
  | .stPost c _ _ _ => c
  | .lddDirect c _ _ => c
  | .lddPost c _ _ _ => c
  | .stdDirect c _ _ => c
  | .stdPost c _ _ _ => c
  | .modify c _ _ => c
  | .mov c _ _ => c
  | .ldi c _ _ => c
  | .nop c => c
  | .xrd c _ _ _ _ => c
  | .xwr c _ _ _ _ => c

end Sys2Proof
end

