-- ==== Sys2Proof/WellFormed.lean ====
section
/-! DEFINITION. The operands an encoding admits (30_encoding.md R115, R116, R118; 46_move_xlane.md
R320 to R322): the checks that `Instr`'s types do not already make. -/

namespace Sys2Proof

/-- An immediate read as `sext_16` lies in a range of R115. -/
def immWithin (lo hi : Int) (v : Half) : Bool := decide (lo ≤ v.toInt) && decide (v.toInt ≤ hi)

/-- An ALU immediate: -2048..2047 (R115). -/
def Src.wfAlu : Src → Bool
  | .reg _ => true
  | .imm v => immWithin (-2048) 2047 v

/-- A bit index: 0..11 (R115). -/
def Src.wfBit : Src → Bool
  | .reg _ => true
  | .imm v => decide (v.toNat ≤ 11)

/-- A rotation count: 0..3 (R115). -/
def Src.wfRotate : Src → Bool
  | .reg _ => true
  | .imm v => decide (v.toNat ≤ 3)

/-- A shift amount: -32..32 (R115). -/
def Src.wfShift : Src → Bool
  | .reg _ => true
  | .imm v => immWithin (-32) 32 v

/-- The real amount of a complex shift immediate, `sext_8(IMM[7:0])` (R115). -/
def immReal (v : Half) : Int := (v.extractLsb' 0 8).toInt

/-- The imaginary amount of a complex shift immediate, `sext_8(IMM[15:8])` (R115). -/
def immImag (v : Half) : Int := (v.extractLsb' 8 8).toInt

/-- One amount of a complex shift immediate: -32..32 (R115). -/
def amountWithin (n : Int) : Bool := decide (-32 ≤ n) && decide (n ≤ 32)

/-- Complex shift amounts: each -32..32 (R115). -/
def AmountPair.wf : AmountPair → Bool
  | .regs _ => true
  | .imm v => amountWithin (immReal v) && amountWithin (immImag v)

/-- A source handle is readable: not NONE (R107). -/
def Handle.readable (h : Handle) : Bool := h != .noReg

/-- A register lies in the cross-lane window `REG_X_LO..REG_X_HI` (R320). -/
def Params.inWindow (p : Params) (k : Fin 32) : Bool :=
  decide (p.regXLo.val ≤ k.val) && decide (k.val ≤ p.regXHi.val)

/-- `act ≤ N` and `off < N` (R321, R322). -/
def Params.xlaneFits (p : Params) (act : XAct) (off : Fin 4) : Bool :=
  decide (act.n ≤ p.lanes.n) && decide (off.val < p.lanes.n)

/-- The operands of an operation are ones a legal descriptor can carry (R119), under the parameters `p`. -/
def Instr.wellFormed (p : Params) : Instr → Bool
  | .add _ _ _ b | .addc _ _ _ b | .sub _ _ _ b | .subc _ _ _ b | .subb _ _ _ b | .subbc _ _ _ b
  | .and _ _ _ b | .or _ _ _ b | .xor _ _ _ b | .scr _ _ _ b => b.wfAlu
  | .not _ _ _ | .abs _ _ _ | .inc _ _ _ | .dec _ _ _ => true
  | .tstbit _ _ _ b | .setbit _ _ _ b | .clrbit _ _ _ b | .tglbit _ _ _ b => b.wfBit
  | .addA _ _ _ _ | .subA _ _ _ _ => true
  | .addC _ _ _ _ | .subC _ _ _ _ => true
  | .rccwC _ _ _ b | .rcwC _ _ _ b => b.wfRotate
  | .magC _ _ _ | .rectC _ _ _ _ => true
  | .mpy _ _ _ _ _ _ | .mac _ _ _ _ _ _ | .mas _ _ _ _ _ _ => true
  | .mpyC _ _ _ _ _ _ | .macC _ _ _ _ _ _ | .masC _ _ _ _ _ _ => true
  | .mpyRC _ _ _ _ _ _ | .macRC _ _ _ _ _ _ | .masRC _ _ _ _ _ _ => true
  | .rndacc _ _ _ | .clracc _ _ => true
  | .ashift _ _ _ n _ _ | .lshift _ _ _ n _ _ | .ashiftor _ _ _ n _ _ | .lshiftor _ _ _ n _ _ => n.wfShift
  | .ashiftC _ _ _ n _ _ | .lshiftC _ _ _ n _ _ => n.wf
  | .ldDirect _ _ _ | .ldPost _ _ _ _ => true
  | .stDirect _ h _ | .stPost _ h _ _ => h.readable
  | .lddDirect _ _ _ | .lddPost _ _ _ _ | .stdDirect _ _ _ | .stdPost _ _ _ _ => true
  | .modify _ _ _ => true
  | .mov _ _ h => h.readable
  | .ldi _ _ _ => true
  | .nop _ => true
  | .xrd _ d h act off | .xwr _ d h act off => p.inWindow d && p.inWindow h && p.xlaneFits act off

end Sys2Proof
end

