-- ==== Sys2Proof/Decode.lean ====
section
/-! DEFINITION. The descriptor word (30_encoding.md): its fields, the register handles, the decoder
(total, every other word an error, in the order of R120) and the encoder. -/

namespace Sys2Proof

/-! ## Errors (60_exceptions.md R332, R333) -/

/-- The error codes a fault record can hold (R333, R335). -/
inductive ErrCode where
  | eReg
  | eAddr
  | eUnaligned
  | eCombo
  | fUninit
  | fUndef
deriving DecidableEq, Repr

/-- The code number of R333 and R335. -/
def ErrCode.number : ErrCode → Nat
  | .eReg => 1
  | .eAddr => 2
  | .eUnaligned => 3
  | .eCombo => 4
  | .fUninit => 5
  | .fUndef => 6

/-- The information an error carries: the register handle, the address or the value named in the rule
that raised it, or nothing where the rule names none, but for F_UNDEF and F_UNINIT (R332, logs 9 and 29). -/
inductive ErrInfo where
  | handle (h : BitVec 7)
  | addr (a : Nat)
  | value (v : Int)
  | empty
deriving DecidableEq, Repr

/-- An error as it is raised; the slot, site and cycle are added by the machine (R332). -/
structure CoreErr where
  code : ErrCode
  info : ErrInfo
deriving DecidableEq, Repr

/-- `E_COMBO` with nothing named. -/
def eCombo : CoreErr := ⟨.eCombo, .empty⟩

/-- `E_REG` for a register handle. -/
def eRegHandle (h : BitVec 7) : CoreErr := ⟨.eReg, .handle h⟩

/-- `E_REG` for a value out of range. -/
def eRegValue (v : Int) : CoreErr := ⟨.eReg, .value v⟩

/-! ## The fields of a descriptor (R101) -/

/-- The fields of a descriptor word, in the order of R101. -/
structure Fields where
  opc : BitVec 8
  typ : BitVec 3
  cond : BitVec 5
  eob : Bool
  dst : BitVec 7
  sa : BitVec 7
  sb : BitVec 7
  mod : BitVec 2
  rnd : Bool
  immb : Bool
  xact : BitVec 2
  zero : BitVec 4
  imm : Half
deriving DecidableEq, Repr

/-- The word with the given fields (R101). -/
def Fields.pack (f : Fields) : Descr :=
  f.opc ++ f.typ ++ f.cond ++ BitVec.ofBool f.eob ++ f.dst ++ f.sa ++ f.sb ++ f.mod
    ++ BitVec.ofBool f.rnd ++ BitVec.ofBool f.immb ++ f.xact ++ f.zero ++ f.imm

/-- The fields of a word (R101). -/
def Fields.unpack (d : Descr) : Fields :=
  { opc := d.extractLsb' 56 8, typ := d.extractLsb' 53 3, cond := d.extractLsb' 48 5,
    eob := d.getLsbD 47, dst := d.extractLsb' 40 7, sa := d.extractLsb' 33 7,
    sb := d.extractLsb' 26 7, mod := d.extractLsb' 24 2, rnd := d.getLsbD 23,
    immb := d.getLsbD 22, xact := d.extractLsb' 20 2, zero := d.extractLsb' 16 4,
    imm := d.extractLsb' 0 16 }

/-! ## Conditions and handles (R104, R112) -/

/-- The number of a condition code (R112). -/
def Cond.code : Cond → BitVec 5
  | .eq => 0#5
  | .ne => 1#5
  | .gt => 2#5
  | .le => 3#5
  | .lt => 4#5
  | .ge => 5#5
  | .av => 6#5
  | .notAv => 7#5
  | .ac => 8#5
  | .notAc => 9#5
  | .sv => 10#5
  | .notSv => 11#5
  | .mv => 12#5
  | .notMv => 13#5
  | .notCe => 14#5
  | .true => 15#5
  | .eqC => 16#5
  | .neC => 17#5
  | .gtC => 18#5
  | .leC => 19#5
  | .ltC => 20#5
  | .geC => 21#5
  | .avC => 22#5
  | .notAvC => 23#5
  | .acC => 24#5
  | .notAcC => 25#5
  | .svC => 26#5
  | .notSvC => 27#5
  | .mvC => 28#5
  | .notMvC => 29#5
  | .umC => 30#5
  | .notUmC => 31#5

/-- The condition code of a number (R112). -/
def Cond.ofCode (n : BitVec 5) : Cond :=
  match n.toNat with
  | 0 => .eq
  | 1 => .ne
  | 2 => .gt
  | 3 => .le
  | 4 => .lt
  | 5 => .ge
  | 6 => .av
  | 7 => .notAv
  | 8 => .ac
  | 9 => .notAc
  | 10 => .sv
  | 11 => .notSv
  | 12 => .mv
  | 13 => .notMv
  | 14 => .notCe
  | 15 => .true
  | 16 => .eqC
  | 17 => .neC
  | 18 => .gtC
  | 19 => .leC
  | 20 => .ltC
  | 21 => .geC
  | 22 => .avC
  | 23 => .notAvC
  | 24 => .acC
  | 25 => .notAcC
  | 26 => .svC
  | 27 => .notSvC
  | 28 => .mvC
  | 29 => .notMvC
  | 30 => .umC
  | _ => .notUmC

/-- The number of a handle (R104). -/
def Handle.code : Handle → BitVec 7
  | .r k => BitVec.ofNat 7 k.val
  | .acc n => BitVec.ofNat 7 (32 + n.val)
  | .accH n => BitVec.ofNat 7 (40 + n.val)
  | .accM n => BitVec.ofNat 7 (48 + n.val)
  | .accL n => BitVec.ofNat 7 (56 + n.val)
  | .i k => BitVec.ofNat 7 (64 + k.val)
  | .m k => BitVec.ofNat 7 (72 + k.val)
  | .l k => BitVec.ofNat 7 (80 + k.val)
  | .b k => BitVec.ofNat 7 (88 + k.val)
  | .cntr => 96#7
  | .lpever => 97#7
  | .pcstack => 98#7
  | .lpstack => 99#7
  | .mstat => 100#7
  | .sstat => 101#7
  | .icntl => 102#7
  | .imask => 103#7
  | .irptl => 104#7
  | .ivec k => BitVec.ofNat 7 (105 + k.val)
  | .dstat0 => 109#7
  | .dstat1 => 110#7
  | .did => 111#7
  | .umcount => 112#7
  | .astat .re => 113#7
  | .astat .im => 114#7
  | .astat .cx => 115#7
  | .noReg => 127#7

/-- `n - lo` as one of eight, when `n` is one of the eight numbers from `lo` on. -/
def eightFrom (lo n : Nat) : Option (Fin 8) :=
  if h : lo ≤ n ∧ n < lo + 8 then some ⟨n - lo, by omega⟩ else none

/-- The registers with a number of their own, 96 to 127 (R104). -/
def Handle.ofHigh : Nat → Option Handle
  | 96 => some .cntr
  | 97 => some .lpever
  | 98 => some .pcstack
  | 99 => some .lpstack
  | 100 => some .mstat
  | 101 => some .sstat
  | 102 => some .icntl
  | 103 => some .imask
  | 104 => some .irptl
  | 105 => some (.ivec 0)
  | 106 => some (.ivec 1)
  | 107 => some (.ivec 2)
  | 108 => some (.ivec 3)
  | 109 => some .dstat0
  | 110 => some .dstat1
  | 111 => some .did
  | 112 => some .umcount
  | 113 => some (.astat .re)
  | 114 => some (.astat .im)
  | 115 => some (.astat .cx)
  | 127 => some .noReg
  | _ => none

/-- The register a handle number names; none for the reserved numbers 116 to 126 (R104, R106). -/
def Handle.ofCode (h : BitVec 7) : Option Handle :=
  let n := h.toNat
  if hr : n < 32 then some (.r ⟨n, hr⟩)
  else if n < 64 then
    (Handle.acc <$> eightFrom 32 n) <|> (Handle.accH <$> eightFrom 40 n)
      <|> (Handle.accM <$> eightFrom 48 n) <|> (Handle.accL <$> eightFrom 56 n)
  else if n < 96 then
    (Handle.i <$> eightFrom 64 n) <|> (Handle.m <$> eightFrom 72 n)
      <|> (Handle.l <$> eightFrom 80 n) <|> (Handle.b <$> eightFrom 88 n)
  else Handle.ofHigh n

/-- NONE, the required filler of a handle field that is not used (R107, R117). -/
def noneCode : BitVec 7 := 127#7

/-! ## The checks of R120, in its order -/

/-- Go on only if `b` holds. -/
def need (b : Bool) (e : CoreErr) : Except CoreErr Unit := if b then .ok () else .error e

/-- A reserved handle number, 116 to 126 (R104). -/
def reservedHandle (h : BitVec 7) : Bool := decide (116 ≤ h.toNat) && decide (h.toNat ≤ 126)

/-- Check (2) of R120: no reserved handle in a field the operation uses. R120 orders the kinds of error and not
the fields: where several used handles are reserved, E_REG records the first one of the list, in the order DST,
SA, SB (DESIGN CHOICE, log 31). -/
def noReserved : List (BitVec 7) → Except CoreErr Unit
  | [] => .ok ()
  | h :: hs => if reservedHandle h then .error (eRegHandle h) else noReserved hs

/-- Check (3) of R120: an R handle. -/
def asR (h : BitVec 7) : Except CoreErr (Fin 32) :=
  if hr : h.toNat < 32 then .ok ⟨h.toNat, hr⟩ else .error (eRegHandle h)

/-- Check (3): an accumulator handle. -/
def asAcc (h : BitVec 7) : Except CoreErr (Fin 8) :=
  match eightFrom 32 h.toNat with
  | some n => .ok n
  | none => .error (eRegHandle h)

/-- Check (3): an R pair, named by its even handle (R108). -/
def asRPair (h : BitVec 7) : Except CoreErr RPair :=
  if hr : h.toNat < 32 ∧ h.toNat % 2 = 0 then .ok ⟨h.toNat / 2, by omega⟩ else .error (eRegHandle h)

/-- Check (3): an accumulator pair, named by its even handle (R108). -/
def asAccPair (h : BitVec 7) : Except CoreErr AccPair :=
  if hr : 32 ≤ h.toNat ∧ h.toNat < 40 ∧ h.toNat % 2 = 0 then .ok ⟨(h.toNat - 32) / 2, by omega⟩
  else .error (eRegHandle h)

/-- Check (3) for a destination: NONE, which is always legal there (R44, R107, log 24), or what another
check admits. -/
def orNone {α : Type} (as : BitVec 7 → Except CoreErr α) (h : BitVec 7) : Except CoreErr (Option α) :=
  if h = noneCode then .ok none else some <$> as h

/-- Check (3): any writable handle, NONE among them (R118). -/
def asWritable (h : BitVec 7) : Except CoreErr Handle :=
  match Handle.ofCode h with
  | some x => .ok x
  | none => .error (eRegHandle h)

/-- Check (3): any readable handle, which NONE is not (R107, R118). -/
def asReadable (h : BitVec 7) : Except CoreErr Handle :=
  match Handle.ofCode h with
  | some x => if x.readable then .ok x else .error (eRegHandle h)
  | none => .error (eRegHandle h)

/-- Check (3): an R handle in the cross-lane window (R320). -/
def asWindow (p : Params) (h : BitVec 7) : Except CoreErr (Fin 32) := do
  let k ← asR h
  need (p.inWindow k) (eRegHandle h)
  pure k

/-- Check (3) for SB: an R handle when IMMB = 0, the immediate when IMMB = 1 (R115, R118). -/
def asSrc (f : Fields) : Except CoreErr Src :=
  if f.immb then .ok (.imm f.imm) else Src.reg <$> asR f.sb

/-- Check (3) for SB of ADD.A and SUB.A (R203). -/
def asAccSrc (f : Fields) : Except CoreErr AccSrc :=
  if f.immb then .ok (.imm f.imm)
  else if f.sb.toNat < 32 then AccSrc.reg <$> asR f.sb else AccSrc.acc <$> asAcc f.sb

/-- Check (3) for SA of a real shift (R118). -/
def asShiftSrc (h : BitVec 7) : Except CoreErr ShiftSrc :=
  if h.toNat < 32 then ShiftSrc.reg <$> asR h else ShiftSrc.acc <$> asAcc h

/-- Check (3) for SA of a complex shift (R118). -/
def asShiftPair (h : BitVec 7) : Except CoreErr ShiftPair :=
  if h.toNat < 32 then ShiftPair.regs <$> asRPair h else ShiftPair.accs <$> asAccPair h

/-- Check (3) for SB of a complex shift (R118). -/
def asAmountPair (f : Fields) : Except CoreErr AmountPair :=
  if f.immb then .ok (.imm f.imm) else AmountPair.regs <$> asRPair f.sb

/-- SB is a field in use only when IMMB = 0 (R118). -/
def Fields.usedSb (f : Fields) : List (BitVec 7) := if f.immb then [] else [f.sb]

/-- The fields besides handles that a form gives a meaning to; the others are fillers (R117). -/
structure Meaningful where
  mod : Bool := false
  rnd : Bool := false
  immb : Bool := false
  xact : Bool := false
  imm : Bool := false

/-- Check (4) of R120: bits 19:16, every field without a meaning and every unused handle field hold
their filler (R117). -/
def fillers (f : Fields) (u : Meaningful) (unused : List (BitVec 7)) : Except CoreErr Unit :=
  need (f.zero == 0#4 && (u.mod || f.mod == 0#2) && (u.rnd || !f.rnd) && (u.immb || !f.immb)
    && (u.xact || f.xact == 0#2) && (u.imm || f.imm == 0#16) && unused.all (· == noneCode)) eCombo

/-- The fillers of a form whose second operand is SB or IMM: IMM must be 0 when IMMB = 0, SB must be
NONE when IMMB = 1. -/
def fillersSrc (f : Fields) (u : Meaningful) : Except CoreErr Unit :=
  fillers f { u with immb := true, imm := f.immb } (if f.immb then [f.sb] else [])

/-- Check (4): the shift field of MOD, 3 being reserved (R113). -/
def asField (m : BitVec 2) : Except CoreErr Field :=
  match m.toNat with
  | 0 => .ok .dflt
  | 1 => .ok .hi
  | 2 => .ok .lo
  | _ => .error eCombo

/-- The sign mode of MOD (R113). -/
def SignMode.ofMod (m : BitVec 2) : SignMode :=
  match m.toNat with
  | 0 => .ss
  | 1 => .su
  | 2 => .us
  | _ => .uu

/-- Check (4): the active-lane count of XACT, 0 and 3 being reserved (R116). -/
def asXAct (x : BitVec 2) : Except CoreErr XAct :=
  match x.toNat with
  | 1 => .ok .two
  | 2 => .ok .four
  | _ => .error eCombo

/-- Check (5) of R120: the immediate of a second operand is in the range `wf` says; `val` is the
number the immediate stands for. -/
def srcRange (wf : Src → Bool) (val : Half → Int) (b : Src) : Except CoreErr Unit :=
  match b with
  | .reg _ => .ok ()
  | .imm v => need (wf b) (eRegValue (val v))

/-- Check (5) for the immediate amounts of a complex shift (R115). DESIGN CHOICE: where both are out of range
`E_REG` records the real one (log 31). -/
def amountRange (n : AmountPair) : Except CoreErr Unit :=
  match n with
  | .regs _ => .ok ()
  | .imm v => do
    need (amountWithin (immReal v)) (eRegValue (immReal v))
    need (amountWithin (immImag v)) (eRegValue (immImag v))

/-- `sext_16(IMM)` (R115). -/
def immSigned (v : Half) : Int := v.toInt

/-- `zext_16(IMM)` (R115). -/
def immUnsigned (v : Half) : Int := v.toNat

/-- IMM[2:0], the number k of Ik (R115). -/
def immK (v : Half) : Fin 8 := (v.extractLsb' 0 3).toFin

/-- IMM[5:3], the number m of Mm (R115). -/
def immM (v : Half) : Fin 8 := (v.extractLsb' 3 3).toFin

/-- Check (4) for a post-modify IMM: IMM[15:6] must be 0 (R115, R117, log 17). -/
def postImm (v : Half) : Except CoreErr Unit := need (v.extractLsb' 6 10 == 0#10) eCombo

/-- IMM[1:0], the lane offset of XRD and XWR (R115). -/
def immOff (v : Half) : Fin 4 := (v.extractLsb' 0 2).toFin

/-- Check (4) for a cross-lane IMM: IMM[15:2] must be 0 (R115, R117, log 17). -/
def offImm (v : Half) : Except CoreErr Unit := need (v.extractLsb' 2 14 == 0#14) eCombo

/-! ## The operand forms (R118)

Every destination that R118 gives a register class also admits NONE (R44, R107, log 24), but for the
cross-lane ones (R320). Where several used handles are out of class, the first one in the order DST, SA, SB is
recorded (DESIGN CHOICE, log 31). -/

/-- ALU binary and bit forms: DST R, SA R, SB R or IMM. -/
def parseBinary (wf : Src → Bool) (val : Half → Int) (f : Fields) :
    Except CoreErr (Option (Fin 32) × Fin 32 × Src) := do
  noReserved (f.dst :: f.sa :: f.usedSb)
  let d ← orNone asR f.dst
  let a ← asR f.sa
  let b ← asSrc f
  fillersSrc f {}
  srcRange wf val b
  pure (d, a, b)

/-- ALU unary: DST R, SA R. -/
def parseUnary (f : Fields) : Except CoreErr (Option (Fin 32) × Fin 32) := do
  noReserved [f.dst, f.sa]
  let d ← orNone asR f.dst
  let a ← asR f.sa
  fillers f {} [f.sb]
  pure (d, a)

/-- ADD.A and SUB.A: DST ACC, SA ACC, SB ACC, R or IMM (any value, R115). -/
def parseAccBinary (f : Fields) : Except CoreErr (Option (Fin 8) × Fin 8 × AccSrc) := do
  noReserved (f.dst :: f.sa :: f.usedSb)
  let d ← orNone asAcc f.dst
  let a ← asAcc f.sa
  let b ← asAccSrc f
  fillersSrc f {}
  pure (d, a, b)

/-- ADD.C and SUB.C: three R pairs. They have no immediate form: SB is used whatever IMMB is, so that a bad SB is
E_REG before IMMB = 1 is E_COMBO (DESIGN CHOICE, log 31). -/
def parsePairs (f : Fields) : Except CoreErr (Option RPair × RPair × RPair) := do
  noReserved [f.dst, f.sa, f.sb]
  let d ← orNone asRPair f.dst
  let a ← asRPair f.sa
  let b ← asRPair f.sb
  fillers f {} []
  pure (d, a, b)

/-- RCCW.C and RCW.C: DST and SA R pairs, SB R or IMM. -/
def parseRotate (f : Fields) : Except CoreErr (Option RPair × RPair × Src) := do
  noReserved (f.dst :: f.sa :: f.usedSb)
  let d ← orNone asRPair f.dst
  let a ← asRPair f.sa
  let b ← asSrc f
  fillersSrc f {}
  srcRange Src.wfRotate immUnsigned b
  pure (d, a, b)

/-- MAG.C: DST R, SA R pair. -/
def parseMag (f : Fields) : Except CoreErr (Option (Fin 32) × RPair) := do
  noReserved [f.dst, f.sa]
  let d ← orNone asR f.dst
  let a ← asRPair f.sa
  fillers f {} [f.sb]
  pure (d, a)

/-- RECT.C: DST R pair, SA R, SB R, with SB used whatever IMMB is (DESIGN CHOICE, log 31). -/
def parseRect (f : Fields) : Except CoreErr (Option RPair × Fin 32 × Fin 32) := do
  noReserved [f.dst, f.sa, f.sb]
  let d ← orNone asRPair f.dst
  let a ← asR f.sa
  let b ← asR f.sb
  fillers f {} []
  pure (d, a, b)

/-- The MAC forms: DST as `asD` or NONE, SA as `asA`, SB as `asB`, MOD and RND in use. SB is used whatever IMMB is
(DESIGN CHOICE, log 31). -/
def parseMac {δ α β : Type} (asD : BitVec 7 → Except CoreErr δ) (asA : BitVec 7 → Except CoreErr α)
    (asB : BitVec 7 → Except CoreErr β) (f : Fields) :
    Except CoreErr (Option δ × α × β × SignMode × Bool) := do
  noReserved [f.dst, f.sa, f.sb]
  let d ← orNone asD f.dst
  let a ← asA f.sa
  let b ← asB f.sb
  fillers f { mod := true, rnd := true } []
  pure (d, a, b, SignMode.ofMod f.mod, f.rnd)

/-- RNDACC: DST ACC, SA ACC. -/
def parseRndacc (f : Fields) : Except CoreErr (Option (Fin 8) × Fin 8) := do
  noReserved [f.dst, f.sa]
  let d ← orNone asAcc f.dst
  let a ← asAcc f.sa
  fillers f {} [f.sb]
  pure (d, a)

/-- CLRACC: DST ACC. -/
def parseClracc (f : Fields) : Except CoreErr (Option (Fin 8)) := do
  noReserved [f.dst]
  let d ← orNone asAcc f.dst
  fillers f {} [f.sa, f.sb]
  pure d

/-- The real shifts: DST ACC, SA R or ACC, SB R or IMM, MOD and RND in use. -/
def parseShift (f : Fields) : Except CoreErr (Option (Fin 8) × ShiftSrc × Src × Field × Bool) := do
  noReserved (f.dst :: f.sa :: f.usedSb)
  let d ← orNone asAcc f.dst
  let a ← asShiftSrc f.sa
  let n ← asSrc f
  fillersSrc f { mod := true, rnd := true }
  let fl ← asField f.mod
  srcRange Src.wfShift immSigned n
  pure (d, a, n, fl, f.rnd)

/-- The complex shifts: DST ACC pair, SA R pair or ACC pair, SB R pair or IMM. -/
def parseShiftC (f : Fields) : Except CoreErr (Option AccPair × ShiftPair × AmountPair × Field × Bool) := do
  noReserved (f.dst :: f.sa :: f.usedSb)
  let d ← orNone asAccPair f.dst
  let a ← asShiftPair f.sa
  let n ← asAmountPair f
  fillersSrc f { mod := true, rnd := true }
  let fl ← asField f.mod
  amountRange n
  pure (d, a, n, fl, f.rnd)

/-- The loads: DST as `asD`; the address in IMM, direct or post-modify. -/
def parseLoad {δ : Type} (asD : BitVec 7 → Except CoreErr δ) (f : Fields) : Except CoreErr δ := do
  noReserved [f.dst]
  let d ← asD f.dst
  fillers f { immb := true, imm := true } [f.sa, f.sb]
  if f.immb then pure () else postImm f.imm
  pure d

/-- The stores: SA as `asS`; the address in IMM, direct or post-modify. -/
def parseStore {σ : Type} (asS : BitVec 7 → Except CoreErr σ) (f : Fields) : Except CoreErr σ := do
  noReserved [f.sa]
  let a ← asS f.sa
  fillers f { immb := true, imm := true } [f.dst, f.sb]
  if f.immb then pure () else postImm f.imm
  pure a

/-- MODIFY: no handle, IMM names Ik and Mm. -/
def parseModify (f : Fields) : Except CoreErr Unit := do
  fillers f { imm := true } [f.dst, f.sa, f.sb]
  postImm f.imm

/-- MOV: DST writable, SA readable. -/
def parseMov (f : Fields) : Except CoreErr (Handle × Handle) := do
  noReserved [f.dst, f.sa]
  let d ← asWritable f.dst
  let a ← asReadable f.sa
  fillers f {} [f.sb]
  pure (d, a)

/-- LDI: DST writable, IMMB must be 1 (R115). -/
def parseLdi (f : Fields) : Except CoreErr Handle := do
  noReserved [f.dst]
  let d ← asWritable f.dst
  fillers f { immb := true, imm := true } [f.sa, f.sb]
  need f.immb eCombo
  pure d

/-- XRD and XWR: DST and SA in the window, XACT 1 or 2, IMM[1:0] the offset (R115, R116, R320), then
`act ≤ N` and `off < N`, raised at decode whatever the predicate (R321, log 18). Where DST and SA are both bad,
the handle of DST is recorded (DESIGN CHOICE, log 31). -/
def parseXlane (p : Params) (f : Fields) : Except CoreErr (Fin 32 × Fin 32 × XAct × Fin 4) := do
  noReserved [f.dst, f.sa]
  let d ← asWindow p f.dst
  let a ← asWindow p f.sa
  fillers f { xact := true, imm := true } [f.sb]
  offImm f.imm
  let act ← asXAct f.xact
  need (p.xlaneFits act (immOff f.imm)) eCombo
  pure (d, a, act, immOff f.imm)

/-! ## The decoder (R110, R111, R119, R120) -/

/-- The operations of TYPE 0 (R109, R110). -/
def decodeAlu (c : Ctl) (f : Fields) : Except CoreErr Instr :=
  match f.opc.toNat with
  | 0x01 => (fun (d, a, b) => .add c d a b) <$> parseBinary Src.wfAlu immSigned f
  | 0x02 => (fun (d, a, b) => .addc c d a b) <$> parseBinary Src.wfAlu immSigned f
  | 0x03 => (fun (d, a, b) => .sub c d a b) <$> parseBinary Src.wfAlu immSigned f
  | 0x04 => (fun (d, a, b) => .subc c d a b) <$> parseBinary Src.wfAlu immSigned f
  | 0x05 => (fun (d, a, b) => .subb c d a b) <$> parseBinary Src.wfAlu immSigned f
  | 0x06 => (fun (d, a, b) => .subbc c d a b) <$> parseBinary Src.wfAlu immSigned f
  | 0x07 => (fun (d, a, b) => .and c d a b) <$> parseBinary Src.wfAlu immSigned f
  | 0x08 => (fun (d, a, b) => .or c d a b) <$> parseBinary Src.wfAlu immSigned f
  | 0x09 => (fun (d, a, b) => .xor c d a b) <$> parseBinary Src.wfAlu immSigned f
  | 0x0A => (fun (d, a) => .not c d a) <$> parseUnary f
  | 0x0B => (fun (d, a) => .abs c d a) <$> parseUnary f
  | 0x0C => (fun (d, a) => .inc c d a) <$> parseUnary f
  | 0x0D => (fun (d, a) => .dec c d a) <$> parseUnary f
  | 0x0E => (fun (d, a, b) => .tstbit c d a b) <$> parseBinary Src.wfBit immUnsigned f
  | 0x0F => (fun (d, a, b) => .setbit c d a b) <$> parseBinary Src.wfBit immUnsigned f
  | 0x10 => (fun (d, a, b) => .clrbit c d a b) <$> parseBinary Src.wfBit immUnsigned f
  | 0x11 => (fun (d, a, b) => .tglbit c d a b) <$> parseBinary Src.wfBit immUnsigned f
  | 0x12 => (fun (d, a, b) => .scr c d a b) <$> parseBinary Src.wfAlu immSigned f
  | 0x18 => (fun (d, a, b) => .addC c d a b) <$> parsePairs f
  | 0x19 => (fun (d, a, b) => .subC c d a b) <$> parsePairs f
  | 0x1A => (fun (d, a, b) => .rccwC c d a b) <$> parseRotate f
  | 0x1B => (fun (d, a, b) => .rcwC c d a b) <$> parseRotate f
  | 0x1C => (fun (d, a) => .magC c d a) <$> parseMag f
  | 0x1D => (fun (d, a, b) => .rectC c d a b) <$> parseRect f
  | _ => .error eCombo

/-- The operations of TYPE 1. -/
def decodeAluAcc (c : Ctl) (f : Fields) : Except CoreErr Instr :=
  match f.opc.toNat with
  | 0x01 => (fun (d, a, b) => .addA c d a b) <$> parseAccBinary f
  | 0x03 => (fun (d, a, b) => .subA c d a b) <$> parseAccBinary f
  | _ => .error eCombo

/-- The operations of TYPE 2. -/
def decodeShift (c : Ctl) (f : Fields) : Except CoreErr Instr :=
  match f.opc.toNat with
  | 0x30 => (fun (d, a, n, fl, r) => .ashift c d a n fl r) <$> parseShift f
  | 0x31 => (fun (d, a, n, fl, r) => .lshift c d a n fl r) <$> parseShift f
  | 0x32 => (fun (d, a, n, fl, r) => .ashiftor c d a n fl r) <$> parseShift f
  | 0x33 => (fun (d, a, n, fl, r) => .lshiftor c d a n fl r) <$> parseShift f
  | 0x34 => (fun (d, a, n, fl, r) => .ashiftC c d a n fl r) <$> parseShiftC f
  | 0x35 => (fun (d, a, n, fl, r) => .lshiftC c d a n fl r) <$> parseShiftC f
  | _ => .error eCombo

/-- The operations of TYPE 3. -/
def decodeMac (c : Ctl) (f : Fields) : Except CoreErr Instr :=
  match f.opc.toNat with
  | 0x20 => (fun (d, a, b, m, r) => .mpy c d a b m r) <$> parseMac asAcc asR asR f
  | 0x21 => (fun (d, a, b, m, r) => .mac c d a b m r) <$> parseMac asAcc asR asR f
  | 0x22 => (fun (d, a, b, m, r) => .mas c d a b m r) <$> parseMac asAcc asR asR f
  | 0x23 => (fun (d, a, b, m, r) => .mpyC c d a b m r) <$> parseMac asAccPair asRPair asRPair f
  | 0x24 => (fun (d, a, b, m, r) => .macC c d a b m r) <$> parseMac asAccPair asRPair asRPair f
  | 0x25 => (fun (d, a, b, m, r) => .masC c d a b m r) <$> parseMac asAccPair asRPair asRPair f
  | 0x26 => (fun (d, a, b, m, r) => .mpyRC c d a b m r) <$> parseMac asAccPair asR asRPair f
  | 0x27 => (fun (d, a, b, m, r) => .macRC c d a b m r) <$> parseMac asAccPair asR asRPair f
  | 0x28 => (fun (d, a, b, m, r) => .masRC c d a b m r) <$> parseMac asAccPair asR asRPair f
  | 0x29 => (fun (d, a) => .rndacc c d a) <$> parseRndacc f
  | 0x2A => (fun d => .clracc c d) <$> parseClracc f
  | _ => .error eCombo

/-- The operations of TYPE 4. -/
def decodeMem (c : Ctl) (f : Fields) : Except CoreErr Instr :=
  match f.opc.toNat with
  | 0x40 => (fun d => if f.immb then .ldDirect c d f.imm else .ldPost c d (immK f.imm) (immM f.imm)) <$>
      parseLoad asWritable f
  | 0x41 => (fun a => if f.immb then .stDirect c a f.imm else .stPost c a (immK f.imm) (immM f.imm)) <$>
      parseStore asReadable f
  | 0x42 => (fun d => if f.immb then .lddDirect c d f.imm else .lddPost c d (immK f.imm) (immM f.imm)) <$>
      parseLoad (orNone asRPair) f
  | 0x43 => (fun a => if f.immb then .stdDirect c a f.imm else .stdPost c a (immK f.imm) (immM f.imm)) <$>
      parseStore asRPair f
  | 0x44 => (fun _ => .modify c (immK f.imm) (immM f.imm)) <$> parseModify f
  | _ => .error eCombo

/-- The operations of TYPE 5. -/
def decodeMove (c : Ctl) (f : Fields) : Except CoreErr Instr :=
  match f.opc.toNat with
  | 0x50 => (fun (d, a) => .mov c d a) <$> parseMov f
  | 0x51 => (fun d => .ldi c d f.imm) <$> parseLdi f
  | 0x52 => (fun _ => .nop c) <$> fillers f {} [f.dst, f.sa, f.sb]
  | _ => .error eCombo

/-- The operations of TYPE 6. -/
def decodeXlane (p : Params) (c : Ctl) (f : Fields) : Except CoreErr Instr :=
  match f.opc.toNat with
  | 0x60 => (fun (d, a, act, off) => .xrd c d a act off) <$> parseXlane p f
  | 0x61 => (fun (d, a, act, off) => .xwr c d a act off) <$> parseXlane p f
  | _ => .error eCombo

/-- The operation of a descriptor's fields: TYPE selects the family, OPC the operation; every other pair
is check (1) of R120 (R111). -/
def decodeFields (p : Params) (f : Fields) : Except CoreErr Instr :=
  match f.typ.toNat with
  | 0 => decodeAlu ⟨Cond.ofCode f.cond, f.eob⟩ f
  | 1 => decodeAluAcc ⟨Cond.ofCode f.cond, f.eob⟩ f
  | 2 => decodeShift ⟨Cond.ofCode f.cond, f.eob⟩ f
  | 3 => decodeMac ⟨Cond.ofCode f.cond, f.eob⟩ f
  | 4 => decodeMem ⟨Cond.ofCode f.cond, f.eob⟩ f
  | 5 => decodeMove ⟨Cond.ofCode f.cond, f.eob⟩ f
  | 6 => decodeXlane p ⟨Cond.ofCode f.cond, f.eob⟩ f
  | _ => .error eCombo

/-- The operation of a descriptor word, or the error of R120. -/
def decode (p : Params) (d : Descr) : Except CoreErr Instr := decodeFields p (Fields.unpack d)

/-! ## The encoder (R101 to R118) -/

/-- The fields of an operation before its operands are filled in: every handle NONE, all else 0 (R117). -/
def blankFields (opc : BitVec 8) (typ : BitVec 3) (c : Ctl) : Fields :=
  { opc := opc, typ := typ, cond := c.cond.code, eob := c.eob, dst := noneCode, sa := noneCode,
    sb := noneCode, mod := 0#2, rnd := false, immb := false, xact := 0#2, zero := 0#4, imm := 0#16 }

/-- The handle of an R register (R104). -/
def rCode (k : Fin 32) : BitVec 7 := (Handle.r k).code

/-- The handle of an accumulator (R104). -/
def accCode (n : Fin 8) : BitVec 7 := (Handle.acc n).code

/-- The handle that names an R pair, its even one (R108). -/
def rPairCode (p : RPair) : BitVec 7 := rCode p.re

/-- The handle that names an accumulator pair, its even one (R108). -/
def accPairCode (p : AccPair) : BitVec 7 := accCode p.re

/-- The handle of an optional destination, NONE when absent. -/
def optCode {α : Type} (code : α → BitVec 7) : Option α → BitVec 7
  | some x => code x
  | none => noneCode

/-- SB or IMM for a second operand (R115). -/
def Fields.withSrc (f : Fields) : Src → Fields
  | .reg k => { f with sb := rCode k }
  | .imm v => { f with immb := true, imm := v }

/-- SB or IMM for the second operand of ADD.A and SUB.A. -/
def Fields.withAccSrc (f : Fields) : AccSrc → Fields
  | .acc n => { f with sb := accCode n }
  | .reg k => { f with sb := rCode k }
  | .imm v => { f with immb := true, imm := v }

/-- SB or IMM for the amounts of a complex shift. -/
def Fields.withAmounts (f : Fields) : AmountPair → Fields
  | .regs p => { f with sb := rPairCode p }
  | .imm v => { f with immb := true, imm := v }

/-- The handle of a real shift's source. -/
def ShiftSrc.code : ShiftSrc → BitVec 7
  | .reg k => rCode k
  | .acc n => accCode n

/-- The handle of a complex shift's source. -/
def ShiftPair.code : ShiftPair → BitVec 7
  | .regs p => rPairCode p
  | .accs p => accPairCode p

/-- MOD of a sign mode (R113). -/
def SignMode.code : SignMode → BitVec 2
  | .ss => 0#2
  | .su => 1#2
  | .us => 2#2
  | .uu => 3#2

/-- MOD of a shift field (R113). -/
def Field.code : Field → BitVec 2
  | .dflt => 0#2
  | .hi => 1#2
  | .lo => 2#2

/-- XACT of an active-lane count (R116). -/
def XAct.code : XAct → BitVec 2
  | .two => 1#2
  | .four => 2#2

/-- The fields of a MAC operation before its handles are filled in. -/
def blankMac (opc : BitVec 8) (c : Ctl) (m : SignMode) (rnd : Bool) : Fields :=
  { blankFields opc 3#3 c with mod := m.code, rnd := rnd }

/-- The fields of a shift before its operands are filled in. -/
def blankShift (opc : BitVec 8) (c : Ctl) (f : Field) (rnd : Bool) : Fields :=
  { blankFields opc 2#3 c with mod := f.code, rnd := rnd }

/-- The post-modify IMM: k in bits 2:0, m in bits 5:3 (R115). -/
def postCode (k m : Fin 8) : Half := BitVec.ofNat 16 (8 * m.val + k.val)

/-- The cross-lane IMM: the offset in bits 1:0 (R115). -/
def offCode (off : Fin 4) : Half := BitVec.ofNat 16 off.val

/-- The fields of an operation. -/
def fieldsOf : Instr → Fields
  | .add c d a b =>
    ({ blankFields 0x01#8 0#3 c with dst := optCode rCode d, sa := rCode a }).withSrc b
  | .addA c d a b =>
    ({ blankFields 0x01#8 1#3 c with dst := optCode accCode d, sa := accCode a }).withAccSrc b
  | .addc c d a b =>
    ({ blankFields 0x02#8 0#3 c with dst := optCode rCode d, sa := rCode a }).withSrc b
  | .sub c d a b =>
    ({ blankFields 0x03#8 0#3 c with dst := optCode rCode d, sa := rCode a }).withSrc b
  | .subA c d a b =>
    ({ blankFields 0x03#8 1#3 c with dst := optCode accCode d, sa := accCode a }).withAccSrc b
  | .subc c d a b =>
    ({ blankFields 0x04#8 0#3 c with dst := optCode rCode d, sa := rCode a }).withSrc b
  | .subb c d a b =>
    ({ blankFields 0x05#8 0#3 c with dst := optCode rCode d, sa := rCode a }).withSrc b
  | .subbc c d a b =>
    ({ blankFields 0x06#8 0#3 c with dst := optCode rCode d, sa := rCode a }).withSrc b
  | .and c d a b =>
    ({ blankFields 0x07#8 0#3 c with dst := optCode rCode d, sa := rCode a }).withSrc b
  | .or c d a b =>
    ({ blankFields 0x08#8 0#3 c with dst := optCode rCode d, sa := rCode a }).withSrc b
  | .xor c d a b =>
    ({ blankFields 0x09#8 0#3 c with dst := optCode rCode d, sa := rCode a }).withSrc b
  | .not c d a =>
    { blankFields 0x0A#8 0#3 c with dst := optCode rCode d, sa := rCode a }
  | .abs c d a =>
    { blankFields 0x0B#8 0#3 c with dst := optCode rCode d, sa := rCode a }
  | .inc c d a =>
    { blankFields 0x0C#8 0#3 c with dst := optCode rCode d, sa := rCode a }
  | .dec c d a =>
    { blankFields 0x0D#8 0#3 c with dst := optCode rCode d, sa := rCode a }
  | .tstbit c d a b =>
    ({ blankFields 0x0E#8 0#3 c with dst := optCode rCode d, sa := rCode a }).withSrc b
  | .setbit c d a b =>
    ({ blankFields 0x0F#8 0#3 c with dst := optCode rCode d, sa := rCode a }).withSrc b
  | .clrbit c d a b =>
    ({ blankFields 0x10#8 0#3 c with dst := optCode rCode d, sa := rCode a }).withSrc b
  | .tglbit c d a b =>
    ({ blankFields 0x11#8 0#3 c with dst := optCode rCode d, sa := rCode a }).withSrc b
  | .scr c d a b =>
    ({ blankFields 0x12#8 0#3 c with dst := optCode rCode d, sa := rCode a }).withSrc b
  | .addC c d a b =>
    { blankFields 0x18#8 0#3 c with dst := optCode rPairCode d, sa := rPairCode a, sb := rPairCode b }
  | .subC c d a b =>
    { blankFields 0x19#8 0#3 c with dst := optCode rPairCode d, sa := rPairCode a, sb := rPairCode b }
  | .rccwC c d a b =>
    ({ blankFields 0x1A#8 0#3 c with dst := optCode rPairCode d, sa := rPairCode a }).withSrc b
  | .rcwC c d a b =>
    ({ blankFields 0x1B#8 0#3 c with dst := optCode rPairCode d, sa := rPairCode a }).withSrc b
  | .magC c d a =>
    { blankFields 0x1C#8 0#3 c with dst := optCode rCode d, sa := rPairCode a }
  | .rectC c d a b =>
    { blankFields 0x1D#8 0#3 c with dst := optCode rPairCode d, sa := rCode a, sb := rCode b }
  | .mpy c d a b m r =>
    { blankMac 0x20#8 c m r with dst := optCode accCode d, sa := rCode a, sb := rCode b }
  | .mac c d a b m r =>
    { blankMac 0x21#8 c m r with dst := optCode accCode d, sa := rCode a, sb := rCode b }
  | .mas c d a b m r =>
    { blankMac 0x22#8 c m r with dst := optCode accCode d, sa := rCode a, sb := rCode b }
  | .mpyC c d a b m r =>
    { blankMac 0x23#8 c m r with dst := optCode accPairCode d, sa := rPairCode a, sb := rPairCode b }
  | .macC c d a b m r =>
    { blankMac 0x24#8 c m r with dst := optCode accPairCode d, sa := rPairCode a, sb := rPairCode b }
  | .masC c d a b m r =>
    { blankMac 0x25#8 c m r with dst := optCode accPairCode d, sa := rPairCode a, sb := rPairCode b }
  | .mpyRC c d a b m r =>
    { blankMac 0x26#8 c m r with dst := optCode accPairCode d, sa := rCode a, sb := rPairCode b }
  | .macRC c d a b m r =>
    { blankMac 0x27#8 c m r with dst := optCode accPairCode d, sa := rCode a, sb := rPairCode b }
  | .masRC c d a b m r =>
    { blankMac 0x28#8 c m r with dst := optCode accPairCode d, sa := rCode a, sb := rPairCode b }
  | .rndacc c d a =>
    { blankFields 0x29#8 3#3 c with dst := optCode accCode d, sa := accCode a }
  | .clracc c d =>
    { blankFields 0x2A#8 3#3 c with dst := optCode accCode d }
  | .ashift c d a n fl r =>
    ({ blankShift 0x30#8 c fl r with dst := optCode accCode d, sa := a.code }).withSrc n
  | .lshift c d a n fl r =>
    ({ blankShift 0x31#8 c fl r with dst := optCode accCode d, sa := a.code }).withSrc n
  | .ashiftor c d a n fl r =>
    ({ blankShift 0x32#8 c fl r with dst := optCode accCode d, sa := a.code }).withSrc n
  | .lshiftor c d a n fl r =>
    ({ blankShift 0x33#8 c fl r with dst := optCode accCode d, sa := a.code }).withSrc n
  | .ashiftC c d a n fl r =>
    ({ blankShift 0x34#8 c fl r with dst := optCode accPairCode d, sa := a.code }).withAmounts n
  | .lshiftC c d a n fl r =>
    ({ blankShift 0x35#8 c fl r with dst := optCode accPairCode d, sa := a.code }).withAmounts n
  | .ldDirect c d v =>
    { blankFields 0x40#8 4#3 c with dst := d.code, immb := true, imm := v }
  | .ldPost c d k m =>
    { blankFields 0x40#8 4#3 c with dst := d.code, imm := postCode k m }
  | .stDirect c a v =>
    { blankFields 0x41#8 4#3 c with sa := a.code, immb := true, imm := v }
  | .stPost c a k m =>
    { blankFields 0x41#8 4#3 c with sa := a.code, imm := postCode k m }
  | .lddDirect c d v =>
    { blankFields 0x42#8 4#3 c with dst := optCode rPairCode d, immb := true, imm := v }
  | .lddPost c d k m =>
    { blankFields 0x42#8 4#3 c with dst := optCode rPairCode d, imm := postCode k m }
  | .stdDirect c a v =>
    { blankFields 0x43#8 4#3 c with sa := rPairCode a, immb := true, imm := v }
  | .stdPost c a k m =>
    { blankFields 0x43#8 4#3 c with sa := rPairCode a, imm := postCode k m }
  | .modify c k m =>
    { blankFields 0x44#8 4#3 c with imm := postCode k m }
  | .mov c d a =>
    { blankFields 0x50#8 5#3 c with dst := d.code, sa := a.code }
  | .ldi c d v =>
    { blankFields 0x51#8 5#3 c with dst := d.code, immb := true, imm := v }
  | .nop c =>
    blankFields 0x52#8 5#3 c
  | .xrd c d a act off =>
    { blankFields 0x60#8 6#3 c with
      dst := rCode d, sa := rCode a, xact := act.code, imm := offCode off }
  | .xwr c d a act off =>
    { blankFields 0x61#8 6#3 c with
      dst := rCode d, sa := rCode a, xact := act.code, imm := offCode off }

/-- The descriptor word of an operation (R101). -/
def encode (i : Instr) : Descr := (fieldsOf i).pack

/-! ## What the host asks -/

/-- The operation the decoder reads from the descriptor whose bits are `w` (bits from `nbits` on are
0), under the default parameters; none where it raises an error. -/
def decodeTableWord (nbits w : Nat) : Option Instr :=
  match decode Params.default (BitVec.ofNat 64 (w % 2 ^ nbits)) with
  | .ok i => some i
  | .error _ => none

end Sys2Proof
end

