-- ==== Sys2Proof/Machine/State.lean ====
section
/-! DEFINITION. The state of CORE as plain data (10_state.md), the reasons a step can stop, and the state
right after reset (R63, R361). -/

namespace Sys2Proof.Machine

/-! ## Parts of the state -/

/-- The entry of a hazard-tracked register (R55): the committed value, the two prior ones, and the
cycle of each write; an absent cycle is NEVER. -/
structure Hazard (w : Nat) where
  cur : BitVec w
  bk0 : BitVec w
  bk1 : BitVec w
  tCur : Option Nat
  tBk0 : Option Nat
  tBk1 : Option Nat
deriving DecidableEq, Repr

/-- An entry that has held `v` since reset (R361). -/
def Hazard.init {w : Nat} (v : BitVec w) : Hazard w := ⟨v, v, v, none, none, none⟩

/-- One lane of an accumulator: its fields H, M and L (R26). -/
structure Acc where
  h : BitVec 8
  m : BitVec 12
  l : BitVec 12
deriving DecidableEq, Repr

/-- The ten flags of one lane of one ASTAT copy (R47). -/
structure Flags where
  az : Bool
  an : Bool
  av : Bool
  ac : Bool
  as : Bool
  aq : Bool
  mv : Bool
  ss : Bool
  sv : Bool
  um : Bool
deriving DecidableEq, Repr

/-- Every flag 0 (R49, R63). -/
def Flags.clear : Flags := ⟨false, false, false, false, false, false, false, false, false, false⟩

/-- The flags an operation writes in one lane of one copy, each with its value (R160). -/
structure FlagUpd where
  az : Option Bool := none
  an : Option Bool := none
  av : Option Bool := none
  ac : Option Bool := none
  as : Option Bool := none
  aq : Option Bool := none
  mv : Option Bool := none
  ss : Option Bool := none
  sv : Option Bool := none
  um : Option Bool := none
deriving DecidableEq, Repr

/-- A data-memory entry: per lane a 12-bit word, or none for UNDEF (R74). -/
abbrev MemWord := PerLane (Option Data)

/-- The data memory (R70, R73): the existing entries, addresses strictly rising. An address that is not
listed has no entry and reads UNDEF in every lane (R74). A cell is a word of lanes, not a byte (log 7). -/
abbrev Memory := List (Nat × MemWord)

/-- The hazard-tracked registers (R55). -/
inductive HazReg where
  | i (k : Fin 8)
  | m (k : Fin 8)
  | l (k : Fin 8)
  | b (k : Fin 8)
  | cntr
  | mstat
deriving DecidableEq, Repr

/-- The control registers that only store (R34, R38). -/
inductive CtlReg where
  | lpever
  | pcstack
  | lpstack
  | icntl
  | imask
  | irptl
  | ivec (k : Fin 4)
deriving DecidableEq, Repr

/-- The value slots of a hazard entry (R55). -/
inductive Slot where
  | cur
  | bk0
  | bk1
deriving DecidableEq, Repr

/-- The fields of an accumulator (R26). -/
inductive AccField where
  | h
  | m
  | l
deriving DecidableEq, Repr

/-- A place that R64 calls specified or not: a register lane, an accumulator field of a lane, a slot of a
hazard entry, or a control register. -/
inductive Place where
  | reg (k : Fin 32) (j : Lane)
  | acc (n : Fin 8) (j : Lane) (f : AccField)
  | haz (h : HazReg) (x : Slot)
  | ctl (c : CtlReg)
deriving DecidableEq, Repr

/-- The part of an accumulator a write names (R27, R28). -/
inductive AccPart where
  | whole
  | h
  | m
  | l
deriving DecidableEq, Repr

/-- One effect of an operation, computed against the pre-bundle state and committed at the end of the
bundle (R130, R136). `agu` is a post-modify update, committed after every other write (R137). -/
inductive Write where
  | reg (k : Fin 32) (j : Lane) (v : Data)
  | acc (n : Fin 8) (j : Lane) (part : AccPart) (v : AccWord)
  | flags (c : Copy) (j : Lane) (u : FlagUpd)
  | umClear (j : Lane)
  | umInc (j : Lane)
  | ovInc (j : Lane)
  | haz (h : HazReg) (v : Half)
  | ctl (c : CtlReg) (v : Half)
  | dstat0 (v : BitVec 4)
  | dstat1 (v : BitVec 4)
  | memTouch (a : Nat)
  | mem (a : Nat) (j : Lane) (v : Data)
  | agu (k : Fin 8) (v : Half)
deriving DecidableEq, Repr

/-- The warnings and their information (R336). -/
inductive Warn where
  | stale (h : HazReg)
  | unaligned (a : Nat)
  | undefRead (a : Nat) (j : Lane)
  | undefCreate (a : Nat)
deriving DecidableEq, Repr

/-- The code number of a warning (R336). -/
def Warn.number : Warn → Nat
  | .stale _ => 1
  | .unaligned _ => 2
  | .undefRead _ _ => 3
  | .undefCreate _ => 4

/-- An event of the diagnostic log (R336). -/
structure Event where
  warn : Warn
  slot : Nat
  site : Nat
  cycle : Nat
deriving DecidableEq, Repr

/-- The fault record (R332). -/
structure FaultRec where
  err : CoreErr
  slot : Nat
  site : Nat
  cycle : Nat
deriving DecidableEq, Repr

/-- The outputs of one slot of a bundle (R130, R155). -/
structure SlotOut where
  mask : PerLane Bool
  trueCount : Nat
  taken : Bool
deriving DecidableEq, Repr

/-- What the host may do between bundles (R342). `evaluate`, `read`, `read_lane` and `dump` change
nothing and are functions of the state, not commands. -/
inductive HostCmd where
  | execute (words : List Descr) (sstatIn : BitVec 8) (site : Nat)
  | reset
  | write (h : Handle) (v : PerLane Int) (mask : PerLane Bool)
  | preload (a : Half) (v : PerLane Data) (mask : PerLane Bool)
  | setIrptl (v : Half)
deriving DecidableEq, Repr

/-! ## The state -/

/-- Everything the spec gives CORE (INVENTORY.md lists each field with its rule), and, from `input` on,
the model's own: what the host has sent, the bundle in progress, and its outputs. -/
structure State where
  /-- The parameters of R9; no step changes them. -/
  cfg : Params
  /-- R0 to R31 (R23, R24). -/
  r : Vector (PerLane Data) 32
  /-- ACC0 to ACC7 (R26). -/
  acc : Vector (PerLane Acc) 8
  /-- I0 to I7 (R31). -/
  i : Vector (Hazard 16) 8
  /-- M0 to M7 (R31). -/
  m : Vector (Hazard 16) 8
  /-- L0 to L7 (R31). -/
  l : Vector (Hazard 16) 8
  /-- B0 to B7 (R31). -/
  b : Vector (Hazard 16) 8
  /-- CNTR (R34). -/
  cntr : Hazard 16
  /-- MSTAT (R35). -/
  mstat : Hazard 8
  /-- LPEVER (R34). -/
  lpever : Half
  /-- PCSTACK (R34). -/
  pcstack : Half
  /-- LPSTACK (R34). -/
  lpstack : Half
  /-- ICNTL (R38). -/
  icntl : Half
  /-- IMASK (R38). -/
  imask : Half
  /-- IRPTL (R38). -/
  irptl : Half
  /-- IVEC0 to IVEC3 (R38). -/
  ivec : Vector Half 4
  /-- ASTAT_R (R47). -/
  astatR : PerLane Flags
  /-- ASTAT_I (R47). -/
  astatI : PerLane Flags
  /-- ASTAT_C (R47). -/
  astatC : PerLane Flags
  /-- EN, which DSTAT0 reads (R50, R54). -/
  en : BitVec 4
  /-- MASTER, which DSTAT1 reads (R50, R54). -/
  master : BitVec 4
  /-- UMCOUNT (R39). -/
  umcount : PerLane Data
  /-- OVCNT (R58). -/
  ovcnt : PerLane AccWord
  /-- The data memory (R70). -/
  mem : Memory
  /-- The logical clock (R60). -/
  cycle : Nat
  /-- The fault record (R61). -/
  faultRec : Option FaultRec
  /-- The diagnostic log (R61). -/
  log : List Event
  /-- The host's commands not yet taken, in order (R342, log 1). -/
  input : List HostCmd
  /-- SSTAT_IN of the bundle in progress (R62); between bundles that of the last one performed, which the host's
  reads of SSTAT then show (DESIGN CHOICE, logs 1 and 30). -/
  sstatIn : BitVec 8
  /-- The site of the bundle in progress (R100). -/
  site : Nat
  /-- How many operations of the bundle in progress have executed (R130). -/
  slot : Nat
  /-- Their effects, in slot order (R130). -/
  staged : List (List Write)
  /-- Their outputs, in slot order (R130). -/
  outs : List SlotOut
  /-- The outputs of the last committed bundle (R130). -/
  out : List SlotOut
  /-- The counter that makes every draw fresh (R15, log 4). -/
  draws : Nat
  /-- The places whose reset value is unspecified and that nothing has written since (R64). -/
  unwritten : List Place
deriving DecidableEq, Repr

/-- Why a step stops with no next state. CORE's own errors are no reason to stop: they give a next state
that holds the fault record (R331, log 8). -/
inductive Fault where
  /-- Raised by `step` when the host has sent nothing: there is no bundle to execute (R130). Safe: the
  model stops where CORE waits for its host. -/
  | noInput
deriving DecidableEq, Repr

/-- Why a step is refused. -/
inductive Refusal where
  /-- Raised by an arm of `exec` for an instruction without a meaning; no arm raises it. Safe. -/
  | notModelled (mnemonic : String)
  /-- Raised by `exec` in a state whose fault record is set (R139). `step` never comes to it: it takes such
  a bundle from the queue and leaves the state as it is (R130, log 8). Safe: it is what the spec says. -/
  | faultRecorded
  /-- Raised by `step` for descriptors of which none has EOB = 1: they are no bundle (R102, log 15).
  Safe: the spec gives no meaning to them. -/
  | unterminatedBundle
deriving DecidableEq, Repr

/-! ## Reset (R63, R361) -/

/-- The eight indices of an ACC, I, M, L or B register. -/
def eightIndices : List (Fin 8) := [0, 1, 2, 3, 4, 5, 6, 7]

/-- The three slots of the entry of a hazard-tracked register. -/
def HazReg.places (h : HazReg) : List Place := [.haz h .cur, .haz h .bk0, .haz h .bk1]

/-- The places whose reset value is unspecified (R63). -/
def unspecifiedAtReset : List Place :=
  ((List.finRange 32).flatMap fun k => allLanes.map fun j => .reg k j)
    ++ (eightIndices.flatMap fun n => allLanes.flatMap fun j => [.acc n j .h, .acc n j .m, .acc n j .l])
    ++ (eightIndices.flatMap fun k =>
      (HazReg.i k).places ++ (HazReg.m k).places ++ (HazReg.l k).places ++ (HazReg.b k).places)
    ++ HazReg.cntr.places
    ++ [.ctl .pcstack, .ctl .lpstack, .ctl (.ivec 0), .ctl (.ivec 1), .ctl (.ivec 2), .ctl (.ivec 3)]

/-- The state after `reset()` under the parameters `p` (R361). DESIGN CHOICE, unsafe: R0 to R31, ACC0 to
ACC7, I, M, L, B, CNTR, PCSTACK, LPSTACK and IVEC0 to IVEC3 hold 0 (log 3); what a read of them gives is
`UNINIT_READ` (R64). -/
def State.resetWith (p : Params) : State :=
  { cfg := p
    r := Vector.replicate 32 (PerLane.fill 0#12)
    acc := Vector.replicate 8 (PerLane.fill ⟨0#8, 0#12, 0#12⟩)
    i := Vector.replicate 8 (Hazard.init 0#16)
    m := Vector.replicate 8 (Hazard.init 0#16)
    l := Vector.replicate 8 (Hazard.init 0#16)
    b := Vector.replicate 8 (Hazard.init 0#16)
    cntr := Hazard.init 0#16
    mstat := Hazard.init 0#8
    lpever := 0#16
    pcstack := 0#16
    lpstack := 0#16
    icntl := 0#16
    imask := 0#16
    irptl := 0#16
    ivec := Vector.replicate 4 0#16
    astatR := PerLane.fill Flags.clear
    astatI := PerLane.fill Flags.clear
    astatC := PerLane.fill Flags.clear
    en := p.resetEn
    master := p.resetMaster
    umcount := PerLane.fill 0#12
    ovcnt := PerLane.fill 0#32
    mem := []
    cycle := 0
    faultRec := none
    log := []
    input := []
    sstatIn := 0#8
    site := 0
    slot := 0
    staged := []
    outs := []
    out := []
    draws := 0
    unwritten := unspecifiedAtReset }

/-- The machine right after reset, with the default parameters. -/
def State.reset : State := State.resetWith Params.default

end Sys2Proof.Machine
end

