-- ==== Sys2Proof/Machine/Flags.lean ====
section
/-! DEFINITION. The flag engine (40_execution.md R160 to R170), the condition formulas (R151), saturation
(R183) and the wraps they use. -/

namespace Sys2Proof.Machine

/-! ## Wraps (R12) -/

/-- `wrap_12`. -/
def wrap12 (t : Int) : Data := BitVec.ofInt 12 t

/-- `wrap_32`. -/
def wrap32 (t : Int) : AccWord := BitVec.ofInt 32 t

/-- `wrap_16`. -/
def wrap16 (t : Int) : Half := BitVec.ofInt 16 t

/-- Bit 11 of an integer's pattern. -/
def bit11 (x : Int) : Bool := (wrap12 x).msb

/-- `zext_12` of an integer's pattern. -/
def zext12 (x : Int) : Int := (wrap12 x).toNat

/-! ## Overflow and carry tests (R165 to R168) -/

/-- `ov12_add(a, b, r)` (R165). -/
def ov12Add (a b : Int) (r : Data) : Bool := bit11 a == bit11 b && r.msb != bit11 a

/-- `ov12_sub(a, b, r)` (R165). -/
def ov12Sub (a b : Int) (r : Data) : Bool := bit11 a != bit11 b && r.msb != bit11 a

/-- The carry of a 12-bit unsigned sum (R168). -/
def carry12 (u : Int) : Bool := decide (u > 0xFFF) || decide (u < 0)

/-- The carry of a 32-bit unsigned sum (R168). -/
def carry32 (u : Int) : Bool := decide (u > 0xFFFFFFFF) || decide (u < 0)

/-- `ov32(t)` under `ACC_OVF_WIDTH` (R166); also `ovsh` (R167). -/
def ov32 (w : OvfWidth) (t : Int) : Bool :=
  match w with
  | .w32 => !(decide (-2147483648 ≤ t) && decide (t ≤ 2147483647))
  | .w24 => !(decide (-8388608 ≤ t) && decide (t ≤ 8388607))

/-- `sat12(r, ov, c)` (R183): `on` is AR_SAT. -/
def sat12 (on : Bool) (r : Data) (ov c : Bool) : Data :=
  if on && ov then (if c then 0x800#12 else 0x7FF#12) else r

/-! ## Flag registers (R48, R160 to R162) -/

/-- The flags as the 10-bit pattern of R48. -/
def Flags.bits (f : Flags) : BitVec 10 :=
  BitVec.ofBool f.um ++ BitVec.ofBool f.sv ++ BitVec.ofBool f.ss ++ BitVec.ofBool f.mv
    ++ BitVec.ofBool f.aq ++ BitVec.ofBool f.as ++ BitVec.ofBool f.ac ++ BitVec.ofBool f.av
    ++ BitVec.ofBool f.an ++ BitVec.ofBool f.az

/-- An update that writes all ten flags from the pattern of R48 (R41). -/
def FlagUpd.ofBits (v : BitVec 10) : FlagUpd :=
  { az := some (v.getLsbD 0), an := some (v.getLsbD 1), av := some (v.getLsbD 2),
    ac := some (v.getLsbD 3), as := some (v.getLsbD 4), aq := some (v.getLsbD 5),
    mv := some (v.getLsbD 6), ss := some (v.getLsbD 7), sv := some (v.getLsbD 8),
    um := some (v.getLsbD 9) }

/-- The flags after an update: those it does not name keep their values (R160). -/
def FlagUpd.apply (u : FlagUpd) (f : Flags) : Flags :=
  { az := u.az.getD f.az, an := u.an.getD f.an, av := u.av.getD f.av, ac := u.ac.getD f.ac,
    as := u.as.getD f.as, aq := u.aq.getD f.aq, mv := u.mv.getD f.mv, ss := u.ss.getD f.ss,
    sv := u.sv.getD f.sv, um := u.um.getD f.um }

/-- Two updates name a common flag (R137). -/
def FlagUpd.overlaps (u v : FlagUpd) : Bool :=
  (u.az.isSome && v.az.isSome) || (u.an.isSome && v.an.isSome) || (u.av.isSome && v.av.isSome)
    || (u.ac.isSome && v.ac.isSome) || (u.as.isSome && v.as.isSome) || (u.aq.isSome && v.aq.isSome)
    || (u.mv.isSome && v.mv.isSome) || (u.ss.isSome && v.ss.isSome) || (u.sv.isSome && v.sv.isSome)
    || (u.um.isSome && v.um.isSome)

/-- One flag of ASTAT_C from the real and the imaginary one, where both are written. -/
def combineFlag (t : FlagTable) : Option Bool → Option Bool → Option Bool
  | some re, some im => some (t.at re im)
  | _, _ => none

/-- `COMBINE` of the real and the imaginary part's flags (R161); AQ and UM are not written. -/
def combineFlags (k : Combine) (re im : FlagUpd) : FlagUpd :=
  { az := combineFlag k.az re.az im.az, an := combineFlag k.an re.an im.an,
    av := combineFlag k.av re.av im.av, ac := combineFlag k.ac re.ac im.ac,
    as := combineFlag k.as re.as im.as, mv := combineFlag k.mv re.mv im.mv,
    ss := combineFlag k.ss re.ss im.ss, sv := combineFlag k.sv re.sv im.sv }

/-- Sticky overflow (R162): with AV_LATCH an AV that is written is ORed with its old value. -/
def FlagUpd.latchAv (on : Bool) (old : Flags) (u : FlagUpd) : FlagUpd :=
  { u with av := u.av.map fun v => v || (on && old.av) }

/-! ## Conditions (R150, R151) -/

end Sys2Proof.Machine

namespace Sys2Proof

open Machine

/-- The copy a condition code reads (R150). -/
def Cond.copy : Cond → Copy
  | .eq | .ne | .gt | .le | .lt | .ge | .av | .notAv | .ac | .notAc | .sv | .notSv | .mv | .notMv
  | .notCe | .true => .re
  | .eqC | .neC | .gtC | .leC | .ltC | .geC | .avC | .notAvC | .acC | .notAcC | .svC | .notSvC
  | .mvC | .notMvC | .umC | .notUmC => .cx

/-- The formula of a condition code on the flags `f` of its copy; `ce` is `lat(CNTR) > 1` (R151, R152). -/
def Cond.holds (f : Flags) (ce : Bool) : Cond → Bool
  | .eq | .eqC => f.az
  | .ne | .neC => !f.az
  | .gt | .gtC => !((f.an ^^ f.av) || f.az)
  | .le | .leC => (f.an ^^ f.av) || f.az
  | .lt | .ltC => f.an ^^ f.av
  | .ge | .geC => !(f.an ^^ f.av)
  | .av | .avC => f.av
  | .notAv | .notAvC => !f.av
  | .ac | .acC => f.ac
  | .notAc | .notAcC => !f.ac
  | .sv | .svC => f.sv
  | .notSv | .notSvC => !f.sv
  | .mv | .mvC => f.mv
  | .notMv | .notMvC => !f.mv
  | .notCe => ce
  | .true => Bool.true
  | .umC => f.um
  | .notUmC => !f.um

end Sys2Proof
end

