-- ==== Sys2Proof/Machine/Memory.lean ====
section
/-! DEFINITION. The data memory's operations (20_memory.md R70 to R77) and its canonical form. -/

namespace Sys2Proof.Machine

/-- A word whose lanes are all UNDEF (R73). -/
def undefWord : MemWord := PerLane.fill none

/-- The entry at an address, none where no entry exists (R73). -/
def Memory.find (a : Nat) : Memory → Option MemWord
  | [] => none
  | (x, w) :: m => if a = x then some w else Memory.find a m

/-- The memory with the entry at `a` set, in its place. -/
def Memory.put (a : Nat) (w : MemWord) : Memory → Memory
  | [] => [(a, w)]
  | (x, y) :: m =>
    if a < x then (a, w) :: (x, y) :: m
    else if a = x then (a, w) :: m
    else (x, y) :: Memory.put a w m

/-- The word an address reads as: all lanes UNDEF where no entry exists (R74). -/
def Memory.word (a : Nat) (m : Memory) : MemWord := (Memory.find a m).getD undefWord

/-- Create the entry at `a`, every lane UNDEF, if there is none (R75). -/
def Memory.touch (a : Nat) (m : Memory) : Memory :=
  match Memory.find a m with
  | some _ => m
  | none => Memory.put a undefWord m

/-- Write one lane of the word at `a`; an entry that this creates has UNDEF in its other lanes (R77). -/
def Memory.store (a : Nat) (j : Lane) (v : Data) (m : Memory) : Memory :=
  Memory.put a ((Memory.word a m).set j (some v)) m

/-- The canonical form: addresses strictly rising and inside 0..0xFFFF (R70). No entry can equal what an
unlisted address reads as, since that is no entry (R73). -/
def Memory.wf : Memory → Bool
  | [] => true
  | (a, _) :: m => decide (a < 65536) && m.all (fun e => decide (a < e.1)) && Memory.wf m

/-- Every entry is UNDEF in the lanes that are not active (R21). -/
def Memory.inert (p : Params) (m : Memory) : Bool :=
  m.all fun e => allLanes.all fun j => p.active j || (e.2.get j).isNone

end Sys2Proof.Machine
end

