-- ==== Sys2Proof/Machine/Ops.lean ====
section
/-! DEFINITION. The named operations over registers, memory and the lane-enable state (10_state.md), the
hazard tracker (40_execution.md R140), predication (R150 to R155), the write-back with its conflict
check (R136, R137), and what raising an error does (60_exceptions.md R331): CORE's whole answer to an
exceptional condition, since it has no trap and no return (R340). -/

namespace Sys2Proof.Machine

/-! ## The hazard tracker (R55, R56, R86, R140) -/

/-- The value in a slot of an entry (R55). -/
def Hazard.value {w : Nat} (e : Hazard w) (x : Slot) : BitVec w :=
  match x with
  | .cur => e.cur
  | .bk0 => e.bk0
  | .bk1 => e.bk1

/-- The slot whose value `lat_at(e, c)` returns (R140); an absent cycle is NEVER. -/
def Hazard.slotAt {w : Nat} (e : Hazard w) (c : Nat) : Slot :=
  match e.tCur with
  | none => .cur
  | some t =>
    if c - t ≥ 3 then .cur
    else if c - t = 2 then .bk0
    else
      match e.tBk0 with
      | none => .bk0
      | some t0 => if t0 + 2 = c then .bk1 else .bk0

/-- `lat_at(e, c)` (R140). -/
def Hazard.latAt {w : Nat} (e : Hazard w) (c : Nat) : BitVec w := e.value (e.slotAt c)

/-- `lat_at` returns a backup at cycle `c`, so that it emits W_STALE (R140). -/
def Hazard.staleAt {w : Nat} (e : Hazard w) (c : Nat) : Bool :=
  match e.tCur with
  | none => false
  | some t => decide (c - t < 3)

/-- A write of `v` at cycle `c` shifts the history (R56). -/
def Hazard.push {w : Nat} (e : Hazard w) (v : BitVec w) (c : Nat) : Hazard w :=
  { cur := v, bk0 := e.cur, bk1 := e.bk0, tCur := some c, tBk0 := e.tCur, tBk1 := e.tBk0 }

/-- A post-modify update writes the register and both backups at once (R85, R86). -/
def Hazard.agu {w : Nat} (v : BitVec w) (c : Nat) : Hazard w :=
  { cur := v, bk0 := v, bk1 := v, tCur := some c, tBk0 := some c, tBk1 := some c }

/-- `lat(h)` as a pattern; MSTAT's 8 bits are zero-extended (R40, R140). -/
def State.lat (s : State) (h : HazReg) : Half :=
  match h with
  | .i k => (s.i.get k).latAt s.cycle
  | .m k => (s.m.get k).latAt s.cycle
  | .l k => (s.l.get k).latAt s.cycle
  | .b k => (s.b.get k).latAt s.cycle
  | .cntr => s.cntr.latAt s.cycle
  | .mstat => (s.mstat.latAt s.cycle).setWidth 16

/-- The place that a read of `h` through `lat` reads (R140, R143). -/
def State.latPlace (s : State) (h : HazReg) : Place :=
  .haz h <|
    match h with
    | .i k => (s.i.get k).slotAt s.cycle
    | .m k => (s.m.get k).slotAt s.cycle
    | .l k => (s.l.get k).slotAt s.cycle
    | .b k => (s.b.get k).slotAt s.cycle
    | .cntr => s.cntr.slotAt s.cycle
    | .mstat => s.mstat.slotAt s.cycle

/-- A read of `h` in this bundle is stale. -/
def State.stale (s : State) (h : HazReg) : Bool :=
  match h with
  | .i k => (s.i.get k).staleAt s.cycle
  | .m k => (s.m.get k).staleAt s.cycle
  | .l k => (s.l.get k).staleAt s.cycle
  | .b k => (s.b.get k).staleAt s.cycle
  | .cntr => s.cntr.staleAt s.cycle
  | .mstat => s.mstat.staleAt s.cycle

/-- The first occurrences in a list of registers. -/
def firstReads : List HazReg → List HazReg
  | [] => []
  | h :: hs => h :: (firstReads hs).filter (· != h)

/-- The W_STALE warnings of reading the registers `hs` (R140): one for each stale register, at its first
read (log 10). -/
def State.staleWarns (s : State) (hs : List HazReg) : List Warn :=
  ((firstReads hs).filter s.stale).map Warn.stale

/-! ## The mode bits, read through `lat(MSTAT)` (R35, R36) -/

/-- Bit `n` of `lat(MSTAT)`. -/
def State.modeBit (s : State) (n : Nat) : Bool := (s.mstat.latAt s.cycle).getLsbD n

/-- URND: unbiased rounding. -/
def State.urnd (s : State) : Bool := s.modeBit 0

/-- BIT_REV: bit-reversed effective addresses. -/
def State.bitRev (s : State) : Bool := s.modeBit 1

/-- AV_LATCH: sticky AV. -/
def State.avLatch (s : State) : Bool := s.modeBit 2

/-- AR_SAT: ALU saturation. -/
def State.arSat (s : State) : Bool := s.modeBit 3

/-- M_MODE: integer multiply. -/
def State.mMode (s : State) : Bool := s.modeBit 4

/-- UMA_EN: unaligned double-word access allowed. -/
def State.umaEn (s : State) : Bool := s.modeBit 5

/-! ## Reading one lane -/

/-- Lane `j` of Rk. -/
def State.reg (s : State) (k : Fin 32) (j : Lane) : Data := (s.r.get k).get j

/-- Lane `j` of ACCn, as its three fields. -/
def State.accLane (s : State) (n : Fin 8) (j : Lane) : Acc := (s.acc.get n).get j

/-- H:M:L (R26). -/
def Acc.word (a : Acc) : AccWord := a.h ++ a.m ++ a.l

/-- Lane `j` of ACCn as its 32-bit pattern (R26). -/
def State.accWord (s : State) (n : Fin 8) (j : Lane) : AccWord := (s.accLane n j).word

/-- Lane `j` of an ASTAT copy. -/
def State.flags (s : State) (c : Copy) (j : Lane) : Flags :=
  match c with
  | .re => s.astatR.get j
  | .im => s.astatI.get j
  | .cx => s.astatC.get j

/-- A storage-only control register. -/
def State.ctl (s : State) (c : CtlReg) : Half :=
  match c with
  | .lpever => s.lpever
  | .pcstack => s.pcstack
  | .lpstack => s.lpstack
  | .icntl => s.icntl
  | .imask => s.imask
  | .irptl => s.irptl
  | .ivec k => s.ivec.get k

/-- Lane `j` of the word at a data address; none is UNDEF (R74). -/
def State.memLane (s : State) (a : Nat) (j : Lane) : Option Data := (s.mem.word a).get j

/-- EN[j] for an active lane (R21, R50). -/
def State.enabled (s : State) (j : Lane) : Bool := s.cfg.active j && s.en.getLsbD j.val

/-- MASTER[j] for an active lane (R21, R50). -/
def State.isMaster (s : State) (j : Lane) : Bool := s.cfg.active j && s.master.getLsbD j.val

/-! ## Unspecified values (R64, R143) -/

/-- The handle of a hazard-tracked register (R104). -/
def HazReg.handle : HazReg → Handle
  | .i k => .i k
  | .m k => .m k
  | .l k => .l k
  | .b k => .b k
  | .cntr => .cntr
  | .mstat => .mstat

/-- The handle of a control register (R104). -/
def CtlReg.handle : CtlReg → Handle
  | .lpever => .lpever
  | .pcstack => .pcstack
  | .lpstack => .lpstack
  | .icntl => .icntl
  | .imask => .imask
  | .irptl => .irptl
  | .ivec k => .ivec k

/-- The handle of the register or field that a place belongs to (R104). -/
def Place.handle : Place → Handle
  | .reg k _ => .r k
  | .acc n _ .h => .accH n
  | .acc n _ .m => .accM n
  | .acc n _ .l => .accL n
  | .haz h _ => h.handle
  | .ctl c => c.handle

/-- The number of a slot. -/
def Slot.index : Slot → Fin 3
  | .cur => 0
  | .bk0 => 1
  | .bk1 => 2

/-- The value at `p` is unspecified: the reset state does not specify it and nothing has written it (R64). -/
def State.unset (s : State) (p : Place) : Bool := s.unwritten.contains p

/-- An entry with a free value in each unspecified slot. -/
def State.drawnEntry (s : State) (h : HazReg) (e : Hazard 16) : Hazard 16 :=
  let v := fun x => if s.unset (.haz h x) then Config.freeHalf s.draws h.handle.code x.index else e.value x
  { e with cur := v .cur, bk0 := v .bk0, bk1 := v .bk1 }

/-- An accumulator lane with a free value in each unspecified field. -/
def State.drawnAcc (s : State) (n : Fin 8) (j : Lane) : Acc :=
  { h := if s.unset (.acc n j .h) then (Config.freeAcc s.draws n j).extractLsb' 24 8 else (s.accLane n j).h
    m := if s.unset (.acc n j .m) then (Config.freeAcc s.draws n j).extractLsb' 12 12 else (s.accLane n j).m
    l := if s.unset (.acc n j .l) then (Config.freeAcc s.draws n j).extractLsb' 0 12 else (s.accLane n j).l }

/-- The value of a control register, free where it is unspecified. -/
def State.drawnCtl (s : State) (c : CtlReg) : Half :=
  if s.unset (.ctl c) then Config.freeHalf s.draws c.handle.code 0 else s.ctl c

/-- The state with a free value at every unspecified place. -/
def State.drawAll (s : State) : State :=
  { s with
    r := Vector.ofFn fun k => PerLane.ofFn fun j =>
      if s.unset (.reg k j) then Config.freeData s.draws k j else s.reg k j
    acc := Vector.ofFn fun n => PerLane.ofFn fun j => s.drawnAcc n j
    i := Vector.ofFn fun k => s.drawnEntry (.i k) (s.i.get k)
    m := Vector.ofFn fun k => s.drawnEntry (.m k) (s.m.get k)
    l := Vector.ofFn fun k => s.drawnEntry (.l k) (s.l.get k)
    b := Vector.ofFn fun k => s.drawnEntry (.b k) (s.b.get k)
    cntr := s.drawnEntry .cntr s.cntr
    pcstack := s.drawnCtl .pcstack
    lpstack := s.drawnCtl .lpstack
    ivec := Vector.ofFn fun k => s.drawnCtl (.ivec k) }

/-- The state an operation reads: under `UNINIT_READ = draw` every unspecified place reads a free value, the
same one throughout the operation (R64, logs 3 and 29). -/
def State.drawn (s : State) : State :=
  match s.cfg.uninitRead with
  | .draw => s.drawAll
  | .held => s
  | .fault => s

/-- The first of the places `ps` that is unspecified, under `UNINIT_READ = fault` (R64). -/
def State.firstUnset (s : State) (ps : List Place) : Option Place :=
  match s.cfg.uninitRead with
  | .fault => ps.find? s.unset
  | .held => none
  | .draw => none

/-- `F_UNINIT` for a read of `p` (R335). DESIGN CHOICE: the record holds the register's or field's handle
(log 29). -/
def fUninit (p : Place) : CoreErr := ⟨.fUninit, .handle p.handle.code⟩

/-! ## Predication (R133, R134, R150 to R155) -/

/-- `evaluate(COND)` (R150 to R153). The mask of a disabled lane is 1 for TRUE and a free value for every
other code (log 4, log 13). -/
def State.maskFor (s : State) (c : Cond) : PerLane Bool :=
  PerLane.ofFn fun j =>
    if s.cfg.active j then
      if c = .true then true
      else if s.enabled j then c.holds (s.flags c.copy j) (decide (1 < (s.drawn.lat .cntr).toNat))
      else Config.freeMask s.draws j
    else false

/-- The places that evaluating a condition reads: NOT CE reads CNTR (R152). -/
def State.condPlaces (s : State) (c : Cond) : List Place :=
  if c = .notCe then [s.latPlace .cntr] else []

/-- The warnings of evaluating a condition: NOT CE reads CNTR through `lat` (R141, R152). -/
def State.condWarns (s : State) (c : Cond) : List Warn :=
  if c = .notCe then s.staleWarns [.cntr] else []

/-- Lane `j` executes (R133). EN is tested first: the mask of a disabled lane is free. -/
def State.executing (s : State) (mask : PerLane Bool) (j : Lane) : Bool :=
  s.enabled j && mask.get j

/-- The executing lanes, in ascending order (R133). -/
def State.execLanes (s : State) (mask : PerLane Bool) : List Lane := allLanes.filter (s.executing mask)

/-- `exec_any` (R134). -/
def State.execAny (s : State) (mask : PerLane Bool) : Bool := allLanes.any (s.executing mask)

/-- The lane whose value a P_MASTER write takes (R43). -/
def State.masterLane (s : State) (mask : PerLane Bool) : Option Lane :=
  allLanes.find? fun j => s.isMaster j && mask.get j

/-- The lane whose value a P_FIRST write takes (R43). -/
def State.firstLane (s : State) (mask : PerLane Bool) : Option Lane :=
  allLanes.find? (s.executing mask)

/-- `true_count` (R154). -/
def State.trueCount (s : State) (mask : PerLane Bool) : Nat := (s.execLanes mask).length

/-- `taken`: the mask at the master lane (R155, log 23). -/
def State.taken (s : State) (mask : PerLane Bool) : Bool :=
  match allLanes.find? s.isMaster with
  | some j => mask.get j
  | none => false

/-- The outputs of one slot (R130, R155). -/
def State.slotOut (s : State) (mask : PerLane Bool) : SlotOut :=
  { mask := mask, trueCount := s.trueCount mask, taken := s.taken mask }

/-! ## Which lanes a write uses, and what it writes (R41 to R44) -/

/-- How a write to a handle chooses its lanes (R42, R43, R44). -/
inductive Policy where
  | lanes
  | master
  | first
  | nothing
deriving DecidableEq, Repr

end Sys2Proof.Machine

namespace Sys2Proof

open Machine

/-- The policy of each handle (R43, R105). -/
def Handle.policy : Handle → Policy
  | .r _ | .acc _ | .accH _ | .accM _ | .accL _ | .did | .umcount | .astat _ => .lanes
  | .i _ | .m _ | .l _ | .b _ => .first
  | .cntr | .lpever | .pcstack | .lpstack | .mstat | .sstat | .icntl | .imask | .irptl | .ivec _
  | .dstat0 | .dstat1 => .master
  | .noReg => .nothing

end Sys2Proof

namespace Sys2Proof.Machine

/-- The lanes whose value a write to `h` uses: the executing lanes, or the qualifying one. -/
def State.usedLanes (s : State) (mask : PerLane Bool) (h : Handle) : List Lane :=
  match h.policy with
  | .lanes => s.execLanes mask
  | .master => (s.masterLane mask).toList
  | .first => (s.firstLane mask).toList
  | .nothing => []

end Sys2Proof.Machine

namespace Sys2Proof

open Machine

/-- The effect of writing lane `j`'s value `v` to a handle (R41). A write to SSTAT or NONE has none; a
write to DID raises an error before it comes to this. -/
def Handle.writes (h : Handle) (j : Lane) (v : Int) : List Write :=
  match h with
  | .r k => [.reg k j (wrap12 v)]
  | .acc n => [.acc n j .whole (wrap32 v)]
  | .accH n => [.acc n j .h (wrap32 v)]
  | .accM n => [.acc n j .m (wrap32 v)]
  | .accL n => [.acc n j .l (wrap32 v)]
  | .i k => [.haz (.i k) (wrap16 v)]
  | .m k => [.haz (.m k) (wrap16 v)]
  | .l k => [.haz (.l k) (wrap16 v)]
  | .b k => [.haz (.b k) (wrap16 v)]
  | .cntr => [.haz .cntr (wrap16 v)]
  | .mstat => [.haz .mstat (wrap16 v)]
  | .lpever => [.ctl .lpever (wrap16 v)]
  | .pcstack => [.ctl .pcstack (wrap16 v)]
  | .lpstack => [.ctl .lpstack (wrap16 v)]
  | .icntl => [.ctl .icntl (wrap16 v)]
  | .imask => [.ctl .imask (wrap16 v)]
  | .irptl => [.ctl .irptl (wrap16 v)]
  | .ivec k => [.ctl (.ivec k) (wrap16 v)]
  | .dstat0 => [.dstat0 (BitVec.ofInt 4 v)]
  | .dstat1 => [.dstat1 (BitVec.ofInt 4 v)]
  | .umcount => [.umClear j]
  | .astat c => [.flags c j (FlagUpd.ofBits (BitVec.ofInt 10 v))]
  | .sstat | .did | .noReg => []

end Sys2Proof

namespace Sys2Proof.Machine

/-! ## Applying one effect -/

/-- Lane `j` of Rk replaced. -/
def State.setReg (s : State) (k : Fin 32) (j : Lane) (v : Data) : State :=
  { s with r := s.r.set k.val ((s.r.get k).set j v) k.isLt }

/-- Lane `j` of ACCn replaced. -/
def State.setAcc (s : State) (n : Fin 8) (j : Lane) (a : Acc) : State :=
  { s with acc := s.acc.set n.val ((s.acc.get n).set j a) n.isLt }

/-- A write of an accumulator or of one of its fields (R28, R41). -/
def Acc.write (a : Acc) (p : AccPart) (v : AccWord) : Acc :=
  match p with
  | .whole => ⟨v.extractLsb' 24 8, v.extractLsb' 12 12, v.extractLsb' 0 12⟩
  | .h => { a with h := v.extractLsb' 0 8 }
  | .m => { a with m := v.extractLsb' 0 12, h := if v.getLsbD 11 then 0xFF#8 else 0x00#8 }
  | .l => { a with l := v.extractLsb' 0 12 }

/-- Lane `j` of an ASTAT copy replaced. -/
def State.setFlags (s : State) (c : Copy) (j : Lane) (f : Flags) : State :=
  match c with
  | .re => { s with astatR := s.astatR.set j f }
  | .im => { s with astatI := s.astatI.set j f }
  | .cx => { s with astatC := s.astatC.set j f }

/-- Lane `j` of UMCOUNT replaced. -/
def State.setUmcount (s : State) (j : Lane) (v : Data) : State := { s with umcount := s.umcount.set j v }

/-- Lane `j` of OVCNT replaced. -/
def State.setOvcnt (s : State) (j : Lane) (v : AccWord) : State := { s with ovcnt := s.ovcnt.set j v }

/-- A write to a hazard-tracked register, stamped with the current cycle (R46, R56). -/
def State.pushHaz (s : State) (h : HazReg) (v : Half) : State :=
  match h with
  | .i k => { s with i := s.i.set k.val ((s.i.get k).push v s.cycle) k.isLt }
  | .m k => { s with m := s.m.set k.val ((s.m.get k).push v s.cycle) k.isLt }
  | .l k => { s with l := s.l.set k.val ((s.l.get k).push v s.cycle) k.isLt }
  | .b k => { s with b := s.b.set k.val ((s.b.get k).push v s.cycle) k.isLt }
  | .cntr => { s with cntr := s.cntr.push v s.cycle }
  | .mstat => { s with mstat := s.mstat.push (v.setWidth 8) s.cycle }

/-- A storage-only control register replaced (R41). -/
def State.setCtl (s : State) (c : CtlReg) (v : Half) : State :=
  match c with
  | .lpever => { s with lpever := v }
  | .pcstack => { s with pcstack := v }
  | .lpstack => { s with lpstack := v }
  | .icntl => { s with icntl := v }
  | .imask => { s with imask := v }
  | .irptl => { s with irptl := v }
  | .ivec k => { s with ivec := s.ivec.set k.val v k.isLt }

end Sys2Proof.Machine

namespace Sys2Proof

open Machine

/-- The bits of a 4-bit mask that belong to active lanes (R51, R52). -/
def Params.eligible (p : Params) (v : BitVec 4) : BitVec 4 :=
  v &&& (match p.lanes with
    | .one => 0b0001#4
    | .two => 0b0011#4
    | .four => 0b1111#4)

end Sys2Proof

namespace Sys2Proof.Machine

/-- The least set bit of a 4-bit mask, alone; 0 where no bit is set (R52). -/
def lowestBit (v : BitVec 4) : BitVec 4 :=
  if v.getLsbD 0 then 0b0001#4 else if v.getLsbD 1 then 0b0010#4
  else if v.getLsbD 2 then 0b0100#4 else if v.getLsbD 3 then 0b1000#4 else 0#4

/-- A write to DSTAT0: EN only gains bits (R51). -/
def State.orEnable (s : State) (v : BitVec 4) : State := { s with en := s.en ||| s.cfg.eligible v }

/-- A write to DSTAT1: the least eligible bit becomes the master; none leaves MASTER (R52, log 19). -/
def State.selectMaster (s : State) (v : BitVec 4) : State :=
  { s with master := if s.cfg.eligible v = 0#4 then s.master else lowestBit (s.cfg.eligible v) }

/-- The post-modify update of Ik, stamped with the current cycle (R85). -/
def State.aguUpdate (s : State) (k : Fin 8) (v : Half) : State :=
  { s with i := s.i.set k.val (Hazard.agu v s.cycle) k.isLt }

/-- The value an effect leaves (R136). -/
def State.putWrite (s : State) (w : Write) : State :=
  match w with
  | .reg k j v => s.setReg k j v
  | .acc n j p v => s.setAcc n j ((s.accLane n j).write p v)
  | .flags c j u => s.setFlags c j (u.apply (s.flags c j))
  | .umClear j => s.setUmcount j 0#12
  | .umInc j => s.setUmcount j (s.umcount.get j + 1#12)
  | .ovInc j => s.setOvcnt j (s.ovcnt.get j + 1#32)
  | .haz h v => s.pushHaz h v
  | .ctl c v => s.setCtl c v
  | .dstat0 v => s.orEnable v
  | .dstat1 v => s.selectMaster v
  | .memTouch a => { s with mem := s.mem.touch a }
  | .mem a j v => { s with mem := s.mem.store a j v }
  | .agu k v => s.aguUpdate k v

/-- A write of a part of an accumulator writes a field (R28, R41): the sign of M goes into H. -/
def AccPart.covers : AccPart → AccField → Bool
  | .whole, _ => true
  | .h, .h => true
  | .m, .m => true
  | .m, .h => true
  | .l, .l => true
  | _, _ => false

/-- The slot in which the next write of the register leaves the value of this one, if in any (R56). -/
def Slot.older : Slot → Option Slot
  | .cur => some .bk0
  | .bk0 => some .bk1
  | .bk1 => none

/-- Where an unspecified value at `p` is after an effect: gone where the effect writes it, one slot on where
it moves down a hazard history, else in its place (R56, R64, R85). -/
def Write.ages (w : Write) (p : Place) : Option Place :=
  match w, p with
  | .reg k j _, .reg k' j' => if k = k' ∧ j = j' then none else some p
  | .acc n j part _, .acc n' j' f => if n = n' ∧ j = j' ∧ part.covers f then none else some p
  | .haz h _, .haz h' x => if h = h' then x.older.map (Place.haz h) else some p
  | .ctl c _, .ctl c' => if c = c' then none else some p
  | .agu k _, .haz (.i k') _ => if k = k' then none else some p
  | _, _ => some p

/-- The state with another list of unspecified places. -/
def State.withUnwritten (s : State) (ps : List Place) : State := { s with unwritten := ps }

/-- Commit one effect (R136): its value, and what it leaves unspecified (R64). -/
def State.applyWrite (s : State) (w : Write) : State :=
  (s.putWrite w).withUnwritten (s.unwritten.filterMap w.ages)

/-- Commit effects in order. -/
def State.applyAll (s : State) (ws : List Write) : State := ws.foldl State.applyWrite s

/-! ## Write conflicts (R137) -/

/-- The parts of one accumulator overlap: the whole with every field, and M with H (R137). -/
def AccPart.overlaps : AccPart → AccPart → Bool
  | .whole, _ => true
  | _, .whole => true
  | .m, .h => true
  | .h, .m => true
  | p, q => p == q

/-- Two effects of different operations of one bundle conflict (R137, logs 14, 19 and 20). -/
def Write.conflicts : Write → Write → Bool
  | .reg k j _, .reg k' j' _ => k == k' && j == j'
  | .acc n j p _, .acc n' j' p' _ => n == n' && j == j' && p.overlaps p'
  | .flags c j u, .flags c' j' u' => c == c' && j == j' && u.overlaps u'
  | .umClear j, .umClear j' => j == j'
  | .umClear j, .umInc j' => j == j'
  | .umInc j, .umClear j' => j == j'
  | .umInc j, .umInc j' => j == j'
  | .haz h _, .haz h' _ => h == h'
  | .ctl c _, .ctl c' _ => c == c'
  | .dstat0 _, .dstat0 _ => true
  | .dstat0 _, .dstat1 _ => true
  | .dstat1 _, .dstat0 _ => true
  | .dstat1 _, .dstat1 _ => true
  | .mem a j _, .mem a' j' _ => a == a' && j == j'
  | .agu k _, .agu k' _ => k == k'
  | _, _ => false

/-- Two operations conflict: some effect of one conflicts with some effect of the other (R137). -/
def clash (xs ys : List Write) : Bool := xs.any fun x => ys.any fun y => x.conflicts y

/-- The slot of the later operation of the first conflicting pair (log 9): `done` are the operations
before, in slot order. -/
def firstConflict (done : List (List Write)) : List (List Write) → Option Nat
  | [] => none
  | ws :: rest =>
    if done.any (fun xs => clash xs ws) then some done.length
    else firstConflict (done ++ [ws]) rest

/-! ## The end of a bundle (R130, R136, R331) -/

/-- A post-modify update, which is committed after every other write (R137). -/
def Write.isAgu : Write → Bool
  | .agu _ _ => true
  | _ => false

/-- The diagnostic events of one operation (R336). -/
def State.event (s : State) (w : Warn) : Event :=
  { warn := w, slot := s.slot, site := s.site, cycle := s.cycle }

/-- Append an operation's warnings to the log, in the order they arose (R136, log 22). -/
def State.warn (s : State) (ws : List Warn) : State := { s with log := s.log ++ ws.map s.event }

/-- `raise`: end the bundle without committing any of it, and record the error; the first error is the
one recorded (R331, R332). -/
def State.raiseAt (s : State) (slot : Nat) (e : CoreErr) : State :=
  { s with
    faultRec := s.faultRec.or (some { err := e, slot := slot, site := s.site, cycle := s.cycle })
    slot := 0
    staged := []
    outs := []
    draws := s.draws + 1 }

/-- Commit the bundle: the effects in slot order, then the post-modify updates; the cycle advances (R130,
R132, R136, R137). -/
def State.commit (s : State) : State :=
  let ws := s.staged.flatten
  let t := (s.applyAll (ws.filter fun w => !w.isAgu)).applyAll (ws.filter Write.isAgu)
  { t with cycle := s.cycle + 1, slot := 0, staged := [], out := s.outs, outs := [] }

/-- The end of the bundle: the conflict check, then the commit (R130). -/
def State.close (s : State) : State :=
  match firstConflict [] s.staged with
  | some k => s.raiseAt k eCombo
  | none => s.commit

/-- Keep an operation's effects and outputs until the bundle ends (R130, R131). -/
def State.stage (s : State) (o : SlotOut) (ws : List Write) : State :=
  { s with slot := s.slot + 1, staged := s.staged ++ [ws], outs := s.outs ++ [o], draws := s.draws + 1 }

/-! ## One operation of a bundle -/

/-- What executing an operation against the pre-bundle state gives: its warnings and effects, or its
warnings and the error it raises (R130). -/
inductive OpResult where
  | done (warns : List Warn) (effects : List Write)
  | fail (warns : List Warn) (e : CoreErr)
deriving DecidableEq, Repr

/-- One operation of a bundle (R130): evaluate its condition, execute `op` against the pre-bundle state
and the mask, keep its effects, and end the bundle where EOB = 1 (R102). The architectural state is the
pre-bundle one until then (R131). With a fault record set nothing runs (R139). -/
def issue (c : Ctl) (op : State → PerLane Bool → OpResult) (s : State) :
    Host.Outcome State Fault Refusal :=
  match s.faultRec with
  | some _ => .refused .faultRecorded
  | none =>
    let mask := s.maskFor c.cond
    match op s mask with
    | .fail warns e => .next ((s.warn (s.condWarns c.cond ++ warns)).raiseAt s.slot e)
    | .done warns effects =>
      let t := (s.warn (s.condWarns c.cond ++ warns)).stage (s.slotOut mask) effects
      .next (if c.eob then t.close else t)

/-! ## Addressing (R84 to R88, R290) -/

/-- `bitrev16(a)` (R88). -/
def bitrev16 (a : Half) : Half := a.reverse

/-- The effective address of a post-modify access through Ik (R84). -/
def State.postAddr (s : State) (k : Fin 8) : Nat :=
  (if s.bitRev then bitrev16 (s.lat (.i k)) else s.lat (.i k)).toNat

/-- The circular wrap of R85, applied once. -/
def circular (len base nv : Int) : Int :=
  if len = 0 then nv
  else if base + len ≤ nv then nv - len
  else if nv < base then nv + len
  else nv

/-- The value `update_address_register` gives Ik after a step by Mm (R85, R299). -/
def State.stepped (s : State) (k m : Fin 8) : Half :=
  wrap16 (circular (s.lat (.l k)).toNat (s.lat (.b k)).toNat
    ((s.lat (.i k)).toNat + (s.lat (.m m)).toInt))

/-! ## Memory accesses (R75 to R83) -/

/-- The address has an entry, or an earlier operation of the bundle creates it (log 11). -/
def State.hasEntry (s : State) (a : Nat) : Bool :=
  (s.mem.find a).isSome || s.staged.any fun ws => ws.contains (.memTouch a)

/-- The creation warning of an access to `a` (R75, R77). -/
def State.createWarns (s : State) (a : Nat) : List Warn :=
  if s.hasEntry a then [] else [.undefCreate a]

/-- The lanes of `js` that are UNDEF at `a`. -/
def State.undefLanes (s : State) (a : Nat) (js : List Lane) : List Lane :=
  js.filter fun j => (s.memLane a j).isNone

/-- The value a load delivers for lane `j` of word `a`: `sext_12` of the word, or a free value where it is
UNDEF (R83, R89, log 4); `n` tells the words of a double-word load apart. -/
def State.loadLane (s : State) (a n : Nat) (j : Lane) : Int :=
  match s.memLane a j with
  | some v => v.toInt
  | none => (Config.freeWord s.draws n j).toInt

/-- `MemWrite(a, v, q)` for an operation: the lanes stored are the executing ones (R77, R78). -/
def State.storeWrites (s : State) (mask : PerLane Bool) (a : Nat) (v : Lane → Int) : List Write :=
  .memTouch a :: (s.execLanes mask).flatMap fun j => [.mem a j (wrap12 (v j))]

end Sys2Proof.Machine
end

