-- ==== Sys2Proof/Machine/Operands.lean ====
section
/-! DEFINITION. The value of every operand form (10_state.md R40; 30_encoding.md R115; 41_alu.md R180, R203;
43_mac.md R241; 44_shift.md R271, R272, R280) and the writes of one destination form (R41 to R44). -/

namespace Sys2Proof.Machine

/-! ## Registers as sources (R40) -/

/-- The hazard-tracked register a handle names, if it names one (R55). -/
def hazOf : Handle → Option HazReg
  | .i k => some (.i k)
  | .m k => some (.m k)
  | .l k => some (.l k)
  | .b k => some (.b k)
  | .cntr => some .cntr
  | .mstat => some .mstat
  | _ => none

/-- The registers a read of `h` reads through `lat` (R141). -/
def hazReads (h : Handle) : List HazReg := (hazOf h).toList

/-- What a read of SSTAT returns: the input, its unused bit 3 reading 0 (R37, R40, log 14). -/
def State.sstat (s : State) : BitVec 8 := s.sstatIn &&& 0xF7#8

/-- Lane `j` of the value of a register, as the integer of R40. NONE has no value, and nothing reads it: a
decoded source is never NONE (R107), and `State.hostRead` answers `E_REG` (R40). -/
def State.readLane (s : State) (h : Handle) (j : Lane) : Int :=
  match h with
  | .r k => (s.reg k j).toInt
  | .acc n => (s.accWord n j).toInt
  | .accH n => (s.accLane n j).h.toInt
  | .accM n => (s.accLane n j).m.toInt
  | .accL n => (s.accLane n j).l.toInt
  | .i k => (s.lat (.i k)).toNat
  | .m k => (s.lat (.m k)).toInt
  | .l k => (s.lat (.l k)).toNat
  | .b k => (s.lat (.b k)).toNat
  | .cntr => (s.lat .cntr).toNat
  | .lpever => s.lpever.toNat
  | .pcstack => s.pcstack.toNat
  | .lpstack => s.lpstack.toNat
  | .mstat => (s.lat .mstat).toNat
  | .sstat => s.sstat.toNat
  | .icntl => s.icntl.toNat
  | .imask => s.imask.toNat
  | .irptl => s.irptl.toNat
  | .ivec k => (s.ivec.get k).toNat
  | .dstat0 => s.en.toNat
  | .dstat1 => s.master.toNat
  | .did => j.val
  | .umcount => (s.umcount.get j).toInt
  | .astat c => (s.flags c j).bits.toNat
  | .noReg => 0

/-! ## Second operands -/

/-- `b` of an ALU operation: SB as `sext_12`, or `sext_16(IMM)` (R180). -/
def State.srcInt (s : State) (b : Src) (j : Lane) : Int :=
  match b with
  | .reg k => (s.reg k j).toInt
  | .imm v => v.toInt

/-- The bit index or rotation count: SB as `sext_12`, or `zext_16(IMM)` (R198, R224). -/
def State.srcIndex (s : State) (b : Src) (j : Lane) : Int :=
  match b with
  | .reg k => (s.reg k j).toInt
  | .imm v => v.toNat

/-- A bit index names no bit (R198). -/
def badIndex (k : Int) : Bool := decide (k < 0) || decide (11 < k)

/-- `b` of ADD.A and SUB.A (R203). -/
def State.accSrcInt (s : State) (b : AccSrc) (j : Lane) : Int :=
  match b with
  | .acc n => (s.accWord n j).toInt
  | .reg k => (s.reg k j).toInt
  | .imm v => v.toInt

/-! ## MAC factors (R113, R241) -/

/-- The SA letter of a sign mode is S (R113). -/
def signedA : SignMode → Bool
  | .ss | .su => true
  | .us | .uu => false

/-- The SB letter of a sign mode is S (R113). -/
def signedB : SignMode → Bool
  | .ss | .us => true
  | .su | .uu => false

/-- A factor with its letter: `sext_12` for S, `zext_12` for U (R241). -/
def factor (signed : Bool) (v : Data) : Int := if signed then v.toInt else v.toNat

/-! ## Shift sources and amounts (R271, R272, R280) -/

/-- The source of an arithmetic shift: `sext_12` or `sext_32` (R271). -/
def State.shiftSigned (s : State) (a : ShiftSrc) (j : Lane) : Int :=
  match a with
  | .reg k => (s.reg k j).toInt
  | .acc n => (s.accWord n j).toInt

/-- The source of a logical shift: `zext_12` or the 32-bit pattern (R271). -/
def State.shiftUnsigned (s : State) (a : ShiftSrc) (j : Lane) : Int :=
  match a with
  | .reg k => (s.reg k j).toNat
  | .acc n => (s.accWord n j).toNat

/-- `sgn`, the sign of a shift's source (R271). -/
def State.shiftSign (s : State) (a : ShiftSrc) (j : Lane) : Bool :=
  match a with
  | .reg k => (s.reg k j).msb
  | .acc n => (s.accWord n j).msb

/-- The real part of a complex shift's source. -/
def shiftRe : ShiftPair → ShiftSrc
  | .regs p => .reg p.re
  | .accs p => .acc p.re

/-- The imaginary part of a complex shift's source. -/
def shiftIm : ShiftPair → ShiftSrc
  | .regs p => .reg p.im
  | .accs p => .acc p.im

/-- The real amount of a complex shift (R280). -/
def State.amountRe (s : State) (n : AmountPair) (j : Lane) : Int :=
  match n with
  | .regs p => (s.reg p.re j).toInt
  | .imm v => immReal v

/-- The imaginary amount of a complex shift (R280). -/
def State.amountIm (s : State) (n : AmountPair) (j : Lane) : Int :=
  match n with
  | .regs p => (s.reg p.im j).toInt
  | .imm v => immImag v

/-! ## Addressing forms (R290) -/

/-- A direct address, or a post-modify access through Ik that steps by Mm (R290). -/
inductive Addr where
  | direct (a : Half)
  | post (k m : Fin 8)
deriving DecidableEq, Repr

/-- The effective address (R290). -/
def State.effAddr (s : State) (x : Addr) : Nat :=
  match x with
  | .direct a => a.toNat
  | .post k _ => s.postAddr k

/-- The registers that forming the address reads through `lat` (R84). -/
def addrReads : Addr → List HazReg
  | .direct _ => []
  | .post k _ => [.i k, .mstat]

/-- The registers that the post-modify update reads after the access (R85). -/
def stepReads : Addr → List HazReg
  | .direct _ => []
  | .post k m => [.m m, .l k, .b k]

/-- The address is odd (R80). -/
def oddAddr (a : Nat) : Bool := a % 2 == 1

/-- The registers that reaching a double word reads: an odd address consults UMA_EN (R80). -/
def pairReads (x : Addr) (a : Nat) : List HazReg :=
  addrReads x ++ (if oddAddr a then [.mstat] else [])

/-! ## Lanes of a cross-lane transfer (R321, R322) -/

/-- Lane `(j + off) mod act` (R321, R322). -/
def otherLane (act : XAct) (off : Fin 4) (j : Lane) : Lane :=
  match act with
  | .two => ⟨(j.val + off.val) % 2, by omega⟩
  | .four => ⟨(j.val + off.val) % 4, by omega⟩

/-- The executing lanes whose target lane is enabled: the ones whose value XWR writes (R322,
log 28). -/
def State.xwrLanes (s : State) (mask : PerLane Bool) (act : XAct) (off : Fin 4) : List Lane :=
  (s.execLanes mask).filter fun j => s.enabled (otherLane act off j)

/-! ## Destinations -/

/-- The effects of writing the values `v` to a handle (R41 to R44). -/
def State.destWrites (s : State) (mask : PerLane Bool) (h : Handle) (v : Lane → Int) : List Write :=
  (s.usedLanes mask h).flatMap fun j => h.writes j (v j)

/-- The error a write to a handle raises: DID is read-only (R41), where some lane would be written
(log 12). -/
def State.destError (s : State) (mask : PerLane Bool) (h : Handle) : Bool :=
  h == .did && s.execAny mask

/-- The effect of writing lane `j` of an optional R register; NONE has none (R44, R182). -/
def regWrite (dst : Option (Fin 32)) (j : Lane) (v : Data) : List Write :=
  match dst with
  | some k => [.reg k j v]
  | none => []

/-- The effect of writing lane `j` of an optional accumulator; NONE has none (R44, R247). -/
def accWrite (dst : Option (Fin 8)) (j : Lane) (v : AccWord) : List Write :=
  match dst with
  | some n => [.acc n j .whole v]
  | none => []

/-- The real register of an optional R pair. -/
def regRe (dst : Option RPair) : Option (Fin 32) := dst.map RPair.re

/-- The imaginary register of an optional R pair. -/
def regIm (dst : Option RPair) : Option (Fin 32) := dst.map RPair.im

/-- The real accumulator of an optional pair. -/
def accRe (dst : Option AccPair) : Option (Fin 8) := dst.map AccPair.re

/-- The imaginary accumulator of an optional pair. -/
def accIm (dst : Option AccPair) : Option (Fin 8) := dst.map AccPair.im

end Sys2Proof.Machine
end

