-- ==== Sys2Proof/Machine/Reads.lean ====
section
/-! DEFINITION. Which places each operation reads (R64, R143, R335): the operand fetch of 41_alu.md to
46_move_xlane.md as a list of places, in the order of the pseudocode, and one operation of a bundle with
its reads checked (log 29). -/

namespace Sys2Proof.Machine

/-! ## The places of one operand -/

/-- The fields of lane `j` of ACCn. -/
def accPlaces (n : Fin 8) (j : Lane) : List Place := [.acc n j .h, .acc n j .m, .acc n j .l]

/-- The places that a read of a handle reads in lane `j`: none for SSTAT, DSTAT0, DSTAT1, DID, UMCOUNT and
the ASTAT registers, which are never unspecified (R40, R63). -/
def State.handlePlaces (s : State) (h : Handle) (j : Lane) : List Place :=
  match h with
  | .r k => [.reg k j]
  | .acc n => accPlaces n j
  | .accH n => [.acc n j .h]
  | .accM n => [.acc n j .m]
  | .accL n => [.acc n j .l]
  | .i k => [s.latPlace (.i k)]
  | .m k => [s.latPlace (.m k)]
  | .l k => [s.latPlace (.l k)]
  | .b k => [s.latPlace (.b k)]
  | .cntr => [s.latPlace .cntr]
  | .mstat => [s.latPlace .mstat]
  | .lpever => [.ctl .lpever]
  | .pcstack => [.ctl .pcstack]
  | .lpstack => [.ctl .lpstack]
  | .icntl => [.ctl .icntl]
  | .imask => [.ctl .imask]
  | .irptl => [.ctl .irptl]
  | .ivec k => [.ctl (.ivec k)]
  | .sstat | .dstat0 | .dstat1 | .did | .umcount | .astat _ | .noReg => []

/-- The places of an R pair in lane `j`. -/
def pairPlaces (p : RPair) (j : Lane) : List Place := [.reg p.re j, .reg p.im j]

/-- The places of an R or immediate operand in lane `j`. -/
def srcPlaces (b : Src) (j : Lane) : List Place :=
  match b with
  | .reg k => [.reg k j]
  | .imm _ => []

/-- The places of the second operand of ADD.A and SUB.A in lane `j`. -/
def accSrcPlaces (b : AccSrc) (j : Lane) : List Place :=
  match b with
  | .acc n => accPlaces n j
  | .reg k => [.reg k j]
  | .imm _ => []

/-- The places of the destination as a source, none for NONE (R245, R273). -/
def priorPlaces (dst : Option (Fin 8)) (j : Lane) : List Place :=
  match dst with
  | some n => accPlaces n j
  | none => []

/-- The places of a pair of destinations as sources (R255). -/
def priorPairPlaces (dst : Option AccPair) (j : Lane) : List Place :=
  priorPlaces (accRe dst) j ++ priorPlaces (accIm dst) j

/-- The places of a real shift's source in lane `j`. -/
def shiftPlaces (a : ShiftSrc) (j : Lane) : List Place :=
  match a with
  | .reg k => [.reg k j]
  | .acc n => accPlaces n j

/-- The place of the real amount of a complex shift in lane `j`, none for an immediate. -/
def amountRePlaces (n : AmountPair) (j : Lane) : List Place :=
  match n with
  | .regs p => [.reg p.re j]
  | .imm _ => []

/-- The place of the imaginary amount of a complex shift in lane `j`, none for an immediate. -/
def amountImPlaces (n : AmountPair) (j : Lane) : List Place :=
  match n with
  | .regs p => [.reg p.im j]
  | .imm _ => []

/-- The places of a complex shift in lane `j`, part by part (R280). -/
def shiftPairPlaces (a : ShiftPair) (n : AmountPair) (j : Lane) : List Place :=
  shiftPlaces (shiftRe a) j ++ amountRePlaces n j ++ shiftPlaces (shiftIm a) j ++ amountImPlaces n j

/-- The place that the mode bits are read from (R36, R141). -/
def State.modePlace (s : State) : Place := s.latPlace .mstat

/-- The places of `(pr, pi)` of the full complex MAC forms in lane `j`, in the order in which R253 names
them; the first `P` reads M_MODE after its factors (R241). -/
def State.productPlacesC (s : State) (sa sb : RPair) (j : Lane) : List Place :=
  [.reg sa.re j, .reg sb.re j, s.modePlace, .reg sa.im j, .reg sb.im j]

/-- The places of `(pr, pi)` of the real-by-complex MAC forms in lane `j`, in the order in which R257 names
them. -/
def State.productPlacesRC (s : State) (sa : Fin 32) (sb : RPair) (j : Lane) : List Place :=
  [.reg sa j, .reg sb.re j, s.modePlace, .reg sb.im j]

/-- The lanes up to the first one whose bit index names no bit: the lanes a bit operation comes to (R198,
R339). -/
def State.bitLanes (s : State) (b : Src) (js : List Lane) : List Lane :=
  match js with
  | [] => []
  | j :: js => if badIndex (s.srcIndex b j) then [j] else j :: s.bitLanes b js

/-- The places of a bit operation in lane `j`: the modes only where the index names a bit (R162, R198). -/
def State.bitPlaces (s : State) (sa : Fin 32) (b : Src) (j : Lane) : List Place :=
  .reg sa j :: srcPlaces b j ++ if badIndex (s.srcIndex b j) then [] else [s.modePlace]

/-- The places of the registers `hs` that a scalar side effect reads, under `exec_any` (R84, R85, R134). -/
def State.scalarPlaces (s : State) (mask : PerLane Bool) (hs : List HazReg) : List Place :=
  if s.execAny mask then hs.map s.latPlace else []

/-! ## The places of a whole operation -/

/-- The places that an operation reads before the checks its rule makes, apart from its condition, in the
order of its pseudocode: sources, modes and prior values in the lanes whose result is used (R133, R156).
DESIGN CHOICE: one executing lane after the other, in ascending order (log 29). -/
def State.sourcePlaces (s : State) (mask : PerLane Bool) (i : Instr) : List Place :=
  let lanes := s.execLanes mask
  match i with
  | .add _ _ sa b | .addc _ _ sa b | .sub _ _ sa b | .subc _ _ sa b | .subb _ _ sa b | .subbc _ _ sa b
  | .and _ _ sa b | .or _ _ sa b | .xor _ _ sa b | .scr _ _ sa b =>
    lanes.flatMap fun j => .reg sa j :: srcPlaces b j ++ [s.modePlace]
  | .not _ _ sa | .abs _ _ sa | .inc _ _ sa | .dec _ _ sa => lanes.flatMap fun j => [.reg sa j, s.modePlace]
  | .tstbit _ _ sa b | .setbit _ _ sa b | .clrbit _ _ sa b | .tglbit _ _ sa b =>
    (s.bitLanes b lanes).flatMap fun j => s.bitPlaces sa b j
  | .addA _ _ sa b | .subA _ _ sa b =>
    lanes.flatMap fun j => accPlaces sa j ++ accSrcPlaces b j ++ [s.modePlace]
  | .addC _ _ sa sb | .subC _ _ sa sb =>
    lanes.flatMap fun j => [.reg sa.re j, .reg sb.re j, s.modePlace, .reg sa.im j, .reg sb.im j]
  | .rccwC _ _ sa b | .rcwC _ _ sa b =>
    lanes.flatMap fun j => pairPlaces sa j ++ srcPlaces b j ++ [s.modePlace]
  | .magC _ _ sa => lanes.flatMap fun j => pairPlaces sa j ++ [s.modePlace]
  | .rectC _ _ sa sb => lanes.flatMap fun j => [.reg sa j, .reg sb j]
  | .mpy _ _ sa sb _ _ => lanes.flatMap fun j => [.reg sa j, .reg sb j, s.modePlace]
  | .mac _ dst sa sb _ _ | .mas _ dst sa sb _ _ =>
    lanes.flatMap fun j => [.reg sa j, .reg sb j, s.modePlace] ++ priorPlaces dst j
  | .mpyC _ _ sa sb _ _ => lanes.flatMap fun j => s.productPlacesC sa sb j
  | .macC _ dst sa sb _ _ | .masC _ dst sa sb _ _ =>
    lanes.flatMap fun j => s.productPlacesC sa sb j ++ priorPairPlaces dst j
  | .mpyRC _ _ sa sb _ _ => lanes.flatMap fun j => s.productPlacesRC sa sb j
  | .macRC _ dst sa sb _ _ | .masRC _ dst sa sb _ _ =>
    lanes.flatMap fun j => s.productPlacesRC sa sb j ++ priorPairPlaces dst j
  | .rndacc _ _ sa => lanes.flatMap fun j => accPlaces sa j ++ [s.modePlace]
  | .ashift _ _ sa n _ _ | .lshift _ _ sa n _ _ =>
    lanes.flatMap fun j => shiftPlaces sa j ++ srcPlaces n j
  | .ashiftor _ dst sa n _ _ | .lshiftor _ dst sa n _ _ =>
    lanes.flatMap fun j => shiftPlaces sa j ++ srcPlaces n j ++ priorPlaces dst j
  | .ashiftC _ _ sa n _ _ | .lshiftC _ _ sa n _ _ => lanes.flatMap fun j => shiftPairPlaces sa n j
  | .ldPost _ _ k m => s.scalarPlaces mask (addrReads (.post k m))
  | .stDirect _ src _ => lanes.flatMap fun j => s.handlePlaces src j
  | .stPost _ src k m =>
    s.scalarPlaces mask (addrReads (.post k m)) ++ lanes.flatMap fun j => s.handlePlaces src j
  | .lddDirect _ _ a | .stdDirect _ _ a => s.scalarPlaces mask (pairReads (.direct a) a.toNat)
  | .lddPost _ _ k m | .stdPost _ _ k m => s.scalarPlaces mask (pairReads (.post k m) (s.postAddr k))
  | .modify _ k m => s.scalarPlaces mask [.i k, .m m, .l k, .b k]
  | .mov _ dst src => (s.usedLanes mask dst).flatMap fun j => s.handlePlaces src j
  | .xrd _ _ src act off =>
    if s.cfg.xlaneFits act off then lanes.map fun j => .reg src (otherLane act off j) else []
  | .xwr _ _ src act off =>
    if s.cfg.xlaneFits act off then (s.xwrLanes mask act off).map fun j => .reg src j else []
  | .clracc _ _ | .ldDirect _ _ _ | .ldi _ _ _ | .nop _ => []

/-! ## What an operation does after its checks -/

/-- A read of a place, or a warning, in the part of an operation that follows its checks. -/
inductive Later where
  | read (p : Place)
  | warn (w : Warn)
deriving DecidableEq, Repr

/-- The place that is read, if it is a read. -/
def Later.place : Later → Option Place
  | .read p => some p
  | .warn _ => none

/-- The warning that is emitted, if it is one. -/
def Later.warning : Later → Option Warn
  | .read _ => none
  | .warn w => some w

/-- The warnings of reading `hs` after the registers `seen` have been read: one for each register not yet
read (log 10). -/
def State.laterWarns (s : State) (seen hs : List HazReg) : List Warn :=
  s.staleWarns (hs.filter fun h => !seen.contains h)

/-- The reads of the post-modify update, each after its W_STALE (R85, R140); `seen` are the registers that
the operation's source has read. -/
def State.stepLater (s : State) (seen : List HazReg) (x : Addr) : List Later :=
  (stepReads x).flatMap fun h => (s.laterWarns seen [h]).map .warn ++ [.read (s.latPlace h)]

/-- The two `MemWrite` of a double-word store, each after the register it stores is read (R77, R297). -/
def State.pairLater (s : State) (mask : PerLane Bool) (src : RPair) (a : Nat) : List Later :=
  ((s.execLanes mask).map fun j => .read (.reg src.re j)) ++ (s.createWarns a).map .warn
    ++ ((s.execLanes mask).map fun j => .read (.reg src.im j)) ++ (s.createWarns (a + 1)).map .warn

/-- What an operation reads and warns about after its checks, in order: the words a double-word store stores
(R297), and what the post-modify update steps by (R85). -/
def State.later (s : State) (mask : PerLane Bool) (i : Instr) : List Later :=
  if s.execAny mask then
    match i with
    | .ldPost _ _ k m | .lddPost _ _ k m => s.stepLater [] (.post k m)
    | .stPost _ src k m => s.stepLater (hazReads src) (.post k m)
    | .stdDirect _ src a => s.pairLater mask src a.toNat
    | .stdPost _ src k m => s.pairLater mask src (s.postAddr k) ++ s.stepLater [] (.post k m)
    | .add _ _ _ _ | .addc _ _ _ _ | .sub _ _ _ _ | .subc _ _ _ _ | .subb _ _ _ _ | .subbc _ _ _ _
    | .and _ _ _ _ | .or _ _ _ _ | .xor _ _ _ _ | .not _ _ _ | .abs _ _ _ | .inc _ _ _ | .dec _ _ _
    | .tstbit _ _ _ _ | .setbit _ _ _ _ | .clrbit _ _ _ _ | .tglbit _ _ _ _ | .scr _ _ _ _
    | .addA _ _ _ _ | .subA _ _ _ _ | .addC _ _ _ _ | .subC _ _ _ _ | .rccwC _ _ _ _ | .rcwC _ _ _ _
    | .magC _ _ _ | .rectC _ _ _ _ | .mpy _ _ _ _ _ _ | .mac _ _ _ _ _ _ | .mas _ _ _ _ _ _
    | .mpyC _ _ _ _ _ _ | .macC _ _ _ _ _ _ | .masC _ _ _ _ _ _ | .mpyRC _ _ _ _ _ _
    | .macRC _ _ _ _ _ _ | .masRC _ _ _ _ _ _ | .rndacc _ _ _ | .clracc _ _ | .ashift _ _ _ _ _ _
    | .lshift _ _ _ _ _ _ | .ashiftor _ _ _ _ _ _ | .lshiftor _ _ _ _ _ _ | .ashiftC _ _ _ _ _ _
    | .lshiftC _ _ _ _ _ _ | .ldDirect _ _ _ | .stDirect _ _ _ | .lddDirect _ _ _ | .modify _ _ _
    | .mov _ _ _ | .ldi _ _ _ | .nop _ | .xrd _ _ _ _ _ | .xwr _ _ _ _ _ => []
  else []

/-- The places that an operation reads after its checks. -/
def State.laterPlaces (s : State) (mask : PerLane Bool) (i : Instr) : List Place :=
  (s.later mask i).filterMap Later.place

/-- The warnings that come after the read of `p`. -/
def warnsAfter (p : Place) (xs : List Later) : List Warn :=
  (xs.dropWhile (· != .read p)).filterMap Later.warning

/-! ## One operation with its reads checked -/

/-- The hazard-tracked register of a place, if it is one. -/
def Place.hazReg : Place → Option HazReg
  | .haz h _ => some h
  | _ => none

/-- The warnings of reading the places `ps` up to the first unspecified one (R140, R339). -/
def State.warnsUpTo (s : State) (p : Place) (ps : List Place) : List Warn :=
  s.staleWarns ((ps.takeWhile (· != p) ++ [p]).filterMap Place.hazReg)

/-- An operation with its reads checked (R64, R335): under `UNINIT_READ = fault` the first read of an
unspecified place raises `F_UNINIT` and keeps the warnings emitted before it (R331); under `draw` the operation
reads a free value there (logs 3 and 29). -/
def checked (i : Instr) (op : State → PerLane Bool → OpResult) (s : State) (mask : PerLane Bool) : OpResult :=
  match s.firstUnset (s.condPlaces i.ctl.cond) with
  | some p => .fail [] (fUninit p)
  | none =>
    match s.firstUnset (s.sourcePlaces mask i) with
    | some p => .fail (s.warnsUpTo p (s.sourcePlaces mask i)) (fUninit p)
    | none =>
      match op s.drawn mask with
      | .fail warns e => .fail warns e
      | .done warns effects =>
        match s.firstUnset (s.laterPlaces mask i) with
        | some p => .fail (warns.take (warns.length - (warnsAfter p (s.later mask i)).length)) (fUninit p)
        | none => .done warns effects

/-- One operation of a bundle, with its reads checked. -/
def perform (i : Instr) (op : State → PerLane Bool → OpResult) (s : State) :
    Host.Outcome State Fault Refusal :=
  issue i.ctl (checked i op) s

end Sys2Proof.Machine
end

