-- ==== Sys2Proof/Machine/Alu.lean ====
section
/-! DEFINITION. The ALU operations on real data, TYPE 0, and against an accumulator, TYPE 1 (41_alu.md). -/

namespace Sys2Proof.Machine

/-! ## Results of one lane -/

/-- The result of a 12-bit-family operation in one lane: r before saturation, its overflow and carry, and
AS where the operation writes it (R181, R182). -/
structure AluOut where
  r : Data
  ov : Bool
  c : Bool
  as : Option Bool := none
deriving DecidableEq, Repr

/-- The flags of a 12-bit result, before sticky overflow (R169, R181). -/
def AluOut.flags (o : AluOut) : FlagUpd :=
  { az := some (decide (o.r = 0#12)), an := some o.r.msb, av := some o.ov, ac := some o.c, as := o.as }

/-- `a + b + k`, with a carry-in k (R185, R186, R196). -/
def aluSum (a b k : Int) : AluOut :=
  { r := wrap12 (a + b + k), ov := ov12Add a b (wrap12 (a + b + k)),
    c := carry12 (zext12 a + zext12 b + k) }

/-- `x - y + k` (R187 to R190, R197). -/
def aluDiff (x y k : Int) : AluOut :=
  { r := wrap12 (x - y + k), ov := ov12Sub x y (wrap12 (x - y + k)),
    c := carry12 (zext12 x - zext12 y + k) }

/-- A result that neither overflows nor carries (R191 to R194, R198 to R201). -/
def aluPlain (r : Data) : AluOut := { r := r, ov := false, c := false }

/-- `-x` with the 12-bit subtraction test and no carry (R202, R224). -/
def aluNeg (x : Int) : AluOut :=
  { r := wrap12 (-x), ov := ov12Sub 0 x (wrap12 (-x)), c := false }

/-- The carry-in term of SUBC and SUBBC (R168, R188, R190). -/
def subCarry (f : SubcForm) (ac : Bool) : Int :=
  match f with
  | .adsp => (ac.toNat : Int) - 1
  | .borrow => -(ac.toNat : Int)

/-- The bit `k` alone (R198). -/
def bitMask (k : Int) : Data := 1#12 <<< k.toNat

/-! ## Writing a 12-bit result (R182, R183, R162) -/

/-- The effects of a real ALU result in lane `j`: the saturated value to DST, the flags to ASTAT_R, the
flags also where DST is NONE (R184). -/
def State.aluWrite (s : State) (dst : Option (Fin 32)) (j : Lane) (o : AluOut) : List Write :=
  regWrite dst j (sat12 s.arSat o.r o.ov o.c)
    ++ [.flags .re j (o.flags.latchAv s.avLatch (s.flags .re j))]

/-- A real ALU operation: `f` gives the result of each executing lane. -/
def aluReal (dst : Option (Fin 32)) (f : State → Lane → AluOut) (s : State) (mask : PerLane Bool) : OpResult :=
  .done (if s.execAny mask then s.staleWarns [.mstat] else [])
    ((s.execLanes mask).flatMap fun j => s.aluWrite dst j (f s j))

/-! ## Arithmetic (R185 to R190) -/

/-- ADD (R185). -/
def execAdd (c : Ctl) (dst : Option (Fin 32)) (sa : Fin 32) (b : Src) (s : State) : Host.Outcome State Fault Refusal :=
  perform (.add c dst sa b) (aluReal dst fun s j => aluSum (s.reg sa j).toInt (s.srcInt b j) 0) s

/-- ADDC (R186). -/
def execAddc (c : Ctl) (dst : Option (Fin 32)) (sa : Fin 32) (b : Src) (s : State) : Host.Outcome State Fault Refusal :=
  perform (.addc c dst sa b) (aluReal dst fun s j =>
    aluSum (s.reg sa j).toInt (s.srcInt b j) ((s.flags .re j).ac.toNat : Int)) s

/-- SUB (R187). -/
def execSub (c : Ctl) (dst : Option (Fin 32)) (sa : Fin 32) (b : Src) (s : State) : Host.Outcome State Fault Refusal :=
  perform (.sub c dst sa b) (aluReal dst fun s j => aluDiff (s.reg sa j).toInt (s.srcInt b j) 0) s

/-- SUBC (R188). -/
def execSubc (c : Ctl) (dst : Option (Fin 32)) (sa : Fin 32) (b : Src) (s : State) : Host.Outcome State Fault Refusal :=
  perform (.subc c dst sa b) (aluReal dst fun s j =>
    aluDiff (s.reg sa j).toInt (s.srcInt b j) (subCarry s.cfg.subcForm (s.flags .re j).ac)) s

/-- SUBB (R189). -/
def execSubb (c : Ctl) (dst : Option (Fin 32)) (sa : Fin 32) (b : Src) (s : State) : Host.Outcome State Fault Refusal :=
  perform (.subb c dst sa b) (aluReal dst fun s j => aluDiff (s.srcInt b j) (s.reg sa j).toInt 0) s

/-- SUBBC (R190). -/
def execSubbc (c : Ctl) (dst : Option (Fin 32)) (sa : Fin 32) (b : Src) (s : State) : Host.Outcome State Fault Refusal :=
  perform (.subbc c dst sa b) (aluReal dst fun s j =>
    aluDiff (s.srcInt b j) (s.reg sa j).toInt (subCarry s.cfg.subcForm (s.flags .re j).ac)) s

/-! ## Logic (R191 to R194) -/

/-- AND (R191). -/
def execAnd (c : Ctl) (dst : Option (Fin 32)) (sa : Fin 32) (b : Src) (s : State) : Host.Outcome State Fault Refusal :=
  perform (.and c dst sa b) (aluReal dst fun s j => aluPlain (s.reg sa j &&& wrap12 (s.srcInt b j))) s

/-- OR (R192). -/
def execOr (c : Ctl) (dst : Option (Fin 32)) (sa : Fin 32) (b : Src) (s : State) : Host.Outcome State Fault Refusal :=
  perform (.or c dst sa b) (aluReal dst fun s j => aluPlain (s.reg sa j ||| wrap12 (s.srcInt b j))) s

/-- XOR (R193). -/
def execXor (c : Ctl) (dst : Option (Fin 32)) (sa : Fin 32) (b : Src) (s : State) : Host.Outcome State Fault Refusal :=
  perform (.xor c dst sa b) (aluReal dst fun s j => aluPlain (s.reg sa j ^^^ wrap12 (s.srcInt b j))) s

/-- NOT (R194). -/
def execNot (c : Ctl) (dst : Option (Fin 32)) (sa : Fin 32) (s : State) : Host.Outcome State Fault Refusal :=
  perform (.not c dst sa) (aluReal dst fun s j => aluPlain (~~~(s.reg sa j))) s

/-! ## Unary arithmetic (R195 to R197) -/

/-- The absolute value of `a`, with AS the sign of `a` (R195). -/
def aluAbs (a : Int) : AluOut :=
  { r := wrap12 (if a < 0 then -a else a), ov := decide (a = -2048), c := false,
    as := some (decide (a < 0)) }

/-- ABS (R195), the only operation that writes AS. -/
def execAbs (c : Ctl) (dst : Option (Fin 32)) (sa : Fin 32) (s : State) : Host.Outcome State Fault Refusal :=
  perform (.abs c dst sa) (aluReal dst fun s j => aluAbs (s.reg sa j).toInt) s

/-- INC (R196). -/
def execInc (c : Ctl) (dst : Option (Fin 32)) (sa : Fin 32) (s : State) : Host.Outcome State Fault Refusal :=
  perform (.inc c dst sa) (aluReal dst fun s j => aluSum (s.reg sa j).toInt 1 0) s

/-- DEC (R197). -/
def execDec (c : Ctl) (dst : Option (Fin 32)) (sa : Fin 32) (s : State) : Host.Outcome State Fault Refusal :=
  perform (.dec c dst sa) (aluReal dst fun s j => aluDiff (s.reg sa j).toInt 1 0) s

/-! ## Bit operations (R198 to R201) -/

/-- A bit operation: `E_REG` for the first executing lane whose index is outside 0..11 (R135, R198). The lanes
before it have read the modes (logs 10 and 29). -/
def bitOp (dst : Option (Fin 32)) (sa : Fin 32) (b : Src) (g : Data → Data → Data) (s : State) (mask : PerLane Bool) :
    OpResult :=
  match (s.execLanes mask).find? fun j => badIndex (s.srcIndex b j) with
  | some j =>
    .fail (if (s.execLanes mask).head? = some j then [] else s.staleWarns [.mstat]) (eRegValue (s.srcIndex b j))
  | none => aluReal dst (fun s j => aluPlain (g (s.reg sa j) (bitMask (s.srcIndex b j)))) s mask

/-- TSTBIT (R198). -/
def execTstbit (c : Ctl) (dst : Option (Fin 32)) (sa : Fin 32) (b : Src) (s : State) : Host.Outcome State Fault Refusal :=
  perform (.tstbit c dst sa b) (bitOp dst sa b fun a m => a &&& m) s

/-- SETBIT (R199). -/
def execSetbit (c : Ctl) (dst : Option (Fin 32)) (sa : Fin 32) (b : Src) (s : State) : Host.Outcome State Fault Refusal :=
  perform (.setbit c dst sa b) (bitOp dst sa b fun a m => a ||| m) s

/-- CLRBIT (R200). -/
def execClrbit (c : Ctl) (dst : Option (Fin 32)) (sa : Fin 32) (b : Src) (s : State) : Host.Outcome State Fault Refusal :=
  perform (.clrbit c dst sa b) (bitOp dst sa b fun a m => a &&& ~~~m) s

/-- TGLBIT (R201). -/
def execTglbit (c : Ctl) (dst : Option (Fin 32)) (sa : Fin 32) (b : Src) (s : State) : Host.Outcome State Fault Refusal :=
  perform (.tglbit c dst sa b) (bitOp dst sa b fun a m => a ^^^ m) s

/-- SCR: negate where bit 0 of b is set (R202). -/
def execScr (c : Ctl) (dst : Option (Fin 32)) (sa : Fin 32) (b : Src) (s : State) : Host.Outcome State Fault Refusal :=
  perform (.scr c dst sa b) (aluReal dst fun s j =>
    if (wrap12 (s.srcInt b j)).getLsbD 0 then aluNeg (s.reg sa j).toInt else aluPlain (s.reg sa j)) s

/-! ## Against an accumulator, TYPE 1 (R203 to R206) -/

/-- The flags of a TYPE 1 result `t` with carry `c`, before sticky overflow (R204). -/
def accFlags (w : OvfWidth) (t : Int) (c : Bool) : FlagUpd :=
  { az := some (decide (wrap32 t = 0#32)), an := some (wrap32 t).msb, av := some (ov32 w t),
    ac := some c }

/-- The effects of a TYPE 1 result in lane `j`: never saturated (R204). -/
def State.accAluWrite (s : State) (dst : Option (Fin 8)) (j : Lane) (t : Int) (c : Bool) : List Write :=
  accWrite dst j (wrap32 t)
    ++ [.flags .re j ((accFlags s.cfg.accOvfWidth t c).latchAv s.avLatch (s.flags .re j))]

/-- A TYPE 1 operation: `f` gives the exact result and the carry of each executing lane. -/
def aluAcc (dst : Option (Fin 8)) (f : State → Lane → Int × Bool) (s : State) (mask : PerLane Bool) : OpResult :=
  .done (if s.execAny mask then s.staleWarns [.mstat] else [])
    ((s.execLanes mask).flatMap fun j => s.accAluWrite dst j (f s j).1 (f s j).2)

/-- `wrap_32` as an unsigned number. -/
def zext32 (t : Int) : Int := (wrap32 t).toNat

/-- ADD.A (R205). -/
def execAddA (c : Ctl) (dst : Option (Fin 8)) (sa : Fin 8) (b : AccSrc) (s : State) : Host.Outcome State Fault Refusal :=
  perform (.addA c dst sa b) (aluAcc dst fun s j =>
    ((s.accWord sa j).toInt + s.accSrcInt b j,
      carry32 (zext32 (s.accWord sa j).toInt + zext32 (s.accSrcInt b j)))) s

/-- SUB.A (R206). -/
def execSubA (c : Ctl) (dst : Option (Fin 8)) (sa : Fin 8) (b : AccSrc) (s : State) : Host.Outcome State Fault Refusal :=
  perform (.subA c dst sa b) (aluAcc dst fun s j =>
    ((s.accWord sa j).toInt - s.accSrcInt b j,
      carry32 (zext32 (s.accWord sa j).toInt - zext32 (s.accSrcInt b j)))) s

end Sys2Proof.Machine
end

