-- ==== Sys2Proof/Machine/AluComplex.lean ====
section
/-! DEFINITION. The complex ALU operations (42_alu_complex.md). -/

namespace Sys2Proof.Machine

/-- The effects of a complex ALU result in lane `j` (R221): the two parts saturated on their own, their
flags in ASTAT_R and ASTAT_I, `COMBINE` of them in ASTAT_C, AV sticky in each copy (R160 to R162). -/
def State.pairWrite (s : State) (dst : Option RPair) (j : Lane) (re im : AluOut) : List Write :=
  regWrite (regRe dst) j (sat12 s.arSat re.r re.ov re.c)
    ++ regWrite (regIm dst) j (sat12 s.arSat im.r im.ov im.c)
    ++ [.flags .re j (re.flags.latchAv s.avLatch (s.flags .re j)),
        .flags .im j (im.flags.latchAv s.avLatch (s.flags .im j)),
        .flags .cx j ((combineFlags s.cfg.combine re.flags im.flags).latchAv s.avLatch (s.flags .cx j))]

/-- A complex ALU operation: `f` gives the real and the imaginary result of each executing lane. -/
def aluPair (dst : Option RPair) (f : State → Lane → AluOut × AluOut) (s : State) (mask : PerLane Bool) :
    OpResult :=
  .done (if s.execAny mask then s.staleWarns [.mstat] else [])
    ((s.execLanes mask).flatMap fun j => s.pairWrite dst j (f s j).1 (f s j).2)

/-- ADD.C (R222). -/
def execAddC (c : Ctl) (dst : Option RPair) (sa sb : RPair) (s : State) : Host.Outcome State Fault Refusal :=
  perform (.addC c dst sa sb) (aluPair dst fun s j =>
    (aluSum (s.reg sa.re j).toInt (s.reg sb.re j).toInt 0,
      aluSum (s.reg sa.im j).toInt (s.reg sb.im j).toInt 0)) s

/-- SUB.C (R223). -/
def execSubC (c : Ctl) (dst : Option RPair) (sa sb : RPair) (s : State) : Host.Outcome State Fault Refusal :=
  perform (.subC c dst sa sb) (aluPair dst fun s j =>
    (aluDiff (s.reg sa.re j).toInt (s.reg sb.re j).toInt 0,
      aluDiff (s.reg sa.im j).toInt (s.reg sb.im j).toInt 0)) s

/-- A quarter-turn count: the low 2 bits of b (R224). -/
def turns (b : Int) : BitVec 2 := BitVec.ofInt 2 b

/-- The parts of `(x + jy) * j^k` (R224, R226). -/
def rotated (k : BitVec 2) (x y : Data) : AluOut × AluOut :=
  match k.toNat with
  | 0 => (aluPlain x, aluPlain y)
  | 1 => (aluNeg y.toInt, aluPlain x)
  | 2 => (aluNeg x.toInt, aluNeg y.toInt)
  | _ => (aluPlain y, aluNeg x.toInt)

/-- RCCW.C: counter-clockwise, by `j^k` (R224). -/
def execRccwC (c : Ctl) (dst : Option RPair) (sa : RPair) (b : Src) (s : State) : Host.Outcome State Fault Refusal :=
  perform (.rccwC c dst sa b) (aluPair dst fun s j =>
    rotated (turns (s.srcIndex b j)) (s.reg sa.re j) (s.reg sa.im j)) s

/-- RCW.C: clockwise, by `(-j)^k`, which is `j^(-k)` (R225). -/
def execRcwC (c : Ctl) (dst : Option RPair) (sa : RPair) (b : Src) (s : State) : Host.Outcome State Fault Refusal :=
  perform (.rcwC c dst sa b) (aluPair dst fun s j =>
    rotated (-turns (s.srcIndex b j)) (s.reg sa.re j) (s.reg sa.im j)) s

/-- The result of a magnitude `m` (R227). -/
def magnitude (m : Int) : AluOut :=
  { r := wrap12 m, ov := decide (m < -2048) || decide (2047 < m), c := carry12 m }

/-- The effects of MAG.C in lane `j`: its flags go to ASTAT_R and ASTAT_C (R227). -/
def State.magWrite (s : State) (dst : Option (Fin 32)) (j : Lane) (o : AluOut) : List Write :=
  regWrite dst j (sat12 s.arSat o.r o.ov o.c)
    ++ [.flags .re j (o.flags.latchAv s.avLatch (s.flags .re j)),
        .flags .cx j (o.flags.latchAv s.avLatch (s.flags .cx j))]

/-- MAG.C against the pre-bundle state (R227). -/
def magOp (dst : Option (Fin 32)) (sa : RPair) (s : State) (mask : PerLane Bool) : OpResult :=
  .done (if s.execAny mask then s.staleWarns [.mstat] else [])
    ((s.execLanes mask).flatMap fun j =>
      s.magWrite dst j (magnitude (Config.cordicVector (s.reg sa.re j).toInt (s.reg sa.im j).toInt)))

/-- MAG.C (R227). -/
def execMagC (c : Ctl) (dst : Option (Fin 32)) (sa : RPair) (s : State) : Host.Outcome State Fault Refusal :=
  perform (.magC c dst sa) (magOp dst sa) s

/-- RECT.C against the pre-bundle state: wrapped, never saturated, no flag (R228). -/
def rectOp (dst : Option RPair) (sa sb : Fin 32) (s : State) (mask : PerLane Bool) : OpResult :=
  .done []
    ((s.execLanes mask).flatMap fun j =>
      regWrite (regRe dst) j (wrap12 (Config.cordicRotate (s.reg sa j).toInt (s.reg sb j).toInt).1)
        ++ regWrite (regIm dst) j
          (wrap12 (Config.cordicRotate (s.reg sa j).toInt (s.reg sb j).toInt).2))

/-- RECT.C (R228). -/
def execRectC (c : Ctl) (dst : Option RPair) (sa sb : Fin 32) (s : State) : Host.Outcome State Fault Refusal :=
  perform (.rectC c dst sa sb) (rectOp dst sa sb) s

end Sys2Proof.Machine
end

