-- ==== Sys2Proof/Machine/Mac.lean ====
section
/-! DEFINITION. The MAC operations, TYPE 3 (43_mac.md). -/

namespace Sys2Proof.Machine

/-! ## The product, the sum and the rounding (R241 to R247) -/

/-- `P(u, v)`: the product of the converted factors, doubled in fractional mode (R241, R244). -/
def State.product (s : State) (mode : SignMode) (u v : Data) : Int :=
  factor (signedA mode) u * factor (signedB mode) v * (if s.mMode then 1 else 2)

/-- `rnd(x)` on a 32-bit pattern (R242). -/
def rnd32 (unbiased : Bool) (x : AccWord) : AccWord :=
  if unbiased && decide (x &&& 0xFFF#32 = 0x800#32) then (x + 0x800#32) &&& ~~~0x1000#32
  else x + 0x800#32

/-- The accumulate term: the destination's value, 0 for NONE (R245). -/
def State.accTerm (s : State) (dst : Option (Fin 8)) (j : Lane) : Int :=
  match dst with
  | some n => (s.accWord n j).toInt
  | none => 0

/-- What a sum is written as: rounded where RND = 1 (R243, R247). -/
def State.macValue (s : State) (rnd : Bool) (t : Int) : AccWord :=
  if rnd then rnd32 s.urnd (wrap32 t) else wrap32 t

/-- One increment of OVCNT for an overflowing part (R246). -/
def ovCount (j : Lane) (ov : Bool) : List Write := if ov then [.ovInc j] else []

/-- The update of MV alone (R248). -/
def mvFlag (ov : Bool) : FlagUpd := { mv := some ov }

/-- The effects of a real sum `t` in lane `j` (R245 to R248). -/
def State.macWrite (s : State) (dst : Option (Fin 8)) (rnd : Bool) (j : Lane) (t : Int) : List Write :=
  accWrite dst j (s.macValue rnd t)
    ++ .flags .re j (mvFlag (ov32 s.cfg.accOvfWidth t)) :: ovCount j (ov32 s.cfg.accOvfWidth t)

/-- A real MAC operation: `f` gives the exact sum of each executing lane. -/
def macReal (dst : Option (Fin 8)) (rnd : Bool) (f : State → Lane → Int) (s : State)
    (mask : PerLane Bool) : OpResult :=
  .done (if s.execAny mask then s.staleWarns [.mstat] else [])
    ((s.execLanes mask).flatMap fun j => s.macWrite dst rnd j (f s j))

/-! ## Real multiply (R250 to R252) -/

/-- MPY (R250). -/
def execMpy (c : Ctl) (dst : Option (Fin 8)) (sa sb : Fin 32) (mode : SignMode) (rnd : Bool)
    (s : State) : Host.Outcome State Fault Refusal :=
  perform (.mpy c dst sa sb mode rnd) (macReal dst rnd fun s j => s.product mode (s.reg sa j) (s.reg sb j)) s

/-- MAC (R251). -/
def execMac (c : Ctl) (dst : Option (Fin 8)) (sa sb : Fin 32) (mode : SignMode) (rnd : Bool)
    (s : State) : Host.Outcome State Fault Refusal :=
  perform (.mac c dst sa sb mode rnd) (macReal dst rnd fun s j => s.accTerm dst j + s.product mode (s.reg sa j) (s.reg sb j)) s

/-- MAS (R252). -/
def execMas (c : Ctl) (dst : Option (Fin 8)) (sa sb : Fin 32) (mode : SignMode) (rnd : Bool)
    (s : State) : Host.Outcome State Fault Refusal :=
  perform (.mas c dst sa sb mode rnd) (macReal dst rnd fun s j => s.accTerm dst j + -s.product mode (s.reg sa j) (s.reg sb j)) s

/-! ## Complex multiply (R253 to R260) -/

/-- The effects of the complex sums `t` and `u` in lane `j` (R246, R247, R253): MV in the three copies,
ASTAT_C's by `COMBINE` (R160). -/
def State.macPairWrite (s : State) (dst : Option AccPair) (rnd : Bool) (j : Lane) (t u : Int) :
    List Write :=
  accWrite (accRe dst) j (s.macValue rnd t) ++ accWrite (accIm dst) j (s.macValue rnd u)
    ++ [.flags .re j (mvFlag (ov32 s.cfg.accOvfWidth t)),
        .flags .im j (mvFlag (ov32 s.cfg.accOvfWidth u)),
        .flags .cx j (combineFlags s.cfg.combine (mvFlag (ov32 s.cfg.accOvfWidth t))
          (mvFlag (ov32 s.cfg.accOvfWidth u)))]
    ++ ovCount j (ov32 s.cfg.accOvfWidth t) ++ ovCount j (ov32 s.cfg.accOvfWidth u)

/-- A complex MAC operation: `f` gives the exact real and imaginary sums of each executing lane. -/
def macPair (dst : Option AccPair) (rnd : Bool) (f : State → Lane → Int × Int) (s : State)
    (mask : PerLane Bool) : OpResult :=
  .done (if s.execAny mask then s.staleWarns [.mstat] else [])
    ((s.execLanes mask).flatMap fun j => s.macPairWrite dst rnd j (f s j).1 (f s j).2)

/-- `(pr, pi)` of the full complex forms (R253). -/
def State.productC (s : State) (mode : SignMode) (sa sb : RPair) (j : Lane) : Int × Int :=
  (s.product mode (s.reg sa.re j) (s.reg sb.re j) - s.product mode (s.reg sa.im j) (s.reg sb.im j),
    s.product mode (s.reg sa.re j) (s.reg sb.im j) + s.product mode (s.reg sa.im j) (s.reg sb.re j))

/-- `(pr, pi)` of the real-by-complex forms (R257). -/
def State.productRC (s : State) (mode : SignMode) (sa : Fin 32) (sb : RPair) (j : Lane) : Int × Int :=
  (s.product mode (s.reg sa j) (s.reg sb.re j), s.product mode (s.reg sa j) (s.reg sb.im j))

/-- The accumulate terms of both parts plus `p` (R255). -/
def State.accPlus (s : State) (dst : Option AccPair) (j : Lane) (p : Int × Int) : Int × Int :=
  (s.accTerm (accRe dst) j + p.1, s.accTerm (accIm dst) j + p.2)

/-- The accumulate terms of both parts plus the negated `p` (R256). -/
def State.accMinus (s : State) (dst : Option AccPair) (j : Lane) (p : Int × Int) : Int × Int :=
  (s.accTerm (accRe dst) j + -p.1, s.accTerm (accIm dst) j + -p.2)

/-- MPY.C (R254). -/
def execMpyC (c : Ctl) (dst : Option AccPair) (sa sb : RPair) (mode : SignMode) (rnd : Bool)
    (s : State) : Host.Outcome State Fault Refusal :=
  perform (.mpyC c dst sa sb mode rnd) (macPair dst rnd fun s j => s.productC mode sa sb j) s

/-- MAC.C (R255). -/
def execMacC (c : Ctl) (dst : Option AccPair) (sa sb : RPair) (mode : SignMode) (rnd : Bool)
    (s : State) : Host.Outcome State Fault Refusal :=
  perform (.macC c dst sa sb mode rnd) (macPair dst rnd fun s j => s.accPlus dst j (s.productC mode sa sb j)) s

/-- MAS.C (R256). -/
def execMasC (c : Ctl) (dst : Option AccPair) (sa sb : RPair) (mode : SignMode) (rnd : Bool)
    (s : State) : Host.Outcome State Fault Refusal :=
  perform (.masC c dst sa sb mode rnd) (macPair dst rnd fun s j => s.accMinus dst j (s.productC mode sa sb j)) s

/-- MPY.RC (R258). -/
def execMpyRC (c : Ctl) (dst : Option AccPair) (sa : Fin 32) (sb : RPair) (mode : SignMode) (rnd : Bool)
    (s : State) : Host.Outcome State Fault Refusal :=
  perform (.mpyRC c dst sa sb mode rnd) (macPair dst rnd fun s j => s.productRC mode sa sb j) s

/-- MAC.RC (R259). -/
def execMacRC (c : Ctl) (dst : Option AccPair) (sa : Fin 32) (sb : RPair) (mode : SignMode) (rnd : Bool)
    (s : State) : Host.Outcome State Fault Refusal :=
  perform (.macRC c dst sa sb mode rnd) (macPair dst rnd fun s j => s.accPlus dst j (s.productRC mode sa sb j)) s

/-- MAS.RC (R260). -/
def execMasRC (c : Ctl) (dst : Option AccPair) (sa : Fin 32) (sb : RPair) (mode : SignMode) (rnd : Bool)
    (s : State) : Host.Outcome State Fault Refusal :=
  perform (.masRC c dst sa sb mode rnd) (macPair dst rnd fun s j => s.accMinus dst j (s.productRC mode sa sb j)) s

/-! ## Rounding and clearing an accumulator (R262, R263) -/

/-- The effects of RNDACC in lane `j` (R262). -/
def State.rndaccWrite (s : State) (dst : Option (Fin 8)) (sa : Fin 8) (j : Lane) : List Write :=
  accWrite dst j (rnd32 s.urnd (s.accWord sa j))
    ++ .flags .re j (mvFlag (ov32 s.cfg.accOvfWidth ((s.accWord sa j).toInt + 0x800)))
    :: ovCount j (ov32 s.cfg.accOvfWidth ((s.accWord sa j).toInt + 0x800))

/-- RNDACC against the pre-bundle state (R262). -/
def rndaccOp (dst : Option (Fin 8)) (sa : Fin 8) (s : State) (mask : PerLane Bool) : OpResult :=
  .done (if s.execAny mask then s.staleWarns [.mstat] else [])
    ((s.execLanes mask).flatMap fun j => s.rndaccWrite dst sa j)

/-- RNDACC (R262). -/
def execRndacc (c : Ctl) (dst : Option (Fin 8)) (sa : Fin 8) (s : State) : Host.Outcome State Fault Refusal :=
  perform (.rndacc c dst sa) (rndaccOp dst sa) s

/-- CLRACC against the pre-bundle state (R263). -/
def clraccOp (dst : Option (Fin 8)) (s : State) (mask : PerLane Bool) : OpResult :=
  .done []
    ((s.execLanes mask).flatMap fun j =>
      accWrite dst j 0#32 ++ [.flags .re j (mvFlag false)])

/-- CLRACC (R263). -/
def execClracc (c : Ctl) (dst : Option (Fin 8)) (s : State) : Host.Outcome State Fault Refusal :=
  perform (.clracc c dst) (clraccOp dst) s

end Sys2Proof.Machine
end

