-- ==== Sys2Proof/Machine/MemoryOps.lean ====
section
/-! DEFINITION. The loads, the stores and the address update (45_memory_ops.md). -/

namespace Sys2Proof.Machine

/-! ## The post-modify update -/

/-- The post-modify update (R85, R87). -/
def State.stepWrites (s : State) (x : Addr) : List Write :=
  match x with
  | .direct _ => []
  | .post k m => [.agu k (s.stepped k m)]

/-! ## Loading one word (R292, R293) -/

/-- The warnings of the lanes `js` that consume UNDEF at `a` (R76). -/
def State.undefWarns (s : State) (a : Nat) (js : List Lane) : List Warn :=
  (s.undefLanes a js).map fun j => .undefRead a j

/-- LD under `exec_any` (R292, R293): access, value, write, step. A load into NONE consumes no value (log 26).
DESIGN CHOICE: F_UNDEF carries the address of the word, where R83 and R335 name no information (log 9). -/
def loadWord (dst : Handle) (x : Addr) (s : State) (mask : PerLane Bool) : OpResult :=
  if s.execAny mask then
    let a := s.effAddr x
    let js := s.usedLanes mask dst
    let before := s.staleWarns (addrReads x) ++ s.createWarns a
    match s.cfg.undefRead, s.undefLanes a js with
    | .fault, j :: _ => .fail (before ++ [.undefRead a j]) ⟨.fUndef, .addr a⟩
    | _, _ =>
      if s.destError mask dst then .fail (before ++ s.undefWarns a js) eCombo
      else
        .done (before ++ s.undefWarns a js ++ (s.stepLater [] x).filterMap Later.warning)
          (.memTouch a :: s.destWrites mask dst (s.loadLane a 0) ++ s.stepWrites x)
  else .done [] []

/-- LD, direct (R292). -/
def execLdDirect (c : Ctl) (dst : Handle) (addr : Half)
    (s : State) : Host.Outcome State Fault Refusal :=
  perform (.ldDirect c dst addr) (loadWord dst (.direct addr)) s

/-- LD, post-modify (R293). -/
def execLdPost (c : Ctl) (dst : Handle) (k m : Fin 8) (s : State) : Host.Outcome State Fault Refusal :=
  perform (.ldPost c dst k m) (loadWord dst (.post k m)) s

/-! ## Storing one word (R294, R295) -/

/-- ST under `exec_any` (R294, R295). -/
def storeWord (src : Handle) (x : Addr) (s : State) (mask : PerLane Bool) : OpResult :=
  if s.execAny mask then
    let a := s.effAddr x
    .done
      (s.staleWarns (addrReads x ++ hazReads src) ++ s.createWarns a
        ++ (s.stepLater (hazReads src) x).filterMap Later.warning)
      (s.storeWrites mask a (s.readLane src) ++ s.stepWrites x)
  else .done [] []

/-- ST, direct (R294). -/
def execStDirect (c : Ctl) (src : Handle) (addr : Half)
    (s : State) : Host.Outcome State Fault Refusal :=
  perform (.stDirect c src addr) (storeWord src (.direct addr)) s

/-- ST, post-modify (R295). -/
def execStPost (c : Ctl) (src : Handle) (k m : Fin 8) (s : State) : Host.Outcome State Fault Refusal :=
  perform (.stPost c src k m) (storeWord src (.post k m)) s

/-! ## Double-word accesses (R80 to R82, R296, R297) -/

/-- The warning of an unaligned access that is performed (R80). -/
def unalignedWarns (a : Nat) : List Warn := if oddAddr a then [.unaligned a] else []

/-- The update of UM alone (R81). -/
def umFlag : FlagUpd := { um := some true }

/-- The UM and UMCOUNT effects of an unaligned access that is performed (R81). -/
def State.umWrites (s : State) (mask : PerLane Bool) (a : Nat) : List Write :=
  match s.cfg.umSource with
  | .unaligned =>
    if oddAddr a then
      (s.execLanes mask).flatMap fun j => [.flags .re j umFlag, .flags .cx j umFlag, .umInc j]
    else []
  | .none => []

/-- The checks of a double-word access, in the order of R291: unaligned, then out of range. Where both
hold, `access` goes on with the warnings so far. -/
def State.pairAccess (s : State) (x : Addr) (access : List Warn → OpResult) : OpResult :=
  let a := s.effAddr x
  let before := s.staleWarns (pairReads x a)
  if oddAddr a && !s.umaEn then .fail before ⟨.eUnaligned, .addr a⟩
  else if 65536 ≤ a + 1 then .fail (before ++ unalignedWarns a) ⟨.eAddr, .addr (a + 1)⟩
  else access (before ++ unalignedWarns a)

/-- LDD under `exec_any` (R296): the lower address goes to the even register
(the order of the warnings: log 27). DESIGN CHOICE: F_UNDEF carries the address of the word, and the first word
is looked at before the second (logs 9 and 27). -/
def loadPair (dst : Option RPair) (x : Addr) (s : State) (mask : PerLane Bool) : OpResult :=
  if s.execAny mask then
    s.pairAccess x fun before =>
      let a := s.effAddr x
      let js := s.execLanes mask
      let created := before ++ s.createWarns a ++ s.createWarns (a + 1)
      match s.cfg.undefRead, s.undefLanes a js, s.undefLanes (a + 1) js with
      | .fault, j :: _, _ => .fail (created ++ [.undefRead a j]) ⟨.fUndef, .addr a⟩
      | .fault, [], j :: _ => .fail (created ++ [.undefRead (a + 1) j]) ⟨.fUndef, .addr (a + 1)⟩
      | _, _, _ =>
        .done (created ++ s.undefWarns a js ++ s.undefWarns (a + 1) js
            ++ (s.stepLater [] x).filterMap Later.warning)
          (s.umWrites mask a ++ .memTouch a :: .memTouch (a + 1)
            :: (js.flatMap fun j =>
                regWrite (regRe dst) j (wrap12 (s.loadLane a 0 j))
                  ++ regWrite (regIm dst) j (wrap12 (s.loadLane (a + 1) 1 j)))
            ++ s.stepWrites x)
  else .done [] []

/-- LDD, direct (R296). -/
def execLddDirect (c : Ctl) (dst : Option RPair) (addr : Half)
    (s : State) : Host.Outcome State Fault Refusal :=
  perform (.lddDirect c dst addr) (loadPair dst (.direct addr)) s

/-- LDD, post-modify (R296). -/
def execLddPost (c : Ctl) (dst : Option RPair) (k m : Fin 8) (s : State) : Host.Outcome State Fault Refusal :=
  perform (.lddPost c dst k m) (loadPair dst (.post k m)) s

/-- STD under `exec_any` (R297). -/
def storePair (src : RPair) (x : Addr) (s : State) (mask : PerLane Bool) : OpResult :=
  if s.execAny mask then
    s.pairAccess x fun before =>
      let a := s.effAddr x
      .done (before ++ (s.pairLater mask src a ++ s.stepLater [] x).filterMap Later.warning)
        (s.umWrites mask a ++ s.storeWrites mask a (fun j => (s.reg src.re j).toInt)
          ++ s.storeWrites mask (a + 1) (fun j => (s.reg src.im j).toInt) ++ s.stepWrites x)
  else .done [] []

/-- STD, direct (R297). -/
def execStdDirect (c : Ctl) (src : RPair) (addr : Half)
    (s : State) : Host.Outcome State Fault Refusal :=
  perform (.stdDirect c src addr) (storePair src (.direct addr)) s

/-- STD, post-modify (R297). -/
def execStdPost (c : Ctl) (src : RPair) (k m : Fin 8) (s : State) : Host.Outcome State Fault Refusal :=
  perform (.stdPost c src k m) (storePair src (.post k m)) s

/-! ## Address update without access (R298) -/

/-- MODIFY against the pre-bundle state: BIT_REV has no part in it (R298). -/
def modifyOp (k m : Fin 8) (s : State) (mask : PerLane Bool) : OpResult :=
  if s.execAny mask then .done (s.staleWarns [.i k, .m m, .l k, .b k]) [.agu k (s.stepped k m)]
  else .done [] []

/-- MODIFY (R298). -/
def execModify (c : Ctl) (k m : Fin 8) (s : State) : Host.Outcome State Fault Refusal :=
  perform (.modify c k m) (modifyOp k m) s

end Sys2Proof.Machine
end

