-- ==== Sys2Proof/Machine/Move.lean ====
section
/-! DEFINITION. The register moves, the immediate load and NOP (46_move_xlane.md). -/

namespace Sys2Proof.Machine

/-- MOV (R310, R311): the source is read for the lanes the write uses. -/
def moveRegister (dst src : Handle) (s : State) (mask : PerLane Bool) : OpResult :=
  let warns := if (s.usedLanes mask dst).isEmpty then [] else s.staleWarns (hazReads src)
  if s.destError mask dst then .fail warns eCombo
  else .done warns (s.destWrites mask dst (s.readLane src))

/-- MOV (R311). -/
def execMov (c : Ctl) (dst src : Handle) (s : State) : Host.Outcome State Fault Refusal :=
  perform (.mov c dst src) (moveRegister dst src) s

/-- LDI against the pre-bundle state: `sext_16(IMM)` to every lane the write uses (R312). -/
def loadImmediate (dst : Handle) (v : Half) (s : State) (mask : PerLane Bool) : OpResult :=
  if s.destError mask dst then .fail [] eCombo
  else .done [] (s.destWrites mask dst (fun _ => v.toInt))

/-- LDI (R312). -/
def execLdi (c : Ctl) (dst : Handle) (v : Half) (s : State) : Host.Outcome State Fault Refusal :=
  perform (.ldi c dst v) (loadImmediate dst v) s

/-- NOP: its condition is evaluated and reported (R313). -/
def execNop (c : Ctl) (s : State) : Host.Outcome State Fault Refusal :=
  perform (.nop c) (fun _ _ => .done [] []) s

end Sys2Proof.Machine
end

