-- ==== Sys2Proof/Machine/Shift.lean ====
section
/-! DEFINITION. The shift operations, TYPE 2 (44_shift.md). -/

namespace Sys2Proof.Machine

/-! ## The shifter (R272 to R274) -/

/-- The HI pre-shift by 12; LO and default do not pre-shift (R272). -/
def preShift (f : Field) (v : Int) : Int :=
  match f with
  | .hi => v * 4096
  | .lo => v
  | .dflt => v

/-- `sh(v, n, arith, round)` with the source's sign `sgn` (R272); a right shift of 32 or more gives the
`-32` edge case. -/
def sh (v n : Int) (arith sgn round : Bool) : Int :=
  if 0 ≤ n then v * ((2 ^ n.toNat : Nat) : Int)
  else if 32 ≤ (-n).toNat then (if arith && sgn then -1 else 0)
  else (v / ((2 ^ ((-n).toNat - 1) : Nat) : Int) + (if round then 1 else 0)) / 2

/-- The exact shifted value of an arithmetic shift in lane `j` (R271 to R273). -/
def State.ashifted (s : State) (a : ShiftSrc) (n : Int) (f : Field) (rnd : Bool) (j : Lane) : Int :=
  sh (preShift f (s.shiftSigned a j)) n true (s.shiftSign a j) rnd

/-- The exact shifted value of a logical shift in lane `j` (R271 to R273). -/
def State.lshifted (s : State) (a : ShiftSrc) (n : Int) (f : Field) (rnd : Bool) (j : Lane) : Int :=
  sh (preShift f (s.shiftUnsigned a j)) n false (s.shiftSign a j) rnd

/-- The flags of a shifted value: SV by the 32-bit test, SS the source's sign (R274). -/
def shiftFlags (w : OvfWidth) (t : Int) (sgn : Bool) : FlagUpd :=
  { ss := some sgn, sv := some (ov32 w t) }

/-- The effects of a real shift in lane `j`: `v` is what is written, `t` the exact shifted value. -/
def State.shiftWrite (s : State) (dst : Option (Fin 8)) (a : ShiftSrc) (j : Lane) (v : AccWord) (t : Int) :
    List Write :=
  accWrite dst j v ++ [.flags .re j (shiftFlags s.cfg.accOvfWidth t (s.shiftSign a j))]

/-- A real shift: `f` gives the exact shifted value of each executing lane. -/
def shiftReal (dst : Option (Fin 8)) (a : ShiftSrc) (f : State → Lane → Int) (s : State) (mask : PerLane Bool) :
    OpResult :=
  .done [] ((s.execLanes mask).flatMap fun j => s.shiftWrite dst a j (wrap32 (f s j)) (f s j))

/-- The destination's prior value, 0 for NONE, to which nothing is written (R273). -/
def State.priorWord (s : State) (dst : Option (Fin 8)) (j : Lane) : AccWord :=
  match dst with
  | some n => s.accWord n j
  | none => 0#32

/-- A real shift ORed into the destination (R273). -/
def shiftOr (dst : Option (Fin 8)) (a : ShiftSrc) (f : State → Lane → Int) (s : State) (mask : PerLane Bool) :
    OpResult :=
  .done [] ((s.execLanes mask).flatMap fun j =>
    s.shiftWrite dst a j (wrap32 (f s j) ||| s.priorWord dst j) (f s j))

/-- ASHIFT (R276). -/
def execAshift (c : Ctl) (dst : Option (Fin 8)) (sa : ShiftSrc) (n : Src) (f : Field) (rnd : Bool)
    (s : State) : Host.Outcome State Fault Refusal :=
  perform (.ashift c dst sa n f rnd) (shiftReal dst sa fun s j => s.ashifted sa (s.srcInt n j) f rnd j) s

/-- LSHIFT (R277). -/
def execLshift (c : Ctl) (dst : Option (Fin 8)) (sa : ShiftSrc) (n : Src) (f : Field) (rnd : Bool)
    (s : State) : Host.Outcome State Fault Refusal :=
  perform (.lshift c dst sa n f rnd) (shiftReal dst sa fun s j => s.lshifted sa (s.srcInt n j) f rnd j) s

/-- ASHIFTOR (R278). -/
def execAshiftor (c : Ctl) (dst : Option (Fin 8)) (sa : ShiftSrc) (n : Src) (f : Field) (rnd : Bool)
    (s : State) : Host.Outcome State Fault Refusal :=
  perform (.ashiftor c dst sa n f rnd) (shiftOr dst sa fun s j => s.ashifted sa (s.srcInt n j) f rnd j) s

/-- LSHIFTOR (R279). -/
def execLshiftor (c : Ctl) (dst : Option (Fin 8)) (sa : ShiftSrc) (n : Src) (f : Field) (rnd : Bool)
    (s : State) : Host.Outcome State Fault Refusal :=
  perform (.lshiftor c dst sa n f rnd) (shiftOr dst sa fun s j => s.lshifted sa (s.srcInt n j) f rnd j) s

/-! ## Complex shifts (R280, R281) -/

/-- The effects of a complex shift in lane `j`, with the exact shifted values `t` and `u` of its parts. -/
def State.shiftPairWrite (s : State) (dst : Option AccPair) (a : ShiftPair) (j : Lane) (t u : Int) :
    List Write :=
  accWrite (accRe dst) j (wrap32 t) ++ accWrite (accIm dst) j (wrap32 u)
    ++ [.flags .re j (shiftFlags s.cfg.accOvfWidth t (s.shiftSign (shiftRe a) j)),
        .flags .im j (shiftFlags s.cfg.accOvfWidth u (s.shiftSign (shiftIm a) j)),
        .flags .cx j (combineFlags s.cfg.combine
          (shiftFlags s.cfg.accOvfWidth t (s.shiftSign (shiftRe a) j))
          (shiftFlags s.cfg.accOvfWidth u (s.shiftSign (shiftIm a) j)))]

/-- A complex shift: `f` gives the exact shifted values of each executing lane. -/
def shiftPair (dst : Option AccPair) (a : ShiftPair) (f : State → Lane → Int × Int) (s : State)
    (mask : PerLane Bool) : OpResult :=
  .done [] ((s.execLanes mask).flatMap fun j => s.shiftPairWrite dst a j (f s j).1 (f s j).2)

/-- ASHIFT.C (R280). -/
def execAshiftC (c : Ctl) (dst : Option AccPair) (sa : ShiftPair) (n : AmountPair) (f : Field) (rnd : Bool)
    (s : State) : Host.Outcome State Fault Refusal :=
  perform (.ashiftC c dst sa n f rnd) (shiftPair dst sa fun s j =>
    (s.ashifted (shiftRe sa) (s.amountRe n j) f rnd j, s.ashifted (shiftIm sa) (s.amountIm n j) f rnd j)) s

/-- LSHIFT.C (R281). -/
def execLshiftC (c : Ctl) (dst : Option AccPair) (sa : ShiftPair) (n : AmountPair) (f : Field) (rnd : Bool)
    (s : State) : Host.Outcome State Fault Refusal :=
  perform (.lshiftC c dst sa n f rnd) (shiftPair dst sa fun s j =>
    (s.lshifted (shiftRe sa) (s.amountRe n j) f rnd j, s.lshifted (shiftIm sa) (s.amountIm n j) f rnd j)) s

end Sys2Proof.Machine
end

