-- ==== Sys2Proof/Machine/XLane.lean ====
section
/-! DEFINITION. The cross-lane transfers, TYPE 6 (46_move_xlane.md). -/

namespace Sys2Proof.Machine

/-- XRD against the pre-bundle state: `act > N` or `off >= N` raises `E_COMBO`, which the decoder has
raised before (R321). -/
def xrdOp (dst src : Fin 32) (act : XAct) (off : Fin 4) (s : State) (mask : PerLane Bool) : OpResult :=
  if s.cfg.xlaneFits act off then
    .done [] ((s.execLanes mask).flatMap fun j => [.reg dst j (s.reg src (otherLane act off j))])
  else .fail [] eCombo

/-- XRD (R321). -/
def execXrd (c : Ctl) (dst src : Fin 32) (act : XAct) (off : Fin 4)
    (s : State) : Host.Outcome State Fault Refusal :=
  perform (.xrd c dst src act off) (xrdOp dst src act off) s

/-- Two of the lanes write the same target (R322). -/
def sameTarget (act : XAct) (off : Fin 4) (js : List Lane) : Bool :=
  js.any fun i => js.any fun j => i != j && otherLane act off i == otherLane act off j

/-- XWR against the pre-bundle state: two writes of one target lane raise `E_COMBO` (R322). -/
def xwrOp (dst src : Fin 32) (act : XAct) (off : Fin 4) (s : State) (mask : PerLane Bool) : OpResult :=
  if !s.cfg.xlaneFits act off then .fail [] eCombo
  else if sameTarget act off (s.xwrLanes mask act off) then .fail [] eCombo
  else .done [] ((s.xwrLanes mask act off).map fun j => .reg dst (otherLane act off j) (s.reg src j))

/-- XWR (R322). -/
def execXwr (c : Ctl) (dst src : Fin 32) (act : XAct) (off : Fin 4)
    (s : State) : Host.Outcome State Fault Refusal :=
  perform (.xwr c dst src act off) (xwrOp dst src act off) s

end Sys2Proof.Machine
end

