-- ==== Sys2Proof/Machine/Dispatch.lean ====
section
/-! DEFINITION. The dispatch from an operation to its meaning. -/

namespace Sys2Proof.Machine

open Sys2Proof

def exec (i : Instr) (s : State) : Host.Outcome State Fault Refusal :=
  match i with
  | .add c dst sa b => Sys2Proof.Machine.execAdd c dst sa b s
  | .addc c dst sa b => Sys2Proof.Machine.execAddc c dst sa b s
  | .sub c dst sa b => Sys2Proof.Machine.execSub c dst sa b s
  | .subc c dst sa b => Sys2Proof.Machine.execSubc c dst sa b s
  | .subb c dst sa b => Sys2Proof.Machine.execSubb c dst sa b s
  | .subbc c dst sa b => Sys2Proof.Machine.execSubbc c dst sa b s
  | .and c dst sa b => Sys2Proof.Machine.execAnd c dst sa b s
  | .or c dst sa b => Sys2Proof.Machine.execOr c dst sa b s
  | .xor c dst sa b => Sys2Proof.Machine.execXor c dst sa b s
  | .not c dst sa => Sys2Proof.Machine.execNot c dst sa s
  | .abs c dst sa => Sys2Proof.Machine.execAbs c dst sa s
  | .inc c dst sa => Sys2Proof.Machine.execInc c dst sa s
  | .dec c dst sa => Sys2Proof.Machine.execDec c dst sa s
  | .tstbit c dst sa b => Sys2Proof.Machine.execTstbit c dst sa b s
  | .setbit c dst sa b => Sys2Proof.Machine.execSetbit c dst sa b s
  | .clrbit c dst sa b => Sys2Proof.Machine.execClrbit c dst sa b s
  | .tglbit c dst sa b => Sys2Proof.Machine.execTglbit c dst sa b s
  | .scr c dst sa b => Sys2Proof.Machine.execScr c dst sa b s
  | .addA c dst sa b => Sys2Proof.Machine.execAddA c dst sa b s
  | .subA c dst sa b => Sys2Proof.Machine.execSubA c dst sa b s
  | .addC c dst sa sb => Sys2Proof.Machine.execAddC c dst sa sb s
  | .subC c dst sa sb => Sys2Proof.Machine.execSubC c dst sa sb s
  | .rccwC c dst sa b => Sys2Proof.Machine.execRccwC c dst sa b s
  | .rcwC c dst sa b => Sys2Proof.Machine.execRcwC c dst sa b s
  | .magC c dst sa => Sys2Proof.Machine.execMagC c dst sa s
  | .rectC c dst sa sb => Sys2Proof.Machine.execRectC c dst sa sb s
  | .mpy c dst sa sb mode rnd => Sys2Proof.Machine.execMpy c dst sa sb mode rnd s
  | .mac c dst sa sb mode rnd => Sys2Proof.Machine.execMac c dst sa sb mode rnd s
  | .mas c dst sa sb mode rnd => Sys2Proof.Machine.execMas c dst sa sb mode rnd s
  | .mpyC c dst sa sb mode rnd => Sys2Proof.Machine.execMpyC c dst sa sb mode rnd s
  | .macC c dst sa sb mode rnd => Sys2Proof.Machine.execMacC c dst sa sb mode rnd s
  | .masC c dst sa sb mode rnd => Sys2Proof.Machine.execMasC c dst sa sb mode rnd s
  | .mpyRC c dst sa sb mode rnd => Sys2Proof.Machine.execMpyRC c dst sa sb mode rnd s
  | .macRC c dst sa sb mode rnd => Sys2Proof.Machine.execMacRC c dst sa sb mode rnd s
  | .masRC c dst sa sb mode rnd => Sys2Proof.Machine.execMasRC c dst sa sb mode rnd s
  | .rndacc c dst sa => Sys2Proof.Machine.execRndacc c dst sa s
  | .clracc c dst => Sys2Proof.Machine.execClracc c dst s
  | .ashift c dst sa n f rnd => Sys2Proof.Machine.execAshift c dst sa n f rnd s
  | .lshift c dst sa n f rnd => Sys2Proof.Machine.execLshift c dst sa n f rnd s
  | .ashiftor c dst sa n f rnd => Sys2Proof.Machine.execAshiftor c dst sa n f rnd s
  | .lshiftor c dst sa n f rnd => Sys2Proof.Machine.execLshiftor c dst sa n f rnd s
  | .ashiftC c dst sa n f rnd => Sys2Proof.Machine.execAshiftC c dst sa n f rnd s
  | .lshiftC c dst sa n f rnd => Sys2Proof.Machine.execLshiftC c dst sa n f rnd s
  | .ldDirect c dst addr => Sys2Proof.Machine.execLdDirect c dst addr s
  | .ldPost c dst k m => Sys2Proof.Machine.execLdPost c dst k m s
  | .stDirect c src addr => Sys2Proof.Machine.execStDirect c src addr s
  | .stPost c src k m => Sys2Proof.Machine.execStPost c src k m s
  | .lddDirect c dst addr => Sys2Proof.Machine.execLddDirect c dst addr s
  | .lddPost c dst k m => Sys2Proof.Machine.execLddPost c dst k m s
  | .stdDirect c src addr => Sys2Proof.Machine.execStdDirect c src addr s
  | .stdPost c src k m => Sys2Proof.Machine.execStdPost c src k m s
  | .modify c k m => Sys2Proof.Machine.execModify c k m s
  | .mov c dst src => Sys2Proof.Machine.execMov c dst src s
  | .ldi c dst v => Sys2Proof.Machine.execLdi c dst v s
  | .nop c => Sys2Proof.Machine.execNop c s
  | .xrd c dst src act off => Sys2Proof.Machine.execXrd c dst src act off s
  | .xwr c dst src act off => Sys2Proof.Machine.execXwr c dst src act off s

end Sys2Proof.Machine
end

