-- ==== Sys2Proof/Machine/HostOps.lean ====
section
/-! DEFINITION. What the host may do between bundles besides executing one (60_exceptions.md R338, R342, R343). -/

namespace Sys2Proof.Machine

/-- `reset()` (R361): the parameters, the host's pending commands and the model's draw counter stay (log 25). -/
def State.hostReset (s : State) : State :=
  { State.resetWith s.cfg with input := s.input, draws := s.draws }

/-- `write(h, v, mask)`: a write by the rules of R41 to R43 at the current cycle (R343). A write to DID
records its error (log 21). -/
def State.hostWrite (s : State) (h : Handle) (v : PerLane Int) (mask : PerLane Bool) : State :=
  if s.destError mask h then s.raiseAt 0 eCombo
  else s.applyAll (s.destWrites mask h v.get)

/-- `preload(a, v, mask)`: `MemWrite` with `init_mode`, so that EN plays no part (R78, R79). -/
def State.hostPreload (s : State) (a : Half) (v : PerLane Data) (mask : PerLane Bool) : State :=
  (s.warn (s.createWarns a.toNat)).applyAll
    (.memTouch a.toNat
      :: ((allLanes.filter fun j => s.cfg.active j && mask.get j).map fun j =>
        .mem a.toNat j (v.get j)))

/-- `set_irptl(v)` (R38, R342). -/
def State.hostSetIrptl (s : State) (v : Half) : State := s.setCtl .irptl v

/-- `evaluate(code)` on the current state (R342); it changes nothing. A condition that reads an unspecified
CNTR answers `F_UNINIT` under `UNINIT_READ = fault` (log 30). DESIGN CHOICE: no draw counter advances, so that
what it draws for a disabled lane (R153) is what the host's other calls and the next operation draw there (R15,
log 30). -/
def State.hostEvaluate (s : State) (c : Cond) : Except CoreErr (PerLane Bool) :=
  match s.firstUnset (s.condPlaces c) with
  | some p => .error (fUninit p)
  | none => .ok (s.maskFor c)

/-- Lane `j` of the current value of a register, without `lat`: the committed value `cur` of a
hazard-tracked one (R338, R342). -/
def State.currentLane (s : State) (h : Handle) (j : Lane) : Int :=
  match h with
  | .i k => (s.i.get k).cur.toNat
  | .m k => (s.m.get k).cur.toInt
  | .l k => (s.l.get k).cur.toNat
  | .b k => (s.b.get k).cur.toNat
  | .cntr => s.cntr.cur.toNat
  | .mstat => s.mstat.cur.toNat
  | h => s.readLane h j

/-- The places that a read without `lat` reads. -/
def State.currentPlaces (s : State) (h : Handle) (j : Lane) : List Place :=
  match hazOf h with
  | some r => [.haz r .cur]
  | none => s.handlePlaces h j

/-- `read(h)` and `read_lane(h, j)`: the current value, without `lat` and without warnings (R141, R342); it
changes nothing. NONE is not readable and answers `E_REG` (R40); an unspecified value is read as `UNINIT_READ`
says (R64). DESIGN CHOICE: such an answer is no error of a bundle, and nothing is recorded; and no draw counter
advances, so that what it draws is what the next operation draws for that place (R15, log 30). DESIGN CHOICE:
between bundles, where no SSTAT_IN is given (R37, R62), SSTAT shows the input of the last bundle that was performed,
0 before the first one after reset (logs 1 and 30). -/
def State.hostRead (s : State) (h : Handle) (j : Lane) : Except CoreErr Int :=
  match h with
  | .noReg => .error (eRegHandle noneCode)
  | h =>
    match s.firstUnset (s.currentPlaces h j) with
    | some p => .error (fUninit p)
    | none => .ok (s.drawn.currentLane h j)

/-- What a dump shows (R338): every register's committed value (`cur` of a hazard-tracked one), SSTAT as the host's
read of it gives it between bundles (DESIGN CHOICE, log 30), EN, MASTER, the flags, UMCOUNT, OVCNT, which no operation reads (R58), the memory's entries, the
clock, the fault record and the diagnostic log. -/
structure Dump where
  r : Vector (PerLane Data) 32
  acc : Vector (PerLane Acc) 8
  i : Vector Half 8
  m : Vector Half 8
  l : Vector Half 8
  b : Vector Half 8
  cntr : Half
  mstat : BitVec 8
  lpever : Half
  pcstack : Half
  lpstack : Half
  icntl : Half
  imask : Half
  irptl : Half
  ivec : Vector Half 4
  sstat : BitVec 8
  astatR : PerLane Flags
  astatI : PerLane Flags
  astatC : PerLane Flags
  en : BitVec 4
  master : BitVec 4
  umcount : PerLane Data
  ovcnt : PerLane AccWord
  mem : Memory
  cycle : Nat
  faultRec : Option FaultRec
  log : List Event
deriving DecidableEq, Repr

/-- The committed values of the eight registers of an address file. -/
def committed (v : Vector (Hazard 16) 8) : Vector Half 8 := v.map fun e => e.cur

/-- `dump()`: the full architectural state, without `lat` and without warnings; it changes nothing (R338,
R342). It shows what is held at an unspecified place too (log 30). -/
def State.dump (s : State) : Dump :=
  { r := s.r, acc := s.acc, i := committed s.i, m := committed s.m, l := committed s.l, b := committed s.b,
    cntr := s.cntr.cur, mstat := s.mstat.cur, lpever := s.lpever, pcstack := s.pcstack,
    lpstack := s.lpstack, icntl := s.icntl, imask := s.imask, irptl := s.irptl, ivec := s.ivec,
    sstat := s.sstat, astatR := s.astatR, astatI := s.astatI, astatC := s.astatC, en := s.en,
    master := s.master, umcount := s.umcount, ovcnt := s.ovcnt, mem := s.mem, cycle := s.cycle,
    faultRec := s.faultRec, log := s.log }

/-- The word a dump shows at an address: `MemRead(a, record = false)`, which creates no entry (R75, R338). -/
def Dump.word (d : Dump) (a : Half) : MemWord := d.mem.word a.toNat

end Sys2Proof.Machine
end

