-- ==== Sys2Proof/Machine/Bundle.lean ====
section
/-! DEFINITION. The bundle step (40_execution.md R130) and the host's commands (60_exceptions.md R342). -/

namespace Sys2Proof.Machine

/-- EOB of a descriptor word (R101). -/
def endsBundle (d : Descr) : Bool := d.getLsbD 47

/-- The first bundle of a list of descriptors, and the words after it: a bundle ends at the first
descriptor with EOB = 1 (R102, R103). None where no descriptor has it. -/
def takeBundle : List Descr → Option (List Descr × List Descr)
  | [] => none
  | d :: ds =>
    if endsBundle d then some ([d], ds)
    else
      match takeBundle ds with
      | some (b, more) => some (d :: b, more)
      | none => none

/-- Decode every slot, from slot `k` on; the first error in slot order stops it (R130, R339). -/
def decodeSlots (p : Params) : Nat → List Descr → Except (Nat × CoreErr) (List Instr)
  | _, [] => .ok []
  | k, d :: ds =>
    match decode p d with
    | .error e => .error (k, e)
    | .ok i =>
      match decodeSlots p (k + 1) ds with
      | .error e => .error e
      | .ok is => .ok (i :: is)

/-- The state in which a bundle starts: its inputs are there, and no operation has executed (R62, R130). -/
def State.openBundle (s : State) (sstatIn : BitVec 8) (site : Nat) : State :=
  { s with sstatIn := sstatIn, site := site, slot := 0, staged := [], outs := [] }

/-- The state with another queue of host commands. -/
def State.withInput (s : State) (q : List HostCmd) : State := { s with input := q }

/-- Execute the operations of a bundle in slot order; an error ends it (R130, R331). -/
def runSlots : List Instr → State → Host.Outcome State Fault Refusal
  | [], s => .next s
  | i :: is, s =>
    match exec i s with
    | .next t => if t.faultRec.isSome then .next t else runSlots is t
    | .fault r => .fault r
    | .refused r => .refused r

/-- Decode and execute one bundle (R130). -/
def runBundle (ds : List Descr) (s : State) : Host.Outcome State Fault Refusal :=
  match decodeSlots s.cfg 0 ds with
  | .error e => .next (s.raiseAt e.1 e.2)
  | .ok is => runSlots is s

/-- The words after the first bundle stay with the host's next `execute` (log 15). -/
def requeue (more : List Descr) (sstatIn : BitVec 8) (site : Nat) (rest : List HostCmd) : List HostCmd :=
  if more.isEmpty then rest else .execute more sstatIn site :: rest

/-- `execute(bundle, SSTAT_IN, site)` (R342). With a fault record set the bundle is refused and the state
unchanged (R130, R139): it is gone from the queue and nothing else happens (log 8). -/
def State.execute (s : State) (ds : List Descr) (sstatIn : BitVec 8) (site : Nat) :
    Host.Outcome State Fault Refusal :=
  match s.faultRec with
  | some _ => .next s
  | none =>
    match takeBundle ds with
    | none => .refused .unterminatedBundle
    | some (b, more) =>
      runBundle b ((s.withInput (requeue more sstatIn site s.input)).openBundle sstatIn site)

/-- One command of the host, already taken from the queue (R342). -/
def State.perform (s : State) (cmd : HostCmd) : Host.Outcome State Fault Refusal :=
  match cmd with
  | .execute ds sstatIn site => s.execute ds sstatIn site
  | .reset => .next s.hostReset
  | .write h v mask => .next (s.hostWrite h v mask)
  | .preload a v mask => .next (s.hostPreload a v mask)
  | .setIrptl v => .next (s.hostSetIrptl v)

/-- The descriptors of the bundle that starts with the word `w`: itself, and a NOP that ends the bundle
where its EOB is 0 (log 16). -/
def fetchWords (nbits w : Nat) : List Descr :=
  let d : Descr := BitVec.ofNat 64 (w % 2 ^ nbits)
  if endsBundle d then [d] else [d, encode (.nop ⟨.true, true⟩)]

end Sys2Proof.Machine
end

