-- ==== Sys2Proof/Machine/Step.lean ====
section
/-! DEFINITION. One step: the host's next command (log 1), which for `execute` is one bundle (R130). -/

namespace Sys2Proof.Machine

/-- One step takes the host's next command and performs it; with none there is nothing to do. -/
def step (s : State) : Host.Outcome State Fault Refusal :=
  match s.input with
  | [] => .fault .noInput
  | cmd :: rest => (s.withInput rest).perform cmd

/-- The state in which the next step executes the descriptor `w` (bits from `nbits` on are 0). -/
def State.withFetchWord (s : State) (nbits w : Nat) : State :=
  s.withInput (.execute (fetchWords nbits w) s.sstatIn s.site :: s.input)

end Sys2Proof.Machine
end

