-- ==== Sys2Proof/Safety.lean ====
section
/-! DEFINITION. The terms the statements use: where a state can differ, what a committed operation leaves
unchanged, and the invariant that every step keeps. -/

namespace Sys2Proof.Machine

/-! ## Locations and frames -/

/-- The locations of the architectural state that an operation can write. -/
inductive Loc where
  | reg (k : Fin 32) (j : Lane)
  | acc (n : Fin 8) (j : Lane)
  | flags (c : Copy) (j : Lane)
  | umcount (j : Lane)
  | ovcnt (j : Lane)
  | haz (h : HazReg)
  | ctl (c : CtlReg)
  | en
  | master
  | mem (a : Nat) (j : Lane)
deriving DecidableEq, Repr

/-- The lane of a lane-replicated location or of a memory word's lane; none for a scalar location. -/
def Loc.lane : Loc → Option Lane
  | .reg _ j | .acc _ j | .flags _ j | .umcount j | .ovcnt j | .mem _ j => some j
  | .haz _ | .ctl _ | .en | .master => none

/-- The location a place belongs to. -/
def Place.loc : Place → Loc
  | .reg k j => .reg k j
  | .acc n j _ => .acc n j
  | .haz h _ => .haz h
  | .ctl c => .ctl c

/-- `t` agrees with `s` at every location outside `T`, hazard histories included, and on what is
unspecified there (R64); the parameters agree. Memory is compared by what each lane of each address reads as
(R74). -/
structure SameExcept (T : Loc → Prop) (s t : State) : Prop where
  reg : ∀ k j, ¬ T (.reg k j) → t.reg k j = s.reg k j
  acc : ∀ n j, ¬ T (.acc n j) → t.accLane n j = s.accLane n j
  flags : ∀ c j, ¬ T (.flags c j) → t.flags c j = s.flags c j
  umcount : ∀ j, ¬ T (.umcount j) → t.umcount.get j = s.umcount.get j
  ovcnt : ∀ j, ¬ T (.ovcnt j) → t.ovcnt.get j = s.ovcnt.get j
  i : ∀ k, ¬ T (.haz (.i k)) → t.i.get k = s.i.get k
  m : ∀ k, ¬ T (.haz (.m k)) → t.m.get k = s.m.get k
  l : ∀ k, ¬ T (.haz (.l k)) → t.l.get k = s.l.get k
  b : ∀ k, ¬ T (.haz (.b k)) → t.b.get k = s.b.get k
  cntr : ¬ T (.haz .cntr) → t.cntr = s.cntr
  mstat : ¬ T (.haz .mstat) → t.mstat = s.mstat
  ctl : ∀ c, ¬ T (.ctl c) → t.ctl c = s.ctl c
  en : ¬ T .en → t.en = s.en
  master : ¬ T .master → t.master = s.master
  mem : ∀ a j, ¬ T (.mem a j) → t.memLane a j = s.memLane a j
  cfg : t.cfg = s.cfg
  unset : ∀ p : Place, ¬ T p.loc → t.unset p = s.unset p

/-- No location differs. -/
def SameState (s t : State) : Prop := SameExcept (fun _ => False) s t

/-! ## One operation alone in its bundle -/

/-- Between bundles, with no error recorded: an operation with EOB = 1 executed here is a bundle of its
own (R102). -/
structure State.Idle (s : State) : Prop where
  noFault : s.faultRec = none
  slot : s.slot = 0
  staged : s.staged = []
  outs : s.outs = []

/-- Lane `j` is an executing lane of an operation with the condition of `c` (R133). -/
def State.runs (s : State) (c : Ctl) (j : Lane) : Prop := s.executing (s.maskFor c.cond) j = true

/-- `exec_any` of an operation with the condition of `c` (R134). -/
def State.runsAny (s : State) (c : Ctl) : Prop := s.execAny (s.maskFor c.cond) = true

/-- Every place that the operation `i` reads (R64): what its condition, its sources and its address update
read. -/
def State.placesRead (s : State) (i : Instr) : List Place :=
  s.condPlaces i.ctl.cond ++ s.sourcePlaces (s.maskFor i.ctl.cond) i ++ s.laterPlaces (s.maskFor i.ctl.cond) i

/-- Every place that the operation `i` reads has a value (R64): the parameter is the model's `held` (log 3),
or nothing is unspecified, or under `UNINIT_READ = fault` nothing that `i` reads is. What `fault` and `draw`
do elsewhere is said by `Obligations.UnspecifiedReadsFault` and `Obligations.UnspecifiedReadsDraw`. -/
def State.Known (s : State) (i : Instr) : Prop :=
  s.cfg.uninitRead = .held ∨ s.unwritten = []
    ∨ (s.cfg.uninitRead = .fault ∧ ∀ p ∈ s.placesRead i, s.unset p = false)

/-- The bundle of one operation has committed: only locations in `T` may differ, the cycle has advanced
by one, its outputs are those of its condition, and the machine is between bundles again (R130). -/
structure Commits (c : Ctl) (T : Loc → Prop) (s t : State) : Prop where
  same : SameExcept T s t
  cycle : t.cycle = s.cycle + 1
  idle : t.Idle
  out : t.out = [s.slotOut (s.maskFor c.cond)]
  input : t.input = s.input
  sstatIn : t.sstatIn = s.sstatIn

/-- The bundle has raised `e` in slot `k`: nothing is committed, the cycle stays, and the error is recorded
(R331, R332). -/
structure Raises (e : CoreErr) (k : Nat) (s t : State) : Prop where
  same : SameState s t
  cycle : t.cycle = s.cycle
  record : t.faultRec = some { err := e, slot := k, site := s.site, cycle := s.cycle }
  input : t.input = s.input
  sstatIn : t.sstatIn = s.sstatIn

/-! ## Results, in the words of the rules -/

/-- `sat12(r, ov, c)` (R183). -/
def State.saturated (s : State) (r : Data) (ov cy : Bool) : Data :=
  if s.arSat = true ∧ ov = true then (if cy = true then 0x800#12 else 0x7FF#12) else r

/-- The flags of copy `k` after an ALU result: AZ, AN, AV (sticky under AV_LATCH) and AC are written, the
others keep their values (R160, R162, R169). -/
def State.aluFlags (s : State) (k : Copy) (j : Lane) (zero neg ov cy : Bool) : Flags :=
  { s.flags k j with az := zero, an := neg, av := ov || (s.avLatch && (s.flags k j).av), ac := cy }

/-- The locations a real operation with an R destination may write: in each executing lane the
destination, if it is not NONE, and ASTAT_R. -/
def State.regTargets (s : State) (c : Ctl) (dst : Option (Fin 32)) (l : Loc) : Prop :=
  ∃ j, s.runs c j ∧ (l = .flags .re j ∨ ∃ k, dst = some k ∧ l = .reg k j)

/-- The same with an accumulator destination. -/
def State.accTargets (s : State) (c : Ctl) (dst : Option (Fin 8)) (l : Loc) : Prop :=
  ∃ j, s.runs c j ∧ (l = .flags .re j ∨ ∃ k, dst = some k ∧ l = .acc k j)

/-- The same with an R pair as destination, and the three copies of ASTAT. -/
def State.pairTargets (s : State) (c : Ctl) (dst : Option RPair) (l : Loc) : Prop :=
  ∃ j, s.runs c j ∧ ((∃ k, l = .flags k j) ∨ ∃ p, dst = some p ∧ (l = .reg p.re j ∨ l = .reg p.im j))

/-- The same with an accumulator pair as destination. -/
def State.accPairTargets (s : State) (c : Ctl) (dst : Option AccPair) (l : Loc) : Prop :=
  ∃ j, s.runs c j ∧ ((∃ k, l = .flags k j) ∨ ∃ p, dst = some p ∧ (l = .acc p.re j ∨ l = .acc p.im j))

/-- A real ALU operation has committed: in every executing lane DST holds the saturated `r` and ASTAT_R
the flags of `r`, `ov` and `cy` (R181 to R184); nothing else has changed. -/
structure RealAlu (c : Ctl) (dst : Option (Fin 32)) (s t : State) (r : Lane → Data)
    (ov cy : Lane → Bool) : Prop where
  commits : Commits c (s.regTargets c dst) s t
  value : ∀ j, s.runs c j → ∀ k, dst = some k → t.reg k j = s.saturated (r j) (ov j) (cy j)
  flags : ∀ j, s.runs c j →
    t.flags .re j = s.aluFlags .re j (decide (r j = 0#12)) (r j).msb (ov j) (cy j)

/-- `COMBINE` of a real and an imaginary flag (R161). -/
def combined (t : FlagTable) (re im : Bool) : Bool := t.at re im

/-- A complex ALU operation has committed: each part saturated on its own, its flags in ASTAT_R and
ASTAT_I, `COMBINE` of them in ASTAT_C (R221). -/
structure PairAlu (c : Ctl) (dst : Option RPair) (s t : State) (r i : Lane → Data)
    (ovR cyR ovI cyI : Lane → Bool) : Prop where
  commits : Commits c (s.pairTargets c dst) s t
  value : ∀ j, s.runs c j → ∀ p, dst = some p →
    t.reg p.re j = s.saturated (r j) (ovR j) (cyR j) ∧ t.reg p.im j = s.saturated (i j) (ovI j) (cyI j)
  flagsR : ∀ j, s.runs c j →
    t.flags .re j = s.aluFlags .re j (decide (r j = 0#12)) (r j).msb (ovR j) (cyR j)
  flagsI : ∀ j, s.runs c j →
    t.flags .im j = s.aluFlags .im j (decide (i j = 0#12)) (i j).msb (ovI j) (cyI j)
  flagsC : ∀ j, s.runs c j →
    t.flags .cx j = s.aluFlags .cx j
      (combined s.cfg.combine.az (decide (r j = 0#12)) (decide (i j = 0#12)))
      (combined s.cfg.combine.an (r j).msb (i j).msb)
      (combined s.cfg.combine.av (ovR j) (ovI j)) (combined s.cfg.combine.ac (cyR j) (cyI j))

/-- `ov32(t)`: the exact value does not fit the width that ACC_OVF_WIDTH names (R166). -/
def State.tooWide (s : State) (t : Int) : Bool :=
  match s.cfg.accOvfWidth with
  | .w32 => decide (t < -2147483648) || decide (2147483647 < t)
  | .w24 => decide (t < -8388608) || decide (8388607 < t)

/-- `rnd(x)` (R242): under URND a midpoint loses bit 12 after the addition. -/
def State.rounded (s : State) (x : AccWord) : AccWord :=
  if s.urnd = true ∧ x.extractLsb' 0 12 = 0x800#12 then (x + 0x800#32) &&& 0xFFFFEFFF#32
  else x + 0x800#32

/-- A real MAC operation has committed the exact sums `sum` (R243 to R248): the accumulator wrapped or
rounded, MV, and one increment of OVCNT for an overflow. -/
structure RealMac (c : Ctl) (dst : Option (Fin 8)) (rnd : Bool) (s t : State) (sum : Lane → Int) :
    Prop where
  commits : Commits c (fun l => s.accTargets c dst l ∨ ∃ j, s.runs c j ∧ l = .ovcnt j) s t
  value : ∀ j, s.runs c j → ∀ k, dst = some k → t.accWord k j =
    if rnd = true then s.rounded (BitVec.ofInt 32 (sum j)) else BitVec.ofInt 32 (sum j)
  flags : ∀ j, s.runs c j → t.flags .re j = { s.flags .re j with mv := s.tooWide (sum j) }
  count : ∀ j, s.runs c j →
    t.ovcnt.get j = s.ovcnt.get j + (if s.tooWide (sum j) = true then 1#32 else 0#32)

/-- A complex MAC operation has committed the exact sums `re` and `im` (R246, R253): each part on its
own, MV in the three copies, up to two increments of OVCNT. -/
structure PairMac (c : Ctl) (dst : Option AccPair) (rnd : Bool) (s t : State) (re im : Lane → Int) :
    Prop where
  commits : Commits c (fun l => s.accPairTargets c dst l ∨ ∃ j, s.runs c j ∧ l = .ovcnt j) s t
  value : ∀ j, s.runs c j → ∀ p, dst = some p →
    (t.accWord p.re j =
      if rnd = true then s.rounded (BitVec.ofInt 32 (re j)) else BitVec.ofInt 32 (re j))
    ∧ (t.accWord p.im j =
      if rnd = true then s.rounded (BitVec.ofInt 32 (im j)) else BitVec.ofInt 32 (im j))
  flagsR : ∀ j, s.runs c j → t.flags .re j = { s.flags .re j with mv := s.tooWide (re j) }
  flagsI : ∀ j, s.runs c j → t.flags .im j = { s.flags .im j with mv := s.tooWide (im j) }
  flagsC : ∀ j, s.runs c j → t.flags .cx j =
    { s.flags .cx j with mv := combined s.cfg.combine.mv (s.tooWide (re j)) (s.tooWide (im j)) }
  count : ∀ j, s.runs c j →
    t.ovcnt.get j = s.ovcnt.get j + (if s.tooWide (re j) = true then 1#32 else 0#32)
      + (if s.tooWide (im j) = true then 1#32 else 0#32)

/-- `P(u, v)` (R241, R244): each factor signed or unsigned by its letter of MOD, doubled in fractional
mode. -/
def State.times (s : State) (mode : SignMode) (u v : Data) : Int :=
  (match mode with
    | .ss | .su => u.toInt
    | .us | .uu => (u.toNat : Int))
  * (match mode with
    | .ss | .us => v.toInt
    | .su | .uu => (v.toNat : Int))
  * (match s.mMode with
    | true => 1
    | false => 2)

/-! ## Writes to a handle (R41 to R44)

Each is said of a mask, which an operation takes from its condition and the host gives as it is (R342). -/

/-- Lane `j` is the one whose value a P_FIRST write under `mask` takes: the least executing lane (R43). -/
def State.firstLaneUnder (s : State) (mask : PerLane Bool) (j : Lane) : Prop :=
  s.executing mask j = true ∧ ∀ i, i < j → ¬ s.executing mask i = true

/-- A lane qualifies for a P_MASTER write under `mask`: it is the master and its mask bit is 1 (R43). -/
def State.masterOpenUnder (s : State) (mask : PerLane Bool) (j : Lane) : Prop :=
  s.isMaster j = true ∧ mask.get j = true

/-- Lane `j` is the one whose value a P_MASTER write under `mask` takes (R43). -/
def State.masterLaneUnder (s : State) (mask : PerLane Bool) (j : Lane) : Prop :=
  s.masterOpenUnder mask j ∧ ∀ i, i < j → ¬ s.masterOpenUnder mask i

/-- `firstLaneUnder` of the mask of an operation. -/
def State.firstLaneIs (s : State) (c : Ctl) (j : Lane) : Prop := s.firstLaneUnder (s.maskFor c.cond) j

/-- `masterOpenUnder` of the mask of an operation. -/
def State.masterOpen (s : State) (c : Ctl) (j : Lane) : Prop := s.masterOpenUnder (s.maskFor c.cond) j

/-- `masterLaneUnder` of the mask of an operation. -/
def State.masterLaneIs (s : State) (c : Ctl) (j : Lane) : Prop := s.masterLaneUnder (s.maskFor c.cond) j

/-- Lane `j` is one whose value a write to `h` uses: every executing lane, the first one, the master lane, or
none (R42, R43, R44). -/
def State.usesLane (s : State) (c : Ctl) (h : Handle) (j : Lane) : Prop :=
  match h with
  | .r _ | .acc _ | .accH _ | .accM _ | .accL _ | .did | .umcount | .astat _ => s.runs c j
  | .i _ | .m _ | .l _ | .b _ => s.firstLaneIs c j
  | .cntr | .lpever | .pcstack | .lpstack | .mstat | .sstat | .icntl | .imask | .irptl | .ivec _
  | .dstat0 | .dstat1 => s.masterLaneIs c j
  | .noReg => False

/-- Two handles name a common lane-replicated register or field, a write of M counting as one of H (R137). -/
def Handle.sharesLanes : Handle → Handle → Bool
  | .r k, .r k' => k == k'
  | .acc n, .acc n' | .acc n, .accH n' | .acc n, .accM n' | .acc n, .accL n' => n == n'
  | .accH n, .acc n' | .accM n, .acc n' | .accL n, .acc n' => n == n'
  | .accH n, .accH n' | .accM n, .accM n' | .accL n, .accL n' => n == n'
  | .accH n, .accM n' | .accM n, .accH n' => n == n'
  | .umcount, .umcount => true
  | .astat k, .astat k' => k == k'
  | _, _ => false

/-- Two handles name a common scalar register, DSTAT0 and DSTAT1 counting as one (R137); a write to SSTAT
has no effect and shares nothing (log 14). -/
def Handle.sharesScalar : Handle → Handle → Bool
  | .i k, .i k' | .m k, .m k' | .l k, .l k' | .b k, .b k' => k == k'
  | .ivec k, .ivec k' => k == k'
  | .dstat0, .dstat0 | .dstat0, .dstat1 | .dstat1, .dstat0 | .dstat1, .dstat1 => true
  | .cntr, .cntr | .mstat, .mstat | .lpever, .lpever | .pcstack, .pcstack | .lpstack, .lpstack
  | .icntl, .icntl | .imask, .imask | .irptl, .irptl => true
  | _, _ => false

/-- Writes to `h` under `c` and to `h'` under `c'` in one bundle conflict (R137). The bundle executes the
second operation in `u`, which differs from `s` in no register but may draw the mask of a disabled lane anew (R15). -/
def State.collide (s u : State) (c c' : Ctl) (h h' : Handle) : Prop :=
  (Handle.sharesLanes h h' = true ∧ ∃ j, s.runs c j ∧ u.runs c' j)
    ∨ (Handle.sharesScalar h h' = true ∧ (∃ j, s.usesLane c h j) ∧ ∃ j, u.usesLane c' h' j)

/-- Two handles name different fields of one accumulator. -/
def Handle.sameAcc : Handle → Handle → Bool
  | .accH n, .accM n' | .accH n, .accL n' | .accM n, .accH n' => n == n'
  | .accM n, .accL n' | .accL n, .accH n' | .accL n, .accM n' => n == n'
  | _, _ => false

/-- The locations that a write to a handle under `mask` may write (R42, R43, R44). -/
def State.targetsUnder (s : State) (mask : PerLane Bool) : Handle → Loc → Prop
  | .r k, l => ∃ j, s.executing mask j = true ∧ l = .reg k j
  | .acc n, l | .accH n, l | .accM n, l | .accL n, l => ∃ j, s.executing mask j = true ∧ l = .acc n j
  | .umcount, l => ∃ j, s.executing mask j = true ∧ l = .umcount j
  | .astat k, l => ∃ j, s.executing mask j = true ∧ l = .flags k j
  | .i k, l => s.execAny mask = true ∧ l = .haz (.i k)
  | .m k, l => s.execAny mask = true ∧ l = .haz (.m k)
  | .l k, l => s.execAny mask = true ∧ l = .haz (.l k)
  | .b k, l => s.execAny mask = true ∧ l = .haz (.b k)
  | .cntr, l => (∃ j, s.masterOpenUnder mask j) ∧ l = .haz .cntr
  | .mstat, l => (∃ j, s.masterOpenUnder mask j) ∧ l = .haz .mstat
  | .lpever, l => (∃ j, s.masterOpenUnder mask j) ∧ l = .ctl .lpever
  | .pcstack, l => (∃ j, s.masterOpenUnder mask j) ∧ l = .ctl .pcstack
  | .lpstack, l => (∃ j, s.masterOpenUnder mask j) ∧ l = .ctl .lpstack
  | .icntl, l => (∃ j, s.masterOpenUnder mask j) ∧ l = .ctl .icntl
  | .imask, l => (∃ j, s.masterOpenUnder mask j) ∧ l = .ctl .imask
  | .irptl, l => (∃ j, s.masterOpenUnder mask j) ∧ l = .ctl .irptl
  | .ivec k, l => (∃ j, s.masterOpenUnder mask j) ∧ l = .ctl (.ivec k)
  | .dstat0, l => (∃ j, s.masterOpenUnder mask j) ∧ l = .en
  | .dstat1, l => (∃ j, s.masterOpenUnder mask j) ∧ l = .master
  | .sstat, _ | .did, _ | .noReg, _ => False

/-- `targetsUnder` of the mask of an operation. -/
def State.handleTargets (s : State) (c : Ctl) : Handle → Loc → Prop := s.targetsUnder (s.maskFor c.cond)

/-- What a handle holds in `t` after a write under `mask` of lane `j`'s value `v j` to it at `s` (R28, R41, R42,
R43, R51, R52, R56). -/
def WrittenUnder (mask : PerLane Bool) (s t : State) (v : Lane → Int) : Handle → Prop
  | .r k => ∀ j, s.executing mask j = true → t.reg k j = BitVec.ofInt 12 (v j)
  | .acc n => ∀ j, s.executing mask j = true → t.accWord n j = BitVec.ofInt 32 (v j)
  | .accH n => ∀ j, s.executing mask j = true → t.accLane n j = { s.accLane n j with h := BitVec.ofInt 8 (v j) }
  | .accM n => ∀ j, s.executing mask j = true → t.accLane n j =
      { s.accLane n j with
        m := BitVec.ofInt 12 (v j)
        h := if (BitVec.ofInt 12 (v j)).msb = true then 0xFF#8 else 0x00#8 }
  | .accL n => ∀ j, s.executing mask j = true → t.accLane n j = { s.accLane n j with l := BitVec.ofInt 12 (v j) }
  | .umcount => ∀ j, s.executing mask j = true → t.umcount.get j = 0#12
  | .astat k => ∀ j, s.executing mask j = true → (t.flags k j).bits = BitVec.ofInt 10 (v j)
  | .i k => ∀ j, s.firstLaneUnder mask j → t.i.get k = (s.i.get k).push (BitVec.ofInt 16 (v j)) s.cycle
  | .m k => ∀ j, s.firstLaneUnder mask j → t.m.get k = (s.m.get k).push (BitVec.ofInt 16 (v j)) s.cycle
  | .l k => ∀ j, s.firstLaneUnder mask j → t.l.get k = (s.l.get k).push (BitVec.ofInt 16 (v j)) s.cycle
  | .b k => ∀ j, s.firstLaneUnder mask j → t.b.get k = (s.b.get k).push (BitVec.ofInt 16 (v j)) s.cycle
  | .cntr => ∀ j, s.masterLaneUnder mask j → t.cntr = s.cntr.push (BitVec.ofInt 16 (v j)) s.cycle
  | .mstat => ∀ j, s.masterLaneUnder mask j → t.mstat = s.mstat.push (BitVec.ofInt 8 (v j)) s.cycle
  | .lpever => ∀ j, s.masterLaneUnder mask j → t.lpever = BitVec.ofInt 16 (v j)
  | .pcstack => ∀ j, s.masterLaneUnder mask j → t.pcstack = BitVec.ofInt 16 (v j)
  | .lpstack => ∀ j, s.masterLaneUnder mask j → t.lpstack = BitVec.ofInt 16 (v j)
  | .icntl => ∀ j, s.masterLaneUnder mask j → t.icntl = BitVec.ofInt 16 (v j)
  | .imask => ∀ j, s.masterLaneUnder mask j → t.imask = BitVec.ofInt 16 (v j)
  | .irptl => ∀ j, s.masterLaneUnder mask j → t.irptl = BitVec.ofInt 16 (v j)
  | .ivec k => ∀ j, s.masterLaneUnder mask j → t.ivec.get k = BitVec.ofInt 16 (v j)
  | .dstat0 => ∀ j, s.masterLaneUnder mask j → ∀ i : Lane,
      t.en.getLsbD i.val = (s.en.getLsbD i.val || (s.cfg.active i && (BitVec.ofInt 4 (v j)).getLsbD i.val))
  | .dstat1 => ∀ j, s.masterLaneUnder mask j →
      (∀ i : Lane, s.cfg.active i = true → (BitVec.ofInt 4 (v j)).getLsbD i.val = true →
        (∀ k, k < i → (BitVec.ofInt 4 (v j)).getLsbD k.val = false) →
        t.master = 1#4 <<< i.val)
      ∧ ((∀ i : Lane, s.cfg.active i = true → (BitVec.ofInt 4 (v j)).getLsbD i.val = false) →
        t.master = s.master)
  | .sstat | .did | .noReg => True

/-- `WrittenUnder` the mask of an operation. -/
def Written (c : Ctl) (s t : State) (v : Lane → Int) (h : Handle) : Prop :=
  WrittenUnder (s.maskFor c.cond) s t v h

/-- The value that a load delivers in lane `j` from word `a`, where `free` stands for the values of UNDEF
lanes, which the spec leaves open (R83, R89). -/
def State.loaded (s : State) (free : Lane → Data) (a : Nat) (j : Lane) : Int :=
  match s.memLane a j with
  | some v => v.toInt
  | none => (free j).toInt

/-- No lane of `P`, the lanes whose value is used, finds UNDEF at `a`, or UNDEF_READ draws a value for it
(R83). -/
def State.readable (s : State) (P : Lane → Prop) (a : Nat) : Prop :=
  s.cfg.undefRead = .draw ∨ ∀ j, P j → (s.memLane a j).isSome = true

/-- The last write of a hazard entry is three cycles or more before `c`, or there is none (R140). -/
def Hazard.settled {w : Nat} (e : Hazard w) (c : Nat) : Prop := ∀ t, e.tCur = some t → t + 3 ≤ c

/-- The write cycles of a hazard entry. -/
def Hazard.stamps {w : Nat} (e : Hazard w) : Option Nat × Option Nat × Option Nat := (e.tCur, e.tBk0, e.tBk1)

/-- `v` agrees with `s` at every place that is specified in `s` (R64), and in everything else that an
operation reads. -/
structure Agrees (s v : State) : Prop where
  reg : ∀ k j, s.unset (.reg k j) = false → v.reg k j = s.reg k j
  accH : ∀ n j, s.unset (.acc n j .h) = false → (v.accLane n j).h = (s.accLane n j).h
  accM : ∀ n j, s.unset (.acc n j .m) = false → (v.accLane n j).m = (s.accLane n j).m
  accL : ∀ n j, s.unset (.acc n j .l) = false → (v.accLane n j).l = (s.accLane n j).l
  i : ∀ k x, s.unset (.haz (.i k) x) = false → (v.i.get k).value x = (s.i.get k).value x
  m : ∀ k x, s.unset (.haz (.m k) x) = false → (v.m.get k).value x = (s.m.get k).value x
  l : ∀ k x, s.unset (.haz (.l k) x) = false → (v.l.get k).value x = (s.l.get k).value x
  b : ∀ k x, s.unset (.haz (.b k) x) = false → (v.b.get k).value x = (s.b.get k).value x
  cntr : ∀ x, s.unset (.haz .cntr x) = false → v.cntr.value x = s.cntr.value x
  stamps : ∀ k, (v.i.get k).stamps = (s.i.get k).stamps ∧ (v.m.get k).stamps = (s.m.get k).stamps
    ∧ (v.l.get k).stamps = (s.l.get k).stamps ∧ (v.b.get k).stamps = (s.b.get k).stamps
    ∧ v.cntr.stamps = s.cntr.stamps
  ctl : ∀ c, s.unset (.ctl c) = false → v.ctl c = s.ctl c
  flags : ∀ c j, v.flags c j = s.flags c j
  umcount : ∀ j, v.umcount.get j = s.umcount.get j
  ovcnt : ∀ j, v.ovcnt.get j = s.ovcnt.get j
  mstat : v.mstat = s.mstat
  en : v.en = s.en
  master : v.master = s.master
  mem : ∀ a j, v.memLane a j = s.memLane a j
  cfg : v.cfg = s.cfg
  cycle : v.cycle = s.cycle
  faultRec : v.faultRec = s.faultRec
  log : v.log = s.log
  out : v.out = s.out
  sstatIn : v.sstatIn = s.sstatIn
  site : v.site = s.site

end Sys2Proof.Machine

namespace Sys2Proof

/-! ## What an operation writes -/

/-- Both registers of an optional R pair. -/
def pairDests (dst : Option RPair) : List (Fin 32) := dst.toList.flatMap fun p => [p.re, p.im]

/-- Both accumulators of an optional pair. -/
def accPairDests (dst : Option AccPair) : List (Fin 8) := dst.toList.flatMap fun p => [p.re, p.im]

/-- The R registers that an operation with a destination among them alone writes in each executing lane. -/
def Instr.regDests : Instr → List (Fin 32)
  | .add _ dst _ _ | .addc _ dst _ _ | .sub _ dst _ _ | .subc _ dst _ _ | .subb _ dst _ _
  | .subbc _ dst _ _ | .and _ dst _ _ | .or _ dst _ _ | .xor _ dst _ _ | .not _ dst _ | .abs _ dst _
  | .inc _ dst _ | .dec _ dst _ | .tstbit _ dst _ _ | .setbit _ dst _ _ | .clrbit _ dst _ _
  | .tglbit _ dst _ _ | .scr _ dst _ _ | .magC _ dst _ => dst.toList
  | .addC _ dst _ _ | .subC _ dst _ _ | .rccwC _ dst _ _ | .rcwC _ dst _ _ | .rectC _ dst _ _
  | .lddDirect _ dst _ | .lddPost _ dst _ _ => pairDests dst
  | .xrd _ dst _ _ _ => [dst]
  | _ => []

/-- The accumulators that an operation with a destination among them alone writes in each executing lane. -/
def Instr.accDests : Instr → List (Fin 8)
  | .addA _ dst _ _ | .subA _ dst _ _ | .mpy _ dst _ _ _ _ | .mac _ dst _ _ _ _ | .mas _ dst _ _ _ _
  | .rndacc _ dst _ | .clracc _ dst | .ashift _ dst _ _ _ _ | .lshift _ dst _ _ _ _
  | .ashiftor _ dst _ _ _ _ | .lshiftor _ dst _ _ _ _ => dst.toList
  | .mpyC _ dst _ _ _ _ | .macC _ dst _ _ _ _ | .masC _ dst _ _ _ _ | .mpyRC _ dst _ _ _ _
  | .macRC _ dst _ _ _ _ | .masRC _ dst _ _ _ _ | .ashiftC _ dst _ _ _ _ | .lshiftC _ dst _ _ _ _ =>
    accPairDests dst
  | _ => []

/-- The handle that MOV, LDI and LD write. -/
def Instr.handleDest : Instr → Option Handle
  | .mov _ dst _ | .ldi _ dst _ | .ldDirect _ dst _ | .ldPost _ dst _ _ => some dst
  | _ => none

/-- The I register that MODIFY and the post-modify accesses step (R85). -/
def Instr.steps : Instr → Option (Fin 8)
  | .modify _ k _ | .ldPost _ _ k _ | .stPost _ _ k _ | .lddPost _ _ k _ | .stdPost _ _ k _ => some k
  | _ => none

end Sys2Proof

namespace Sys2Proof.Machine

/-! ## The invariant -/

/-- A place whose reset value R63 leaves unspecified: not MSTAT, LPEVER, ICNTL, IMASK and IRPTL. -/
def Place.open : Place → Bool
  | .reg _ _ | .acc _ _ _ => true
  | .haz .mstat _ => false
  | .haz _ _ => true
  | .ctl .lpever | .ctl .icntl | .ctl .imask | .ctl .irptl => false
  | .ctl .pcstack | .ctl .lpstack | .ctl (.ivec _) => true

/-- The write cycles of a hazard entry are in order, none later than cycle `c`, and an older slot has
been written only if the newer one has (R55, R56). -/
def Hazard.ordered {w : Nat} (e : Hazard w) (c : Nat) : Bool :=
  match e.tCur, e.tBk0, e.tBk1 with
  | none, none, none => true
  | some t, none, none => decide (t ≤ c)
  | some t, some t0, none => decide (t ≤ c) && decide (t0 ≤ t)
  | some t, some t0, some t1 => decide (t ≤ c) && decide (t0 ≤ t) && decide (t1 ≤ t0)
  | _, _, _ => false

/-- What holds of the machine between bundles, whatever has run. -/
structure State.Inv (s : State) : Prop where
  /-- The parameters are ones R9 and R363 admit. -/
  cfg : s.cfg.wf = true
  /-- The memory is in its canonical form, inside 0..0xFFFF (R70). -/
  memWf : s.mem.wf = true
  /-- The lanes from N on hold UNDEF in every entry (R21). -/
  memInert : s.mem.inert s.cfg = true
  /-- No lane from N on is enabled (R21). -/
  enWithin : s.cfg.within s.en = true
  /-- MASTER has exactly one bit set (R53). -/
  masterOne : oneHot4 s.master = true
  /-- The master lane is active (R21). -/
  masterWithin : s.cfg.within s.master = true
  /-- The hazard histories are in order (R55, R56). -/
  iOrdered : ∀ k, (s.i.get k).ordered s.cycle = true
  mOrdered : ∀ k, (s.m.get k).ordered s.cycle = true
  lOrdered : ∀ k, (s.l.get k).ordered s.cycle = true
  bOrdered : ∀ k, (s.b.get k).ordered s.cycle = true
  cntrOrdered : s.cntr.ordered s.cycle = true
  mstatOrdered : s.mstat.ordered s.cycle = true
  /-- Only what R63 leaves unspecified is unspecified (R64). -/
  unwritten : ∀ p ∈ s.unwritten, p.open = true
  /-- No bundle is in progress. -/
  slot : s.slot = 0
  staged : s.staged = []
  outs : s.outs = []

end Sys2Proof.Machine
end

