-- ==== Sys2Proof/Certificates/Slice0/Obligations.lean ====
section
/-! DEFINITION. The statements for the provers. An operation with EOB = 1 executed between bundles
(`State.Idle`) is a bundle of its own; a statement about one holds under every condition code, because its
executing lanes are those of `State.runs`. -/

open Sys2Proof Sys2Proof.Machine

/-! ## The encoding -/

/-- R101, R102, R104, R108 to R110, R112 to R116, R118, R122: a word of every row of R110 (both forms of LD, ST,
LDD and STD), put together from the tables of 30_encoding.md, decodes to the operation it stands for; and so do
`MOV h, h` for every register handle `h` of R104 and NOP under each of the 32 conditions of R112. -/
def Obligations.SpecWordsDecode : Prop :=
  (∀ e ∈ ([
      (0x010F830208000000#64, .add ⟨.true, true⟩ (some 3) 1 (.reg 2)),
      (0x01048303FC400005#64, .add ⟨.lt, true⟩ (some 3) 1 (.imm 5#16)),
      (0x020F8A2878000000#64, .addc ⟨.true, true⟩ (some 10) 20 (.reg 30)),
      (0x030F830208000000#64, .sub ⟨.true, true⟩ (some 3) 1 (.reg 2)),
      (0x040F8A2878000000#64, .subc ⟨.true, true⟩ (some 10) 20 (.reg 30)),
      (0x050F8A2878000000#64, .subb ⟨.true, true⟩ (some 10) 20 (.reg 30)),
      (0x060F8A2878000000#64, .subbc ⟨.true, true⟩ (some 10) 20 (.reg 30)),
      (0x070F8A2878000000#64, .and ⟨.true, true⟩ (some 10) 20 (.reg 30)),
      (0x080F8A2878000000#64, .or ⟨.true, true⟩ (some 10) 20 (.reg 30)),
      (0x090F8A2878000000#64, .xor ⟨.true, true⟩ (some 10) 20 (.reg 30)),
      (0x0A0F8A29FC000000#64, .not ⟨.true, true⟩ (some 10) 20),
      (0x0B0F8303FC000000#64, .abs ⟨.true, true⟩ (some 3) 1),
      (0x0C0F8A29FC000000#64, .inc ⟨.true, true⟩ (some 10) 20),
      (0x0D0F8A29FC000000#64, .dec ⟨.true, true⟩ (some 10) 20),
      (0x0E0F8303FC400004#64, .tstbit ⟨.true, true⟩ (some 3) 1 (.imm 4#16)),
      (0x0F0F8A29FC40000B#64, .setbit ⟨.true, true⟩ (some 10) 20 (.imm 11#16)),
      (0x100F8A29FC40000B#64, .clrbit ⟨.true, true⟩ (some 10) 20 (.imm 11#16)),
      (0x110F8A29FC40000B#64, .tglbit ⟨.true, true⟩ (some 10) 20 (.imm 11#16)),
      (0x120F8A29FC40F800#64, .scr ⟨.true, true⟩ (some 10) 20 (.imm 0xF800#16))] : List (Descr × Instr)),
    decode Params.default e.1 = .ok e.2)
  ∧ (∀ e ∈ ([
      (0x012FA04208000000#64, .addA ⟨.true, true⟩ (some 0) 1 (.reg 2)),
      (0x032FA043FC400020#64, .subA ⟨.true, true⟩ (some 0) 1 (.imm 0x20#16)),
      (0x180F880818000000#64, .addC ⟨.true, true⟩ (some 4) 2 3),
      (0x190F8A2878000000#64, .subC ⟨.true, true⟩ (some 5) 10 15),
      (0x1A0F8809FC400001#64, .rccwC ⟨.true, true⟩ (some 4) 2 (.imm 1#16)),
      (0x1B0F8A2878000000#64, .rcwC ⟨.true, true⟩ (some 5) 10 (.reg 30)),
      (0x1C0F8809FC000000#64, .magC ⟨.true, true⟩ (some 8) 2),
      (0x1D0F8A2A7C000000#64, .rectC ⟨.true, true⟩ (some 5) 21 31)] : List (Descr × Instr)),
    decode Params.default e.1 = .ok e.2)
  ∧ (∀ e ∈ ([
      (0x206FA00208000000#64, .mpy ⟨.true, true⟩ (some 0) 1 2 .ss false),
      (0x216FA00209000000#64, .mac ⟨.true, true⟩ (some 0) 1 2 .su false),
      (0x226FA5287A000000#64, .mas ⟨.true, true⟩ (some 5) 20 30 .us false),
      (0x236FA00818000000#64, .mpyC ⟨.true, true⟩ (some 0) 2 3 .ss false),
      (0x246FA4287B800000#64, .macC ⟨.true, true⟩ (some 2) 10 15 .uu true),
      (0x256FA42879000000#64, .masC ⟨.true, true⟩ (some 2) 10 15 .su false),
      (0x266FA42A78800000#64, .mpyRC ⟨.true, true⟩ (some 2) 21 15 .ss true),
      (0x276FA20218000000#64, .macRC ⟨.true, true⟩ (some 1) 1 3 .ss false),
      (0x286FA42A7A000000#64, .masRC ⟨.true, true⟩ (some 2) 21 15 .us false),
      (0x296FA043FC000000#64, .rndacc ⟨.true, true⟩ (some 0) 1),
      (0x2A6FA0FFFC000000#64, .clracc ⟨.true, true⟩ (some 0))] : List (Descr × Instr)),
    decode Params.default e.1 = .ok e.2)
  ∧ (∀ e ∈ ([
      (0x304FA003FCC0FFFF#64, .ashift ⟨.true, true⟩ (some 0) (.reg 1) (.imm 0xFFFF#16) .dflt true),
      (0x304FA003FD400000#64, .ashift ⟨.true, true⟩ (some 0) (.reg 1) (.imm 0#16) .hi false),
      (0x314FA54C79000000#64, .lshift ⟨.true, true⟩ (some 5) (.acc 6) (.reg 30) .hi false),
      (0x324FA5287A000000#64, .ashiftor ⟨.true, true⟩ (some 5) (.reg 20) (.reg 30) .lo false),
      (0x334FA529FCC0FFE0#64, .lshiftor ⟨.true, true⟩ (some 5) (.reg 20) (.imm 0xFFE0#16) .dflt true),
      (0x344FA009FC40FE03#64, .ashiftC ⟨.true, true⟩ (some 0) (.regs 2) (.imm 0xFE03#16) .dflt false),
      (0x354FA44C78000000#64, .lshiftC ⟨.true, true⟩ (some 2) (.accs 3) (.regs 15) .dflt false)]
      : List (Descr × Instr)),
    decode Params.default e.1 = .ok e.2)
  ∧ (∀ e ∈ ([
      (0x408F85FFFC400100#64, .ldDirect ⟨.true, true⟩ (.r 5) 0x100#16),
      (0x408F85FFFC00001A#64, .ldPost ⟨.true, true⟩ (.r 5) 2 3),
      (0x418FFF41FC400300#64, .stDirect ⟨.true, true⟩ (.acc 0) 0x300#16),
      (0x418FFF4BFC00000A#64, .stPost ⟨.true, true⟩ (.acc 5) 2 1),
      (0x428F86FFFC400300#64, .lddDirect ⟨.true, true⟩ (some 3) 0x300#16),
      (0x428F9EFFFC00003F#64, .lddPost ⟨.true, true⟩ (some 15) 7 7),
      (0x438FFF0DFC400300#64, .stdDirect ⟨.true, true⟩ 3 0x300#16),
      (0x438FFF29FC000001#64, .stdPost ⟨.true, true⟩ 10 1 0),
      (0x448FFFFFFC000009#64, .modify ⟨.true, true⟩ 1 1)] : List (Descr × Instr)),
    decode Params.default e.1 = .ok e.2)
  ∧ (∀ e ∈ ([
      (0x50AF8165FC000000#64, .mov ⟨.true, true⟩ (.r 1) (.accM 2)),
      (0x51AFD3FFFC400004#64, .ldi ⟨.true, true⟩ (.l 3) 4#16),
      (0x52AFFFFFFC000000#64, .nop ⟨.true, true⟩),
      (0x60CF840BFC200003#64, .xrd ⟨.true, true⟩ 4 5 .four 3),
      (0x61CF840BFC200001#64, .xwr ⟨.true, true⟩ 4 5 .four 1)] : List (Descr × Instr)),
    decode Params.default e.1 = .ok e.2)
  ∧ (∀ k : Fin 32,
    decode Params.default (0x50AF8001FC000000#64 ||| BitVec.ofNat 64 k.val <<< 40 ||| BitVec.ofNat 64 k.val <<< 33) =
      .ok (.mov ⟨.true, true⟩ (.r k) (.r k)))
  ∧ (∀ k : Fin 8, ∀ e ∈ [(32 + k.val, Handle.acc k), (40 + k.val, .accH k), (48 + k.val, .accM k),
      (56 + k.val, .accL k), (64 + k.val, .i k), (72 + k.val, .m k), (80 + k.val, .l k), (88 + k.val, .b k)],
    decode Params.default (0x50AF8001FC000000#64 ||| BitVec.ofNat 64 e.1 <<< 40 ||| BitVec.ofNat 64 e.1 <<< 33) =
      .ok (.mov ⟨.true, true⟩ e.2 e.2))
  ∧ (∀ e ∈ [(96, Handle.cntr), (97, .lpever), (98, .pcstack), (99, .lpstack), (100, .mstat), (101, .sstat),
      (102, .icntl), (103, .imask), (104, .irptl), (105, .ivec 0), (106, .ivec 1), (107, .ivec 2),
      (108, .ivec 3), (109, .dstat0), (110, .dstat1), (111, .did), (112, .umcount), (113, .astat .re),
      (114, .astat .im), (115, .astat .cx)],
    decode Params.default (0x50AF8001FC000000#64 ||| BitVec.ofNat 64 e.1 <<< 40 ||| BitVec.ofNat 64 e.1 <<< 33) =
      .ok (.mov ⟨.true, true⟩ e.2 e.2))
  ∧ (List.range 32).map (fun n => decode Params.default (0x52A0FFFFFC000000#64 ||| BitVec.ofNat 64 n <<< 48)) =
    ([.eq, .ne, .gt, .le, .lt, .ge, .av, .notAv, .ac, .notAc, .sv, .notSv, .mv, .notMv, .notCe, .true,
      .eqC, .neC, .gtC, .leC, .ltC, .geC, .avC, .notAvC, .acC, .notAcC, .svC, .notSvC, .mvC, .notMvC, .umC,
      .notUmC] : List Cond).map (fun c => .ok (.nop ⟨c, true⟩))

/-- Decoding the word of a well-formed operation gives the operation back, for every operation, under
every parameter value. NONE as a pair or accumulator destination is the model's reading (log 24). -/
def Obligations.DecodeEncodeRoundTrip : Prop :=
  ∀ (p : Params) (i : Instr), i.wellFormed p = true → decode p (encode i) = .ok i

/-- A word that decodes is the word of the operation it decodes to, and that operation is well formed
(R119): no two words have one meaning, and no bit of a legal word is ignored. Which
fillers and destinations are legal rests on logs 17, 18 and 24 too. -/
def Obligations.DecodedWordsAreCanonical : Prop :=
  ∀ (p : Params) (d : Descr) (i : Instr), decode p d = .ok i → i.wellFormed p = true ∧ encode i = d

/-- R111: every word whose (OPC, TYPE) pair is not one of R110 raises E_COMBO. -/
def Obligations.UnmappedPairsRaiseCombo : Prop :=
  ∀ (p : Params) (d : Descr),
    ((d.extractLsb' 56 8).toNat, (d.extractLsb' 53 3).toNat) ∉
      ([(0x01, 0), (0x01, 1), (0x02, 0), (0x03, 0), (0x03, 1), (0x04, 0), (0x05, 0), (0x06, 0), (0x07, 0),
        (0x08, 0), (0x09, 0), (0x0A, 0), (0x0B, 0), (0x0C, 0), (0x0D, 0), (0x0E, 0), (0x0F, 0), (0x10, 0),
        (0x11, 0), (0x12, 0), (0x18, 0), (0x19, 0), (0x1A, 0), (0x1B, 0), (0x1C, 0), (0x1D, 0), (0x20, 3),
        (0x21, 3), (0x22, 3), (0x23, 3), (0x24, 3), (0x25, 3), (0x26, 3), (0x27, 3), (0x28, 3), (0x29, 3),
        (0x2A, 3), (0x30, 2), (0x31, 2), (0x32, 2), (0x33, 2), (0x34, 2), (0x35, 2), (0x40, 4), (0x41, 4),
        (0x42, 4), (0x43, 4), (0x44, 4), (0x50, 5), (0x51, 5), (0x52, 5), (0x60, 6), (0x61, 6)]
        : List (Nat × Nat)) →
    decode p d = .error eCombo

/-! ## The step -/

/-- R130 for one operation: when the next command is one descriptor that decodes to `i` and ends its
bundle, and no error is recorded, the step is `exec i` on the state that has taken the command and the
bundle's inputs (the queue of commands is the model's, log 1). -/
def Obligations.StepRunsDecodedInstruction : Prop :=
  ∀ (s : State) (d : Descr) (x : BitVec 8) (site : Nat) (rest : List HostCmd) (i : Instr),
    s.input = .execute [d] x site :: rest → s.faultRec = none → decode s.cfg d = .ok i →
    i.ctl.eob = true →
    step s = exec i ((s.withInput rest).openBundle x site)

/-- R130, R131, R137 for two operations of one bundle: two register moves that name each other's source
swap the registers, in every lane that executes both. -/
def Obligations.MovesInOneBundleSwap : Prop :=
  ∀ (s : State) (c : Cond) (p q : Fin 32), s.Idle → p ≠ q →
    s.Known (.mov ⟨c, false⟩ (.r p) (.r q)) → s.Known (.mov ⟨c, true⟩ (.r q) (.r p)) →
    ∃ t, runSlots [.mov ⟨c, false⟩ (.r p) (.r q), .mov ⟨c, true⟩ (.r q) (.r p)] s = .next t
      ∧ SameExcept (fun l => ∃ j, s.runs ⟨c, true⟩ j ∧ (l = .reg p j ∨ l = .reg q j)) s t
      ∧ (∀ j, s.runs ⟨c, true⟩ j → t.reg p j = s.reg q j ∧ t.reg q j = s.reg p j)
      ∧ t.cycle = s.cycle + 1 ∧ t.faultRec = none

/-- R131: an operation that does not end its bundle leaves every location as it is, whatever it is. -/
def Obligations.OpenBundleKeepsArchitecture : Prop :=
  ∀ (s t : State) (i : Instr), i.ctl.eob = false → exec i s = .next t →
    SameState s t ∧ t.cycle = s.cycle ∧ t.input = s.input

/-- R339: a bundle in which a descriptor does not decode records the first such error with its slot, the
site and the cycle, and commits nothing, whatever the other descriptors do. -/
def Obligations.DecodeErrorsAreRecordedFirst : Prop :=
  ∀ (s : State) (ds b more : List Descr) (x : BitVec 8) (site : Nat) (rest : List HostCmd)
    (before after : List Descr) (d : Descr) (e : CoreErr),
    s.input = .execute ds x site :: rest → s.faultRec = none → takeBundle ds = some (b, more) →
    b = before ++ d :: after → (∀ y ∈ before, ∃ i, decode s.cfg y = .ok i) →
    decode s.cfg d = .error e →
    ∃ t, step s = .next t ∧ SameState s t ∧ t.cycle = s.cycle
      ∧ t.faultRec = some { err := e, slot := before.length, site := site, cycle := s.cycle }

/-- R139, R331: a bundle that records an error, of any length and in any of its slots, leaves every
location and the cycle as they were, keeps the diagnostics before it, and every later bundle is taken from the
queue and does nothing (that it is a next state is the model's form of the refusal, log 8). -/
def Obligations.BundleErrorsArePrecise : Prop :=
  ∀ (s t : State) (ds : List Descr) (x : BitVec 8) (site : Nat) (rest : List HostCmd),
    s.input = .execute ds x site :: rest → s.faultRec = none → step s = .next t → t.faultRec ≠ none →
    SameState s t ∧ t.cycle = s.cycle ∧ (∃ es, t.log = s.log ++ es)
      ∧ (∃ e k, t.faultRec = some { err := e, slot := k, site := site, cycle := s.cycle })
      ∧ ∀ ds' x' site' rest',
          step (t.withInput (.execute ds' x' site' :: rest')) = .next (t.withInput rest')

/-- R132: with no error recorded, every bundle is performed, whatever its words (R119); the cycle advances by
exactly 1 if it commits, and a bundle that raises an error commits nothing and does not advance it. -/
def Obligations.BundlesAdvanceTheCycleByOne : Prop :=
  ∀ (s : State) (ds b more : List Descr) (x : BitVec 8) (site : Nat) (rest : List HostCmd),
    s.input = .execute ds x site :: rest → s.faultRec = none → takeBundle ds = some (b, more) →
    ∃ t, step s = .next t
      ∧ ((t.faultRec = none ∧ t.cycle = s.cycle + 1) ∨ (t.faultRec ≠ none ∧ t.cycle = s.cycle ∧ SameState s t))

/-- The invariant is kept by every step, from every state that has it. -/
def Obligations.StepKeepsInvariant : Prop :=
  ∀ (s t : State), s.Inv → step s = .next t → t.Inv

/-- The invariant holds right after reset, under every parameter value that R363 admits. -/
def Obligations.ResetHasInvariant : Prop :=
  ∀ p : Params, p.wf = true → (State.resetWith p).Inv

/-- The reset values that R63 gives (R361), the stamps of every hazard-tracked register NEVER, and which places
are unspecified (R64); the values held there are the model's choice (log 3) and are not stated. -/
def Obligations.ResetValues : Prop :=
  ∀ p : Params,
    (State.resetWith p).lpever = 0#16 ∧ (State.resetWith p).icntl = 0#16
    ∧ (State.resetWith p).imask = 0#16 ∧ (State.resetWith p).irptl = 0#16
    ∧ (State.resetWith p).mstat = ⟨0#8, 0#8, 0#8, none, none, none⟩
    ∧ (State.resetWith p).en = p.resetEn ∧ (State.resetWith p).master = p.resetMaster
    ∧ (∀ j, (State.resetWith p).umcount.get j = 0#12 ∧ (State.resetWith p).ovcnt.get j = 0#32
        ∧ ∀ k, ((State.resetWith p).flags k j).bits = 0#10)
    ∧ (∀ a j, (State.resetWith p).mem.find a = none ∧ (State.resetWith p).memLane a j = none)
    ∧ (State.resetWith p).cycle = 0 ∧ (State.resetWith p).faultRec = none
    ∧ (State.resetWith p).log = []
    ∧ (∀ k, ((State.resetWith p).i.get k).stamps = (none, none, none)
        ∧ ((State.resetWith p).m.get k).stamps = (none, none, none)
        ∧ ((State.resetWith p).l.get k).stamps = (none, none, none)
        ∧ ((State.resetWith p).b.get k).stamps = (none, none, none))
    ∧ (State.resetWith p).cntr.stamps = (none, none, none)
    ∧ (∀ q : Place, (State.resetWith p).unset q = q.open)
    ∧ (∀ j, (State.resetWith p).readLane .did j = j.val)

/-- R51, R61, R361: no step but reset clears a bit of EN, or the fault record once it is set. -/
def Obligations.OnlyResetClears : Prop :=
  ∀ (s t : State), s.input.head? ≠ some .reset → step s = .next t →
    (∀ n, s.en.getLsbD n = true → t.en.getLsbD n = true)
    ∧ ∀ f : FaultRec, s.faultRec = some f → t.faultRec = some f

/-- R21: no step but reset changes anything in a lane from N on. -/
def Obligations.InactiveLanesUntouched : Prop :=
  ∀ (s t : State), s.input.head? ≠ some .reset → step s = .next t → ∀ j, s.cfg.active j = false →
    (∀ k, t.reg k j = s.reg k j) ∧ (∀ n, t.accLane n j = s.accLane n j)
    ∧ (∀ k, t.flags k j = s.flags k j) ∧ t.umcount.get j = s.umcount.get j
    ∧ t.ovcnt.get j = s.ovcnt.get j ∧ (∀ a, t.memLane a j = s.memLane a j)

/-- R133, R42: an operation other than XWR, alone in its bundle, leaves every lane that does not execute as
it was: registers, accumulators, flags, counters and memory lanes. -/
def Obligations.OtherLanesKeepTheirValues : Prop :=
  ∀ (s t : State) (i : Instr), s.Idle → i.ctl.eob = true →
    (∀ c d a act off, i ≠ .xwr c d a act off) → exec i s = .next t → ∀ j, ¬ s.runs i.ctl j →
    (∀ k, t.reg k j = s.reg k j) ∧ (∀ n, t.accLane n j = s.accLane n j)
    ∧ (∀ k, t.flags k j = s.flags k j) ∧ t.umcount.get j = s.umcount.get j
    ∧ t.ovcnt.get j = s.ovcnt.get j ∧ (∀ a, t.memLane a j = s.memLane a j)

/-! ## Predication and outputs -/

/-- R151: the mask of an active, enabled lane under each condition code, by the flags of ASTAT_R (codes 0
to 15) or ASTAT_C (16 to 31) and by `lat(CNTR)`, where CNTR is not drawn (R64; see
`UnspecifiedReadsDraw`). -/
def Obligations.ConditionFormulas : Prop :=
  ∀ (s : State) (j : Lane), s.enabled j = true →
    (∀ (c0 c1 c2 c3 c4 c5 c6 c7 c8 c9 c10 c11 c12 c13 : Cond) (k : Copy),
      ([c0, c1, c2, c3, c4, c5, c6, c7, c8, c9, c10, c11, c12, c13], k) ∈
        [([Cond.eq, .ne, .gt, .le, .lt, .ge, .av, .notAv, .ac, .notAc, .sv, .notSv, .mv, .notMv], Copy.re),
         ([Cond.eqC, .neC, .gtC, .leC, .ltC, .geC, .avC, .notAvC, .acC, .notAcC, .svC, .notSvC, .mvC,
            .notMvC], Copy.cx)] →
      (s.maskFor c0).get j = (s.flags k j).az
      ∧ (s.maskFor c1).get j = !(s.flags k j).az
      ∧ (s.maskFor c2).get j = !(((s.flags k j).an ^^ (s.flags k j).av) || (s.flags k j).az)
      ∧ (s.maskFor c3).get j = (((s.flags k j).an ^^ (s.flags k j).av) || (s.flags k j).az)
      ∧ (s.maskFor c4).get j = ((s.flags k j).an ^^ (s.flags k j).av)
      ∧ (s.maskFor c5).get j = !((s.flags k j).an ^^ (s.flags k j).av)
      ∧ (s.maskFor c6).get j = (s.flags k j).av ∧ (s.maskFor c7).get j = !(s.flags k j).av
      ∧ (s.maskFor c8).get j = (s.flags k j).ac ∧ (s.maskFor c9).get j = !(s.flags k j).ac
      ∧ (s.maskFor c10).get j = (s.flags k j).sv ∧ (s.maskFor c11).get j = !(s.flags k j).sv
      ∧ (s.maskFor c12).get j = (s.flags k j).mv ∧ (s.maskFor c13).get j = !(s.flags k j).mv)
    ∧ (s.cfg.uninitRead ≠ .draw ∨ s.unwritten = [] →
      (s.maskFor .notCe).get j = decide (1 < (s.lat .cntr).toNat))
    ∧ (s.maskFor .true).get j = true
    ∧ (s.maskFor .umC).get j = (s.flags .cx j).um
    ∧ (s.maskFor .notUmC).get j = !(s.flags .cx j).um

/-- NOP alone in its bundle changes no location; its outputs are the mask of its condition, the number of
enabled lanes in it, and its bit at the master lane (R132, R153, R154, R155, R313). -/
def Obligations.NopReportsItsCondition : Prop :=
  ∀ (s : State) (c : Ctl), s.Idle → c.eob = true → s.Known (.nop c) →
    ∃ t, exec (.nop c) s = .next t ∧ Commits c (fun _ => False) s t
      ∧ ∃ o, t.out = [o]
        ∧ (∀ j, s.cfg.active j = true → c.cond = .true → o.mask.get j = true)
        ∧ o.trueCount = (allLanes.filter fun j => s.enabled j && o.mask.get j).length
        ∧ (s.Inv → ∀ j, s.isMaster j = true → o.taken = o.mask.get j)

/-! ## Hazards -/

/-- R370, R371: after a write at cycle c, whose predecessor is at least three bundles older, the reads of
the table of R370, with and without a warning; and the two rows of R371, a second write one or two bundles
later. -/
def Obligations.HazardVisibility : Prop :=
  ∀ (w : Nat) (e : Hazard w) (x y : BitVec w) (c : Nat), (∀ t, e.tCur = some t → t + 3 ≤ c) →
    ((e.push x c).latAt (c + 1) = e.cur ∧ (e.push x c).staleAt (c + 1) = true)
    ∧ ((e.push x c).latAt (c + 2) = e.cur ∧ (e.push x c).staleAt (c + 2) = true)
    ∧ (∀ n, 3 ≤ n → (e.push x c).latAt (c + n) = x ∧ (e.push x c).staleAt (c + n) = false)
    ∧ ((e.push x c).push y (c + 1)).latAt (c + 2) = e.cur
    ∧ ((e.push x c).push y (c + 1)).latAt (c + 3) = x
    ∧ ((e.push x c).push y (c + 1)).latAt (c + 4) = y
    ∧ ((e.push x c).push y (c + 2)).latAt (c + 3) = x
    ∧ ((e.push x c).push y (c + 2)).latAt (c + 4) = x
    ∧ ((e.push x c).push y (c + 2)).latAt (c + 5) = y

/-- R372: after `LDI MSTAT` the two bundles that follow still see the old modes, and the third the new
ones. -/
def Obligations.ModeChangeTakesThreeBundles : Prop :=
  ∀ (s : State) (v : Half) (m : Lane), s.Idle → s.isMaster m = true →
    (∀ t, s.mstat.tCur = some t → t + 3 ≤ s.cycle) →
    ∃ t1 t2 t3, exec (.ldi ⟨.true, true⟩ .mstat v) s = .next t1
      ∧ exec (.nop ⟨.true, true⟩) t1 = .next t2 ∧ exec (.nop ⟨.true, true⟩) t2 = .next t3
      ∧ ∀ n, n < 8 → t1.modeBit n = s.mstat.cur.getLsbD n ∧ t2.modeBit n = s.mstat.cur.getLsbD n
        ∧ t3.modeBit n = v.getLsbD n

/-! ## ALU operations -/

/-- R185, R186, R196: ADD, ADDC and INC. -/
def Obligations.AddResults : Prop :=
  ∀ (s : State) (c : Ctl) (dst : Option (Fin 32)) (sa : Fin 32) (b : Src), s.Idle → c.eob = true →
    (s.Known (.add c dst sa b) → ∃ t, exec (.add c dst sa b) s = .next t ∧ RealAlu c dst s t
      (fun j => BitVec.ofInt 12 ((s.reg sa j).toInt + s.srcInt b j))
      (fun j => ov12Add (s.reg sa j).toInt (s.srcInt b j)
        (BitVec.ofInt 12 ((s.reg sa j).toInt + s.srcInt b j)))
      (fun j => decide (0xFFF < zext12 (s.reg sa j).toInt + zext12 (s.srcInt b j))))
    ∧ (s.Known (.addc c dst sa b) → ∃ t, exec (.addc c dst sa b) s = .next t ∧ RealAlu c dst s t
      (fun j => BitVec.ofInt 12 ((s.reg sa j).toInt + s.srcInt b j + (s.flags .re j).ac.toNat))
      (fun j => ov12Add (s.reg sa j).toInt (s.srcInt b j)
        (BitVec.ofInt 12 ((s.reg sa j).toInt + s.srcInt b j + (s.flags .re j).ac.toNat)))
      (fun j => decide (0xFFF < zext12 (s.reg sa j).toInt + zext12 (s.srcInt b j)
        + (s.flags .re j).ac.toNat)))
    ∧ (s.Known (.inc c dst sa) → ∃ t, exec (.inc c dst sa) s = .next t ∧ RealAlu c dst s t
      (fun j => BitVec.ofInt 12 ((s.reg sa j).toInt + 1))
      (fun j => ov12Add (s.reg sa j).toInt 1 (BitVec.ofInt 12 ((s.reg sa j).toInt + 1)))
      (fun j => decide (0xFFF < zext12 (s.reg sa j).toInt + 1)))

/-- R187 to R190, R197: SUB, SUBB, DEC, SUBC and SUBBC; a borrow sets AC. `k` is the carry-in term of SUBC and
SUBBC: SUBC_FORM `adsp` adds AC - 1, `borrow` takes AC away. -/
def Obligations.SubtractResults : Prop :=
  ∀ (s : State) (c : Ctl) (dst : Option (Fin 32)) (sa : Fin 32) (b : Src) (k : Lane → Int), s.Idle →
    c.eob = true →
    (s.cfg.subcForm = .adsp → ∀ j, k j = (if (s.flags .re j).ac = true then 0 else -1)) →
    (s.cfg.subcForm = .borrow → ∀ j, k j = (if (s.flags .re j).ac = true then -1 else 0)) →
    (s.Known (.sub c dst sa b) → ∃ t, exec (.sub c dst sa b) s = .next t ∧ RealAlu c dst s t
      (fun j => BitVec.ofInt 12 ((s.reg sa j).toInt - s.srcInt b j))
      (fun j => ov12Sub (s.reg sa j).toInt (s.srcInt b j)
        (BitVec.ofInt 12 ((s.reg sa j).toInt - s.srcInt b j)))
      (fun j => decide (zext12 (s.reg sa j).toInt - zext12 (s.srcInt b j) < 0)))
    ∧ (s.Known (.subb c dst sa b) → ∃ t, exec (.subb c dst sa b) s = .next t ∧ RealAlu c dst s t
      (fun j => BitVec.ofInt 12 (s.srcInt b j - (s.reg sa j).toInt))
      (fun j => ov12Sub (s.srcInt b j) (s.reg sa j).toInt
        (BitVec.ofInt 12 (s.srcInt b j - (s.reg sa j).toInt)))
      (fun j => decide (zext12 (s.srcInt b j) - zext12 (s.reg sa j).toInt < 0)))
    ∧ (s.Known (.dec c dst sa) → ∃ t, exec (.dec c dst sa) s = .next t ∧ RealAlu c dst s t
      (fun j => BitVec.ofInt 12 ((s.reg sa j).toInt - 1))
      (fun j => ov12Sub (s.reg sa j).toInt 1 (BitVec.ofInt 12 ((s.reg sa j).toInt - 1)))
      (fun j => decide (zext12 (s.reg sa j).toInt - 1 < 0)))
    ∧ (s.Known (.subc c dst sa b) → ∃ t, exec (.subc c dst sa b) s = .next t ∧ RealAlu c dst s t
      (fun j => BitVec.ofInt 12 ((s.reg sa j).toInt - s.srcInt b j + k j))
      (fun j => ov12Sub (s.reg sa j).toInt (s.srcInt b j)
        (BitVec.ofInt 12 ((s.reg sa j).toInt - s.srcInt b j + k j)))
      (fun j => decide (zext12 (s.reg sa j).toInt - zext12 (s.srcInt b j) + k j < 0)
        || decide (0xFFF < zext12 (s.reg sa j).toInt - zext12 (s.srcInt b j) + k j)))
    ∧ (s.Known (.subbc c dst sa b) → ∃ t, exec (.subbc c dst sa b) s = .next t ∧ RealAlu c dst s t
      (fun j => BitVec.ofInt 12 (s.srcInt b j - (s.reg sa j).toInt + k j))
      (fun j => ov12Sub (s.srcInt b j) (s.reg sa j).toInt
        (BitVec.ofInt 12 (s.srcInt b j - (s.reg sa j).toInt + k j)))
      (fun j => decide (zext12 (s.srcInt b j) - zext12 (s.reg sa j).toInt + k j < 0)
        || decide (0xFFF < zext12 (s.srcInt b j) - zext12 (s.reg sa j).toInt + k j)))

/-- R165: on 12-bit operands, with a carry-in of 0 or 1, the bit tests of overflow say that the exact sum
or difference leaves -2048..2047. -/
def Obligations.OverflowTestsAreExact : Prop :=
  ∀ (a b : Data) (k : Int), 0 ≤ k → k ≤ 1 →
    ov12Add a.toInt b.toInt (BitVec.ofInt 12 (a.toInt + b.toInt + k))
      = (decide (a.toInt + b.toInt + k < -2048) || decide (2047 < a.toInt + b.toInt + k))
    ∧ ov12Sub a.toInt b.toInt (BitVec.ofInt 12 (a.toInt - b.toInt - k))
      = (decide (a.toInt - b.toInt - k < -2048) || decide (2047 < a.toInt - b.toInt - k))

/-- R191 to R194: AND, OR, XOR and NOT, bit by bit; AV and AC are cleared (AV sticky). -/
def Obligations.LogicResults : Prop :=
  ∀ (s : State) (c : Ctl) (dst : Option (Fin 32)) (sa : Fin 32) (b : Src), s.Idle → c.eob = true →
    (s.Known (.and c dst sa b) → ∃ t, exec (.and c dst sa b) s = .next t ∧ RealAlu c dst s t
      (fun j => s.reg sa j &&& BitVec.ofInt 12 (s.srcInt b j)) (fun _ => false) (fun _ => false))
    ∧ (s.Known (.or c dst sa b) → ∃ t, exec (.or c dst sa b) s = .next t ∧ RealAlu c dst s t
      (fun j => s.reg sa j ||| BitVec.ofInt 12 (s.srcInt b j)) (fun _ => false) (fun _ => false))
    ∧ (s.Known (.xor c dst sa b) → ∃ t, exec (.xor c dst sa b) s = .next t ∧ RealAlu c dst s t
      (fun j => s.reg sa j ^^^ BitVec.ofInt 12 (s.srcInt b j)) (fun _ => false) (fun _ => false))
    ∧ (s.Known (.not c dst sa) → ∃ t, exec (.not c dst sa) s = .next t ∧ RealAlu c dst s t
      (fun j => ~~~(s.reg sa j)) (fun _ => false) (fun _ => false))

/-- R195, R202: ABS, with AS the sign of the operand and only -2048 overflowing; SCR, which negates where bit 0
of b is set, and copies elsewhere. -/
def Obligations.AbsAndScrResults : Prop :=
  ∀ (s : State) (c : Ctl) (dst : Option (Fin 32)) (sa : Fin 32) (b : Src), s.Idle → c.eob = true →
    (s.Known (.abs c dst sa) → ∃ t, exec (.abs c dst sa) s = .next t ∧ Commits c (s.regTargets c dst) s t
      ∧ ∀ j, s.runs c j →
        (∀ k, dst = some k → t.reg k j =
          s.saturated (BitVec.ofInt 12 |(s.reg sa j).toInt|) (decide (s.reg sa j = 0x800#12)) false)
        ∧ t.flags .re j =
          { s.aluFlags .re j (decide (s.reg sa j = 0#12)) (decide (s.reg sa j = 0x800#12))
              (decide (s.reg sa j = 0x800#12)) false with as := (s.reg sa j).msb })
    ∧ (s.Known (.scr c dst sa b) → ∃ t, exec (.scr c dst sa b) s = .next t ∧ RealAlu c dst s t
      (fun j => if s.srcInt b j % 2 = 1 then -(s.reg sa j) else s.reg sa j)
      (fun j => decide (s.srcInt b j % 2 = 1) && decide (s.reg sa j = 0x800#12)) (fun _ => false))

/-- R198 to R201: the bit operations where every executing lane's index is in 0..11. -/
def Obligations.BitResults : Prop :=
  ∀ (s : State) (c : Ctl) (dst : Option (Fin 32)) (sa : Fin 32) (b : Src), s.Idle → c.eob = true →
    (∀ j, s.runs c j → 0 ≤ s.srcIndex b j ∧ s.srcIndex b j ≤ 11) →
    (s.Known (.tstbit c dst sa b) → ∃ t, exec (.tstbit c dst sa b) s = .next t ∧ RealAlu c dst s t
      (fun j => s.reg sa j &&& (1#12 <<< (s.srcIndex b j).toNat)) (fun _ => false) (fun _ => false))
    ∧ (s.Known (.setbit c dst sa b) → ∃ t, exec (.setbit c dst sa b) s = .next t ∧ RealAlu c dst s t
      (fun j => s.reg sa j ||| (1#12 <<< (s.srcIndex b j).toNat)) (fun _ => false) (fun _ => false))
    ∧ (s.Known (.clrbit c dst sa b) → ∃ t, exec (.clrbit c dst sa b) s = .next t ∧ RealAlu c dst s t
      (fun j => s.reg sa j &&& ~~~(1#12 <<< (s.srcIndex b j).toNat)) (fun _ => false) (fun _ => false))
    ∧ (s.Known (.tglbit c dst sa b) → ∃ t, exec (.tglbit c dst sa b) s = .next t ∧ RealAlu c dst s t
      (fun j => s.reg sa j ^^^ (1#12 <<< (s.srcIndex b j).toNat)) (fun _ => false) (fun _ => false))

/-- R135, R198, R339: a bit index outside 0..11 in an executing lane raises E_REG with the index of the
lowest such lane, and commits nothing. -/
def Obligations.BitIndexErrors : Prop :=
  ∀ (s : State) (c : Ctl) (dst : Option (Fin 32)) (sa : Fin 32) (b : Src) (j : Lane), s.Idle →
    s.runs c j → (s.srcIndex b j < 0 ∨ 11 < s.srcIndex b j) →
    (∀ i, i < j → s.runs c i → 0 ≤ s.srcIndex b i ∧ s.srcIndex b i ≤ 11) →
    ∀ op ∈ [Instr.tstbit c dst sa b, .setbit c dst sa b, .clrbit c dst sa b, .tglbit c dst sa b],
      s.Known op → ∃ t, exec op s = .next t ∧ Raises ⟨.eReg, .value (s.srcIndex b j)⟩ 0 s t

/-- R204 to R206: ADD.A and SUB.A: never saturated, flags of the 32-bit result. -/
def Obligations.AccumulatorAluResults : Prop :=
  ∀ (s : State) (c : Ctl) (dst : Option (Fin 8)) (sa : Fin 8) (b : AccSrc), s.Idle → c.eob = true →
    (s.Known (.addA c dst sa b) → ∃ t, exec (.addA c dst sa b) s = .next t ∧ Commits c (s.accTargets c dst) s t
      ∧ ∀ j, s.runs c j →
        (∀ k, dst = some k →
          t.accWord k j = BitVec.ofInt 32 ((s.accWord sa j).toInt + s.accSrcInt b j))
        ∧ t.flags .re j = s.aluFlags .re j
          (decide (BitVec.ofInt 32 ((s.accWord sa j).toInt + s.accSrcInt b j) = 0#32))
          (BitVec.ofInt 32 ((s.accWord sa j).toInt + s.accSrcInt b j)).msb
          (s.tooWide ((s.accWord sa j).toInt + s.accSrcInt b j))
          (decide (0xFFFFFFFF < (s.accWord sa j).toNat + (BitVec.ofInt 32 (s.accSrcInt b j)).toNat)))
    ∧ (s.Known (.subA c dst sa b) → ∃ t, exec (.subA c dst sa b) s = .next t ∧ Commits c (s.accTargets c dst) s t
      ∧ ∀ j, s.runs c j →
        (∀ k, dst = some k →
          t.accWord k j = BitVec.ofInt 32 ((s.accWord sa j).toInt - s.accSrcInt b j))
        ∧ t.flags .re j = s.aluFlags .re j
          (decide (BitVec.ofInt 32 ((s.accWord sa j).toInt - s.accSrcInt b j) = 0#32))
          (BitVec.ofInt 32 ((s.accWord sa j).toInt - s.accSrcInt b j)).msb
          (s.tooWide ((s.accWord sa j).toInt - s.accSrcInt b j))
          (decide ((s.accWord sa j).toNat < (BitVec.ofInt 32 (s.accSrcInt b j)).toNat)))

/-- R221 to R223: ADD.C and SUB.C, each part on its own; and R161: the parameter COMBINE, by which every complex
operation forms ASTAT_C, is AND for AZ and OR for the other flags by default (one table for each flag is the
model's reading, log 6). -/
def Obligations.ComplexAddSubtractResults : Prop :=
  ∀ (s : State) (c : Ctl) (dst : Option RPair) (sa sb : RPair), s.Idle → c.eob = true →
    (s.Known (.addC c dst sa sb) → ∃ t, exec (.addC c dst sa sb) s = .next t ∧ PairAlu c dst s t
      (fun j => s.reg sa.re j + s.reg sb.re j) (fun j => s.reg sa.im j + s.reg sb.im j)
      (fun j => ov12Add (s.reg sa.re j).toInt (s.reg sb.re j).toInt (s.reg sa.re j + s.reg sb.re j))
      (fun j => decide (0xFFF < (s.reg sa.re j).toNat + (s.reg sb.re j).toNat))
      (fun j => ov12Add (s.reg sa.im j).toInt (s.reg sb.im j).toInt (s.reg sa.im j + s.reg sb.im j))
      (fun j => decide (0xFFF < (s.reg sa.im j).toNat + (s.reg sb.im j).toNat)))
    ∧ (s.Known (.subC c dst sa sb) → ∃ t, exec (.subC c dst sa sb) s = .next t ∧ PairAlu c dst s t
      (fun j => s.reg sa.re j - s.reg sb.re j) (fun j => s.reg sa.im j - s.reg sb.im j)
      (fun j => ov12Sub (s.reg sa.re j).toInt (s.reg sb.re j).toInt (s.reg sa.re j - s.reg sb.re j))
      (fun j => decide ((s.reg sa.re j).toNat < (s.reg sb.re j).toNat))
      (fun j => ov12Sub (s.reg sa.im j).toInt (s.reg sb.im j).toInt (s.reg sa.im j - s.reg sb.im j))
      (fun j => decide ((s.reg sa.im j).toNat < (s.reg sb.im j).toNat)))
    ∧ Params.default.combine = Combine.default
    ∧ (s.cfg.combine = Combine.default → ∀ re im : Bool,
      combined s.cfg.combine.az re im = (re && im) ∧ combined s.cfg.combine.an re im = (re || im)
      ∧ combined s.cfg.combine.av re im = (re || im) ∧ combined s.cfg.combine.ac re im = (re || im)
      ∧ combined s.cfg.combine.as re im = (re || im) ∧ combined s.cfg.combine.mv re im = (re || im)
      ∧ combined s.cfg.combine.ss re im = (re || im) ∧ combined s.cfg.combine.sv re im = (re || im))

/-- R224, R225: RCCW.C and RCW.C by b mod 4 quarter turns: `re k` and `im k` are the parts of the operand
times j^k, and RCW.C turns the other way. -/
def Obligations.RotationResults : Prop :=
  ∀ (s : State) (c : Ctl) (dst : Option RPair) (sa : RPair) (b : Src) (re im : Int → Lane → Data)
    (ovR ovI : Int → Lane → Bool), s.Idle → c.eob = true →
    (∀ j, re 0 j = s.reg sa.re j ∧ im 0 j = s.reg sa.im j
      ∧ re 1 j = -(s.reg sa.im j) ∧ im 1 j = s.reg sa.re j
      ∧ re 2 j = -(s.reg sa.re j) ∧ im 2 j = -(s.reg sa.im j)
      ∧ re 3 j = s.reg sa.im j ∧ im 3 j = -(s.reg sa.re j)) →
    (∀ j, ovR 0 j = false ∧ ovI 0 j = false
      ∧ ovR 1 j = decide (s.reg sa.im j = 0x800#12) ∧ ovI 1 j = false
      ∧ ovR 2 j = decide (s.reg sa.re j = 0x800#12) ∧ ovI 2 j = decide (s.reg sa.im j = 0x800#12)
      ∧ ovR 3 j = false ∧ ovI 3 j = decide (s.reg sa.re j = 0x800#12)) →
    (s.Known (.rccwC c dst sa b) → ∃ t, exec (.rccwC c dst sa b) s = .next t ∧ PairAlu c dst s t
      (fun j => re (s.srcIndex b j % 4) j) (fun j => im (s.srcIndex b j % 4) j)
      (fun j => ovR (s.srcIndex b j % 4) j) (fun _ => false)
      (fun j => ovI (s.srcIndex b j % 4) j) (fun _ => false))
    ∧ (s.Known (.rcwC c dst sa b) → ∃ t, exec (.rcwC c dst sa b) s = .next t ∧ PairAlu c dst s t
      (fun j => re (-(s.srcIndex b j) % 4) j) (fun j => im (-(s.srcIndex b j) % 4) j)
      (fun j => ovR (-(s.srcIndex b j) % 4) j) (fun _ => false)
      (fun j => ovI (-(s.srcIndex b j) % 4) j) (fun _ => false))

/-- R227, R228: MAG.C and RECT.C, with the values of the external CORDIC functions (R229). -/
def Obligations.CordicResults : Prop :=
  ∀ (s : State) (c : Ctl) (dst : Option (Fin 32)) (dstP : Option RPair) (sa : RPair) (x y : Fin 32)
    (m : Lane → Int) (xy : Lane → Int × Int), s.Idle → c.eob = true →
    (∀ j, m j = Config.cordicVector (s.reg sa.re j).toInt (s.reg sa.im j).toInt) →
    (∀ j, xy j = Config.cordicRotate (s.reg x j).toInt (s.reg y j).toInt) →
    (s.Known (.magC c dst sa) → ∃ t, exec (.magC c dst sa) s = .next t
      ∧ Commits c (fun l => s.regTargets c dst l ∨ ∃ j, s.runs c j ∧ l = .flags .cx j) s t
      ∧ ∀ j, s.runs c j →
        (∀ k, dst = some k → t.reg k j = s.saturated (BitVec.ofInt 12 (m j))
          (decide (m j < -2048) || decide (2047 < m j)) (decide (0xFFF < m j) || decide (m j < 0)))
        ∧ ∀ k ∈ [Copy.re, .cx], t.flags k j = s.aluFlags k j (decide (BitVec.ofInt 12 (m j) = 0#12))
          (BitVec.ofInt 12 (m j)).msb (decide (m j < -2048) || decide (2047 < m j))
          (decide (0xFFF < m j) || decide (m j < 0)))
    ∧ (s.Known (.rectC c dstP x y) → ∃ t, exec (.rectC c dstP x y) s = .next t
      ∧ Commits c (fun l => ∃ j, s.runs c j ∧ ∃ p, dstP = some p ∧ (l = .reg p.re j ∨ l = .reg p.im j)) s t
      ∧ ∀ j, s.runs c j → ∀ p, dstP = some p →
        t.reg p.re j = BitVec.ofInt 12 (xy j).1 ∧ t.reg p.im j = BitVec.ofInt 12 (xy j).2)

/-! ## MAC operations -/

/-- R241 to R252: MPY, MAC and MAS; the accumulate term of NONE is 0. -/
def Obligations.MacResults : Prop :=
  ∀ (s : State) (c : Ctl) (dst : Option (Fin 8)) (sa sb : Fin 32) (mode : SignMode) (rnd : Bool)
    (acc : Lane → Int), s.Idle → c.eob = true → (dst = none → ∀ j, acc j = 0) →
    (∀ k, dst = some k → ∀ j, acc j = (s.accWord k j).toInt) →
    (s.Known (.mpy c dst sa sb mode rnd) → ∃ t, exec (.mpy c dst sa sb mode rnd) s = .next t ∧ RealMac c dst rnd s t
      (fun j => s.times mode (s.reg sa j) (s.reg sb j)))
    ∧ (s.Known (.mac c dst sa sb mode rnd) → ∃ t, exec (.mac c dst sa sb mode rnd) s = .next t ∧ RealMac c dst rnd s t
      (fun j => acc j + s.times mode (s.reg sa j) (s.reg sb j)))
    ∧ (s.Known (.mas c dst sa sb mode rnd) → ∃ t, exec (.mas c dst sa sb mode rnd) s = .next t ∧ RealMac c dst rnd s t
      (fun j => acc j - s.times mode (s.reg sa j) (s.reg sb j)))

/-- R253 to R260: the complex MAC operations, with the cross products of two pairs (MPY.C, MAC.C, MAS.C) or
with a real value times a pair (MPY.RC, MAC.RC, MAS.RC); the accumulate terms of NONE are 0. That MV of
ASTAT_C is the COMBINE of the two parts under every value of that parameter (R160, R161), where R254 writes
their OR, is the model's reading (log 6). -/
def Obligations.ComplexMacResults : Prop :=
  ∀ (s : State) (c : Ctl) (dst : Option AccPair) (x : Fin 32) (sa sb : RPair) (mode : SignMode)
    (rnd : Bool) (accR accI pr pi qr qi : Lane → Int), s.Idle → c.eob = true →
    (dst = none → ∀ j, accR j = 0 ∧ accI j = 0) →
    (∀ p, dst = some p → ∀ j, accR j = (s.accWord p.re j).toInt ∧ accI j = (s.accWord p.im j).toInt) →
    (∀ j, pr j = s.times mode (s.reg sa.re j) (s.reg sb.re j)
        - s.times mode (s.reg sa.im j) (s.reg sb.im j)
      ∧ pi j = s.times mode (s.reg sa.re j) (s.reg sb.im j)
        + s.times mode (s.reg sa.im j) (s.reg sb.re j)) →
    (∀ j, qr j = s.times mode (s.reg x j) (s.reg sb.re j)
      ∧ qi j = s.times mode (s.reg x j) (s.reg sb.im j)) →
    (s.Known (.mpyC c dst sa sb mode rnd) → ∃ t, exec (.mpyC c dst sa sb mode rnd) s = .next t ∧ PairMac c dst rnd s t pr pi)
    ∧ (s.Known (.macC c dst sa sb mode rnd) → ∃ t, exec (.macC c dst sa sb mode rnd) s = .next t
      ∧ PairMac c dst rnd s t (fun j => accR j + pr j) (fun j => accI j + pi j))
    ∧ (s.Known (.masC c dst sa sb mode rnd) → ∃ t, exec (.masC c dst sa sb mode rnd) s = .next t
      ∧ PairMac c dst rnd s t (fun j => accR j - pr j) (fun j => accI j - pi j))
    ∧ (s.Known (.mpyRC c dst x sb mode rnd) → ∃ t, exec (.mpyRC c dst x sb mode rnd) s = .next t ∧ PairMac c dst rnd s t qr qi)
    ∧ (s.Known (.macRC c dst x sb mode rnd) → ∃ t, exec (.macRC c dst x sb mode rnd) s = .next t
      ∧ PairMac c dst rnd s t (fun j => accR j + qr j) (fun j => accI j + qi j))
    ∧ (s.Known (.masRC c dst x sb mode rnd) → ∃ t, exec (.masRC c dst x sb mode rnd) s = .next t
      ∧ PairMac c dst rnd s t (fun j => accR j - qr j) (fun j => accI j - qi j))

/-- R262, R263: RNDACC and CLRACC. -/
def Obligations.RoundAndClearResults : Prop :=
  ∀ (s : State) (c : Ctl) (dst : Option (Fin 8)) (sa : Fin 8), s.Idle → c.eob = true →
    (s.Known (.rndacc c dst sa) → ∃ t, exec (.rndacc c dst sa) s = .next t
      ∧ Commits c (fun l => s.accTargets c dst l ∨ ∃ j, s.runs c j ∧ l = .ovcnt j) s t
      ∧ ∀ j, s.runs c j →
        (∀ k, dst = some k → t.accWord k j = s.rounded (s.accWord sa j))
        ∧ t.flags .re j = { s.flags .re j with mv := s.tooWide ((s.accWord sa j).toInt + 0x800) }
        ∧ t.ovcnt.get j = s.ovcnt.get j
          + (if s.tooWide ((s.accWord sa j).toInt + 0x800) = true then 1#32 else 0#32))
    ∧ (s.Known (.clracc c dst) → ∃ t, exec (.clracc c dst) s = .next t ∧ Commits c (s.accTargets c dst) s t
      ∧ ∀ j, s.runs c j → (∀ k, dst = some k → t.accWord k j = 0#32)
        ∧ t.flags .re j = { s.flags .re j with mv := false })

/-! ## Shifts -/

/-- R272: the two-step right shift of `sh` is floor division by 2^m, to the nearest with ties upward under
ROUND; a left shift is exact; from 32 places on only an arithmetic shift of a negative source is not 0. -/
def Obligations.ShiftIsFloorDivision : Prop :=
  ∀ (v : Int) (arith sgn : Bool) (m : Nat),
    (1 ≤ m → m < 32 → sh v (-m) arith sgn false = v / 2 ^ m
      ∧ sh v (-m) arith sgn true = (v + 2 ^ (m - 1)) / 2 ^ m)
    ∧ (∀ rnd, sh v m arith sgn rnd = v * 2 ^ m)
    ∧ (32 ≤ m → ∀ rnd, sh v (-m) arith sgn rnd = if arith = true ∧ sgn = true then -1 else 0)

/-- R271 to R274, R276 to R279: the real shifts. `v` is the source as each family reads it, with the HI
pre-shift; the OR forms OR the destination's prior value in. -/
def Obligations.ShiftResults : Prop :=
  ∀ (s : State) (c : Ctl) (dst : Option (Fin 8)) (sa : ShiftSrc) (n : Src) (f : Field) (rnd : Bool)
    (sgn : Lane → Bool) (tA tL : Lane → Int), s.Idle → c.eob = true →
    (∀ k, sa = .reg k → ∀ j, sgn j = (s.reg k j).msb
      ∧ tA j = sh ((s.reg k j).toInt * (if f = .hi then 4096 else 1)) (s.srcInt n j) true (sgn j) rnd
      ∧ tL j = sh ((s.reg k j).toNat * (if f = .hi then 4096 else 1)) (s.srcInt n j) false (sgn j) rnd) →
    (∀ k, sa = .acc k → ∀ j, sgn j = (s.accWord k j).msb
      ∧ tA j = sh ((s.accWord k j).toInt * (if f = .hi then 4096 else 1)) (s.srcInt n j) true (sgn j) rnd
      ∧ tL j =
        sh ((s.accWord k j).toNat * (if f = .hi then 4096 else 1)) (s.srcInt n j) false (sgn j) rnd) →
    ∀ (op : Instr) (t : Lane → Int) (or : Bool),
      (op, t, or) ∈ [(Instr.ashift c dst sa n f rnd, tA, false), (.lshift c dst sa n f rnd, tL, false),
        (.ashiftor c dst sa n f rnd, tA, true), (.lshiftor c dst sa n f rnd, tL, true)] →
      s.Known op → ∃ u, exec op s = .next u ∧ Commits c (s.accTargets c dst) s u
        ∧ ∀ j, s.runs c j →
          (∀ k, dst = some k → u.accWord k j =
            if or = true then BitVec.ofInt 32 (t j) ||| s.accWord k j else BitVec.ofInt 32 (t j))
          ∧ u.flags .re j = { s.flags .re j with ss := sgn j, sv := s.tooWide (t j) }

/-- R280, R281: the complex shifts, each part by its own amount. -/
def Obligations.ComplexShiftResults : Prop :=
  ∀ (s : State) (c : Ctl) (dst : Option AccPair) (sa : ShiftPair) (n : AmountPair) (f : Field)
    (rnd : Bool) (re im : ShiftSrc) (nR nI : Lane → Int), s.Idle → c.eob = true →
    (∀ p, sa = .regs p → re = .reg p.re ∧ im = .reg p.im) →
    (∀ p, sa = .accs p → re = .acc p.re ∧ im = .acc p.im) →
    (∀ p, n = .regs p → ∀ j, nR j = (s.reg p.re j).toInt ∧ nI j = (s.reg p.im j).toInt) →
    (∀ v, n = .imm v → ∀ j, nR j = (v.extractLsb' 0 8).toInt ∧ nI j = (v.extractLsb' 8 8).toInt) →
    ∀ (op : Instr) (val : ShiftSrc → Lane → Int) (arith : Bool),
      (op, val, arith) ∈ [(Instr.ashiftC c dst sa n f rnd, s.shiftSigned, true),
        (.lshiftC c dst sa n f rnd, s.shiftUnsigned, false)] →
      ∀ (tR tI : Lane → Int),
      (∀ j, tR j = sh (val re j * (if f = .hi then 4096 else 1)) (nR j) arith (s.shiftSign re j) rnd
        ∧ tI j = sh (val im j * (if f = .hi then 4096 else 1)) (nI j) arith (s.shiftSign im j) rnd) →
      s.Known op → ∃ u, exec op s = .next u ∧ Commits c (s.accPairTargets c dst) s u
        ∧ ∀ j, s.runs c j →
          (∀ p, dst = some p → u.accWord p.re j = BitVec.ofInt 32 (tR j)
            ∧ u.accWord p.im j = BitVec.ofInt 32 (tI j))
          ∧ u.flags .re j = { s.flags .re j with ss := s.shiftSign re j, sv := s.tooWide (tR j) }
          ∧ u.flags .im j = { s.flags .im j with ss := s.shiftSign im j, sv := s.tooWide (tI j) }
          ∧ u.flags .cx j = { s.flags .cx j with
              ss := combined s.cfg.combine.ss (s.shiftSign re j) (s.shiftSign im j)
              sv := combined s.cfg.combine.sv (s.tooWide (tR j)) (s.tooWide (tI j)) }

/-! ## Loads, stores and the address update -/

/-- R88: bit i of `bitrev16(a)` is bit 15 - i of a. -/
def Obligations.BitReversal : Prop :=
  ∀ (a : Half) (i : Nat), i ≤ 15 → (bitrev16 a).getLsbD i = a.getLsbD (15 - i)

/-- R35, R36, R84, R85, R290: each mode is its bit of `lat(MSTAT)`; the effective address of a direct access is
its immediate whatever the modes are, that of a post-modify access `lat(Ik)`, bit-reversed under BIT_REV; and
the stepped value of Ik is `lat(Ik) + lat(Mm)` with one circular wrap. -/
def Obligations.ModesAndAddresses : Prop :=
  ∀ (s : State) (k m : Fin 8) (a : Half) (mode : BitVec 8) (nv len base : Int),
    mode = s.mstat.latAt s.cycle → nv = (s.lat (.i k)).toNat + (s.lat (.m m)).toInt →
    len = (s.lat (.l k)).toNat → base = (s.lat (.b k)).toNat →
    (s.urnd = mode.getLsbD 0 ∧ s.bitRev = mode.getLsbD 1 ∧ s.avLatch = mode.getLsbD 2
      ∧ s.arSat = mode.getLsbD 3 ∧ s.mMode = mode.getLsbD 4 ∧ s.umaEn = mode.getLsbD 5)
    ∧ s.effAddr (.direct a) = a.toNat ∧ s.effAddr (.post k m) = s.postAddr k
    ∧ (mode.getLsbD 1 = false → s.postAddr k = (s.lat (.i k)).toNat)
    ∧ (mode.getLsbD 1 = true → s.postAddr k < 65536
      ∧ ∀ i, i ≤ 15 → (s.postAddr k).testBit i = (s.lat (.i k)).getLsbD (15 - i))
    ∧ (len = 0 → s.stepped k m = BitVec.ofInt 16 nv)
    ∧ (len ≠ 0 → base + len ≤ nv → s.stepped k m = BitVec.ofInt 16 (nv - len))
    ∧ (len ≠ 0 → nv < base → s.stepped k m = BitVec.ofInt 16 (nv + len))
    ∧ (len ≠ 0 → base ≤ nv → nv < base + len → s.stepped k m = BitVec.ofInt 16 nv)

/-- R85, R298, R299, R373: MODIFY steps Ik by Mm, with one circular wrap when Lk is not 0; all three slots
of Ik take the value, so that the next bundle reads it. -/
def Obligations.ModifyResult : Prop :=
  ∀ (s : State) (c : Ctl) (k m : Fin 8) (nv len base : Int), s.Idle → c.eob = true →
    nv = (s.lat (.i k)).toNat + (s.lat (.m m)).toInt → len = (s.lat (.l k)).toNat →
    base = (s.lat (.b k)).toNat → s.Known (.modify c k m) →
    ∃ t, exec (.modify c k m) s = .next t
      ∧ Commits c (fun l => s.runsAny c ∧ l = .haz (.i k)) s t
      ∧ (s.runsAny c → ∀ v : Half,
          (len = 0 → v = BitVec.ofInt 16 nv) →
          (len ≠ 0 → base + len ≤ nv → v = BitVec.ofInt 16 (nv - len)) →
          (len ≠ 0 → nv < base → v = BitVec.ofInt 16 (nv + len)) →
          (len ≠ 0 → base ≤ nv → nv < base + len → v = BitVec.ofInt 16 nv) →
          t.i.get k = ⟨v, v, v, some s.cycle, some s.cycle, some s.cycle⟩ ∧ t.lat (.i k) = v)

/-- R292, R293, R83 to R87, R134, R137: LD into any handle but DID (see `WritesToDidRaiseCombo`): each lane the
write uses takes the sign-extended word, or a free value where the word is UNDEF; without an executing lane
nothing happens. The post-modify form accesses memory through Ik before the step; then Ik takes the stepped
value in all three slots, also where the load names Ik itself. -/
def Obligations.LoadResults : Prop :=
  ∀ (s : State) (c : Ctl) (dst : Handle) (addr : Half) (k m : Fin 8), s.Idle → c.eob = true → dst ≠ .did →
    (s.readable (s.usesLane c dst) addr.toNat → s.Known (.ldDirect c dst addr) →
      ∃ t free, exec (.ldDirect c dst addr) s = .next t
        ∧ Commits c (fun l => s.runsAny c ∧ s.handleTargets c dst l) s t
        ∧ (s.runsAny c → Written c s t (s.loaded free addr.toNat) dst))
    ∧ (s.readable (s.usesLane c dst) (s.postAddr k) → s.Known (.ldPost c dst k m) →
      ∃ t free, exec (.ldPost c dst k m) s = .next t
        ∧ Commits c (fun l => s.runsAny c ∧ (s.handleTargets c dst l ∨ l = .haz (.i k))) s t
        ∧ (s.runsAny c →
            (dst ≠ .i k → Written c s t (s.loaded free (s.postAddr k)) dst)
            ∧ t.i.get k = ⟨s.stepped k m, s.stepped k m, s.stepped k m,
                some s.cycle, some s.cycle, some s.cycle⟩))

/-- R75, R76, R83, R136, R335, R336: with UNDEF_READ = draw, a direct load of an address without an entry
creates the entry with all lanes UNDEF, and logs one W_UNDEF_CREATE and one W_UNDEF_READ for each lane that
consumes the value; with UNDEF_READ = fault, LD raises F_UNDEF where a lane whose value the write uses is UNDEF,
and LDD where an executing lane is, in its first or its second word. That the record holds the address of the
word (log 9), that the first word of LDD is checked first, and that LDD into NONE consumes both words in its
executing lanes, and so raises F_UNDEF, is the model's choice (log 27). -/
def Obligations.LoadsOfUndefinedWords : Prop :=
  ∀ (s : State) (c : Ctl) (k : Fin 32) (dst : Handle) (p : Option RPair) (x : Addr) (ld ldd : Instr)
    (addr : Half), s.Idle →
    (s.cfg.undefRead = .draw → s.runsAny ⟨.true, true⟩ → s.mem.find addr.toNat = none →
      ∃ t, exec (.ldDirect ⟨.true, true⟩ (.r k) addr) s = .next t
        ∧ t.mem.find addr.toNat = some (PerLane.fill none)
        ∧ t.log = s.log ++ ⟨.undefCreate addr.toNat, 0, s.site, s.cycle⟩
            :: ((allLanes.filter fun j => s.enabled j).map fun j =>
              ⟨.undefRead addr.toNat j, 0, s.site, s.cycle⟩))
    ∧ (s.cfg.undefRead = .fault → s.runsAny c →
      (∀ a, x = .direct a → ld = .ldDirect c dst a ∧ ldd = .lddDirect c p a) →
      (∀ k m, x = .post k m → ld = .ldPost c dst k m ∧ ldd = .lddPost c p k m) →
      (∀ j, s.usesLane c dst j → s.memLane (s.effAddr x) j = none → s.Known ld →
        ∃ t, exec ld s = .next t ∧ Raises ⟨.fUndef, .addr (s.effAddr x)⟩ 0 s t)
      ∧ (∀ j, s.runs c j → (s.effAddr x % 2 = 1 → s.umaEn = true) → s.effAddr x + 1 ≤ 0xFFFF → s.Known ldd →
        (s.memLane (s.effAddr x) j = none →
          ∃ t, exec ldd s = .next t ∧ Raises ⟨.fUndef, .addr (s.effAddr x)⟩ 0 s t)
        ∧ ((∀ i, s.runs c i → (s.memLane (s.effAddr x) i).isSome = true) →
          s.memLane (s.effAddr x + 1) j = none →
          ∃ t, exec ldd s = .next t ∧ Raises ⟨.fUndef, .addr (s.effAddr x + 1)⟩ 0 s t)))

/-- R77, R78, R87, R294, R295: ST, direct and post-modify: each executing lane stores the low 12 bits of
its lane of the source at the effective address; every other lane and every other address keeps its
content. -/
def Obligations.StoreResults : Prop :=
  ∀ (s : State) (c : Ctl) (src : Handle) (addr : Half) (k m : Fin 8), s.Idle → c.eob = true →
    (s.Known (.stDirect c src addr) → ∃ t, exec (.stDirect c src addr) s = .next t
      ∧ Commits c (fun l => ∃ j, s.runs c j ∧ l = .mem addr.toNat j) s t
      ∧ ∀ j, s.runs c j → t.memLane addr.toNat j = some (BitVec.ofInt 12 (s.readLane src j)))
    ∧ (s.Known (.stPost c src k m) → ∃ t, exec (.stPost c src k m) s = .next t
      ∧ Commits c (fun l => (∃ j, s.runs c j ∧ l = .mem (s.postAddr k) j)
          ∨ (s.runsAny c ∧ l = .haz (.i k))) s t
      ∧ (∀ j, s.runs c j → t.memLane (s.postAddr k) j = some (BitVec.ofInt 12 (s.readLane src j)))
      ∧ (s.runsAny c → t.i.get k = ⟨s.stepped k m, s.stepped k m, s.stepped k m,
          some s.cycle, some s.cycle, some s.cycle⟩))

/-- R80, R81, R296, R336: LDD, direct and post-modify, at an address that is even, or odd with UMA_EN = 1, and
whose second word exists: the lower word goes to the even register; an odd address sets UM in ASTAT_R and
ASTAT_C, counts in UMCOUNT and logs W_UNALIGNED once; an even one logs none. -/
def Obligations.DoubleLoadResults : Prop :=
  ∀ (s : State) (c : Ctl) (dst : Option RPair) (x : Addr) (op : Instr) (a : Nat), s.Idle →
    c.eob = true → a = s.effAddr x →
    (∀ addr, x = .direct addr → op = .lddDirect c dst addr) →
    (∀ k m, x = .post k m → op = .lddPost c dst k m) →
    (a % 2 = 1 → s.umaEn = true) → a + 1 ≤ 0xFFFF → s.readable (s.runs c) a →
    s.readable (s.runs c) (a + 1) → s.Known op →
    ∃ t free free', exec op s = .next t
      ∧ Commits c (fun l =>
          (∃ j, s.runs c j ∧ ((∃ p, dst = some p ∧ (l = .reg p.re j ∨ l = .reg p.im j))
            ∨ (a % 2 = 1 ∧ s.cfg.umSource = .unaligned
              ∧ (l = .flags .re j ∨ l = .flags .cx j ∨ l = .umcount j))))
          ∨ (s.runsAny c ∧ ∃ k m, x = .post k m ∧ l = .haz (.i k))) s t
      ∧ (∀ j, s.runs c j →
          (∀ p, dst = some p → t.reg p.re j = BitVec.ofInt 12 (s.loaded free a j)
            ∧ t.reg p.im j = BitVec.ofInt 12 (s.loaded free' (a + 1) j))
          ∧ (a % 2 = 1 → s.cfg.umSource = .unaligned →
            t.flags .re j = { s.flags .re j with um := true }
            ∧ t.flags .cx j = { s.flags .cx j with um := true }
            ∧ t.umcount.get j = s.umcount.get j + 1#12))
      ∧ (s.runsAny c → ∀ k m, x = .post k m → t.i.get k =
          ⟨s.stepped k m, s.stepped k m, s.stepped k m, some s.cycle, some s.cycle, some s.cycle⟩)
      ∧ ∃ es, t.log = s.log ++ es
        ∧ (s.runsAny c → a % 2 = 1 →
          (es.filter fun e => e.warn.number == 2) = [⟨.unaligned a, 0, s.site, s.cycle⟩])
        ∧ (¬ s.runsAny c ∨ a % 2 = 0 → (es.filter fun e => e.warn.number == 2) = [])

/-- R80, R81, R297, R336: STD, direct and post-modify, under the same conditions: the even register goes to the
lower word; nothing else in memory changes; UM, UMCOUNT and W_UNALIGNED are those of LDD. -/
def Obligations.DoubleStoreResults : Prop :=
  ∀ (s : State) (c : Ctl) (src : RPair) (x : Addr) (op : Instr) (a : Nat), s.Idle → c.eob = true →
    a = s.effAddr x →
    (∀ addr, x = .direct addr → op = .stdDirect c src addr) →
    (∀ k m, x = .post k m → op = .stdPost c src k m) →
    (a % 2 = 1 → s.umaEn = true) → a + 1 ≤ 0xFFFF → s.Known op →
    ∃ t, exec op s = .next t
      ∧ Commits c (fun l =>
          (∃ j, s.runs c j ∧ (l = .mem a j ∨ l = .mem (a + 1) j
            ∨ (a % 2 = 1 ∧ s.cfg.umSource = .unaligned
              ∧ (l = .flags .re j ∨ l = .flags .cx j ∨ l = .umcount j))))
          ∨ (s.runsAny c ∧ ∃ k m, x = .post k m ∧ l = .haz (.i k))) s t
      ∧ (∀ j, s.runs c j → t.memLane a j = some (s.reg src.re j)
          ∧ t.memLane (a + 1) j = some (s.reg src.im j)
          ∧ (a % 2 = 1 → s.cfg.umSource = .unaligned →
            t.flags .re j = { s.flags .re j with um := true }
            ∧ t.flags .cx j = { s.flags .cx j with um := true }
            ∧ t.umcount.get j = s.umcount.get j + 1#12))
      ∧ (s.runsAny c → ∀ k m, x = .post k m → t.i.get k =
          ⟨s.stepped k m, s.stepped k m, s.stepped k m, some s.cycle, some s.cycle, some s.cycle⟩)
      ∧ ∃ es, t.log = s.log ++ es
        ∧ (s.runsAny c → a % 2 = 1 →
          (es.filter fun e => e.warn.number == 2) = [⟨.unaligned a, 0, s.site, s.cycle⟩])
        ∧ (¬ s.runsAny c ∨ a % 2 = 0 → (es.filter fun e => e.warn.number == 2) = [])

/-- R80, R82, R291: with an executing lane, LDD and STD at an odd address raise E_UNALIGNED with UMA_EN = 0,
and at 0xFFFF with UMA_EN = 1 E_ADDR(0x10000); with no executing lane they raise nothing. -/
def Obligations.DoubleWordErrors : Prop :=
  ∀ (s : State) (c : Ctl) (dst : Option RPair) (src : RPair) (x : Addr) (op : Instr), s.Idle →
    c.eob = true →
    (∀ addr, x = .direct addr → op = .lddDirect c dst addr ∨ op = .stdDirect c src addr) →
    (∀ k m, x = .post k m → op = .lddPost c dst k m ∨ op = .stdPost c src k m) →
    s.Known op → ∃ t, exec op s = .next t
      ∧ (s.runsAny c → s.effAddr x % 2 = 1 → s.umaEn = false →
          Raises ⟨.eUnaligned, .addr (s.effAddr x)⟩ 0 s t)
      ∧ (s.runsAny c → s.effAddr x = 0xFFFF → s.umaEn = true → Raises ⟨.eAddr, .addr 0x10000⟩ 0 s t)
      ∧ (¬ s.runsAny c → Commits c (fun _ => False) s t)

/-! ## Moves, immediates and the special registers -/

/-- R40, R48, R115, R180, R198, R203, R271, R272: what an operation reads from each register, the bit of each
flag in an ASTAT register, and the value of each operand form: `sext_12` or `sext_32` of a register, `sext_16`
of an immediate, but `zext_16` of a bit index or a rotation count. That SSTAT reads bit 3 as 0 whatever the host
drives there is the model's resolution of R37 against R40 (log 14, U20 of 93_implementation_defined.md). -/
def Obligations.ReadExtensions : Prop :=
  ∀ (s : State) (j : Lane),
    (∀ k, s.readLane (.r k) j = (s.reg k j).toInt)
    ∧ (∀ n, s.readLane (.acc n) j =
        (((s.accLane n j).h ++ (s.accLane n j).m ++ (s.accLane n j).l) : BitVec 32).toInt)
    ∧ (∀ n, s.readLane (.accH n) j = (s.accLane n j).h.toInt
        ∧ s.readLane (.accM n) j = (s.accLane n j).m.toInt
        ∧ s.readLane (.accL n) j = (s.accLane n j).l.toInt)
    ∧ (∀ k, s.readLane (.i k) j = (s.lat (.i k)).toNat ∧ s.readLane (.m k) j = (s.lat (.m k)).toInt
        ∧ s.readLane (.l k) j = (s.lat (.l k)).toNat ∧ s.readLane (.b k) j = (s.lat (.b k)).toNat)
    ∧ s.readLane .cntr j = (s.lat .cntr).toNat ∧ s.readLane .mstat j = (s.mstat.latAt s.cycle).toNat
    ∧ s.readLane .dstat0 j = s.en.toNat ∧ s.readLane .dstat1 j = s.master.toNat
    ∧ s.readLane .did j = j.val ∧ s.readLane .umcount j = (s.umcount.get j).toInt
    ∧ (∀ k, s.readLane (.astat k) j = (s.flags k j).bits.toNat)
    ∧ (∀ k, (s.flags k j).bits.getLsbD 0 = (s.flags k j).az ∧ (s.flags k j).bits.getLsbD 1 = (s.flags k j).an
      ∧ (s.flags k j).bits.getLsbD 2 = (s.flags k j).av ∧ (s.flags k j).bits.getLsbD 3 = (s.flags k j).ac
      ∧ (s.flags k j).bits.getLsbD 4 = (s.flags k j).as ∧ (s.flags k j).bits.getLsbD 5 = (s.flags k j).aq
      ∧ (s.flags k j).bits.getLsbD 6 = (s.flags k j).mv ∧ (s.flags k j).bits.getLsbD 7 = (s.flags k j).ss
      ∧ (s.flags k j).bits.getLsbD 8 = (s.flags k j).sv ∧ (s.flags k j).bits.getLsbD 9 = (s.flags k j).um)
    ∧ s.readLane .lpever j = s.lpever.toNat ∧ s.readLane .pcstack j = s.pcstack.toNat
    ∧ s.readLane .lpstack j = s.lpstack.toNat ∧ s.readLane .icntl j = s.icntl.toNat
    ∧ s.readLane .imask j = s.imask.toNat ∧ s.readLane .irptl j = s.irptl.toNat
    ∧ (∀ k, s.readLane (.ivec k) j = (s.ivec.get k).toNat)
    ∧ s.readLane .sstat j = (s.sstatIn &&& 0xF7#8).toNat
    ∧ (∀ k, s.srcInt (.reg k) j = (s.reg k j).toInt ∧ s.srcIndex (.reg k) j = (s.reg k j).toInt
        ∧ s.accSrcInt (.reg k) j = (s.reg k j).toInt ∧ s.shiftSigned (.reg k) j = (s.reg k j).toInt
        ∧ s.shiftUnsigned (.reg k) j = (s.reg k j).toNat ∧ s.shiftSign (.reg k) j = (s.reg k j).msb)
    ∧ (∀ v : Half, s.srcInt (.imm v) j = v.toInt ∧ s.srcIndex (.imm v) j = v.toNat
        ∧ s.accSrcInt (.imm v) j = v.toInt)
    ∧ (∀ n, s.accWord n j = (s.accLane n j).h ++ (s.accLane n j).m ++ (s.accLane n j).l
        ∧ s.accSrcInt (.acc n) j = (s.accWord n j).toInt ∧ s.shiftSigned (.acc n) j = (s.accWord n j).toInt
        ∧ s.shiftUnsigned (.acc n) j = (s.accWord n j).toNat ∧ s.shiftSign (.acc n) j = (s.accWord n j).msb)

/-- R310 to R312, R314, R41 to R44: MOV between any two handles, and LDI, DID as destination apart (see
`WritesToDidRaiseCombo`). -/
def Obligations.MoveAndImmediateResults : Prop :=
  ∀ (s : State) (c : Ctl) (dst src : Handle) (v : Half), s.Idle → c.eob = true → dst ≠ .did →
    (s.Known (.mov c dst src) → ∃ t, exec (.mov c dst src) s = .next t
      ∧ Commits c (s.handleTargets c dst) s t ∧ Written c s t (s.readLane src) dst)
    ∧ (s.Known (.ldi c dst v) → ∃ t, exec (.ldi c dst v) s = .next t
      ∧ Commits c (s.handleTargets c dst) s t ∧ Written c s t (fun _ => v.toInt) dst)

/-- R41, R311, R312: MOV, LDI and LD to DID raise E_COMBO where a lane executes; where none does, they
change nothing (log 12). -/
def Obligations.WritesToDidRaiseCombo : Prop :=
  ∀ (s : State) (c : Ctl) (src : Handle) (v addr : Half) (k m : Fin 8) (op : Instr), s.Idle →
    c.eob = true → s.Known op →
    (op = .mov c .did src ∨ op = .ldi c .did v
      ∨ (op = .ldDirect c .did addr ∧ s.readable (s.runs c) addr.toNat)
      ∨ (op = .ldPost c .did k m ∧ s.readable (s.runs c) (s.postAddr k))) →
    ∃ t, exec op s = .next t ∧ (s.runsAny c → Raises eCombo 0 s t)
      ∧ (¬ s.runsAny c → Commits c (fun _ => False) s t)

/-- R38, R41 to R43, R78, R79, R342, R343, R361: the host's commands. A write of a register writes by its own mask
what an operation writes by its condition's, at the current cycle, so that the next bundle still reads the value
before it (d = 0); a write to DID raises E_COMBO where a lane executes; set_irptl writes IRPTL alone; preload writes
the active lanes of its mask, enabled or not; reset gives the reset state of the same parameters, even with an error
recorded. That the other three act after a recorded error too, and the slot and site of the record of a write to
DID, is the model's reading (log 21), as is that a write to DID without an executing lane raises nothing (log 12);
that the commands after a reset stay queued is its choice (log 25). -/
def Obligations.HostCommands : Prop :=
  ∀ (s : State) (v : PerLane Int) (mask : PerLane Bool) (w a : Half) (d : PerLane Data) (rest : List HostCmd),
    (∀ h, s.input = .write h v mask :: rest → h ≠ .did →
      ∃ t, step s = .next t ∧ SameExcept (s.targetsUnder mask h) s t ∧ WrittenUnder mask s t v.get h
        ∧ t.cycle = s.cycle ∧ t.faultRec = s.faultRec ∧ t.log = s.log ∧ t.input = rest
        ∧ (∀ k, (h = .i k → (s.i.get k).settled s.cycle → t.lat (.i k) = (s.i.get k).cur)
          ∧ (h = .m k → (s.m.get k).settled s.cycle → t.lat (.m k) = (s.m.get k).cur)
          ∧ (h = .l k → (s.l.get k).settled s.cycle → t.lat (.l k) = (s.l.get k).cur)
          ∧ (h = .b k → (s.b.get k).settled s.cycle → t.lat (.b k) = (s.b.get k).cur))
        ∧ (h = .cntr → s.cntr.settled s.cycle → t.lat .cntr = s.cntr.cur)
        ∧ (h = .mstat → s.mstat.settled s.cycle → t.mstat.latAt t.cycle = s.mstat.cur))
    ∧ (s.input = .write .did v mask :: rest →
      ∃ t, step s = .next t ∧ SameState s t ∧ t.cycle = s.cycle ∧ t.log = s.log ∧ t.input = rest
        ∧ (s.execAny mask = true → s.faultRec = none → t.faultRec = some ⟨eCombo, 0, s.site, s.cycle⟩)
        ∧ (s.execAny mask = false ∨ s.faultRec ≠ none → t.faultRec = s.faultRec))
    ∧ (s.input = .setIrptl w :: rest →
      ∃ t, step s = .next t ∧ SameExcept (fun l => l = .ctl .irptl) s t ∧ t.irptl = w
        ∧ t.cycle = s.cycle ∧ t.faultRec = s.faultRec ∧ t.log = s.log ∧ t.input = rest)
    ∧ (s.input = .preload a d mask :: rest →
      ∃ t, step s = .next t
        ∧ SameExcept (fun l => ∃ j, s.cfg.active j = true ∧ mask.get j = true ∧ l = .mem a.toNat j) s t
        ∧ (∀ j, s.cfg.active j = true → mask.get j = true → t.memLane a.toNat j = some (d.get j))
        ∧ t.cycle = s.cycle ∧ t.faultRec = s.faultRec ∧ t.input = rest)
    ∧ (s.input = .reset :: rest →
      ∃ t, step s = .next t ∧ SameState (State.resetWith s.cfg) t ∧ t.cycle = 0 ∧ t.faultRec = none
        ∧ t.log = [] ∧ t.mem = [] ∧ t.input = rest)

/-- R40, R58, R338, R342: `read` and `read_lane` give the committed value, whatever `lat` gives; NONE answers
E_REG; `evaluate` gives the mask; and a dump shows OVCNT and the rest of the full state. That an unspecified
value answers F_UNINIT under `UNINIT_READ = fault`, and that `evaluate` gives a disabled lane the free value that
an operation in the same state gets (R15), is the model's reading (log 30), and so is bit 3 of SSTAT (log 14). That
SSTAT shows the last bundle's SSTAT_IN between bundles, where R37 and R62 give no input, is its choice (log 30). -/
def Obligations.HostReads : Prop :=
  ∀ (s : State) (j : Lane),
    s.hostRead .noReg j = .error ⟨.eReg, .handle 127#7⟩
    ∧ (∀ k, s.cfg.uninitRead = .held ∨ s.unwritten = [] →
      s.hostRead (.i k) j = .ok ((s.i.get k).cur.toNat : Int)
      ∧ s.hostRead (.m k) j = .ok (s.m.get k).cur.toInt
      ∧ s.hostRead (.l k) j = .ok ((s.l.get k).cur.toNat : Int)
      ∧ s.hostRead (.b k) j = .ok ((s.b.get k).cur.toNat : Int)
      ∧ s.hostRead .cntr j = .ok (s.cntr.cur.toNat : Int)
      ∧ s.hostRead .mstat j = .ok (s.mstat.cur.toNat : Int)
      ∧ (∀ h : Handle, h ≠ .noReg → (∀ r : HazReg, h ≠ r.handle) → s.hostRead h j = .ok (s.readLane h j))
      ∧ ∀ c : Cond, s.hostEvaluate c = .ok (s.maskFor c))
    ∧ (∀ k, s.cfg.uninitRead = .held ∨ s.unset (.reg k j) = false →
      s.hostRead (.r k) j = .ok (s.reg k j).toInt)
    ∧ (∀ k, s.cfg.uninitRead = .fault → s.unset (.reg k j) = true →
      ∃ i, s.hostRead (.r k) j = .error ⟨.fUninit, i⟩)
    ∧ s.dump.ovcnt.get j = s.ovcnt.get j ∧ s.dump.umcount.get j = s.umcount.get j
    ∧ s.dump.en = s.en ∧ s.dump.master = s.master ∧ s.dump.mstat = s.mstat.cur
    ∧ (∀ k, (s.dump.r.get k).get j = s.reg k j) ∧ (∀ n, (s.dump.acc.get n).get j = s.accLane n j)
    ∧ (∀ k, s.dump.i.get k = (s.i.get k).cur ∧ s.dump.m.get k = (s.m.get k).cur
      ∧ s.dump.l.get k = (s.l.get k).cur ∧ s.dump.b.get k = (s.b.get k).cur)
    ∧ s.dump.cntr = s.cntr.cur ∧ s.dump.lpever = s.lpever ∧ s.dump.pcstack = s.pcstack
    ∧ s.dump.lpstack = s.lpstack ∧ s.dump.icntl = s.icntl ∧ s.dump.imask = s.imask ∧ s.dump.irptl = s.irptl
    ∧ (∀ k, s.dump.ivec.get k = s.ivec.get k) ∧ s.dump.sstat = s.sstatIn &&& 0xF7#8
    ∧ s.dump.astatR.get j = s.flags .re j ∧ s.dump.astatI.get j = s.flags .im j
    ∧ s.dump.astatC.get j = s.flags .cx j
    ∧ s.dump.cycle = s.cycle ∧ s.dump.faultRec = s.faultRec ∧ s.dump.log = s.log
    ∧ (∀ a : Half, (s.dump.word a).get j = s.memLane a.toNat j)

/-! ## Cross-lane transfers and conflicts -/

/-- R321, R322: XRD reads lane (j + off) mod act of the source, before the bundle; XWR writes lane
(j + off) mod act where that lane is enabled, provided no two executing lanes write the same enabled lane. That
two lanes which address one disabled lane do not collide is the model's reading (log 28). -/
def Obligations.CrossLaneResults : Prop :=
  ∀ (s : State) (c : Ctl) (dst src : Fin 32) (act : XAct) (off : Fin 4), s.Idle → c.eob = true →
    act.n ≤ s.cfg.lanes.n → off.val < s.cfg.lanes.n →
    (s.Known (.xrd c dst src act off) → ∃ t, exec (.xrd c dst src act off) s = .next t
      ∧ Commits c (fun l => ∃ j, s.runs c j ∧ l = .reg dst j) s t
      ∧ ∀ j i : Lane, s.runs c j → i.val = (j.val + off.val) % act.n → t.reg dst j = s.reg src i)
    ∧ ((∀ i j k : Lane, s.runs c i → s.runs c j → s.enabled k = true → k.val = (i.val + off.val) % act.n →
        k.val = (j.val + off.val) % act.n → i = j) →
      s.Known (.xwr c dst src act off) →
      ∃ t, exec (.xwr c dst src act off) s = .next t
        ∧ Commits c (fun l => ∃ j k, s.runs c j ∧ s.enabled k = true ∧ k.val = (j.val + off.val) % act.n
            ∧ l = .reg dst k) s t
        ∧ ∀ j k : Lane, s.runs c j → s.enabled k = true → k.val = (j.val + off.val) % act.n →
            t.reg dst k = s.reg src j)

/-- R321, R322: two executing lanes that write one enabled target lane raise E_COMBO, and so do XRD and XWR
with act above N or off not below N. That only an enabled target counts and that exec raises the second error
whatever executes is the model's reading (logs 18 and 28). -/
def Obligations.CrossLaneErrors : Prop :=
  ∀ (s : State) (c : Ctl) (dst src : Fin 32) (act : XAct) (off : Fin 4), s.Idle →
    s.Known (.xrd c dst src act off) → s.Known (.xwr c dst src act off) →
    (∀ i j k : Lane, act.n ≤ s.cfg.lanes.n → off.val < s.cfg.lanes.n → i ≠ j → s.runs c i →
      s.runs c j → s.enabled k = true → k.val = (i.val + off.val) % act.n →
      k.val = (j.val + off.val) % act.n →
      ∃ t, exec (.xwr c dst src act off) s = .next t ∧ Raises eCombo 0 s t)
    ∧ ((s.cfg.lanes.n < act.n ∨ s.cfg.lanes.n ≤ off.val) →
      (∃ t, exec (.xrd c dst src act off) s = .next t ∧ Raises eCombo 0 s t)
      ∧ ∃ t, exec (.xwr c dst src act off) s = .next t ∧ Raises eCombo 0 s t)

/-- R137: two LDI of one bundle, the second executed in `u`, into any two handles but DID, raise E_COMBO where
both write the same lane of the same lane-replicated register (an accumulator overlapping its fields, and M
overlapping H), the same scalar register, or DSTAT0 and DSTAT1; elsewhere, on lanes or registers of their own,
they commit. The slot recorded is the model's choice (log 9), and so are the readings of DSTAT1 and SSTAT in
logs 19 and 14. -/
def Obligations.WriteConflicts : Prop :=
  ∀ (s : State) (c c' : Cond) (h h' : Handle) (v w : Half), s.Idle → h ≠ .did → h' ≠ .did →
    s.Known (.ldi ⟨c, false⟩ h v) → s.Known (.ldi ⟨c', true⟩ h' w) →
    ∃ u t, exec (.ldi ⟨c, false⟩ h v) s = .next u ∧ exec (.ldi ⟨c', true⟩ h' w) u = .next t
      ∧ (s.collide u ⟨c, false⟩ ⟨c', true⟩ h h' → Raises eCombo 1 s t)
      ∧ (¬ s.collide u ⟨c, false⟩ ⟨c', true⟩ h h' →
          t.faultRec = none ∧ t.cycle = s.cycle + 1
          ∧ SameExcept (fun l => s.handleTargets ⟨c, false⟩ h l ∨ u.handleTargets ⟨c', true⟩ h' l) s t
          ∧ (Handle.sameAcc h h' = false → Written ⟨c, false⟩ s t (fun _ => v.toInt) h
            ∧ Written ⟨c', true⟩ u t (fun _ => w.toInt) h'))

/-- R137: the conflicts of other kinds, in the lanes that execute both operations: a flag of one ASTAT copy (two
ALU operations; CLRACC, which writes MV, against a move to ASTAT_R), a memory lane (two stores of one address),
and two post-modify updates of one I register raise E_COMBO; different flags, addresses and I registers do not.
The slot recorded is the model's choice (log 9). -/
def Obligations.FlagMemoryAndAddressConflicts : Prop :=
  ∀ (s : State) (c c' : Cond) (a b : Fin 32) (x y v : Half) (k m k' m' : Fin 8), s.Idle →
    (s.Known (.not ⟨c, false⟩ none a) → s.Known (.not ⟨c', true⟩ none b) →
      ∃ t, runSlots [.not ⟨c, false⟩ none a, .not ⟨c', true⟩ none b] s = .next t
        ∧ ((∃ j, s.runs ⟨c, false⟩ j ∧ s.runs ⟨c', true⟩ j) → Raises eCombo 1 s t)
        ∧ ((∀ j, s.runs ⟨c, false⟩ j → ¬ s.runs ⟨c', true⟩ j) → t.faultRec = none ∧ t.cycle = s.cycle + 1))
    ∧ (s.Known (.clracc ⟨c, false⟩ none) → s.Known (.ldi ⟨c', true⟩ (.astat .re) v) →
      ∃ t, runSlots [.clracc ⟨c, false⟩ none, .ldi ⟨c', true⟩ (.astat .re) v] s = .next t
        ∧ ((∃ j, s.runs ⟨c, false⟩ j ∧ s.runs ⟨c', true⟩ j) → Raises eCombo 1 s t)
        ∧ ((∀ j, s.runs ⟨c, false⟩ j → ¬ s.runs ⟨c', true⟩ j) → t.faultRec = none ∧ t.cycle = s.cycle + 1))
    ∧ (s.Known (.clracc ⟨c, false⟩ none) → s.Known (.not ⟨c', true⟩ none b) →
      ∃ t, runSlots [.clracc ⟨c, false⟩ none, .not ⟨c', true⟩ none b] s = .next t
        ∧ t.faultRec = none ∧ t.cycle = s.cycle + 1
        ∧ ∀ j, s.runs ⟨c, false⟩ j → s.runs ⟨c', true⟩ j → t.flags .re j =
          { s.aluFlags .re j (decide (~~~(s.reg b j) = 0#12)) (~~~(s.reg b j)).msb false false with mv := false })
    ∧ (s.Known (.stDirect ⟨c, false⟩ (.r a) x) → s.Known (.stDirect ⟨c', true⟩ (.r b) y) →
      ∃ t, runSlots [.stDirect ⟨c, false⟩ (.r a) x, .stDirect ⟨c', true⟩ (.r b) y] s = .next t
        ∧ (x = y → (∃ j, s.runs ⟨c, false⟩ j ∧ s.runs ⟨c', true⟩ j) → Raises eCombo 1 s t)
        ∧ (x ≠ y ∨ (∀ j, s.runs ⟨c, false⟩ j → ¬ s.runs ⟨c', true⟩ j) →
          t.faultRec = none ∧ t.cycle = s.cycle + 1
          ∧ (∀ j, s.runs ⟨c, false⟩ j → t.memLane x.toNat j = some (s.reg a j))
          ∧ ∀ j, s.runs ⟨c', true⟩ j → t.memLane y.toNat j = some (s.reg b j)))
    ∧ (s.Known (.modify ⟨c, false⟩ k m) → s.Known (.modify ⟨c', true⟩ k' m') →
      ∃ t, runSlots [.modify ⟨c, false⟩ k m, .modify ⟨c', true⟩ k' m'] s = .next t
        ∧ (k = k' → s.runsAny ⟨c, false⟩ → s.runsAny ⟨c', true⟩ → Raises eCombo 1 s t)
        ∧ (k ≠ k' ∨ ¬ s.runsAny ⟨c, false⟩ ∨ ¬ s.runsAny ⟨c', true⟩ →
          t.faultRec = none ∧ t.cycle = s.cycle + 1
          ∧ (s.runsAny ⟨c, false⟩ → (t.i.get k).cur = s.stepped k m)
          ∧ (s.runsAny ⟨c', true⟩ → (t.i.get k').cur = s.stepped k' m')))

/-- R86, R137: the post-modify update of Ik beats a move, an immediate load or a load into Ik by another
operation of the bundle, before it or after it: no conflict, and Ik holds the stepped value. -/
def Obligations.AddressUpdateBeatsWrites : Prop :=
  ∀ (s : State) (c c' : Cond) (src : Handle) (v addr : Half) (k m : Fin 8) (op op' : Instr), s.Idle →
    s.runsAny ⟨c', true⟩ → s.readable (s.usesLane ⟨c, true⟩ (.i k)) addr.toNat →
    (op, op') ∈ [(Instr.mov ⟨c, false⟩ (.i k) src, Instr.mov ⟨c, true⟩ (.i k) src),
      (.ldi ⟨c, false⟩ (.i k) v, .ldi ⟨c, true⟩ (.i k) v),
      (.ldDirect ⟨c, false⟩ (.i k) addr, .ldDirect ⟨c, true⟩ (.i k) addr)] →
    s.Known op → s.Known (.modify ⟨c', true⟩ k m) →
    ∃ t u, runSlots [op, .modify ⟨c', true⟩ k m] s = .next t
      ∧ runSlots [.modify ⟨c', false⟩ k m, op'] s = .next u
      ∧ ∀ z ∈ [t, u], z.faultRec = none ∧ z.cycle = s.cycle + 1
        ∧ SameExcept (fun l => l = .haz (.i k)) s z
        ∧ z.i.get k = ⟨s.stepped k m, s.stepped k m, s.stepped k m,
            some s.cycle, some s.cycle, some s.cycle⟩

/-! ## Unspecified values -/

/-- R64, R141, R143, R335: the places that each operation reads: CNTR for NOT CE, its sources in the lanes
whose result is used (a bit operation comes to no lane after one that raises), MSTAT where a mode bit decides
something there, what its address and its post-modify step read, each hazard-tracked register in the slot that
`lat` returns. That one operation counts as reading
these places and no other is the model's reading of the pseudocode (log 29). -/
def Obligations.PlacesReadByEachOperation : Prop :=
  ∀ (s : State) (c : Ctl) (p : Place) (cond mode : Prop), (cond ↔ c.cond = .notCe ∧ p = s.latPlace .cntr) →
    (mode ↔ p = s.latPlace .mstat) →
    (∀ (dst : Option (Fin 32)) (sa : Fin 32) (b : Src),
      (∀ op ∈ [Instr.add c dst sa b, .addc c dst sa b, .sub c dst sa b, .subc c dst sa b, .subb c dst sa b,
          .subbc c dst sa b, .and c dst sa b, .or c dst sa b, .xor c dst sa b, .scr c dst sa b],
        (p ∈ s.placesRead op ↔
          cond ∨ ∃ j, s.runs c j ∧ (mode ∨ p = .reg sa j ∨ ∃ k, b = .reg k ∧ p = .reg k j)))
      ∧ (∀ op ∈ [Instr.tstbit c dst sa b, .setbit c dst sa b, .clrbit c dst sa b, .tglbit c dst sa b],
        (p ∈ s.placesRead op ↔
          cond ∨ ∃ j, s.runs c j ∧ (∀ i, i < j → s.runs c i → 0 ≤ s.srcIndex b i ∧ s.srcIndex b i ≤ 11)
            ∧ ((mode ∧ 0 ≤ s.srcIndex b j ∧ s.srcIndex b j ≤ 11)
              ∨ p = .reg sa j ∨ ∃ k, b = .reg k ∧ p = .reg k j)))
      ∧ ∀ op ∈ [Instr.not c dst sa, .abs c dst sa, .inc c dst sa, .dec c dst sa],
        (p ∈ s.placesRead op ↔ cond ∨ ∃ j, s.runs c j ∧ (mode ∨ p = .reg sa j)))
    ∧ (∀ (dst : Option (Fin 8)) (sa : Fin 8) (b : AccSrc),
      ∀ op ∈ [Instr.addA c dst sa b, .subA c dst sa b],
        (p ∈ s.placesRead op ↔ cond ∨ ∃ j, s.runs c j ∧ (mode ∨ (∃ f, p = .acc sa j f)
          ∨ (∃ n f, b = .acc n ∧ p = .acc n j f) ∨ ∃ k, b = .reg k ∧ p = .reg k j)))
    ∧ (∀ (dst : Option RPair) (d1 : Option (Fin 32)) (sa sb : RPair) (b : Src) (x y : Fin 32),
      (∀ op ∈ [Instr.addC c dst sa sb, .subC c dst sa sb],
        (p ∈ s.placesRead op ↔ cond ∨ ∃ j, s.runs c j
          ∧ (mode ∨ p = .reg sa.re j ∨ p = .reg sa.im j ∨ p = .reg sb.re j ∨ p = .reg sb.im j)))
      ∧ (∀ op ∈ [Instr.rccwC c dst sa b, .rcwC c dst sa b],
        (p ∈ s.placesRead op ↔ cond ∨ ∃ j, s.runs c j
          ∧ (mode ∨ p = .reg sa.re j ∨ p = .reg sa.im j ∨ ∃ k, b = .reg k ∧ p = .reg k j)))
      ∧ (p ∈ s.placesRead (.magC c d1 sa) ↔
          cond ∨ ∃ j, s.runs c j ∧ (mode ∨ p = .reg sa.re j ∨ p = .reg sa.im j))
      ∧ (p ∈ s.placesRead (.rectC c dst x y) ↔
          cond ∨ ∃ j, s.runs c j ∧ (p = .reg x j ∨ p = .reg y j)))
    ∧ (∀ (dst : Option (Fin 8)) (dp : Option AccPair) (x y : Fin 32) (sa sb : RPair) (n : Fin 8)
        (sign : SignMode) (rnd : Bool),
      (p ∈ s.placesRead (.mpy c dst x y sign rnd) ↔
        cond ∨ ∃ j, s.runs c j ∧ (mode ∨ p = .reg x j ∨ p = .reg y j))
      ∧ (∀ op ∈ [Instr.mac c dst x y sign rnd, .mas c dst x y sign rnd],
        (p ∈ s.placesRead op ↔ cond ∨ ∃ j, s.runs c j
          ∧ (mode ∨ p = .reg x j ∨ p = .reg y j ∨ ∃ k f, dst = some k ∧ p = .acc k j f)))
      ∧ (p ∈ s.placesRead (.mpyC c dp sa sb sign rnd) ↔ cond ∨ ∃ j, s.runs c j
          ∧ (mode ∨ p = .reg sa.re j ∨ p = .reg sa.im j ∨ p = .reg sb.re j ∨ p = .reg sb.im j))
      ∧ (∀ op ∈ [Instr.macC c dp sa sb sign rnd, .masC c dp sa sb sign rnd],
        (p ∈ s.placesRead op ↔ cond ∨ ∃ j, s.runs c j
          ∧ (mode ∨ p = .reg sa.re j ∨ p = .reg sa.im j ∨ p = .reg sb.re j ∨ p = .reg sb.im j
            ∨ ∃ k f, dp = some k ∧ (p = .acc k.re j f ∨ p = .acc k.im j f))))
      ∧ (p ∈ s.placesRead (.mpyRC c dp x sb sign rnd) ↔ cond ∨ ∃ j, s.runs c j
          ∧ (mode ∨ p = .reg x j ∨ p = .reg sb.re j ∨ p = .reg sb.im j))
      ∧ (∀ op ∈ [Instr.macRC c dp x sb sign rnd, .masRC c dp x sb sign rnd],
        (p ∈ s.placesRead op ↔ cond ∨ ∃ j, s.runs c j
          ∧ (mode ∨ p = .reg x j ∨ p = .reg sb.re j ∨ p = .reg sb.im j
            ∨ ∃ k f, dp = some k ∧ (p = .acc k.re j f ∨ p = .acc k.im j f))))
      ∧ (p ∈ s.placesRead (.rndacc c dst n) ↔ cond ∨ ∃ j, s.runs c j ∧ (mode ∨ ∃ f, p = .acc n j f)))
    ∧ (∀ (dst : Option (Fin 8)) (dp : Option AccPair) (sa : ShiftSrc) (n : Src) (sp : ShiftPair)
        (np : AmountPair) (f : Field) (rnd : Bool) (src amount pairSrc pairAmount : Lane → Prop),
      (∀ j, src j ↔ (∃ k, sa = .reg k ∧ p = .reg k j) ∨ ∃ k g, sa = .acc k ∧ p = .acc k j g) →
      (∀ j, amount j ↔ ∃ k, n = .reg k ∧ p = .reg k j) →
      (∀ j, pairSrc j ↔ (∃ k, sp = .regs k ∧ (p = .reg k.re j ∨ p = .reg k.im j))
        ∨ ∃ k g, sp = .accs k ∧ (p = .acc k.re j g ∨ p = .acc k.im j g)) →
      (∀ j, pairAmount j ↔ ∃ k, np = .regs k ∧ (p = .reg k.re j ∨ p = .reg k.im j)) →
      (∀ op ∈ [Instr.ashift c dst sa n f rnd, .lshift c dst sa n f rnd],
        (p ∈ s.placesRead op ↔ cond ∨ ∃ j, s.runs c j ∧ (src j ∨ amount j)))
      ∧ (∀ op ∈ [Instr.ashiftor c dst sa n f rnd, .lshiftor c dst sa n f rnd],
        (p ∈ s.placesRead op ↔ cond ∨ ∃ j, s.runs c j
          ∧ (src j ∨ amount j ∨ ∃ k g, dst = some k ∧ p = .acc k j g)))
      ∧ ∀ op ∈ [Instr.ashiftC c dp sp np f rnd, .lshiftC c dp sp np f rnd],
        (p ∈ s.placesRead op ↔ cond ∨ ∃ j, s.runs c j ∧ (pairSrc j ∨ pairAmount j)))
    ∧ (∀ (dst src : Handle) (dp : Option RPair) (sp : RPair) (addr v : Half) (k m : Fin 8)
        (da : Option (Fin 8)) (read : Lane → Prop) (access step odd : Prop),
      (∀ j, read j ↔ (∃ k, src = .r k ∧ p = .reg k j)
        ∨ (∃ n f, (src = .acc n ∨ (src = .accH n ∧ f = .h) ∨ (src = .accM n ∧ f = .m)
            ∨ (src = .accL n ∧ f = .l)) ∧ p = .acc n j f)
        ∨ (∃ h : HazReg, src = h.handle ∧ p = s.latPlace h) ∨ ∃ r : CtlReg, src = r.handle ∧ p = .ctl r) →
      (access ↔ s.runsAny c ∧ (mode ∨ p = s.latPlace (.i k))) →
      (odd ↔ s.runsAny c ∧ mode ∧ addr.toNat % 2 = 1) →
      (step ↔ s.runsAny c ∧ (p = s.latPlace (.m m) ∨ p = s.latPlace (.l k) ∨ p = s.latPlace (.b k))) →
      (∀ op ∈ [Instr.clracc c da, .ldDirect c dst addr, .ldi c dst v, .nop c],
        (p ∈ s.placesRead op ↔ cond))
      ∧ (p ∈ s.placesRead (.lddDirect c dp addr) ↔ cond ∨ odd)
      ∧ (∀ op ∈ [Instr.ldPost c dst k m, .lddPost c dp k m], (p ∈ s.placesRead op ↔ cond ∨ access ∨ step))
      ∧ (p ∈ s.placesRead (.stDirect c src addr) ↔ cond ∨ ∃ j, s.runs c j ∧ read j)
      ∧ (p ∈ s.placesRead (.stPost c src k m) ↔ cond ∨ access ∨ step ∨ ∃ j, s.runs c j ∧ read j)
      ∧ (p ∈ s.placesRead (.stdDirect c sp addr) ↔
        cond ∨ odd ∨ ∃ j, s.runs c j ∧ (p = .reg sp.re j ∨ p = .reg sp.im j))
      ∧ (p ∈ s.placesRead (.stdPost c sp k m) ↔
        cond ∨ access ∨ step ∨ ∃ j, s.runs c j ∧ (p = .reg sp.re j ∨ p = .reg sp.im j))
      ∧ (p ∈ s.placesRead (.modify c k m) ↔ cond ∨ step ∨ (s.runsAny c ∧ p = s.latPlace (.i k)))
      ∧ (p ∈ s.placesRead (.mov c dst src) ↔ cond ∨ ∃ j, s.usesLane c dst j ∧ read j))
    ∧ (∀ (dst src : Fin 32) (act : XAct) (off : Fin 4), act.n ≤ s.cfg.lanes.n → off.val < s.cfg.lanes.n →
      (p ∈ s.placesRead (.xrd c dst src act off) ↔
        cond ∨ ∃ j i : Lane, s.runs c j ∧ i.val = (j.val + off.val) % act.n ∧ p = .reg src i)
      ∧ (p ∈ s.placesRead (.xwr c dst src act off) ↔
        cond ∨ ∃ j i : Lane, s.runs c j ∧ i.val = (j.val + off.val) % act.n ∧ s.enabled i = true
          ∧ p = .reg src j))
    ∧ (∀ k, (∃ x, s.latPlace (.i k) = .haz (.i k) x ∧ s.lat (.i k) = (s.i.get k).value x)
      ∧ (∃ x, s.latPlace (.m k) = .haz (.m k) x ∧ s.lat (.m k) = (s.m.get k).value x)
      ∧ (∃ x, s.latPlace (.l k) = .haz (.l k) x ∧ s.lat (.l k) = (s.l.get k).value x)
      ∧ (∃ x, s.latPlace (.b k) = .haz (.b k) x ∧ s.lat (.b k) = (s.b.get k).value x)
      ∧ ∃ x, s.latPlace .cntr = .haz .cntr x ∧ s.lat .cntr = s.cntr.value x)

/-- R64, R331, R335: under UNINIT_READ = fault, an operation that reads an unspecified place commits nothing: it
raises F_UNINIT, or an error that it raises whatever is unspecified. Only an operation that reads more after its
checks (a double-word store, a post-modify access) can come to such an error first. Which handle the record
holds is the model's choice (log 29). -/
def Obligations.UnspecifiedReadsFault : Prop :=
  ∀ (s : State) (i : Instr) (p : Place), s.Idle → s.cfg.uninitRead = .fault → p ∈ s.placesRead i →
    s.unset p = true →
    ∃ t e, exec i s = .next t ∧ Raises e 0 s t
      ∧ ((∀ c dst k m, i ≠ .ldPost c dst k m) → (∀ c dst k m, i ≠ .lddPost c dst k m) →
        (∀ c src a, i ≠ .stdDirect c src a) → (∀ c src k m, i ≠ .stdPost c src k m) → e.code = .fUninit)
      ∧ (e.code = .fUninit ∨ ∃ u : State, exec i { s with cfg := { s.cfg with uninitRead := .held } } = .next u
        ∧ u.faultRec = t.faultRec)

/-- R64, R335: under UNINIT_READ = draw, an operation does what it does in a state `v` that has a value at every
place and agrees with the machine's state wherever that has one: the results agree wherever they are specified.
The values of `v` elsewhere are free (logs 4 and 29: one draw for a place and an operation). -/
def Obligations.UnspecifiedReadsDraw : Prop :=
  ∀ (s : State) (i : Instr), s.Idle → s.cfg.uninitRead = .draw →
    ∃ v t u, Agrees s v ∧ v.unwritten = [] ∧ v.Idle ∧ exec i s = .next t ∧ exec i v = .next u ∧ Agrees t u

/-- R42, R43, R56, R64, R85: what an operation that commits writes holds a specified value from then on: its
destination registers, accumulators and pairs in each executing lane; the target lanes of XWR; the three slots
of the I register it steps; and whatever handle MOV, LDI or LD writes, of a hazard-tracked register the
committed value (LD only where some lane executes, R134). No operation makes a specified place unspecified, but that an unspecified value moves down the
history of a hazard-tracked register that is written. -/
def Obligations.WritesEndUnspecified : Prop :=
  ∀ (s t : State) (i : Instr), s.Idle → i.ctl.eob = true → exec i s = .next t →
    (∀ p, t.unset p = true → s.unset p = true
      ∨ ∃ h, (p = .haz h .bk0 ∧ s.unset (.haz h .cur) = true) ∨ (p = .haz h .bk1 ∧ s.unset (.haz h .bk0) = true))
    ∧ (t.faultRec = none →
      (∀ k ∈ i.regDests, ∀ j, s.runs i.ctl j → t.unset (.reg k j) = false)
      ∧ (∀ n ∈ i.accDests, ∀ j f, s.runs i.ctl j → t.unset (.acc n j f) = false)
      ∧ (∀ c dst src act off, i = .xwr c dst src act off → ∀ j l : Lane, s.runs c j → s.enabled l = true →
        l.val = (j.val + off.val) % act.n → t.unset (.reg dst l) = false)
      ∧ (∀ k x, i.steps = some k → s.runsAny i.ctl → t.unset (.haz (.i k) x) = false)
      ∧ ∀ h, i.handleDest = some h →
        (s.runsAny i.ctl ∨ ((∀ c a, i ≠ .ldDirect c h a) ∧ ∀ c k m, i ≠ .ldPost c h k m)) →
        (∀ k, h = .r k → ∀ j, s.runs i.ctl j → t.unset (.reg k j) = false)
        ∧ (∀ n, h = .acc n → ∀ j f, s.runs i.ctl j → t.unset (.acc n j f) = false)
        ∧ (∀ n, h = .accH n → ∀ j, s.runs i.ctl j → t.unset (.acc n j .h) = false)
        ∧ (∀ n, h = .accM n → ∀ j, s.runs i.ctl j →
          t.unset (.acc n j .m) = false ∧ t.unset (.acc n j .h) = false)
        ∧ (∀ n, h = .accL n → ∀ j, s.runs i.ctl j → t.unset (.acc n j .l) = false)
        ∧ (∀ r : HazReg, h = r.handle → (∀ k, r = .i k → i.steps ≠ some k) →
          (∃ j, s.usesLane i.ctl h j) → t.unset (.haz r .cur) = false
          ∧ t.unset (.haz r .bk0) = s.unset (.haz r .cur) ∧ t.unset (.haz r .bk1) = s.unset (.haz r .bk0))
        ∧ ∀ r : CtlReg, h = r.handle → (∃ j, s.usesLane i.ctl h j) → t.unset (.ctl r) = false)
end

