-- ==== Sys2Proof/Laws/State.lean ====
section
/-! SUPPORT. What each update of the state leaves alone, field by field, and what it writes. -/

namespace Sys2Proof.Machine

/-! ### `setReg` -/

@[simp] theorem State.setReg_cfg (s : State) (k : Fin 32) (j : Lane) (v : Data) :
    (s.setReg k j v).cfg = s.cfg := rfl
@[simp] theorem State.setReg_acc (s : State) (k : Fin 32) (j : Lane) (v : Data) :
    (s.setReg k j v).acc = s.acc := rfl
@[simp] theorem State.setReg_i (s : State) (k : Fin 32) (j : Lane) (v : Data) :
    (s.setReg k j v).i = s.i := rfl
@[simp] theorem State.setReg_m (s : State) (k : Fin 32) (j : Lane) (v : Data) :
    (s.setReg k j v).m = s.m := rfl
@[simp] theorem State.setReg_l (s : State) (k : Fin 32) (j : Lane) (v : Data) :
    (s.setReg k j v).l = s.l := rfl
@[simp] theorem State.setReg_b (s : State) (k : Fin 32) (j : Lane) (v : Data) :
    (s.setReg k j v).b = s.b := rfl
@[simp] theorem State.setReg_cntr (s : State) (k : Fin 32) (j : Lane) (v : Data) :
    (s.setReg k j v).cntr = s.cntr := rfl
@[simp] theorem State.setReg_mstat (s : State) (k : Fin 32) (j : Lane) (v : Data) :
    (s.setReg k j v).mstat = s.mstat := rfl
@[simp] theorem State.setReg_lpever (s : State) (k : Fin 32) (j : Lane) (v : Data) :
    (s.setReg k j v).lpever = s.lpever := rfl
@[simp] theorem State.setReg_pcstack (s : State) (k : Fin 32) (j : Lane) (v : Data) :
    (s.setReg k j v).pcstack = s.pcstack := rfl
@[simp] theorem State.setReg_lpstack (s : State) (k : Fin 32) (j : Lane) (v : Data) :
    (s.setReg k j v).lpstack = s.lpstack := rfl
@[simp] theorem State.setReg_icntl (s : State) (k : Fin 32) (j : Lane) (v : Data) :
    (s.setReg k j v).icntl = s.icntl := rfl
@[simp] theorem State.setReg_imask (s : State) (k : Fin 32) (j : Lane) (v : Data) :
    (s.setReg k j v).imask = s.imask := rfl
@[simp] theorem State.setReg_irptl (s : State) (k : Fin 32) (j : Lane) (v : Data) :
    (s.setReg k j v).irptl = s.irptl := rfl
@[simp] theorem State.setReg_ivec (s : State) (k : Fin 32) (j : Lane) (v : Data) :
    (s.setReg k j v).ivec = s.ivec := rfl
@[simp] theorem State.setReg_astatR (s : State) (k : Fin 32) (j : Lane) (v : Data) :
    (s.setReg k j v).astatR = s.astatR := rfl
@[simp] theorem State.setReg_astatI (s : State) (k : Fin 32) (j : Lane) (v : Data) :
    (s.setReg k j v).astatI = s.astatI := rfl
@[simp] theorem State.setReg_astatC (s : State) (k : Fin 32) (j : Lane) (v : Data) :
    (s.setReg k j v).astatC = s.astatC := rfl
@[simp] theorem State.setReg_en (s : State) (k : Fin 32) (j : Lane) (v : Data) :
    (s.setReg k j v).en = s.en := rfl
@[simp] theorem State.setReg_master (s : State) (k : Fin 32) (j : Lane) (v : Data) :
    (s.setReg k j v).master = s.master := rfl
@[simp] theorem State.setReg_umcount (s : State) (k : Fin 32) (j : Lane) (v : Data) :
    (s.setReg k j v).umcount = s.umcount := rfl
@[simp] theorem State.setReg_ovcnt (s : State) (k : Fin 32) (j : Lane) (v : Data) :
    (s.setReg k j v).ovcnt = s.ovcnt := rfl
@[simp] theorem State.setReg_mem (s : State) (k : Fin 32) (j : Lane) (v : Data) :
    (s.setReg k j v).mem = s.mem := rfl
@[simp] theorem State.setReg_cycle (s : State) (k : Fin 32) (j : Lane) (v : Data) :
    (s.setReg k j v).cycle = s.cycle := rfl
@[simp] theorem State.setReg_faultRec (s : State) (k : Fin 32) (j : Lane) (v : Data) :
    (s.setReg k j v).faultRec = s.faultRec := rfl
@[simp] theorem State.setReg_log (s : State) (k : Fin 32) (j : Lane) (v : Data) :
    (s.setReg k j v).log = s.log := rfl
@[simp] theorem State.setReg_input (s : State) (k : Fin 32) (j : Lane) (v : Data) :
    (s.setReg k j v).input = s.input := rfl
@[simp] theorem State.setReg_sstatIn (s : State) (k : Fin 32) (j : Lane) (v : Data) :
    (s.setReg k j v).sstatIn = s.sstatIn := rfl
@[simp] theorem State.setReg_site (s : State) (k : Fin 32) (j : Lane) (v : Data) :
    (s.setReg k j v).site = s.site := rfl
@[simp] theorem State.setReg_slot (s : State) (k : Fin 32) (j : Lane) (v : Data) :
    (s.setReg k j v).slot = s.slot := rfl
@[simp] theorem State.setReg_staged (s : State) (k : Fin 32) (j : Lane) (v : Data) :
    (s.setReg k j v).staged = s.staged := rfl
@[simp] theorem State.setReg_outs (s : State) (k : Fin 32) (j : Lane) (v : Data) :
    (s.setReg k j v).outs = s.outs := rfl
@[simp] theorem State.setReg_out (s : State) (k : Fin 32) (j : Lane) (v : Data) :
    (s.setReg k j v).out = s.out := rfl
@[simp] theorem State.setReg_draws (s : State) (k : Fin 32) (j : Lane) (v : Data) :
    (s.setReg k j v).draws = s.draws := rfl
@[simp] theorem State.setReg_unwritten (s : State) (k : Fin 32) (j : Lane) (v : Data) :
    (s.setReg k j v).unwritten = s.unwritten := rfl

/-! ### `setAcc` -/

@[simp] theorem State.setAcc_cfg (s : State) (n : Fin 8) (j : Lane) (a : Acc) :
    (s.setAcc n j a).cfg = s.cfg := rfl
@[simp] theorem State.setAcc_r (s : State) (n : Fin 8) (j : Lane) (a : Acc) :
    (s.setAcc n j a).r = s.r := rfl
@[simp] theorem State.setAcc_i (s : State) (n : Fin 8) (j : Lane) (a : Acc) :
    (s.setAcc n j a).i = s.i := rfl
@[simp] theorem State.setAcc_m (s : State) (n : Fin 8) (j : Lane) (a : Acc) :
    (s.setAcc n j a).m = s.m := rfl
@[simp] theorem State.setAcc_l (s : State) (n : Fin 8) (j : Lane) (a : Acc) :
    (s.setAcc n j a).l = s.l := rfl
@[simp] theorem State.setAcc_b (s : State) (n : Fin 8) (j : Lane) (a : Acc) :
    (s.setAcc n j a).b = s.b := rfl
@[simp] theorem State.setAcc_cntr (s : State) (n : Fin 8) (j : Lane) (a : Acc) :
    (s.setAcc n j a).cntr = s.cntr := rfl
@[simp] theorem State.setAcc_mstat (s : State) (n : Fin 8) (j : Lane) (a : Acc) :
    (s.setAcc n j a).mstat = s.mstat := rfl
@[simp] theorem State.setAcc_lpever (s : State) (n : Fin 8) (j : Lane) (a : Acc) :
    (s.setAcc n j a).lpever = s.lpever := rfl
@[simp] theorem State.setAcc_pcstack (s : State) (n : Fin 8) (j : Lane) (a : Acc) :
    (s.setAcc n j a).pcstack = s.pcstack := rfl
@[simp] theorem State.setAcc_lpstack (s : State) (n : Fin 8) (j : Lane) (a : Acc) :
    (s.setAcc n j a).lpstack = s.lpstack := rfl
@[simp] theorem State.setAcc_icntl (s : State) (n : Fin 8) (j : Lane) (a : Acc) :
    (s.setAcc n j a).icntl = s.icntl := rfl
@[simp] theorem State.setAcc_imask (s : State) (n : Fin 8) (j : Lane) (a : Acc) :
    (s.setAcc n j a).imask = s.imask := rfl
@[simp] theorem State.setAcc_irptl (s : State) (n : Fin 8) (j : Lane) (a : Acc) :
    (s.setAcc n j a).irptl = s.irptl := rfl
@[simp] theorem State.setAcc_ivec (s : State) (n : Fin 8) (j : Lane) (a : Acc) :
    (s.setAcc n j a).ivec = s.ivec := rfl
@[simp] theorem State.setAcc_astatR (s : State) (n : Fin 8) (j : Lane) (a : Acc) :
    (s.setAcc n j a).astatR = s.astatR := rfl
@[simp] theorem State.setAcc_astatI (s : State) (n : Fin 8) (j : Lane) (a : Acc) :
    (s.setAcc n j a).astatI = s.astatI := rfl
@[simp] theorem State.setAcc_astatC (s : State) (n : Fin 8) (j : Lane) (a : Acc) :
    (s.setAcc n j a).astatC = s.astatC := rfl
@[simp] theorem State.setAcc_en (s : State) (n : Fin 8) (j : Lane) (a : Acc) :
    (s.setAcc n j a).en = s.en := rfl
@[simp] theorem State.setAcc_master (s : State) (n : Fin 8) (j : Lane) (a : Acc) :
    (s.setAcc n j a).master = s.master := rfl
@[simp] theorem State.setAcc_umcount (s : State) (n : Fin 8) (j : Lane) (a : Acc) :
    (s.setAcc n j a).umcount = s.umcount := rfl
@[simp] theorem State.setAcc_ovcnt (s : State) (n : Fin 8) (j : Lane) (a : Acc) :
    (s.setAcc n j a).ovcnt = s.ovcnt := rfl
@[simp] theorem State.setAcc_mem (s : State) (n : Fin 8) (j : Lane) (a : Acc) :
    (s.setAcc n j a).mem = s.mem := rfl
@[simp] theorem State.setAcc_cycle (s : State) (n : Fin 8) (j : Lane) (a : Acc) :
    (s.setAcc n j a).cycle = s.cycle := rfl
@[simp] theorem State.setAcc_faultRec (s : State) (n : Fin 8) (j : Lane) (a : Acc) :
    (s.setAcc n j a).faultRec = s.faultRec := rfl
@[simp] theorem State.setAcc_log (s : State) (n : Fin 8) (j : Lane) (a : Acc) :
    (s.setAcc n j a).log = s.log := rfl
@[simp] theorem State.setAcc_input (s : State) (n : Fin 8) (j : Lane) (a : Acc) :
    (s.setAcc n j a).input = s.input := rfl
@[simp] theorem State.setAcc_sstatIn (s : State) (n : Fin 8) (j : Lane) (a : Acc) :
    (s.setAcc n j a).sstatIn = s.sstatIn := rfl
@[simp] theorem State.setAcc_site (s : State) (n : Fin 8) (j : Lane) (a : Acc) :
    (s.setAcc n j a).site = s.site := rfl
@[simp] theorem State.setAcc_slot (s : State) (n : Fin 8) (j : Lane) (a : Acc) :
    (s.setAcc n j a).slot = s.slot := rfl
@[simp] theorem State.setAcc_staged (s : State) (n : Fin 8) (j : Lane) (a : Acc) :
    (s.setAcc n j a).staged = s.staged := rfl
@[simp] theorem State.setAcc_outs (s : State) (n : Fin 8) (j : Lane) (a : Acc) :
    (s.setAcc n j a).outs = s.outs := rfl
@[simp] theorem State.setAcc_out (s : State) (n : Fin 8) (j : Lane) (a : Acc) :
    (s.setAcc n j a).out = s.out := rfl
@[simp] theorem State.setAcc_draws (s : State) (n : Fin 8) (j : Lane) (a : Acc) :
    (s.setAcc n j a).draws = s.draws := rfl
@[simp] theorem State.setAcc_unwritten (s : State) (n : Fin 8) (j : Lane) (a : Acc) :
    (s.setAcc n j a).unwritten = s.unwritten := rfl

/-! ### `setFlags` -/

@[simp] theorem State.setFlags_cfg (s : State) (c : Copy) (j : Lane) (f : Flags) :
    (s.setFlags c j f).cfg = s.cfg := by
  cases c <;> rfl
@[simp] theorem State.setFlags_r (s : State) (c : Copy) (j : Lane) (f : Flags) :
    (s.setFlags c j f).r = s.r := by
  cases c <;> rfl
@[simp] theorem State.setFlags_acc (s : State) (c : Copy) (j : Lane) (f : Flags) :
    (s.setFlags c j f).acc = s.acc := by
  cases c <;> rfl
@[simp] theorem State.setFlags_i (s : State) (c : Copy) (j : Lane) (f : Flags) :
    (s.setFlags c j f).i = s.i := by
  cases c <;> rfl
@[simp] theorem State.setFlags_m (s : State) (c : Copy) (j : Lane) (f : Flags) :
    (s.setFlags c j f).m = s.m := by
  cases c <;> rfl
@[simp] theorem State.setFlags_l (s : State) (c : Copy) (j : Lane) (f : Flags) :
    (s.setFlags c j f).l = s.l := by
  cases c <;> rfl
@[simp] theorem State.setFlags_b (s : State) (c : Copy) (j : Lane) (f : Flags) :
    (s.setFlags c j f).b = s.b := by
  cases c <;> rfl
@[simp] theorem State.setFlags_cntr (s : State) (c : Copy) (j : Lane) (f : Flags) :
    (s.setFlags c j f).cntr = s.cntr := by
  cases c <;> rfl
@[simp] theorem State.setFlags_mstat (s : State) (c : Copy) (j : Lane) (f : Flags) :
    (s.setFlags c j f).mstat = s.mstat := by
  cases c <;> rfl
@[simp] theorem State.setFlags_lpever (s : State) (c : Copy) (j : Lane) (f : Flags) :
    (s.setFlags c j f).lpever = s.lpever := by
  cases c <;> rfl
@[simp] theorem State.setFlags_pcstack (s : State) (c : Copy) (j : Lane) (f : Flags) :
    (s.setFlags c j f).pcstack = s.pcstack := by
  cases c <;> rfl
@[simp] theorem State.setFlags_lpstack (s : State) (c : Copy) (j : Lane) (f : Flags) :
    (s.setFlags c j f).lpstack = s.lpstack := by
  cases c <;> rfl
@[simp] theorem State.setFlags_icntl (s : State) (c : Copy) (j : Lane) (f : Flags) :
    (s.setFlags c j f).icntl = s.icntl := by
  cases c <;> rfl
@[simp] theorem State.setFlags_imask (s : State) (c : Copy) (j : Lane) (f : Flags) :
    (s.setFlags c j f).imask = s.imask := by
  cases c <;> rfl
@[simp] theorem State.setFlags_irptl (s : State) (c : Copy) (j : Lane) (f : Flags) :
    (s.setFlags c j f).irptl = s.irptl := by
  cases c <;> rfl
@[simp] theorem State.setFlags_ivec (s : State) (c : Copy) (j : Lane) (f : Flags) :
    (s.setFlags c j f).ivec = s.ivec := by
  cases c <;> rfl
@[simp] theorem State.setFlags_en (s : State) (c : Copy) (j : Lane) (f : Flags) :
    (s.setFlags c j f).en = s.en := by
  cases c <;> rfl
@[simp] theorem State.setFlags_master (s : State) (c : Copy) (j : Lane) (f : Flags) :
    (s.setFlags c j f).master = s.master := by
  cases c <;> rfl
@[simp] theorem State.setFlags_umcount (s : State) (c : Copy) (j : Lane) (f : Flags) :
    (s.setFlags c j f).umcount = s.umcount := by
  cases c <;> rfl
@[simp] theorem State.setFlags_ovcnt (s : State) (c : Copy) (j : Lane) (f : Flags) :
    (s.setFlags c j f).ovcnt = s.ovcnt := by
  cases c <;> rfl
@[simp] theorem State.setFlags_mem (s : State) (c : Copy) (j : Lane) (f : Flags) :
    (s.setFlags c j f).mem = s.mem := by
  cases c <;> rfl
@[simp] theorem State.setFlags_cycle (s : State) (c : Copy) (j : Lane) (f : Flags) :
    (s.setFlags c j f).cycle = s.cycle := by
  cases c <;> rfl
@[simp] theorem State.setFlags_faultRec (s : State) (c : Copy) (j : Lane) (f : Flags) :
    (s.setFlags c j f).faultRec = s.faultRec := by
  cases c <;> rfl
@[simp] theorem State.setFlags_log (s : State) (c : Copy) (j : Lane) (f : Flags) :
    (s.setFlags c j f).log = s.log := by
  cases c <;> rfl
@[simp] theorem State.setFlags_input (s : State) (c : Copy) (j : Lane) (f : Flags) :
    (s.setFlags c j f).input = s.input := by
  cases c <;> rfl
@[simp] theorem State.setFlags_sstatIn (s : State) (c : Copy) (j : Lane) (f : Flags) :
    (s.setFlags c j f).sstatIn = s.sstatIn := by
  cases c <;> rfl
@[simp] theorem State.setFlags_site (s : State) (c : Copy) (j : Lane) (f : Flags) :
    (s.setFlags c j f).site = s.site := by
  cases c <;> rfl
@[simp] theorem State.setFlags_slot (s : State) (c : Copy) (j : Lane) (f : Flags) :
    (s.setFlags c j f).slot = s.slot := by
  cases c <;> rfl
@[simp] theorem State.setFlags_staged (s : State) (c : Copy) (j : Lane) (f : Flags) :
    (s.setFlags c j f).staged = s.staged := by
  cases c <;> rfl
@[simp] theorem State.setFlags_outs (s : State) (c : Copy) (j : Lane) (f : Flags) :
    (s.setFlags c j f).outs = s.outs := by
  cases c <;> rfl
@[simp] theorem State.setFlags_out (s : State) (c : Copy) (j : Lane) (f : Flags) :
    (s.setFlags c j f).out = s.out := by
  cases c <;> rfl
@[simp] theorem State.setFlags_draws (s : State) (c : Copy) (j : Lane) (f : Flags) :
    (s.setFlags c j f).draws = s.draws := by
  cases c <;> rfl
@[simp] theorem State.setFlags_unwritten (s : State) (c : Copy) (j : Lane) (f : Flags) :
    (s.setFlags c j f).unwritten = s.unwritten := by
  cases c <;> rfl

/-! ### `setUmcount` -/

@[simp] theorem State.setUmcount_cfg (s : State) (j : Lane) (v : Data) :
    (s.setUmcount j v).cfg = s.cfg := rfl
@[simp] theorem State.setUmcount_r (s : State) (j : Lane) (v : Data) :
    (s.setUmcount j v).r = s.r := rfl
@[simp] theorem State.setUmcount_acc (s : State) (j : Lane) (v : Data) :
    (s.setUmcount j v).acc = s.acc := rfl
@[simp] theorem State.setUmcount_i (s : State) (j : Lane) (v : Data) :
    (s.setUmcount j v).i = s.i := rfl
@[simp] theorem State.setUmcount_m (s : State) (j : Lane) (v : Data) :
    (s.setUmcount j v).m = s.m := rfl
@[simp] theorem State.setUmcount_l (s : State) (j : Lane) (v : Data) :
    (s.setUmcount j v).l = s.l := rfl
@[simp] theorem State.setUmcount_b (s : State) (j : Lane) (v : Data) :
    (s.setUmcount j v).b = s.b := rfl
@[simp] theorem State.setUmcount_cntr (s : State) (j : Lane) (v : Data) :
    (s.setUmcount j v).cntr = s.cntr := rfl
@[simp] theorem State.setUmcount_mstat (s : State) (j : Lane) (v : Data) :
    (s.setUmcount j v).mstat = s.mstat := rfl
@[simp] theorem State.setUmcount_lpever (s : State) (j : Lane) (v : Data) :
    (s.setUmcount j v).lpever = s.lpever := rfl
@[simp] theorem State.setUmcount_pcstack (s : State) (j : Lane) (v : Data) :
    (s.setUmcount j v).pcstack = s.pcstack := rfl
@[simp] theorem State.setUmcount_lpstack (s : State) (j : Lane) (v : Data) :
    (s.setUmcount j v).lpstack = s.lpstack := rfl
@[simp] theorem State.setUmcount_icntl (s : State) (j : Lane) (v : Data) :
    (s.setUmcount j v).icntl = s.icntl := rfl
@[simp] theorem State.setUmcount_imask (s : State) (j : Lane) (v : Data) :
    (s.setUmcount j v).imask = s.imask := rfl
@[simp] theorem State.setUmcount_irptl (s : State) (j : Lane) (v : Data) :
    (s.setUmcount j v).irptl = s.irptl := rfl
@[simp] theorem State.setUmcount_ivec (s : State) (j : Lane) (v : Data) :
    (s.setUmcount j v).ivec = s.ivec := rfl
@[simp] theorem State.setUmcount_astatR (s : State) (j : Lane) (v : Data) :
    (s.setUmcount j v).astatR = s.astatR := rfl
@[simp] theorem State.setUmcount_astatI (s : State) (j : Lane) (v : Data) :
    (s.setUmcount j v).astatI = s.astatI := rfl
@[simp] theorem State.setUmcount_astatC (s : State) (j : Lane) (v : Data) :
    (s.setUmcount j v).astatC = s.astatC := rfl
@[simp] theorem State.setUmcount_en (s : State) (j : Lane) (v : Data) :
    (s.setUmcount j v).en = s.en := rfl
@[simp] theorem State.setUmcount_master (s : State) (j : Lane) (v : Data) :
    (s.setUmcount j v).master = s.master := rfl
@[simp] theorem State.setUmcount_ovcnt (s : State) (j : Lane) (v : Data) :
    (s.setUmcount j v).ovcnt = s.ovcnt := rfl
@[simp] theorem State.setUmcount_mem (s : State) (j : Lane) (v : Data) :
    (s.setUmcount j v).mem = s.mem := rfl
@[simp] theorem State.setUmcount_cycle (s : State) (j : Lane) (v : Data) :
    (s.setUmcount j v).cycle = s.cycle := rfl
@[simp] theorem State.setUmcount_faultRec (s : State) (j : Lane) (v : Data) :
    (s.setUmcount j v).faultRec = s.faultRec := rfl
@[simp] theorem State.setUmcount_log (s : State) (j : Lane) (v : Data) :
    (s.setUmcount j v).log = s.log := rfl
@[simp] theorem State.setUmcount_input (s : State) (j : Lane) (v : Data) :
    (s.setUmcount j v).input = s.input := rfl
@[simp] theorem State.setUmcount_sstatIn (s : State) (j : Lane) (v : Data) :
    (s.setUmcount j v).sstatIn = s.sstatIn := rfl
@[simp] theorem State.setUmcount_site (s : State) (j : Lane) (v : Data) :
    (s.setUmcount j v).site = s.site := rfl
@[simp] theorem State.setUmcount_slot (s : State) (j : Lane) (v : Data) :
    (s.setUmcount j v).slot = s.slot := rfl
@[simp] theorem State.setUmcount_staged (s : State) (j : Lane) (v : Data) :
    (s.setUmcount j v).staged = s.staged := rfl
@[simp] theorem State.setUmcount_outs (s : State) (j : Lane) (v : Data) :
    (s.setUmcount j v).outs = s.outs := rfl
@[simp] theorem State.setUmcount_out (s : State) (j : Lane) (v : Data) :
    (s.setUmcount j v).out = s.out := rfl
@[simp] theorem State.setUmcount_draws (s : State) (j : Lane) (v : Data) :
    (s.setUmcount j v).draws = s.draws := rfl
@[simp] theorem State.setUmcount_unwritten (s : State) (j : Lane) (v : Data) :
    (s.setUmcount j v).unwritten = s.unwritten := rfl

/-! ### `setOvcnt` -/

@[simp] theorem State.setOvcnt_cfg (s : State) (j : Lane) (v : AccWord) :
    (s.setOvcnt j v).cfg = s.cfg := rfl
@[simp] theorem State.setOvcnt_r (s : State) (j : Lane) (v : AccWord) :
    (s.setOvcnt j v).r = s.r := rfl
@[simp] theorem State.setOvcnt_acc (s : State) (j : Lane) (v : AccWord) :
    (s.setOvcnt j v).acc = s.acc := rfl
@[simp] theorem State.setOvcnt_i (s : State) (j : Lane) (v : AccWord) :
    (s.setOvcnt j v).i = s.i := rfl
@[simp] theorem State.setOvcnt_m (s : State) (j : Lane) (v : AccWord) :
    (s.setOvcnt j v).m = s.m := rfl
@[simp] theorem State.setOvcnt_l (s : State) (j : Lane) (v : AccWord) :
    (s.setOvcnt j v).l = s.l := rfl
@[simp] theorem State.setOvcnt_b (s : State) (j : Lane) (v : AccWord) :
    (s.setOvcnt j v).b = s.b := rfl
@[simp] theorem State.setOvcnt_cntr (s : State) (j : Lane) (v : AccWord) :
    (s.setOvcnt j v).cntr = s.cntr := rfl
@[simp] theorem State.setOvcnt_mstat (s : State) (j : Lane) (v : AccWord) :
    (s.setOvcnt j v).mstat = s.mstat := rfl
@[simp] theorem State.setOvcnt_lpever (s : State) (j : Lane) (v : AccWord) :
    (s.setOvcnt j v).lpever = s.lpever := rfl
@[simp] theorem State.setOvcnt_pcstack (s : State) (j : Lane) (v : AccWord) :
    (s.setOvcnt j v).pcstack = s.pcstack := rfl
@[simp] theorem State.setOvcnt_lpstack (s : State) (j : Lane) (v : AccWord) :
    (s.setOvcnt j v).lpstack = s.lpstack := rfl
@[simp] theorem State.setOvcnt_icntl (s : State) (j : Lane) (v : AccWord) :
    (s.setOvcnt j v).icntl = s.icntl := rfl
@[simp] theorem State.setOvcnt_imask (s : State) (j : Lane) (v : AccWord) :
    (s.setOvcnt j v).imask = s.imask := rfl
@[simp] theorem State.setOvcnt_irptl (s : State) (j : Lane) (v : AccWord) :
    (s.setOvcnt j v).irptl = s.irptl := rfl
@[simp] theorem State.setOvcnt_ivec (s : State) (j : Lane) (v : AccWord) :
    (s.setOvcnt j v).ivec = s.ivec := rfl
@[simp] theorem State.setOvcnt_astatR (s : State) (j : Lane) (v : AccWord) :
    (s.setOvcnt j v).astatR = s.astatR := rfl
@[simp] theorem State.setOvcnt_astatI (s : State) (j : Lane) (v : AccWord) :
    (s.setOvcnt j v).astatI = s.astatI := rfl
@[simp] theorem State.setOvcnt_astatC (s : State) (j : Lane) (v : AccWord) :
    (s.setOvcnt j v).astatC = s.astatC := rfl
@[simp] theorem State.setOvcnt_en (s : State) (j : Lane) (v : AccWord) :
    (s.setOvcnt j v).en = s.en := rfl
@[simp] theorem State.setOvcnt_master (s : State) (j : Lane) (v : AccWord) :
    (s.setOvcnt j v).master = s.master := rfl
@[simp] theorem State.setOvcnt_umcount (s : State) (j : Lane) (v : AccWord) :
    (s.setOvcnt j v).umcount = s.umcount := rfl
@[simp] theorem State.setOvcnt_mem (s : State) (j : Lane) (v : AccWord) :
    (s.setOvcnt j v).mem = s.mem := rfl
@[simp] theorem State.setOvcnt_cycle (s : State) (j : Lane) (v : AccWord) :
    (s.setOvcnt j v).cycle = s.cycle := rfl
@[simp] theorem State.setOvcnt_faultRec (s : State) (j : Lane) (v : AccWord) :
    (s.setOvcnt j v).faultRec = s.faultRec := rfl
@[simp] theorem State.setOvcnt_log (s : State) (j : Lane) (v : AccWord) :
    (s.setOvcnt j v).log = s.log := rfl
@[simp] theorem State.setOvcnt_input (s : State) (j : Lane) (v : AccWord) :
    (s.setOvcnt j v).input = s.input := rfl
@[simp] theorem State.setOvcnt_sstatIn (s : State) (j : Lane) (v : AccWord) :
    (s.setOvcnt j v).sstatIn = s.sstatIn := rfl
@[simp] theorem State.setOvcnt_site (s : State) (j : Lane) (v : AccWord) :
    (s.setOvcnt j v).site = s.site := rfl
@[simp] theorem State.setOvcnt_slot (s : State) (j : Lane) (v : AccWord) :
    (s.setOvcnt j v).slot = s.slot := rfl
@[simp] theorem State.setOvcnt_staged (s : State) (j : Lane) (v : AccWord) :
    (s.setOvcnt j v).staged = s.staged := rfl
@[simp] theorem State.setOvcnt_outs (s : State) (j : Lane) (v : AccWord) :
    (s.setOvcnt j v).outs = s.outs := rfl
@[simp] theorem State.setOvcnt_out (s : State) (j : Lane) (v : AccWord) :
    (s.setOvcnt j v).out = s.out := rfl
@[simp] theorem State.setOvcnt_draws (s : State) (j : Lane) (v : AccWord) :
    (s.setOvcnt j v).draws = s.draws := rfl
@[simp] theorem State.setOvcnt_unwritten (s : State) (j : Lane) (v : AccWord) :
    (s.setOvcnt j v).unwritten = s.unwritten := rfl

/-! ### `pushHaz` -/

@[simp] theorem State.pushHaz_cfg (s : State) (h : HazReg) (v : Half) :
    (s.pushHaz h v).cfg = s.cfg := by
  cases h <;> rfl
@[simp] theorem State.pushHaz_r (s : State) (h : HazReg) (v : Half) :
    (s.pushHaz h v).r = s.r := by
  cases h <;> rfl
@[simp] theorem State.pushHaz_acc (s : State) (h : HazReg) (v : Half) :
    (s.pushHaz h v).acc = s.acc := by
  cases h <;> rfl
@[simp] theorem State.pushHaz_lpever (s : State) (h : HazReg) (v : Half) :
    (s.pushHaz h v).lpever = s.lpever := by
  cases h <;> rfl
@[simp] theorem State.pushHaz_pcstack (s : State) (h : HazReg) (v : Half) :
    (s.pushHaz h v).pcstack = s.pcstack := by
  cases h <;> rfl
@[simp] theorem State.pushHaz_lpstack (s : State) (h : HazReg) (v : Half) :
    (s.pushHaz h v).lpstack = s.lpstack := by
  cases h <;> rfl
@[simp] theorem State.pushHaz_icntl (s : State) (h : HazReg) (v : Half) :
    (s.pushHaz h v).icntl = s.icntl := by
  cases h <;> rfl
@[simp] theorem State.pushHaz_imask (s : State) (h : HazReg) (v : Half) :
    (s.pushHaz h v).imask = s.imask := by
  cases h <;> rfl
@[simp] theorem State.pushHaz_irptl (s : State) (h : HazReg) (v : Half) :
    (s.pushHaz h v).irptl = s.irptl := by
  cases h <;> rfl
@[simp] theorem State.pushHaz_ivec (s : State) (h : HazReg) (v : Half) :
    (s.pushHaz h v).ivec = s.ivec := by
  cases h <;> rfl
@[simp] theorem State.pushHaz_astatR (s : State) (h : HazReg) (v : Half) :
    (s.pushHaz h v).astatR = s.astatR := by
  cases h <;> rfl
@[simp] theorem State.pushHaz_astatI (s : State) (h : HazReg) (v : Half) :
    (s.pushHaz h v).astatI = s.astatI := by
  cases h <;> rfl
@[simp] theorem State.pushHaz_astatC (s : State) (h : HazReg) (v : Half) :
    (s.pushHaz h v).astatC = s.astatC := by
  cases h <;> rfl
@[simp] theorem State.pushHaz_en (s : State) (h : HazReg) (v : Half) :
    (s.pushHaz h v).en = s.en := by
  cases h <;> rfl
@[simp] theorem State.pushHaz_master (s : State) (h : HazReg) (v : Half) :
    (s.pushHaz h v).master = s.master := by
  cases h <;> rfl
@[simp] theorem State.pushHaz_umcount (s : State) (h : HazReg) (v : Half) :
    (s.pushHaz h v).umcount = s.umcount := by
  cases h <;> rfl
@[simp] theorem State.pushHaz_ovcnt (s : State) (h : HazReg) (v : Half) :
    (s.pushHaz h v).ovcnt = s.ovcnt := by
  cases h <;> rfl
@[simp] theorem State.pushHaz_mem (s : State) (h : HazReg) (v : Half) :
    (s.pushHaz h v).mem = s.mem := by
  cases h <;> rfl
@[simp] theorem State.pushHaz_cycle (s : State) (h : HazReg) (v : Half) :
    (s.pushHaz h v).cycle = s.cycle := by
  cases h <;> rfl
@[simp] theorem State.pushHaz_faultRec (s : State) (h : HazReg) (v : Half) :
    (s.pushHaz h v).faultRec = s.faultRec := by
  cases h <;> rfl
@[simp] theorem State.pushHaz_log (s : State) (h : HazReg) (v : Half) :
    (s.pushHaz h v).log = s.log := by
  cases h <;> rfl
@[simp] theorem State.pushHaz_input (s : State) (h : HazReg) (v : Half) :
    (s.pushHaz h v).input = s.input := by
  cases h <;> rfl
@[simp] theorem State.pushHaz_sstatIn (s : State) (h : HazReg) (v : Half) :
    (s.pushHaz h v).sstatIn = s.sstatIn := by
  cases h <;> rfl
@[simp] theorem State.pushHaz_site (s : State) (h : HazReg) (v : Half) :
    (s.pushHaz h v).site = s.site := by
  cases h <;> rfl
@[simp] theorem State.pushHaz_slot (s : State) (h : HazReg) (v : Half) :
    (s.pushHaz h v).slot = s.slot := by
  cases h <;> rfl
@[simp] theorem State.pushHaz_staged (s : State) (h : HazReg) (v : Half) :
    (s.pushHaz h v).staged = s.staged := by
  cases h <;> rfl
@[simp] theorem State.pushHaz_outs (s : State) (h : HazReg) (v : Half) :
    (s.pushHaz h v).outs = s.outs := by
  cases h <;> rfl
@[simp] theorem State.pushHaz_out (s : State) (h : HazReg) (v : Half) :
    (s.pushHaz h v).out = s.out := by
  cases h <;> rfl
@[simp] theorem State.pushHaz_draws (s : State) (h : HazReg) (v : Half) :
    (s.pushHaz h v).draws = s.draws := by
  cases h <;> rfl
@[simp] theorem State.pushHaz_unwritten (s : State) (h : HazReg) (v : Half) :
    (s.pushHaz h v).unwritten = s.unwritten := by
  cases h <;> rfl

/-! ### `setCtl` -/

@[simp] theorem State.setCtl_cfg (s : State) (c : CtlReg) (v : Half) :
    (s.setCtl c v).cfg = s.cfg := by
  cases c <;> rfl
@[simp] theorem State.setCtl_r (s : State) (c : CtlReg) (v : Half) :
    (s.setCtl c v).r = s.r := by
  cases c <;> rfl
@[simp] theorem State.setCtl_acc (s : State) (c : CtlReg) (v : Half) :
    (s.setCtl c v).acc = s.acc := by
  cases c <;> rfl
@[simp] theorem State.setCtl_i (s : State) (c : CtlReg) (v : Half) :
    (s.setCtl c v).i = s.i := by
  cases c <;> rfl
@[simp] theorem State.setCtl_m (s : State) (c : CtlReg) (v : Half) :
    (s.setCtl c v).m = s.m := by
  cases c <;> rfl
@[simp] theorem State.setCtl_l (s : State) (c : CtlReg) (v : Half) :
    (s.setCtl c v).l = s.l := by
  cases c <;> rfl
@[simp] theorem State.setCtl_b (s : State) (c : CtlReg) (v : Half) :
    (s.setCtl c v).b = s.b := by
  cases c <;> rfl
@[simp] theorem State.setCtl_cntr (s : State) (c : CtlReg) (v : Half) :
    (s.setCtl c v).cntr = s.cntr := by
  cases c <;> rfl
@[simp] theorem State.setCtl_mstat (s : State) (c : CtlReg) (v : Half) :
    (s.setCtl c v).mstat = s.mstat := by
  cases c <;> rfl
@[simp] theorem State.setCtl_astatR (s : State) (c : CtlReg) (v : Half) :
    (s.setCtl c v).astatR = s.astatR := by
  cases c <;> rfl
@[simp] theorem State.setCtl_astatI (s : State) (c : CtlReg) (v : Half) :
    (s.setCtl c v).astatI = s.astatI := by
  cases c <;> rfl
@[simp] theorem State.setCtl_astatC (s : State) (c : CtlReg) (v : Half) :
    (s.setCtl c v).astatC = s.astatC := by
  cases c <;> rfl
@[simp] theorem State.setCtl_en (s : State) (c : CtlReg) (v : Half) :
    (s.setCtl c v).en = s.en := by
  cases c <;> rfl
@[simp] theorem State.setCtl_master (s : State) (c : CtlReg) (v : Half) :
    (s.setCtl c v).master = s.master := by
  cases c <;> rfl
@[simp] theorem State.setCtl_umcount (s : State) (c : CtlReg) (v : Half) :
    (s.setCtl c v).umcount = s.umcount := by
  cases c <;> rfl
@[simp] theorem State.setCtl_ovcnt (s : State) (c : CtlReg) (v : Half) :
    (s.setCtl c v).ovcnt = s.ovcnt := by
  cases c <;> rfl
@[simp] theorem State.setCtl_mem (s : State) (c : CtlReg) (v : Half) :
    (s.setCtl c v).mem = s.mem := by
  cases c <;> rfl
@[simp] theorem State.setCtl_cycle (s : State) (c : CtlReg) (v : Half) :
    (s.setCtl c v).cycle = s.cycle := by
  cases c <;> rfl
@[simp] theorem State.setCtl_faultRec (s : State) (c : CtlReg) (v : Half) :
    (s.setCtl c v).faultRec = s.faultRec := by
  cases c <;> rfl
@[simp] theorem State.setCtl_log (s : State) (c : CtlReg) (v : Half) :
    (s.setCtl c v).log = s.log := by
  cases c <;> rfl
@[simp] theorem State.setCtl_input (s : State) (c : CtlReg) (v : Half) :
    (s.setCtl c v).input = s.input := by
  cases c <;> rfl
@[simp] theorem State.setCtl_sstatIn (s : State) (c : CtlReg) (v : Half) :
    (s.setCtl c v).sstatIn = s.sstatIn := by
  cases c <;> rfl
@[simp] theorem State.setCtl_site (s : State) (c : CtlReg) (v : Half) :
    (s.setCtl c v).site = s.site := by
  cases c <;> rfl
@[simp] theorem State.setCtl_slot (s : State) (c : CtlReg) (v : Half) :
    (s.setCtl c v).slot = s.slot := by
  cases c <;> rfl
@[simp] theorem State.setCtl_staged (s : State) (c : CtlReg) (v : Half) :
    (s.setCtl c v).staged = s.staged := by
  cases c <;> rfl
@[simp] theorem State.setCtl_outs (s : State) (c : CtlReg) (v : Half) :
    (s.setCtl c v).outs = s.outs := by
  cases c <;> rfl
@[simp] theorem State.setCtl_out (s : State) (c : CtlReg) (v : Half) :
    (s.setCtl c v).out = s.out := by
  cases c <;> rfl
@[simp] theorem State.setCtl_draws (s : State) (c : CtlReg) (v : Half) :
    (s.setCtl c v).draws = s.draws := by
  cases c <;> rfl
@[simp] theorem State.setCtl_unwritten (s : State) (c : CtlReg) (v : Half) :
    (s.setCtl c v).unwritten = s.unwritten := by
  cases c <;> rfl

/-! ### `orEnable` -/

@[simp] theorem State.orEnable_cfg (s : State) (v : BitVec 4) :
    (s.orEnable v).cfg = s.cfg := rfl
@[simp] theorem State.orEnable_r (s : State) (v : BitVec 4) :
    (s.orEnable v).r = s.r := rfl
@[simp] theorem State.orEnable_acc (s : State) (v : BitVec 4) :
    (s.orEnable v).acc = s.acc := rfl
@[simp] theorem State.orEnable_i (s : State) (v : BitVec 4) :
    (s.orEnable v).i = s.i := rfl
@[simp] theorem State.orEnable_m (s : State) (v : BitVec 4) :
    (s.orEnable v).m = s.m := rfl
@[simp] theorem State.orEnable_l (s : State) (v : BitVec 4) :
    (s.orEnable v).l = s.l := rfl
@[simp] theorem State.orEnable_b (s : State) (v : BitVec 4) :
    (s.orEnable v).b = s.b := rfl
@[simp] theorem State.orEnable_cntr (s : State) (v : BitVec 4) :
    (s.orEnable v).cntr = s.cntr := rfl
@[simp] theorem State.orEnable_mstat (s : State) (v : BitVec 4) :
    (s.orEnable v).mstat = s.mstat := rfl
@[simp] theorem State.orEnable_lpever (s : State) (v : BitVec 4) :
    (s.orEnable v).lpever = s.lpever := rfl
@[simp] theorem State.orEnable_pcstack (s : State) (v : BitVec 4) :
    (s.orEnable v).pcstack = s.pcstack := rfl
@[simp] theorem State.orEnable_lpstack (s : State) (v : BitVec 4) :
    (s.orEnable v).lpstack = s.lpstack := rfl
@[simp] theorem State.orEnable_icntl (s : State) (v : BitVec 4) :
    (s.orEnable v).icntl = s.icntl := rfl
@[simp] theorem State.orEnable_imask (s : State) (v : BitVec 4) :
    (s.orEnable v).imask = s.imask := rfl
@[simp] theorem State.orEnable_irptl (s : State) (v : BitVec 4) :
    (s.orEnable v).irptl = s.irptl := rfl
@[simp] theorem State.orEnable_ivec (s : State) (v : BitVec 4) :
    (s.orEnable v).ivec = s.ivec := rfl
@[simp] theorem State.orEnable_astatR (s : State) (v : BitVec 4) :
    (s.orEnable v).astatR = s.astatR := rfl
@[simp] theorem State.orEnable_astatI (s : State) (v : BitVec 4) :
    (s.orEnable v).astatI = s.astatI := rfl
@[simp] theorem State.orEnable_astatC (s : State) (v : BitVec 4) :
    (s.orEnable v).astatC = s.astatC := rfl
@[simp] theorem State.orEnable_master (s : State) (v : BitVec 4) :
    (s.orEnable v).master = s.master := rfl
@[simp] theorem State.orEnable_umcount (s : State) (v : BitVec 4) :
    (s.orEnable v).umcount = s.umcount := rfl
@[simp] theorem State.orEnable_ovcnt (s : State) (v : BitVec 4) :
    (s.orEnable v).ovcnt = s.ovcnt := rfl
@[simp] theorem State.orEnable_mem (s : State) (v : BitVec 4) :
    (s.orEnable v).mem = s.mem := rfl
@[simp] theorem State.orEnable_cycle (s : State) (v : BitVec 4) :
    (s.orEnable v).cycle = s.cycle := rfl
@[simp] theorem State.orEnable_faultRec (s : State) (v : BitVec 4) :
    (s.orEnable v).faultRec = s.faultRec := rfl
@[simp] theorem State.orEnable_log (s : State) (v : BitVec 4) :
    (s.orEnable v).log = s.log := rfl
@[simp] theorem State.orEnable_input (s : State) (v : BitVec 4) :
    (s.orEnable v).input = s.input := rfl
@[simp] theorem State.orEnable_sstatIn (s : State) (v : BitVec 4) :
    (s.orEnable v).sstatIn = s.sstatIn := rfl
@[simp] theorem State.orEnable_site (s : State) (v : BitVec 4) :
    (s.orEnable v).site = s.site := rfl
@[simp] theorem State.orEnable_slot (s : State) (v : BitVec 4) :
    (s.orEnable v).slot = s.slot := rfl
@[simp] theorem State.orEnable_staged (s : State) (v : BitVec 4) :
    (s.orEnable v).staged = s.staged := rfl
@[simp] theorem State.orEnable_outs (s : State) (v : BitVec 4) :
    (s.orEnable v).outs = s.outs := rfl
@[simp] theorem State.orEnable_out (s : State) (v : BitVec 4) :
    (s.orEnable v).out = s.out := rfl
@[simp] theorem State.orEnable_draws (s : State) (v : BitVec 4) :
    (s.orEnable v).draws = s.draws := rfl
@[simp] theorem State.orEnable_unwritten (s : State) (v : BitVec 4) :
    (s.orEnable v).unwritten = s.unwritten := rfl

/-! ### `selectMaster` -/

@[simp] theorem State.selectMaster_cfg (s : State) (v : BitVec 4) :
    (s.selectMaster v).cfg = s.cfg := rfl
@[simp] theorem State.selectMaster_r (s : State) (v : BitVec 4) :
    (s.selectMaster v).r = s.r := rfl
@[simp] theorem State.selectMaster_acc (s : State) (v : BitVec 4) :
    (s.selectMaster v).acc = s.acc := rfl
@[simp] theorem State.selectMaster_i (s : State) (v : BitVec 4) :
    (s.selectMaster v).i = s.i := rfl
@[simp] theorem State.selectMaster_m (s : State) (v : BitVec 4) :
    (s.selectMaster v).m = s.m := rfl
@[simp] theorem State.selectMaster_l (s : State) (v : BitVec 4) :
    (s.selectMaster v).l = s.l := rfl
@[simp] theorem State.selectMaster_b (s : State) (v : BitVec 4) :
    (s.selectMaster v).b = s.b := rfl
@[simp] theorem State.selectMaster_cntr (s : State) (v : BitVec 4) :
    (s.selectMaster v).cntr = s.cntr := rfl
@[simp] theorem State.selectMaster_mstat (s : State) (v : BitVec 4) :
    (s.selectMaster v).mstat = s.mstat := rfl
@[simp] theorem State.selectMaster_lpever (s : State) (v : BitVec 4) :
    (s.selectMaster v).lpever = s.lpever := rfl
@[simp] theorem State.selectMaster_pcstack (s : State) (v : BitVec 4) :
    (s.selectMaster v).pcstack = s.pcstack := rfl
@[simp] theorem State.selectMaster_lpstack (s : State) (v : BitVec 4) :
    (s.selectMaster v).lpstack = s.lpstack := rfl
@[simp] theorem State.selectMaster_icntl (s : State) (v : BitVec 4) :
    (s.selectMaster v).icntl = s.icntl := rfl
@[simp] theorem State.selectMaster_imask (s : State) (v : BitVec 4) :
    (s.selectMaster v).imask = s.imask := rfl
@[simp] theorem State.selectMaster_irptl (s : State) (v : BitVec 4) :
    (s.selectMaster v).irptl = s.irptl := rfl
@[simp] theorem State.selectMaster_ivec (s : State) (v : BitVec 4) :
    (s.selectMaster v).ivec = s.ivec := rfl
@[simp] theorem State.selectMaster_astatR (s : State) (v : BitVec 4) :
    (s.selectMaster v).astatR = s.astatR := rfl
@[simp] theorem State.selectMaster_astatI (s : State) (v : BitVec 4) :
    (s.selectMaster v).astatI = s.astatI := rfl
@[simp] theorem State.selectMaster_astatC (s : State) (v : BitVec 4) :
    (s.selectMaster v).astatC = s.astatC := rfl
@[simp] theorem State.selectMaster_en (s : State) (v : BitVec 4) :
    (s.selectMaster v).en = s.en := rfl
@[simp] theorem State.selectMaster_umcount (s : State) (v : BitVec 4) :
    (s.selectMaster v).umcount = s.umcount := rfl
@[simp] theorem State.selectMaster_ovcnt (s : State) (v : BitVec 4) :
    (s.selectMaster v).ovcnt = s.ovcnt := rfl
@[simp] theorem State.selectMaster_mem (s : State) (v : BitVec 4) :
    (s.selectMaster v).mem = s.mem := rfl
@[simp] theorem State.selectMaster_cycle (s : State) (v : BitVec 4) :
    (s.selectMaster v).cycle = s.cycle := rfl
@[simp] theorem State.selectMaster_faultRec (s : State) (v : BitVec 4) :
    (s.selectMaster v).faultRec = s.faultRec := rfl
@[simp] theorem State.selectMaster_log (s : State) (v : BitVec 4) :
    (s.selectMaster v).log = s.log := rfl
@[simp] theorem State.selectMaster_input (s : State) (v : BitVec 4) :
    (s.selectMaster v).input = s.input := rfl
@[simp] theorem State.selectMaster_sstatIn (s : State) (v : BitVec 4) :
    (s.selectMaster v).sstatIn = s.sstatIn := rfl
@[simp] theorem State.selectMaster_site (s : State) (v : BitVec 4) :
    (s.selectMaster v).site = s.site := rfl
@[simp] theorem State.selectMaster_slot (s : State) (v : BitVec 4) :
    (s.selectMaster v).slot = s.slot := rfl
@[simp] theorem State.selectMaster_staged (s : State) (v : BitVec 4) :
    (s.selectMaster v).staged = s.staged := rfl
@[simp] theorem State.selectMaster_outs (s : State) (v : BitVec 4) :
    (s.selectMaster v).outs = s.outs := rfl
@[simp] theorem State.selectMaster_out (s : State) (v : BitVec 4) :
    (s.selectMaster v).out = s.out := rfl
@[simp] theorem State.selectMaster_draws (s : State) (v : BitVec 4) :
    (s.selectMaster v).draws = s.draws := rfl
@[simp] theorem State.selectMaster_unwritten (s : State) (v : BitVec 4) :
    (s.selectMaster v).unwritten = s.unwritten := rfl

/-! ### `aguUpdate` -/

@[simp] theorem State.aguUpdate_cfg (s : State) (k : Fin 8) (v : Half) :
    (s.aguUpdate k v).cfg = s.cfg := rfl
@[simp] theorem State.aguUpdate_r (s : State) (k : Fin 8) (v : Half) :
    (s.aguUpdate k v).r = s.r := rfl
@[simp] theorem State.aguUpdate_acc (s : State) (k : Fin 8) (v : Half) :
    (s.aguUpdate k v).acc = s.acc := rfl
@[simp] theorem State.aguUpdate_m (s : State) (k : Fin 8) (v : Half) :
    (s.aguUpdate k v).m = s.m := rfl
@[simp] theorem State.aguUpdate_l (s : State) (k : Fin 8) (v : Half) :
    (s.aguUpdate k v).l = s.l := rfl
@[simp] theorem State.aguUpdate_b (s : State) (k : Fin 8) (v : Half) :
    (s.aguUpdate k v).b = s.b := rfl
@[simp] theorem State.aguUpdate_cntr (s : State) (k : Fin 8) (v : Half) :
    (s.aguUpdate k v).cntr = s.cntr := rfl
@[simp] theorem State.aguUpdate_mstat (s : State) (k : Fin 8) (v : Half) :
    (s.aguUpdate k v).mstat = s.mstat := rfl
@[simp] theorem State.aguUpdate_lpever (s : State) (k : Fin 8) (v : Half) :
    (s.aguUpdate k v).lpever = s.lpever := rfl
@[simp] theorem State.aguUpdate_pcstack (s : State) (k : Fin 8) (v : Half) :
    (s.aguUpdate k v).pcstack = s.pcstack := rfl
@[simp] theorem State.aguUpdate_lpstack (s : State) (k : Fin 8) (v : Half) :
    (s.aguUpdate k v).lpstack = s.lpstack := rfl
@[simp] theorem State.aguUpdate_icntl (s : State) (k : Fin 8) (v : Half) :
    (s.aguUpdate k v).icntl = s.icntl := rfl
@[simp] theorem State.aguUpdate_imask (s : State) (k : Fin 8) (v : Half) :
    (s.aguUpdate k v).imask = s.imask := rfl
@[simp] theorem State.aguUpdate_irptl (s : State) (k : Fin 8) (v : Half) :
    (s.aguUpdate k v).irptl = s.irptl := rfl
@[simp] theorem State.aguUpdate_ivec (s : State) (k : Fin 8) (v : Half) :
    (s.aguUpdate k v).ivec = s.ivec := rfl
@[simp] theorem State.aguUpdate_astatR (s : State) (k : Fin 8) (v : Half) :
    (s.aguUpdate k v).astatR = s.astatR := rfl
@[simp] theorem State.aguUpdate_astatI (s : State) (k : Fin 8) (v : Half) :
    (s.aguUpdate k v).astatI = s.astatI := rfl
@[simp] theorem State.aguUpdate_astatC (s : State) (k : Fin 8) (v : Half) :
    (s.aguUpdate k v).astatC = s.astatC := rfl
@[simp] theorem State.aguUpdate_en (s : State) (k : Fin 8) (v : Half) :
    (s.aguUpdate k v).en = s.en := rfl
@[simp] theorem State.aguUpdate_master (s : State) (k : Fin 8) (v : Half) :
    (s.aguUpdate k v).master = s.master := rfl
@[simp] theorem State.aguUpdate_umcount (s : State) (k : Fin 8) (v : Half) :
    (s.aguUpdate k v).umcount = s.umcount := rfl
@[simp] theorem State.aguUpdate_ovcnt (s : State) (k : Fin 8) (v : Half) :
    (s.aguUpdate k v).ovcnt = s.ovcnt := rfl
@[simp] theorem State.aguUpdate_mem (s : State) (k : Fin 8) (v : Half) :
    (s.aguUpdate k v).mem = s.mem := rfl
@[simp] theorem State.aguUpdate_cycle (s : State) (k : Fin 8) (v : Half) :
    (s.aguUpdate k v).cycle = s.cycle := rfl
@[simp] theorem State.aguUpdate_faultRec (s : State) (k : Fin 8) (v : Half) :
    (s.aguUpdate k v).faultRec = s.faultRec := rfl
@[simp] theorem State.aguUpdate_log (s : State) (k : Fin 8) (v : Half) :
    (s.aguUpdate k v).log = s.log := rfl
@[simp] theorem State.aguUpdate_input (s : State) (k : Fin 8) (v : Half) :
    (s.aguUpdate k v).input = s.input := rfl
@[simp] theorem State.aguUpdate_sstatIn (s : State) (k : Fin 8) (v : Half) :
    (s.aguUpdate k v).sstatIn = s.sstatIn := rfl
@[simp] theorem State.aguUpdate_site (s : State) (k : Fin 8) (v : Half) :
    (s.aguUpdate k v).site = s.site := rfl
@[simp] theorem State.aguUpdate_slot (s : State) (k : Fin 8) (v : Half) :
    (s.aguUpdate k v).slot = s.slot := rfl
@[simp] theorem State.aguUpdate_staged (s : State) (k : Fin 8) (v : Half) :
    (s.aguUpdate k v).staged = s.staged := rfl
@[simp] theorem State.aguUpdate_outs (s : State) (k : Fin 8) (v : Half) :
    (s.aguUpdate k v).outs = s.outs := rfl
@[simp] theorem State.aguUpdate_out (s : State) (k : Fin 8) (v : Half) :
    (s.aguUpdate k v).out = s.out := rfl
@[simp] theorem State.aguUpdate_draws (s : State) (k : Fin 8) (v : Half) :
    (s.aguUpdate k v).draws = s.draws := rfl
@[simp] theorem State.aguUpdate_unwritten (s : State) (k : Fin 8) (v : Half) :
    (s.aguUpdate k v).unwritten = s.unwritten := rfl

/-! ### `withMem` -/


/-! ### `warn` -/

@[simp] theorem State.warn_cfg (s : State) (ws : List Warn) :
    (s.warn ws).cfg = s.cfg := rfl
@[simp] theorem State.warn_r (s : State) (ws : List Warn) :
    (s.warn ws).r = s.r := rfl
@[simp] theorem State.warn_acc (s : State) (ws : List Warn) :
    (s.warn ws).acc = s.acc := rfl
@[simp] theorem State.warn_i (s : State) (ws : List Warn) :
    (s.warn ws).i = s.i := rfl
@[simp] theorem State.warn_m (s : State) (ws : List Warn) :
    (s.warn ws).m = s.m := rfl
@[simp] theorem State.warn_l (s : State) (ws : List Warn) :
    (s.warn ws).l = s.l := rfl
@[simp] theorem State.warn_b (s : State) (ws : List Warn) :
    (s.warn ws).b = s.b := rfl
@[simp] theorem State.warn_cntr (s : State) (ws : List Warn) :
    (s.warn ws).cntr = s.cntr := rfl
@[simp] theorem State.warn_mstat (s : State) (ws : List Warn) :
    (s.warn ws).mstat = s.mstat := rfl
@[simp] theorem State.warn_lpever (s : State) (ws : List Warn) :
    (s.warn ws).lpever = s.lpever := rfl
@[simp] theorem State.warn_pcstack (s : State) (ws : List Warn) :
    (s.warn ws).pcstack = s.pcstack := rfl
@[simp] theorem State.warn_lpstack (s : State) (ws : List Warn) :
    (s.warn ws).lpstack = s.lpstack := rfl
@[simp] theorem State.warn_icntl (s : State) (ws : List Warn) :
    (s.warn ws).icntl = s.icntl := rfl
@[simp] theorem State.warn_imask (s : State) (ws : List Warn) :
    (s.warn ws).imask = s.imask := rfl
@[simp] theorem State.warn_irptl (s : State) (ws : List Warn) :
    (s.warn ws).irptl = s.irptl := rfl
@[simp] theorem State.warn_ivec (s : State) (ws : List Warn) :
    (s.warn ws).ivec = s.ivec := rfl
@[simp] theorem State.warn_astatR (s : State) (ws : List Warn) :
    (s.warn ws).astatR = s.astatR := rfl
@[simp] theorem State.warn_astatI (s : State) (ws : List Warn) :
    (s.warn ws).astatI = s.astatI := rfl
@[simp] theorem State.warn_astatC (s : State) (ws : List Warn) :
    (s.warn ws).astatC = s.astatC := rfl
@[simp] theorem State.warn_en (s : State) (ws : List Warn) :
    (s.warn ws).en = s.en := rfl
@[simp] theorem State.warn_master (s : State) (ws : List Warn) :
    (s.warn ws).master = s.master := rfl
@[simp] theorem State.warn_umcount (s : State) (ws : List Warn) :
    (s.warn ws).umcount = s.umcount := rfl
@[simp] theorem State.warn_ovcnt (s : State) (ws : List Warn) :
    (s.warn ws).ovcnt = s.ovcnt := rfl
@[simp] theorem State.warn_mem (s : State) (ws : List Warn) :
    (s.warn ws).mem = s.mem := rfl
@[simp] theorem State.warn_cycle (s : State) (ws : List Warn) :
    (s.warn ws).cycle = s.cycle := rfl
@[simp] theorem State.warn_faultRec (s : State) (ws : List Warn) :
    (s.warn ws).faultRec = s.faultRec := rfl
@[simp] theorem State.warn_input (s : State) (ws : List Warn) :
    (s.warn ws).input = s.input := rfl
@[simp] theorem State.warn_sstatIn (s : State) (ws : List Warn) :
    (s.warn ws).sstatIn = s.sstatIn := rfl
@[simp] theorem State.warn_site (s : State) (ws : List Warn) :
    (s.warn ws).site = s.site := rfl
@[simp] theorem State.warn_slot (s : State) (ws : List Warn) :
    (s.warn ws).slot = s.slot := rfl
@[simp] theorem State.warn_staged (s : State) (ws : List Warn) :
    (s.warn ws).staged = s.staged := rfl
@[simp] theorem State.warn_outs (s : State) (ws : List Warn) :
    (s.warn ws).outs = s.outs := rfl
@[simp] theorem State.warn_out (s : State) (ws : List Warn) :
    (s.warn ws).out = s.out := rfl
@[simp] theorem State.warn_draws (s : State) (ws : List Warn) :
    (s.warn ws).draws = s.draws := rfl
@[simp] theorem State.warn_unwritten (s : State) (ws : List Warn) :
    (s.warn ws).unwritten = s.unwritten := rfl

/-! ### `stage` -/

@[simp] theorem State.stage_cfg (s : State) (o : SlotOut) (ws : List Write) :
    (s.stage o ws).cfg = s.cfg := rfl
@[simp] theorem State.stage_r (s : State) (o : SlotOut) (ws : List Write) :
    (s.stage o ws).r = s.r := rfl
@[simp] theorem State.stage_acc (s : State) (o : SlotOut) (ws : List Write) :
    (s.stage o ws).acc = s.acc := rfl
@[simp] theorem State.stage_i (s : State) (o : SlotOut) (ws : List Write) :
    (s.stage o ws).i = s.i := rfl
@[simp] theorem State.stage_m (s : State) (o : SlotOut) (ws : List Write) :
    (s.stage o ws).m = s.m := rfl
@[simp] theorem State.stage_l (s : State) (o : SlotOut) (ws : List Write) :
    (s.stage o ws).l = s.l := rfl
@[simp] theorem State.stage_b (s : State) (o : SlotOut) (ws : List Write) :
    (s.stage o ws).b = s.b := rfl
@[simp] theorem State.stage_cntr (s : State) (o : SlotOut) (ws : List Write) :
    (s.stage o ws).cntr = s.cntr := rfl
@[simp] theorem State.stage_mstat (s : State) (o : SlotOut) (ws : List Write) :
    (s.stage o ws).mstat = s.mstat := rfl
@[simp] theorem State.stage_lpever (s : State) (o : SlotOut) (ws : List Write) :
    (s.stage o ws).lpever = s.lpever := rfl
@[simp] theorem State.stage_pcstack (s : State) (o : SlotOut) (ws : List Write) :
    (s.stage o ws).pcstack = s.pcstack := rfl
@[simp] theorem State.stage_lpstack (s : State) (o : SlotOut) (ws : List Write) :
    (s.stage o ws).lpstack = s.lpstack := rfl
@[simp] theorem State.stage_icntl (s : State) (o : SlotOut) (ws : List Write) :
    (s.stage o ws).icntl = s.icntl := rfl
@[simp] theorem State.stage_imask (s : State) (o : SlotOut) (ws : List Write) :
    (s.stage o ws).imask = s.imask := rfl
@[simp] theorem State.stage_irptl (s : State) (o : SlotOut) (ws : List Write) :
    (s.stage o ws).irptl = s.irptl := rfl
@[simp] theorem State.stage_ivec (s : State) (o : SlotOut) (ws : List Write) :
    (s.stage o ws).ivec = s.ivec := rfl
@[simp] theorem State.stage_astatR (s : State) (o : SlotOut) (ws : List Write) :
    (s.stage o ws).astatR = s.astatR := rfl
@[simp] theorem State.stage_astatI (s : State) (o : SlotOut) (ws : List Write) :
    (s.stage o ws).astatI = s.astatI := rfl
@[simp] theorem State.stage_astatC (s : State) (o : SlotOut) (ws : List Write) :
    (s.stage o ws).astatC = s.astatC := rfl
@[simp] theorem State.stage_en (s : State) (o : SlotOut) (ws : List Write) :
    (s.stage o ws).en = s.en := rfl
@[simp] theorem State.stage_master (s : State) (o : SlotOut) (ws : List Write) :
    (s.stage o ws).master = s.master := rfl
@[simp] theorem State.stage_umcount (s : State) (o : SlotOut) (ws : List Write) :
    (s.stage o ws).umcount = s.umcount := rfl
@[simp] theorem State.stage_ovcnt (s : State) (o : SlotOut) (ws : List Write) :
    (s.stage o ws).ovcnt = s.ovcnt := rfl
@[simp] theorem State.stage_mem (s : State) (o : SlotOut) (ws : List Write) :
    (s.stage o ws).mem = s.mem := rfl
@[simp] theorem State.stage_cycle (s : State) (o : SlotOut) (ws : List Write) :
    (s.stage o ws).cycle = s.cycle := rfl
@[simp] theorem State.stage_faultRec (s : State) (o : SlotOut) (ws : List Write) :
    (s.stage o ws).faultRec = s.faultRec := rfl
@[simp] theorem State.stage_log (s : State) (o : SlotOut) (ws : List Write) :
    (s.stage o ws).log = s.log := rfl
@[simp] theorem State.stage_input (s : State) (o : SlotOut) (ws : List Write) :
    (s.stage o ws).input = s.input := rfl
@[simp] theorem State.stage_sstatIn (s : State) (o : SlotOut) (ws : List Write) :
    (s.stage o ws).sstatIn = s.sstatIn := rfl
@[simp] theorem State.stage_site (s : State) (o : SlotOut) (ws : List Write) :
    (s.stage o ws).site = s.site := rfl
@[simp] theorem State.stage_out (s : State) (o : SlotOut) (ws : List Write) :
    (s.stage o ws).out = s.out := rfl
@[simp] theorem State.stage_unwritten (s : State) (o : SlotOut) (ws : List Write) :
    (s.stage o ws).unwritten = s.unwritten := rfl

/-! ### `raiseAt` -/

@[simp] theorem State.raiseAt_cfg (s : State) (k : Nat) (e : CoreErr) :
    (s.raiseAt k e).cfg = s.cfg := rfl
@[simp] theorem State.raiseAt_r (s : State) (k : Nat) (e : CoreErr) :
    (s.raiseAt k e).r = s.r := rfl
@[simp] theorem State.raiseAt_acc (s : State) (k : Nat) (e : CoreErr) :
    (s.raiseAt k e).acc = s.acc := rfl
@[simp] theorem State.raiseAt_i (s : State) (k : Nat) (e : CoreErr) :
    (s.raiseAt k e).i = s.i := rfl
@[simp] theorem State.raiseAt_m (s : State) (k : Nat) (e : CoreErr) :
    (s.raiseAt k e).m = s.m := rfl
@[simp] theorem State.raiseAt_l (s : State) (k : Nat) (e : CoreErr) :
    (s.raiseAt k e).l = s.l := rfl
@[simp] theorem State.raiseAt_b (s : State) (k : Nat) (e : CoreErr) :
    (s.raiseAt k e).b = s.b := rfl
@[simp] theorem State.raiseAt_cntr (s : State) (k : Nat) (e : CoreErr) :
    (s.raiseAt k e).cntr = s.cntr := rfl
@[simp] theorem State.raiseAt_mstat (s : State) (k : Nat) (e : CoreErr) :
    (s.raiseAt k e).mstat = s.mstat := rfl
@[simp] theorem State.raiseAt_lpever (s : State) (k : Nat) (e : CoreErr) :
    (s.raiseAt k e).lpever = s.lpever := rfl
@[simp] theorem State.raiseAt_pcstack (s : State) (k : Nat) (e : CoreErr) :
    (s.raiseAt k e).pcstack = s.pcstack := rfl
@[simp] theorem State.raiseAt_lpstack (s : State) (k : Nat) (e : CoreErr) :
    (s.raiseAt k e).lpstack = s.lpstack := rfl
@[simp] theorem State.raiseAt_icntl (s : State) (k : Nat) (e : CoreErr) :
    (s.raiseAt k e).icntl = s.icntl := rfl
@[simp] theorem State.raiseAt_imask (s : State) (k : Nat) (e : CoreErr) :
    (s.raiseAt k e).imask = s.imask := rfl
@[simp] theorem State.raiseAt_irptl (s : State) (k : Nat) (e : CoreErr) :
    (s.raiseAt k e).irptl = s.irptl := rfl
@[simp] theorem State.raiseAt_ivec (s : State) (k : Nat) (e : CoreErr) :
    (s.raiseAt k e).ivec = s.ivec := rfl
@[simp] theorem State.raiseAt_astatR (s : State) (k : Nat) (e : CoreErr) :
    (s.raiseAt k e).astatR = s.astatR := rfl
@[simp] theorem State.raiseAt_astatI (s : State) (k : Nat) (e : CoreErr) :
    (s.raiseAt k e).astatI = s.astatI := rfl
@[simp] theorem State.raiseAt_astatC (s : State) (k : Nat) (e : CoreErr) :
    (s.raiseAt k e).astatC = s.astatC := rfl
@[simp] theorem State.raiseAt_en (s : State) (k : Nat) (e : CoreErr) :
    (s.raiseAt k e).en = s.en := rfl
@[simp] theorem State.raiseAt_master (s : State) (k : Nat) (e : CoreErr) :
    (s.raiseAt k e).master = s.master := rfl
@[simp] theorem State.raiseAt_umcount (s : State) (k : Nat) (e : CoreErr) :
    (s.raiseAt k e).umcount = s.umcount := rfl
@[simp] theorem State.raiseAt_ovcnt (s : State) (k : Nat) (e : CoreErr) :
    (s.raiseAt k e).ovcnt = s.ovcnt := rfl
@[simp] theorem State.raiseAt_mem (s : State) (k : Nat) (e : CoreErr) :
    (s.raiseAt k e).mem = s.mem := rfl
@[simp] theorem State.raiseAt_cycle (s : State) (k : Nat) (e : CoreErr) :
    (s.raiseAt k e).cycle = s.cycle := rfl
@[simp] theorem State.raiseAt_log (s : State) (k : Nat) (e : CoreErr) :
    (s.raiseAt k e).log = s.log := rfl
@[simp] theorem State.raiseAt_input (s : State) (k : Nat) (e : CoreErr) :
    (s.raiseAt k e).input = s.input := rfl
@[simp] theorem State.raiseAt_sstatIn (s : State) (k : Nat) (e : CoreErr) :
    (s.raiseAt k e).sstatIn = s.sstatIn := rfl
@[simp] theorem State.raiseAt_site (s : State) (k : Nat) (e : CoreErr) :
    (s.raiseAt k e).site = s.site := rfl
@[simp] theorem State.raiseAt_out (s : State) (k : Nat) (e : CoreErr) :
    (s.raiseAt k e).out = s.out := rfl
@[simp] theorem State.raiseAt_unwritten (s : State) (k : Nat) (e : CoreErr) :
    (s.raiseAt k e).unwritten = s.unwritten := rfl

/-! ### `openBundle` -/

@[simp] theorem State.openBundle_cfg (s : State) (x : BitVec 8) (n : Nat) :
    (s.openBundle x n).cfg = s.cfg := rfl
@[simp] theorem State.openBundle_r (s : State) (x : BitVec 8) (n : Nat) :
    (s.openBundle x n).r = s.r := rfl
@[simp] theorem State.openBundle_acc (s : State) (x : BitVec 8) (n : Nat) :
    (s.openBundle x n).acc = s.acc := rfl
@[simp] theorem State.openBundle_i (s : State) (x : BitVec 8) (n : Nat) :
    (s.openBundle x n).i = s.i := rfl
@[simp] theorem State.openBundle_m (s : State) (x : BitVec 8) (n : Nat) :
    (s.openBundle x n).m = s.m := rfl
@[simp] theorem State.openBundle_l (s : State) (x : BitVec 8) (n : Nat) :
    (s.openBundle x n).l = s.l := rfl
@[simp] theorem State.openBundle_b (s : State) (x : BitVec 8) (n : Nat) :
    (s.openBundle x n).b = s.b := rfl
@[simp] theorem State.openBundle_cntr (s : State) (x : BitVec 8) (n : Nat) :
    (s.openBundle x n).cntr = s.cntr := rfl
@[simp] theorem State.openBundle_mstat (s : State) (x : BitVec 8) (n : Nat) :
    (s.openBundle x n).mstat = s.mstat := rfl
@[simp] theorem State.openBundle_lpever (s : State) (x : BitVec 8) (n : Nat) :
    (s.openBundle x n).lpever = s.lpever := rfl
@[simp] theorem State.openBundle_pcstack (s : State) (x : BitVec 8) (n : Nat) :
    (s.openBundle x n).pcstack = s.pcstack := rfl
@[simp] theorem State.openBundle_lpstack (s : State) (x : BitVec 8) (n : Nat) :
    (s.openBundle x n).lpstack = s.lpstack := rfl
@[simp] theorem State.openBundle_icntl (s : State) (x : BitVec 8) (n : Nat) :
    (s.openBundle x n).icntl = s.icntl := rfl
@[simp] theorem State.openBundle_imask (s : State) (x : BitVec 8) (n : Nat) :
    (s.openBundle x n).imask = s.imask := rfl
@[simp] theorem State.openBundle_irptl (s : State) (x : BitVec 8) (n : Nat) :
    (s.openBundle x n).irptl = s.irptl := rfl
@[simp] theorem State.openBundle_ivec (s : State) (x : BitVec 8) (n : Nat) :
    (s.openBundle x n).ivec = s.ivec := rfl
@[simp] theorem State.openBundle_astatR (s : State) (x : BitVec 8) (n : Nat) :
    (s.openBundle x n).astatR = s.astatR := rfl
@[simp] theorem State.openBundle_astatI (s : State) (x : BitVec 8) (n : Nat) :
    (s.openBundle x n).astatI = s.astatI := rfl
@[simp] theorem State.openBundle_astatC (s : State) (x : BitVec 8) (n : Nat) :
    (s.openBundle x n).astatC = s.astatC := rfl
@[simp] theorem State.openBundle_en (s : State) (x : BitVec 8) (n : Nat) :
    (s.openBundle x n).en = s.en := rfl
@[simp] theorem State.openBundle_master (s : State) (x : BitVec 8) (n : Nat) :
    (s.openBundle x n).master = s.master := rfl
@[simp] theorem State.openBundle_umcount (s : State) (x : BitVec 8) (n : Nat) :
    (s.openBundle x n).umcount = s.umcount := rfl
@[simp] theorem State.openBundle_ovcnt (s : State) (x : BitVec 8) (n : Nat) :
    (s.openBundle x n).ovcnt = s.ovcnt := rfl
@[simp] theorem State.openBundle_mem (s : State) (x : BitVec 8) (n : Nat) :
    (s.openBundle x n).mem = s.mem := rfl
@[simp] theorem State.openBundle_cycle (s : State) (x : BitVec 8) (n : Nat) :
    (s.openBundle x n).cycle = s.cycle := rfl
@[simp] theorem State.openBundle_faultRec (s : State) (x : BitVec 8) (n : Nat) :
    (s.openBundle x n).faultRec = s.faultRec := rfl
@[simp] theorem State.openBundle_log (s : State) (x : BitVec 8) (n : Nat) :
    (s.openBundle x n).log = s.log := rfl
@[simp] theorem State.openBundle_input (s : State) (x : BitVec 8) (n : Nat) :
    (s.openBundle x n).input = s.input := rfl
@[simp] theorem State.openBundle_out (s : State) (x : BitVec 8) (n : Nat) :
    (s.openBundle x n).out = s.out := rfl
@[simp] theorem State.openBundle_draws (s : State) (x : BitVec 8) (n : Nat) :
    (s.openBundle x n).draws = s.draws := rfl
@[simp] theorem State.openBundle_unwritten (s : State) (x : BitVec 8) (n : Nat) :
    (s.openBundle x n).unwritten = s.unwritten := rfl

/-! ### `withUnwritten` -/

@[simp] theorem State.withUnwritten_cfg (s : State) (ps : List Place) :
    (s.withUnwritten ps).cfg = s.cfg := rfl
@[simp] theorem State.withUnwritten_r (s : State) (ps : List Place) :
    (s.withUnwritten ps).r = s.r := rfl
@[simp] theorem State.withUnwritten_acc (s : State) (ps : List Place) :
    (s.withUnwritten ps).acc = s.acc := rfl
@[simp] theorem State.withUnwritten_i (s : State) (ps : List Place) :
    (s.withUnwritten ps).i = s.i := rfl
@[simp] theorem State.withUnwritten_m (s : State) (ps : List Place) :
    (s.withUnwritten ps).m = s.m := rfl
@[simp] theorem State.withUnwritten_l (s : State) (ps : List Place) :
    (s.withUnwritten ps).l = s.l := rfl
@[simp] theorem State.withUnwritten_b (s : State) (ps : List Place) :
    (s.withUnwritten ps).b = s.b := rfl
@[simp] theorem State.withUnwritten_cntr (s : State) (ps : List Place) :
    (s.withUnwritten ps).cntr = s.cntr := rfl
@[simp] theorem State.withUnwritten_mstat (s : State) (ps : List Place) :
    (s.withUnwritten ps).mstat = s.mstat := rfl
@[simp] theorem State.withUnwritten_lpever (s : State) (ps : List Place) :
    (s.withUnwritten ps).lpever = s.lpever := rfl
@[simp] theorem State.withUnwritten_pcstack (s : State) (ps : List Place) :
    (s.withUnwritten ps).pcstack = s.pcstack := rfl
@[simp] theorem State.withUnwritten_lpstack (s : State) (ps : List Place) :
    (s.withUnwritten ps).lpstack = s.lpstack := rfl
@[simp] theorem State.withUnwritten_icntl (s : State) (ps : List Place) :
    (s.withUnwritten ps).icntl = s.icntl := rfl
@[simp] theorem State.withUnwritten_imask (s : State) (ps : List Place) :
    (s.withUnwritten ps).imask = s.imask := rfl
@[simp] theorem State.withUnwritten_irptl (s : State) (ps : List Place) :
    (s.withUnwritten ps).irptl = s.irptl := rfl
@[simp] theorem State.withUnwritten_ivec (s : State) (ps : List Place) :
    (s.withUnwritten ps).ivec = s.ivec := rfl
@[simp] theorem State.withUnwritten_astatR (s : State) (ps : List Place) :
    (s.withUnwritten ps).astatR = s.astatR := rfl
@[simp] theorem State.withUnwritten_astatI (s : State) (ps : List Place) :
    (s.withUnwritten ps).astatI = s.astatI := rfl
@[simp] theorem State.withUnwritten_astatC (s : State) (ps : List Place) :
    (s.withUnwritten ps).astatC = s.astatC := rfl
@[simp] theorem State.withUnwritten_en (s : State) (ps : List Place) :
    (s.withUnwritten ps).en = s.en := rfl
@[simp] theorem State.withUnwritten_master (s : State) (ps : List Place) :
    (s.withUnwritten ps).master = s.master := rfl
@[simp] theorem State.withUnwritten_umcount (s : State) (ps : List Place) :
    (s.withUnwritten ps).umcount = s.umcount := rfl
@[simp] theorem State.withUnwritten_ovcnt (s : State) (ps : List Place) :
    (s.withUnwritten ps).ovcnt = s.ovcnt := rfl
@[simp] theorem State.withUnwritten_mem (s : State) (ps : List Place) :
    (s.withUnwritten ps).mem = s.mem := rfl
@[simp] theorem State.withUnwritten_cycle (s : State) (ps : List Place) :
    (s.withUnwritten ps).cycle = s.cycle := rfl
@[simp] theorem State.withUnwritten_faultRec (s : State) (ps : List Place) :
    (s.withUnwritten ps).faultRec = s.faultRec := rfl
@[simp] theorem State.withUnwritten_log (s : State) (ps : List Place) :
    (s.withUnwritten ps).log = s.log := rfl
@[simp] theorem State.withUnwritten_input (s : State) (ps : List Place) :
    (s.withUnwritten ps).input = s.input := rfl
@[simp] theorem State.withUnwritten_sstatIn (s : State) (ps : List Place) :
    (s.withUnwritten ps).sstatIn = s.sstatIn := rfl
@[simp] theorem State.withUnwritten_site (s : State) (ps : List Place) :
    (s.withUnwritten ps).site = s.site := rfl
@[simp] theorem State.withUnwritten_slot (s : State) (ps : List Place) :
    (s.withUnwritten ps).slot = s.slot := rfl
@[simp] theorem State.withUnwritten_staged (s : State) (ps : List Place) :
    (s.withUnwritten ps).staged = s.staged := rfl
@[simp] theorem State.withUnwritten_outs (s : State) (ps : List Place) :
    (s.withUnwritten ps).outs = s.outs := rfl
@[simp] theorem State.withUnwritten_out (s : State) (ps : List Place) :
    (s.withUnwritten ps).out = s.out := rfl
@[simp] theorem State.withUnwritten_draws (s : State) (ps : List Place) :
    (s.withUnwritten ps).draws = s.draws := rfl

/-! ### `drawn` -/

theorem State.drawn_cases (s : State) : s.drawn = s ∨ s.drawn = s.drawAll := by
  unfold State.drawn; split
  · exact Or.inr rfl
  · exact Or.inl rfl
  · exact Or.inl rfl

@[simp] theorem State.drawn_cfg (s : State) :
    (s.drawn).cfg = s.cfg := by
  rcases s.drawn_cases with h | h <;> simp only [h, State.drawAll]
@[simp] theorem State.drawn_mstat (s : State) :
    (s.drawn).mstat = s.mstat := by
  rcases s.drawn_cases with h | h <;> simp only [h, State.drawAll]
@[simp] theorem State.drawn_lpever (s : State) :
    (s.drawn).lpever = s.lpever := by
  rcases s.drawn_cases with h | h <;> simp only [h, State.drawAll]
@[simp] theorem State.drawn_icntl (s : State) :
    (s.drawn).icntl = s.icntl := by
  rcases s.drawn_cases with h | h <;> simp only [h, State.drawAll]
@[simp] theorem State.drawn_imask (s : State) :
    (s.drawn).imask = s.imask := by
  rcases s.drawn_cases with h | h <;> simp only [h, State.drawAll]
@[simp] theorem State.drawn_irptl (s : State) :
    (s.drawn).irptl = s.irptl := by
  rcases s.drawn_cases with h | h <;> simp only [h, State.drawAll]
@[simp] theorem State.drawn_astatR (s : State) :
    (s.drawn).astatR = s.astatR := by
  rcases s.drawn_cases with h | h <;> simp only [h, State.drawAll]
@[simp] theorem State.drawn_astatI (s : State) :
    (s.drawn).astatI = s.astatI := by
  rcases s.drawn_cases with h | h <;> simp only [h, State.drawAll]
@[simp] theorem State.drawn_astatC (s : State) :
    (s.drawn).astatC = s.astatC := by
  rcases s.drawn_cases with h | h <;> simp only [h, State.drawAll]
@[simp] theorem State.drawn_en (s : State) :
    (s.drawn).en = s.en := by
  rcases s.drawn_cases with h | h <;> simp only [h, State.drawAll]
@[simp] theorem State.drawn_master (s : State) :
    (s.drawn).master = s.master := by
  rcases s.drawn_cases with h | h <;> simp only [h, State.drawAll]
@[simp] theorem State.drawn_umcount (s : State) :
    (s.drawn).umcount = s.umcount := by
  rcases s.drawn_cases with h | h <;> simp only [h, State.drawAll]
@[simp] theorem State.drawn_ovcnt (s : State) :
    (s.drawn).ovcnt = s.ovcnt := by
  rcases s.drawn_cases with h | h <;> simp only [h, State.drawAll]
@[simp] theorem State.drawn_mem (s : State) :
    (s.drawn).mem = s.mem := by
  rcases s.drawn_cases with h | h <;> simp only [h, State.drawAll]
@[simp] theorem State.drawn_cycle (s : State) :
    (s.drawn).cycle = s.cycle := by
  rcases s.drawn_cases with h | h <;> simp only [h, State.drawAll]
@[simp] theorem State.drawn_faultRec (s : State) :
    (s.drawn).faultRec = s.faultRec := by
  rcases s.drawn_cases with h | h <;> simp only [h, State.drawAll]
@[simp] theorem State.drawn_log (s : State) :
    (s.drawn).log = s.log := by
  rcases s.drawn_cases with h | h <;> simp only [h, State.drawAll]
@[simp] theorem State.drawn_input (s : State) :
    (s.drawn).input = s.input := by
  rcases s.drawn_cases with h | h <;> simp only [h, State.drawAll]
@[simp] theorem State.drawn_sstatIn (s : State) :
    (s.drawn).sstatIn = s.sstatIn := by
  rcases s.drawn_cases with h | h <;> simp only [h, State.drawAll]
@[simp] theorem State.drawn_site (s : State) :
    (s.drawn).site = s.site := by
  rcases s.drawn_cases with h | h <;> simp only [h, State.drawAll]
@[simp] theorem State.drawn_slot (s : State) :
    (s.drawn).slot = s.slot := by
  rcases s.drawn_cases with h | h <;> simp only [h, State.drawAll]
@[simp] theorem State.drawn_staged (s : State) :
    (s.drawn).staged = s.staged := by
  rcases s.drawn_cases with h | h <;> simp only [h, State.drawAll]
@[simp] theorem State.drawn_outs (s : State) :
    (s.drawn).outs = s.outs := by
  rcases s.drawn_cases with h | h <;> simp only [h, State.drawAll]
@[simp] theorem State.drawn_out (s : State) :
    (s.drawn).out = s.out := by
  rcases s.drawn_cases with h | h <;> simp only [h, State.drawAll]
@[simp] theorem State.drawn_draws (s : State) :
    (s.drawn).draws = s.draws := by
  rcases s.drawn_cases with h | h <;> simp only [h, State.drawAll]
@[simp] theorem State.drawn_unwritten (s : State) :
    (s.drawn).unwritten = s.unwritten := by
  rcases s.drawn_cases with h | h <;> simp only [h, State.drawAll]

/-! ### `withInput` -/

@[simp] theorem State.withInput_cfg (s : State) (q : List HostCmd) :
    (s.withInput q).cfg = s.cfg := rfl
@[simp] theorem State.withInput_r (s : State) (q : List HostCmd) :
    (s.withInput q).r = s.r := rfl
@[simp] theorem State.withInput_acc (s : State) (q : List HostCmd) :
    (s.withInput q).acc = s.acc := rfl
@[simp] theorem State.withInput_i (s : State) (q : List HostCmd) :
    (s.withInput q).i = s.i := rfl
@[simp] theorem State.withInput_m (s : State) (q : List HostCmd) :
    (s.withInput q).m = s.m := rfl
@[simp] theorem State.withInput_l (s : State) (q : List HostCmd) :
    (s.withInput q).l = s.l := rfl
@[simp] theorem State.withInput_b (s : State) (q : List HostCmd) :
    (s.withInput q).b = s.b := rfl
@[simp] theorem State.withInput_cntr (s : State) (q : List HostCmd) :
    (s.withInput q).cntr = s.cntr := rfl
@[simp] theorem State.withInput_mstat (s : State) (q : List HostCmd) :
    (s.withInput q).mstat = s.mstat := rfl
@[simp] theorem State.withInput_lpever (s : State) (q : List HostCmd) :
    (s.withInput q).lpever = s.lpever := rfl
@[simp] theorem State.withInput_pcstack (s : State) (q : List HostCmd) :
    (s.withInput q).pcstack = s.pcstack := rfl
@[simp] theorem State.withInput_lpstack (s : State) (q : List HostCmd) :
    (s.withInput q).lpstack = s.lpstack := rfl
@[simp] theorem State.withInput_icntl (s : State) (q : List HostCmd) :
    (s.withInput q).icntl = s.icntl := rfl
@[simp] theorem State.withInput_imask (s : State) (q : List HostCmd) :
    (s.withInput q).imask = s.imask := rfl
@[simp] theorem State.withInput_irptl (s : State) (q : List HostCmd) :
    (s.withInput q).irptl = s.irptl := rfl
@[simp] theorem State.withInput_ivec (s : State) (q : List HostCmd) :
    (s.withInput q).ivec = s.ivec := rfl
@[simp] theorem State.withInput_astatR (s : State) (q : List HostCmd) :
    (s.withInput q).astatR = s.astatR := rfl
@[simp] theorem State.withInput_astatI (s : State) (q : List HostCmd) :
    (s.withInput q).astatI = s.astatI := rfl
@[simp] theorem State.withInput_astatC (s : State) (q : List HostCmd) :
    (s.withInput q).astatC = s.astatC := rfl
@[simp] theorem State.withInput_en (s : State) (q : List HostCmd) :
    (s.withInput q).en = s.en := rfl
@[simp] theorem State.withInput_master (s : State) (q : List HostCmd) :
    (s.withInput q).master = s.master := rfl
@[simp] theorem State.withInput_umcount (s : State) (q : List HostCmd) :
    (s.withInput q).umcount = s.umcount := rfl
@[simp] theorem State.withInput_ovcnt (s : State) (q : List HostCmd) :
    (s.withInput q).ovcnt = s.ovcnt := rfl
@[simp] theorem State.withInput_mem (s : State) (q : List HostCmd) :
    (s.withInput q).mem = s.mem := rfl
@[simp] theorem State.withInput_cycle (s : State) (q : List HostCmd) :
    (s.withInput q).cycle = s.cycle := rfl
@[simp] theorem State.withInput_faultRec (s : State) (q : List HostCmd) :
    (s.withInput q).faultRec = s.faultRec := rfl
@[simp] theorem State.withInput_log (s : State) (q : List HostCmd) :
    (s.withInput q).log = s.log := rfl
@[simp] theorem State.withInput_sstatIn (s : State) (q : List HostCmd) :
    (s.withInput q).sstatIn = s.sstatIn := rfl
@[simp] theorem State.withInput_site (s : State) (q : List HostCmd) :
    (s.withInput q).site = s.site := rfl
@[simp] theorem State.withInput_slot (s : State) (q : List HostCmd) :
    (s.withInput q).slot = s.slot := rfl
@[simp] theorem State.withInput_staged (s : State) (q : List HostCmd) :
    (s.withInput q).staged = s.staged := rfl
@[simp] theorem State.withInput_outs (s : State) (q : List HostCmd) :
    (s.withInput q).outs = s.outs := rfl
@[simp] theorem State.withInput_out (s : State) (q : List HostCmd) :
    (s.withInput q).out = s.out := rfl
@[simp] theorem State.withInput_draws (s : State) (q : List HostCmd) :
    (s.withInput q).draws = s.draws := rfl
@[simp] theorem State.withInput_unwritten (s : State) (q : List HostCmd) :
    (s.withInput q).unwritten = s.unwritten := rfl

/-! ### What the updates write -/

@[simp] theorem State.warn_log (s : State) (ws : List Warn) :
    (s.warn ws).log = s.log ++ ws.map s.event := rfl
@[simp] theorem State.stage_slot (s : State) (o : SlotOut) (ws : List Write) :
    (s.stage o ws).slot = s.slot + 1 := rfl
@[simp] theorem State.stage_staged (s : State) (o : SlotOut) (ws : List Write) :
    (s.stage o ws).staged = s.staged ++ [ws] := rfl
@[simp] theorem State.stage_outs (s : State) (o : SlotOut) (ws : List Write) :
    (s.stage o ws).outs = s.outs ++ [o] := rfl
@[simp] theorem State.stage_draws (s : State) (o : SlotOut) (ws : List Write) :
    (s.stage o ws).draws = s.draws + 1 := rfl
@[simp] theorem State.raiseAt_faultRec (s : State) (k : Nat) (e : CoreErr) :
    (s.raiseAt k e).faultRec
      = s.faultRec.or (some { err := e, slot := k, site := s.site, cycle := s.cycle }) := rfl
@[simp] theorem State.raiseAt_slot (s : State) (k : Nat) (e : CoreErr) :
    (s.raiseAt k e).slot = 0 := rfl
@[simp] theorem State.raiseAt_staged (s : State) (k : Nat) (e : CoreErr) :
    (s.raiseAt k e).staged = [] := rfl
@[simp] theorem State.raiseAt_outs (s : State) (k : Nat) (e : CoreErr) :
    (s.raiseAt k e).outs = [] := rfl
@[simp] theorem State.raiseAt_draws (s : State) (k : Nat) (e : CoreErr) :
    (s.raiseAt k e).draws = s.draws + 1 := rfl
@[simp] theorem State.openBundle_sstatIn (s : State) (x : BitVec 8) (n : Nat) :
    (s.openBundle x n).sstatIn = x := rfl
@[simp] theorem State.openBundle_site (s : State) (x : BitVec 8) (n : Nat) :
    (s.openBundle x n).site = n := rfl
@[simp] theorem State.openBundle_slot (s : State) (x : BitVec 8) (n : Nat) :
    (s.openBundle x n).slot = 0 := rfl
@[simp] theorem State.openBundle_staged (s : State) (x : BitVec 8) (n : Nat) :
    (s.openBundle x n).staged = [] := rfl
@[simp] theorem State.openBundle_outs (s : State) (x : BitVec 8) (n : Nat) :
    (s.openBundle x n).outs = [] := rfl
@[simp] theorem State.withUnwritten_unwritten (s : State) (ps : List Place) :
    (s.withUnwritten ps).unwritten = ps := rfl
@[simp] theorem State.withInput_input (s : State) (q : List HostCmd) :
    (s.withInput q).input = q := rfl

end Sys2Proof.Machine
end

