-- ==== Sys2Proof/Laws/Memory.lean ====
section
/-! SUPPORT. The data memory: what a lane reads as after each operation, and that each operation keeps the
canonical form. -/

namespace Sys2Proof.Machine

/-! ## Reading after writing -/

theorem Memory.find_put (a c : Nat) (w : MemWord) (m : Memory) :
    Memory.find c (Memory.put a w m) = if c = a then some w else Memory.find c m := by
  induction m with
  | nil => by_cases h : c = a <;> simp [Memory.put, Memory.find, h]
  | cons e m ih =>
    obtain ⟨x, y⟩ := e
    unfold Memory.put
    by_cases h1 : a < x
    · rw [if_pos h1]
      by_cases h : c = a <;> simp [Memory.find, h]
    · rw [if_neg h1]
      by_cases h2 : a = x
      · subst h2
        rw [if_pos rfl]
        by_cases h : c = a <;> simp [Memory.find, h]
      · rw [if_neg h2]
        unfold Memory.find
        by_cases h3 : c = x
        · subst h3
          simp [show ¬ c = a from fun h => h2 h.symm]
        · simp [h3, ih]

theorem Memory.word_put (a c : Nat) (w : MemWord) (m : Memory) :
    Memory.word c (Memory.put a w m) = if c = a then w else Memory.word c m := by
  unfold Memory.word
  rw [Memory.find_put]
  split <;> rfl

/-- Creating an entry changes no word (R74). -/
theorem Memory.word_touch (a c : Nat) (m : Memory) :
    Memory.word c (Memory.touch a m) = Memory.word c m := by
  unfold Memory.touch
  split
  · rfl
  · rename_i h
    rw [Memory.word_put]
    split
    · rename_i hc; subst hc; simp [Memory.word, h]
    · rfl

/-- A store writes one lane of one word. -/
theorem Memory.word_store (a c : Nat) (i j : Lane) (v : Data) (m : Memory) :
    (Memory.word c (Memory.store a i v m)).get j
      = if c = a ∧ i = j then some v else (Memory.word c m).get j := by
  unfold Memory.store
  rw [Memory.word_put]
  by_cases h : c = a
  · subst h; simp [PerLane.get_set]
  · simp [h]

theorem Memory.word_nil (a : Nat) (j : Lane) : (Memory.word a []).get j = none := by
  simp [Memory.word, Memory.find, undefWord]

/-! ## The canonical form -/

theorem Memory.all_put (p : Nat × MemWord → Bool) (a : Nat) (w : MemWord) (m : Memory)
    (hw : p (a, w) = true) (hm : m.all p = true) : (Memory.put a w m).all p = true := by
  induction m with
  | nil => simp [Memory.put, hw]
  | cons e m ih =>
    obtain ⟨x, y⟩ := e
    simp only [List.all_cons, Bool.and_eq_true] at hm
    unfold Memory.put
    split
    · simp [hw, hm]
    · split
      · simp [hw, hm]
      · simp [hm, ih hm.2]

theorem Memory.wf_put (a : Nat) (w : MemWord) (m : Memory) (ha : a < 65536) (hm : m.wf = true) :
    (Memory.put a w m).wf = true := by
  induction m with
  | nil => simp [Memory.put, Memory.wf, ha]
  | cons e m ih =>
    obtain ⟨x, y⟩ := e
    simp only [Memory.wf, Bool.and_eq_true, decide_eq_true_eq] at hm
    obtain ⟨⟨hx, hall⟩, hwf⟩ := hm
    unfold Memory.put
    split
    · rename_i h
      simp only [Memory.wf, List.all_cons, Bool.and_eq_true, decide_eq_true_eq]
      refine ⟨⟨ha, h, ?_⟩, ⟨hx, hall⟩, hwf⟩
      simp only [List.all_eq_true, decide_eq_true_eq] at hall ⊢
      exact fun e he => h.trans (hall e he)
    · split
      · rename_i h; subst h
        simp [Memory.wf, hx, hall, hwf]
      · rename_i h1 h2
        simp only [Memory.wf, Bool.and_eq_true, decide_eq_true_eq]
        exact ⟨⟨hx, Memory.all_put _ a w m (decide_eq_true (by omega)) hall⟩, ih hwf⟩

theorem Memory.wf_touch (a : Nat) (m : Memory) (ha : a < 65536) (hm : m.wf = true) :
    (Memory.touch a m).wf = true := by
  unfold Memory.touch
  split
  · exact hm
  · exact Memory.wf_put a undefWord m ha hm

theorem Memory.wf_store (a : Nat) (j : Lane) (v : Data) (m : Memory) (ha : a < 65536)
    (hm : m.wf = true) : (Memory.store a j v m).wf = true :=
  Memory.wf_put a _ m ha hm

/-! ## The inactive lanes -/

/-- A word is UNDEF in every lane that is not active. -/
def inertWord (p : Params) (w : MemWord) : Bool :=
  allLanes.all fun j => p.active j || (w.get j).isNone

theorem Memory.inert_eq (p : Params) (m : Memory) : m.inert p = m.all fun e => inertWord p e.2 := rfl

theorem inertWord_undef (p : Params) : inertWord p undefWord = true := by
  simp [inertWord, undefWord]

theorem inertWord_set (p : Params) (w : MemWord) (j : Lane) (v : Data) (hj : p.active j = true)
    (hw : inertWord p w = true) : inertWord p (w.set j (some v)) = true := by
  simp only [inertWord, List.all_eq_true, Bool.or_eq_true] at hw ⊢
  intro i hi
  rw [PerLane.get_set]
  by_cases h : j = i
  · subst h; exact Or.inl hj
  · simpa [h] using hw i hi

theorem Memory.inert_word (p : Params) (a : Nat) (m : Memory) (hm : m.inert p = true) :
    inertWord p (m.word a) = true := by
  induction m with
  | nil => exact inertWord_undef p
  | cons e m ih =>
    obtain ⟨x, y⟩ := e
    simp only [Memory.inert_eq, List.all_cons, Bool.and_eq_true] at hm ih
    unfold Memory.word Memory.find
    by_cases h : a = x
    · simpa [h] using hm.1
    · rw [if_neg h]; exact ih hm.2

theorem Memory.inert_touch (p : Params) (a : Nat) (m : Memory) (hm : m.inert p = true) :
    (Memory.touch a m).inert p = true := by
  unfold Memory.touch
  split
  · exact hm
  · exact Memory.all_put _ a undefWord m (inertWord_undef p) hm

theorem Memory.inert_store (p : Params) (a : Nat) (j : Lane) (v : Data) (m : Memory)
    (hj : p.active j = true) (hm : m.inert p = true) : (Memory.store a j v m).inert p = true :=
  Memory.all_put _ a _ m (inertWord_set p _ j v hj (Memory.inert_word p a m hm)) hm

/-! ## The memory after reset -/

theorem reset_mem_wf : State.reset.mem.wf = true := rfl

theorem reset_mem_inert : State.reset.mem.inert State.reset.cfg = true := rfl

end Sys2Proof.Machine
end

