-- ==== Sys2Proof/Laws/Ops.lean ====
section
/-! SUPPORT. What committing effects does to each location: the effect of one `Write` on one location, and
that committing a list of them folds it. -/

namespace Sys2Proof.Machine

/-! ## Vectors -/

theorem vector_get_set {α : Type} {n : Nat} (v : Vector α n) (i k : Fin n) (x : α) :
    (v.set i.val x i.isLt).get k = if i = k then x else v.get k := by
  simp only [Vector.get_eq_getElem, Vector.getElem_set, Fin.ext_iff]

theorem vector_get_replicate {α : Type} {n : Nat} (k : Fin n) (x : α) :
    (Vector.replicate n x).get k = x := by
  simp [Vector.get_eq_getElem]

/-! ## One effect on one location -/

def Write.onReg (k : Fin 32) (j : Lane) (x : Data) : Write → Data
  | .reg k' j' v => if k' = k ∧ j' = j then v else x
  | _ => x

def Write.onAcc (n : Fin 8) (j : Lane) (x : Acc) : Write → Acc
  | .acc n' j' p v => if n' = n ∧ j' = j then x.write p v else x
  | _ => x

def Write.onFlags (c : Copy) (j : Lane) (x : Flags) : Write → Flags
  | .flags c' j' u => if c' = c ∧ j' = j then u.apply x else x
  | _ => x

def Write.onUm (j : Lane) (x : Data) : Write → Data
  | .umClear j' => if j' = j then 0#12 else x
  | .umInc j' => if j' = j then x + 1#12 else x
  | _ => x

def Write.onOv (j : Lane) (x : AccWord) : Write → AccWord
  | .ovInc j' => if j' = j then x + 1#32 else x
  | _ => x

def Write.onI (cyc : Nat) (k : Fin 8) (x : Hazard 16) : Write → Hazard 16
  | .haz (.i k') v => if k' = k then x.push v cyc else x
  | .agu k' v => if k' = k then Hazard.agu v cyc else x
  | _ => x

def Write.onM (cyc : Nat) (k : Fin 8) (x : Hazard 16) : Write → Hazard 16
  | .haz (.m k') v => if k' = k then x.push v cyc else x
  | _ => x

def Write.onL (cyc : Nat) (k : Fin 8) (x : Hazard 16) : Write → Hazard 16
  | .haz (.l k') v => if k' = k then x.push v cyc else x
  | _ => x

def Write.onB (cyc : Nat) (k : Fin 8) (x : Hazard 16) : Write → Hazard 16
  | .haz (.b k') v => if k' = k then x.push v cyc else x
  | _ => x

def Write.onCntr (cyc : Nat) (x : Hazard 16) : Write → Hazard 16
  | .haz .cntr v => x.push v cyc
  | _ => x

def Write.onMstat (cyc : Nat) (x : Hazard 8) : Write → Hazard 8
  | .haz .mstat v => x.push (v.setWidth 8) cyc
  | _ => x

def Write.onCtl (c : CtlReg) (x : Half) : Write → Half
  | .ctl c' v => if c' = c then v else x
  | _ => x

def Write.onEn (p : Params) (x : BitVec 4) : Write → BitVec 4
  | .dstat0 v => x ||| p.eligible v
  | _ => x

def Write.onMaster (p : Params) (x : BitVec 4) : Write → BitVec 4
  | .dstat1 v => if p.eligible v = 0#4 then x else lowestBit (p.eligible v)
  | _ => x

def Write.onMem (a : Nat) (j : Lane) (x : Option Data) : Write → Option Data
  | .mem a' j' v => if a' = a ∧ j' = j then some v else x
  | _ => x

/-- The whole memory, with its entries. -/
def Write.onMemory (m : Memory) : Write → Memory
  | .memTouch a => m.touch a
  | .mem a j v => m.store a j v
  | _ => m

/-! ## Reading a location after one effect -/

@[simp] theorem State.withUnwritten_reg (s : State) (ps : List Place) (k : Fin 32) (j : Lane) :
    (s.withUnwritten ps).reg k j = s.reg k j := rfl

@[simp] theorem State.withUnwritten_accLane (s : State) (ps : List Place) (n : Fin 8) (j : Lane) :
    (s.withUnwritten ps).accLane n j = s.accLane n j := rfl

@[simp] theorem State.withUnwritten_flags (s : State) (ps : List Place) (c : Copy) (j : Lane) :
    (s.withUnwritten ps).flags c j = s.flags c j := by cases c <;> rfl

@[simp] theorem State.withUnwritten_ctl (s : State) (ps : List Place) (c : CtlReg) :
    (s.withUnwritten ps).ctl c = s.ctl c := by cases c <;> rfl

@[simp] theorem State.withUnwritten_memLane (s : State) (ps : List Place) (a : Nat) (j : Lane) :
    (s.withUnwritten ps).memLane a j = s.memLane a j := rfl

theorem State.setReg_reg (s : State) (k k' : Fin 32) (j j' : Lane) (v : Data) :
    (s.setReg k j v).reg k' j' = if k = k' ∧ j = j' then v else s.reg k' j' := by
  simp only [State.reg, State.setReg, vector_get_set]
  by_cases h : k = k'
  · subst h; simp [PerLane.get_set]
  · simp [h]

theorem State.setAcc_accLane (s : State) (n n' : Fin 8) (j j' : Lane) (a : Acc) :
    (s.setAcc n j a).accLane n' j' = if n = n' ∧ j = j' then a else s.accLane n' j' := by
  simp only [State.accLane, State.setAcc, vector_get_set]
  by_cases h : n = n'
  · subst h; simp [PerLane.get_set]
  · simp [h]

theorem State.setFlags_flags (s : State) (c c' : Copy) (j j' : Lane) (f : Flags) :
    (s.setFlags c j f).flags c' j' = if c = c' ∧ j = j' then f else s.flags c' j' := by
  cases c <;> cases c' <;> simp [State.flags, State.setFlags, PerLane.get_set]

theorem State.applyWrite_reg (s : State) (w : Write) (k : Fin 32) (j : Lane) :
    (s.applyWrite w).reg k j = w.onReg k j (s.reg k j) := by
  cases w with
  | reg k' j' v => exact s.setReg_reg k' k j' j v
  | _ => simp [State.applyWrite, State.putWrite, State.reg, Write.onReg]

theorem State.applyWrite_accLane (s : State) (w : Write) (n : Fin 8) (j : Lane) :
    (s.applyWrite w).accLane n j = w.onAcc n j (s.accLane n j) := by
  cases w with
  | acc n' j' p v =>
    simp only [State.applyWrite, State.putWrite, State.withUnwritten_accLane, State.setAcc_accLane, Write.onAcc]
    split
    · rename_i h; rw [h.1, h.2]
    · rfl
  | _ => simp [State.applyWrite, State.putWrite, State.accLane, Write.onAcc]

theorem State.applyWrite_flags (s : State) (w : Write) (c : Copy) (j : Lane) :
    (s.applyWrite w).flags c j = w.onFlags c j (s.flags c j) := by
  cases w with
  | flags c' j' u =>
    simp only [State.applyWrite, State.putWrite, State.withUnwritten_flags, State.setFlags_flags, Write.onFlags]
    split
    · rename_i h; rw [h.1, h.2]
    · rfl
  | _ => cases c <;> simp [State.applyWrite, State.putWrite, State.flags, Write.onFlags]

theorem State.applyWrite_umcount (s : State) (w : Write) (j : Lane) :
    (s.applyWrite w).umcount.get j = w.onUm j (s.umcount.get j) := by
  cases w with
  | umClear j' => simp [State.applyWrite, State.putWrite, State.setUmcount, PerLane.get_set, Write.onUm]
  | umInc j' =>
    simp only [State.applyWrite, State.putWrite, State.withUnwritten_umcount, State.setUmcount, PerLane.get_set, Write.onUm]
    split
    · rename_i h; rw [h]
    · rfl
  | _ => simp [State.applyWrite, State.putWrite, Write.onUm]

theorem State.applyWrite_ovcnt (s : State) (w : Write) (j : Lane) :
    (s.applyWrite w).ovcnt.get j = w.onOv j (s.ovcnt.get j) := by
  cases w with
  | ovInc j' =>
    simp only [State.applyWrite, State.putWrite, State.withUnwritten_ovcnt, State.setOvcnt, PerLane.get_set, Write.onOv]
    split
    · rename_i h; rw [h]
    · rfl
  | _ => simp [State.applyWrite, State.putWrite, Write.onOv]

theorem State.applyWrite_i (s : State) (w : Write) (k : Fin 8) :
    (s.applyWrite w).i.get k = w.onI s.cycle k (s.i.get k) := by
  cases w with
  | haz h v =>
    cases h <;> simp only [State.applyWrite, State.putWrite, State.withUnwritten_i, State.pushHaz,
      Write.onI, vector_get_set]
    split
    · rename_i h; rw [h]
    · rfl
  | agu k' v => simp [State.applyWrite, State.putWrite, State.aguUpdate, vector_get_set, Write.onI]
  | _ => simp [State.applyWrite, State.putWrite, Write.onI]

theorem State.applyWrite_m (s : State) (w : Write) (k : Fin 8) :
    (s.applyWrite w).m.get k = w.onM s.cycle k (s.m.get k) := by
  cases w with
  | haz h v =>
    cases h <;> simp only [State.applyWrite, State.putWrite, State.withUnwritten_m, State.pushHaz,
      Write.onM, vector_get_set]
    split
    · rename_i h; rw [h]
    · rfl
  | _ => simp [State.applyWrite, State.putWrite, Write.onM]

theorem State.applyWrite_l (s : State) (w : Write) (k : Fin 8) :
    (s.applyWrite w).l.get k = w.onL s.cycle k (s.l.get k) := by
  cases w with
  | haz h v =>
    cases h <;> simp only [State.applyWrite, State.putWrite, State.withUnwritten_l, State.pushHaz,
      Write.onL, vector_get_set]
    split
    · rename_i h; rw [h]
    · rfl
  | _ => simp [State.applyWrite, State.putWrite, Write.onL]

theorem State.applyWrite_b (s : State) (w : Write) (k : Fin 8) :
    (s.applyWrite w).b.get k = w.onB s.cycle k (s.b.get k) := by
  cases w with
  | haz h v =>
    cases h <;> simp only [State.applyWrite, State.putWrite, State.withUnwritten_b, State.pushHaz,
      Write.onB, vector_get_set]
    split
    · rename_i h; rw [h]
    · rfl
  | _ => simp [State.applyWrite, State.putWrite, Write.onB]

theorem State.applyWrite_cntr (s : State) (w : Write) :
    (s.applyWrite w).cntr = w.onCntr s.cycle s.cntr := by
  cases w with
  | haz h v => cases h <;> rfl
  | _ => simp [State.applyWrite, State.putWrite, Write.onCntr]

theorem State.applyWrite_mstat (s : State) (w : Write) :
    (s.applyWrite w).mstat = w.onMstat s.cycle s.mstat := by
  cases w with
  | haz h v => cases h <;> rfl
  | _ => simp [State.applyWrite, State.putWrite, Write.onMstat]

theorem State.setCtl_ctl (s : State) (c c' : CtlReg) (v : Half) :
    (s.setCtl c v).ctl c' = if c = c' then v else s.ctl c' := by
  cases c <;> cases c' <;> simp [State.setCtl, State.ctl, vector_get_set]

theorem State.applyWrite_ctl (s : State) (w : Write) (c : CtlReg) :
    (s.applyWrite w).ctl c = w.onCtl c (s.ctl c) := by
  cases w with
  | ctl c' v => exact s.setCtl_ctl c' c v
  | _ => cases c <;> simp [State.applyWrite, State.putWrite, State.ctl, Write.onCtl]

theorem State.applyWrite_en (s : State) (w : Write) :
    (s.applyWrite w).en = w.onEn s.cfg s.en := by
  cases w <;> simp [State.applyWrite, State.putWrite, Write.onEn, State.orEnable]

theorem State.applyWrite_master (s : State) (w : Write) :
    (s.applyWrite w).master = w.onMaster s.cfg s.master := by
  cases w <;> simp [State.applyWrite, State.putWrite, Write.onMaster, State.selectMaster]

theorem State.applyWrite_memLane (s : State) (w : Write) (a : Nat) (j : Lane) :
    (s.applyWrite w).memLane a j = w.onMem a j (s.memLane a j) := by
  cases w with
  | memTouch a' => simp [State.applyWrite, State.putWrite, State.memLane, Memory.word_touch, Write.onMem]
  | mem a' j' v =>
    simp only [State.applyWrite, State.putWrite, State.withUnwritten_mem, State.memLane, Memory.word_store, Write.onMem]
    by_cases h : a = a'
    · subst h; simp
    · simp [h, show ¬ a' = a from fun x => h x.symm]
  | _ => simp [State.applyWrite, State.putWrite, State.memLane, Write.onMem]

theorem State.applyWrite_mem (s : State) (w : Write) : (s.applyWrite w).mem = w.onMemory s.mem := by
  cases w <;> simp [State.applyWrite, State.putWrite, Write.onMemory]

/-! ## What committing effects leaves alone -/

/-- The fields that no effect writes. -/
structure SameBook (s t : State) : Prop where
  cfg : t.cfg = s.cfg
  cycle : t.cycle = s.cycle
  faultRec : t.faultRec = s.faultRec
  log : t.log = s.log
  input : t.input = s.input
  sstatIn : t.sstatIn = s.sstatIn
  site : t.site = s.site
  slot : t.slot = s.slot
  staged : t.staged = s.staged
  outs : t.outs = s.outs
  out : t.out = s.out
  draws : t.draws = s.draws

theorem State.applyWrite_book (s : State) (w : Write) : SameBook s (s.applyWrite w) := by
  cases w <;> constructor <;> simp [State.applyWrite, State.putWrite]

theorem State.applyAll_book (s : State) (ws : List Write) : SameBook s (s.applyAll ws) := by
  induction ws generalizing s with
  | nil => constructor <;> rfl
  | cons w ws ih =>
    have h1 := s.applyWrite_book w
    have h2 := ih (s.applyWrite w)
    exact ⟨h2.cfg.trans h1.cfg, h2.cycle.trans h1.cycle, h2.faultRec.trans h1.faultRec,
      h2.log.trans h1.log, h2.input.trans h1.input, h2.sstatIn.trans h1.sstatIn,
      h2.site.trans h1.site, h2.slot.trans h1.slot, h2.staged.trans h1.staged,
      h2.outs.trans h1.outs, h2.out.trans h1.out, h2.draws.trans h1.draws⟩

@[simp] theorem State.applyAll_nil (s : State) : s.applyAll [] = s := rfl

@[simp] theorem State.applyAll_cons (s : State) (w : Write) (ws : List Write) :
    s.applyAll (w :: ws) = (s.applyWrite w).applyAll ws := rfl

theorem State.applyAll_append (s : State) (xs ys : List Write) :
    s.applyAll (xs ++ ys) = (s.applyAll xs).applyAll ys := List.foldl_append

/-! ## Reading a location after a list of effects -/

/-- A reader that one effect changes by `f`, which may use fields that no effect changes, is changed by a
list of effects by the fold of `f`. -/
theorem State.applyAll_fold {β : Type} (get : State → β) (f : State → β → Write → β)
    (hf : ∀ s w, get (s.applyWrite w) = f s (get s) w)
    (hb : ∀ s w, f (s.applyWrite w) = f s) (s : State) (ws : List Write) :
    get (s.applyAll ws) = ws.foldl (f s) (get s) := by
  induction ws generalizing s with
  | nil => rfl
  | cons w ws ih => rw [State.applyAll_cons, ih, hf, hb, List.foldl_cons]

theorem State.applyAll_reg (s : State) (ws : List Write) (k : Fin 32) (j : Lane) :
    (s.applyAll ws).reg k j = ws.foldl (Write.onReg k j) (s.reg k j) :=
  State.applyAll_fold (fun s => s.reg k j) (fun _ => Write.onReg k j)
    (fun s w => s.applyWrite_reg w k j) (fun _ _ => rfl) s ws

theorem State.applyAll_accLane (s : State) (ws : List Write) (n : Fin 8) (j : Lane) :
    (s.applyAll ws).accLane n j = ws.foldl (Write.onAcc n j) (s.accLane n j) :=
  State.applyAll_fold (fun s => s.accLane n j) (fun _ => Write.onAcc n j)
    (fun s w => s.applyWrite_accLane w n j) (fun _ _ => rfl) s ws

theorem State.applyAll_flags (s : State) (ws : List Write) (c : Copy) (j : Lane) :
    (s.applyAll ws).flags c j = ws.foldl (Write.onFlags c j) (s.flags c j) :=
  State.applyAll_fold (fun s => s.flags c j) (fun _ => Write.onFlags c j)
    (fun s w => s.applyWrite_flags w c j) (fun _ _ => rfl) s ws

theorem State.applyAll_umcount (s : State) (ws : List Write) (j : Lane) :
    (s.applyAll ws).umcount.get j = ws.foldl (Write.onUm j) (s.umcount.get j) :=
  State.applyAll_fold (fun s => s.umcount.get j) (fun _ => Write.onUm j)
    (fun s w => s.applyWrite_umcount w j) (fun _ _ => rfl) s ws

theorem State.applyAll_ovcnt (s : State) (ws : List Write) (j : Lane) :
    (s.applyAll ws).ovcnt.get j = ws.foldl (Write.onOv j) (s.ovcnt.get j) :=
  State.applyAll_fold (fun s => s.ovcnt.get j) (fun _ => Write.onOv j)
    (fun s w => s.applyWrite_ovcnt w j) (fun _ _ => rfl) s ws

theorem State.applyAll_i (s : State) (ws : List Write) (k : Fin 8) :
    (s.applyAll ws).i.get k = ws.foldl (Write.onI s.cycle k) (s.i.get k) :=
  State.applyAll_fold (fun s => s.i.get k) (fun s => Write.onI s.cycle k)
    (fun s w => s.applyWrite_i w k) (fun s w => by rw [(s.applyWrite_book w).cycle]) s ws

theorem State.applyAll_m (s : State) (ws : List Write) (k : Fin 8) :
    (s.applyAll ws).m.get k = ws.foldl (Write.onM s.cycle k) (s.m.get k) :=
  State.applyAll_fold (fun s => s.m.get k) (fun s => Write.onM s.cycle k)
    (fun s w => s.applyWrite_m w k) (fun s w => by rw [(s.applyWrite_book w).cycle]) s ws

theorem State.applyAll_l (s : State) (ws : List Write) (k : Fin 8) :
    (s.applyAll ws).l.get k = ws.foldl (Write.onL s.cycle k) (s.l.get k) :=
  State.applyAll_fold (fun s => s.l.get k) (fun s => Write.onL s.cycle k)
    (fun s w => s.applyWrite_l w k) (fun s w => by rw [(s.applyWrite_book w).cycle]) s ws

theorem State.applyAll_b (s : State) (ws : List Write) (k : Fin 8) :
    (s.applyAll ws).b.get k = ws.foldl (Write.onB s.cycle k) (s.b.get k) :=
  State.applyAll_fold (fun s => s.b.get k) (fun s => Write.onB s.cycle k)
    (fun s w => s.applyWrite_b w k) (fun s w => by rw [(s.applyWrite_book w).cycle]) s ws

theorem State.applyAll_cntr (s : State) (ws : List Write) :
    (s.applyAll ws).cntr = ws.foldl (Write.onCntr s.cycle) s.cntr :=
  State.applyAll_fold State.cntr (fun s => Write.onCntr s.cycle)
    (fun s w => s.applyWrite_cntr w) (fun s w => by rw [(s.applyWrite_book w).cycle]) s ws

theorem State.applyAll_mstat (s : State) (ws : List Write) :
    (s.applyAll ws).mstat = ws.foldl (Write.onMstat s.cycle) s.mstat :=
  State.applyAll_fold State.mstat (fun s => Write.onMstat s.cycle)
    (fun s w => s.applyWrite_mstat w) (fun s w => by rw [(s.applyWrite_book w).cycle]) s ws

theorem State.applyAll_ctl (s : State) (ws : List Write) (c : CtlReg) :
    (s.applyAll ws).ctl c = ws.foldl (Write.onCtl c) (s.ctl c) :=
  State.applyAll_fold (fun s => s.ctl c) (fun _ => Write.onCtl c)
    (fun s w => s.applyWrite_ctl w c) (fun _ _ => rfl) s ws

theorem State.applyAll_en (s : State) (ws : List Write) :
    (s.applyAll ws).en = ws.foldl (Write.onEn s.cfg) s.en :=
  State.applyAll_fold State.en (fun s => Write.onEn s.cfg)
    (fun s w => s.applyWrite_en w) (fun s w => by rw [(s.applyWrite_book w).cfg]) s ws

theorem State.applyAll_master (s : State) (ws : List Write) :
    (s.applyAll ws).master = ws.foldl (Write.onMaster s.cfg) s.master :=
  State.applyAll_fold State.master (fun s => Write.onMaster s.cfg)
    (fun s w => s.applyWrite_master w) (fun s w => by rw [(s.applyWrite_book w).cfg]) s ws

theorem State.applyAll_memLane (s : State) (ws : List Write) (a : Nat) (j : Lane) :
    (s.applyAll ws).memLane a j = ws.foldl (Write.onMem a j) (s.memLane a j) :=
  State.applyAll_fold (fun s => s.memLane a j) (fun _ => Write.onMem a j)
    (fun s w => s.applyWrite_memLane w a j) (fun _ _ => rfl) s ws

theorem State.applyAll_mem (s : State) (ws : List Write) :
    (s.applyAll ws).mem = ws.foldl Write.onMemory s.mem :=
  State.applyAll_fold State.mem (fun _ => Write.onMemory)
    (fun s w => s.applyWrite_mem w) (fun _ _ => rfl) s ws

theorem State.applyAll_unwritten (s : State) (ws : List Write) :
    (s.applyAll ws).unwritten = ws.foldl (fun ps w => ps.filterMap w.ages) s.unwritten :=
  State.applyAll_fold State.unwritten (fun _ ps w => ps.filterMap w.ages)
    (fun _ _ => rfl) (fun _ _ => rfl) s ws

/-! ## Frames -/

/-- The location an effect writes; creating an entry writes none (R74). -/
def Write.loc : Write → Option Loc
  | .reg k j _ => some (.reg k j)
  | .acc n j _ _ => some (.acc n j)
  | .flags c j _ => some (.flags c j)
  | .umClear j | .umInc j => some (.umcount j)
  | .ovInc j => some (.ovcnt j)
  | .haz h _ => some (.haz h)
  | .ctl c _ => some (.ctl c)
  | .dstat0 _ => some .en
  | .dstat1 _ => some .master
  | .memTouch _ => none
  | .mem a j _ => some (.mem a j)
  | .agu k _ => some (.haz (.i k))

/-- Every effect of a list writes inside `T`. -/
def writesIn (T : Loc → Prop) (ws : List Write) : Prop := ∀ w ∈ ws, ∀ l, w.loc = some l → T l

theorem SameExcept.refl (T : Loc → Prop) (s : State) : SameExcept T s s := by
  constructor <;> intros <;> rfl

theorem SameExcept.mono {T U : Loc → Prop} {s t : State} (h : ∀ l, T l → U l)
    (ht : SameExcept T s t) : SameExcept U s t :=
  ⟨fun k j hu => ht.reg k j (mt (h _) hu), fun n j hu => ht.acc n j (mt (h _) hu),
   fun c j hu => ht.flags c j (mt (h _) hu), fun j hu => ht.umcount j (mt (h _) hu),
   fun j hu => ht.ovcnt j (mt (h _) hu), fun k hu => ht.i k (mt (h _) hu),
   fun k hu => ht.m k (mt (h _) hu), fun k hu => ht.l k (mt (h _) hu),
   fun k hu => ht.b k (mt (h _) hu), fun hu => ht.cntr (mt (h _) hu),
   fun hu => ht.mstat (mt (h _) hu), fun c hu => ht.ctl c (mt (h _) hu),
   fun hu => ht.en (mt (h _) hu), fun hu => ht.master (mt (h _) hu),
   fun a j hu => ht.mem a j (mt (h _) hu), ht.cfg, fun p hu => ht.unset p (mt (h _) hu)⟩

theorem SameExcept.trans {T : Loc → Prop} {s t u : State} (h1 : SameExcept T s t)
    (h2 : SameExcept T t u) : SameExcept T s u :=
  ⟨fun k j h => (h2.reg k j h).trans (h1.reg k j h), fun n j h => (h2.acc n j h).trans (h1.acc n j h),
   fun c j h => (h2.flags c j h).trans (h1.flags c j h),
   fun j h => (h2.umcount j h).trans (h1.umcount j h), fun j h => (h2.ovcnt j h).trans (h1.ovcnt j h),
   fun k h => (h2.i k h).trans (h1.i k h), fun k h => (h2.m k h).trans (h1.m k h),
   fun k h => (h2.l k h).trans (h1.l k h), fun k h => (h2.b k h).trans (h1.b k h),
   fun h => (h2.cntr h).trans (h1.cntr h), fun h => (h2.mstat h).trans (h1.mstat h),
   fun c h => (h2.ctl c h).trans (h1.ctl c h), fun h => (h2.en h).trans (h1.en h),
   fun h => (h2.master h).trans (h1.master h), fun a j h => (h2.mem a j h).trans (h1.mem a j h),
   h2.cfg.trans h1.cfg, fun p h => (h2.unset p h).trans (h1.unset p h)⟩

/-! ## What is unspecified after an effect (R64) -/

/-- An unspecified value stays inside its location. -/
theorem Write.ages_loc {w : Write} {p q : Place} (h : w.ages p = some q) : q.loc = p.loc := by
  cases w <;> cases p <;> simp only [Write.ages] at h <;> (try split at h) <;>
    first
    | (cases h; rfl)
    | (simp only [Option.map_eq_some_iff] at h; obtain ⟨x, _, rfl⟩ := h; simp_all [Place.loc])
    | (rename_i g _; cases g <;> (try split at h) <;> cases h <;> rfl)

/-- An effect on another location leaves an unspecified value in its place. -/
theorem Write.ages_other {w : Write} {p : Place} (h : w.loc ≠ some p.loc) : w.ages p = some p := by
  cases w <;> cases p <;> simp only [Write.ages] <;> (try split) <;>
    first
    | rfl
    | (simp_all [Write.loc, Place.loc])

/-- What the reset state leaves unspecified is what R63 leaves unspecified. -/
theorem unspecified_open : ∀ p ∈ unspecifiedAtReset, p.open = true := by decide +kernel

theorem State.unset_iff (s : State) (p : Place) : s.unset p = true ↔ p ∈ s.unwritten := by
  simp [State.unset]

theorem State.mem_applyWrite (s : State) (w : Write) (p : Place) :
    p ∈ (s.applyWrite w).unwritten ↔ ∃ q ∈ s.unwritten, w.ages q = some p := by
  simp [State.applyWrite]

theorem State.applyWrite_unset (s : State) {w : Write} {p : Place} (h : w.loc ≠ some p.loc) :
    (s.applyWrite w).unset p = s.unset p := by
  rw [Bool.eq_iff_iff, State.unset_iff, State.unset_iff, State.mem_applyWrite]
  constructor
  · rintro ⟨q, hq, ha⟩
    have hl := Write.ages_loc ha
    rw [Write.ages_other (by rwa [← hl])] at ha
    cases ha; exact hq
  · exact fun hp => ⟨p, hp, Write.ages_other h⟩

/-- One effect changes only the location it writes. -/
theorem State.applyWrite_same (s : State) (w : Write) (T : Loc → Prop) (h : ∀ l, w.loc = some l → T l) :
    SameExcept T s (s.applyWrite w) := by
  constructor
  · intro k j hT; rw [s.applyWrite_reg]
    cases w <;> simp only [Write.onReg]
    split <;> rename_i hk
    · exact absurd (h _ rfl) (by rw [hk.1, hk.2]; exact hT)
    · rfl
  · intro n j hT; rw [s.applyWrite_accLane]
    cases w <;> simp only [Write.onAcc]
    split <;> rename_i hk
    · exact absurd (h _ rfl) (by rw [hk.1, hk.2]; exact hT)
    · rfl
  · intro c j hT; rw [s.applyWrite_flags]
    cases w <;> simp only [Write.onFlags]
    split <;> rename_i hk
    · exact absurd (h _ rfl) (by rw [hk.1, hk.2]; exact hT)
    · rfl
  · intro j hT; rw [s.applyWrite_umcount]
    cases w <;> simp only [Write.onUm] <;> split <;> rename_i hk
    · exact absurd (h _ rfl) (by rw [hk]; exact hT)
    · rfl
    · exact absurd (h _ rfl) (by rw [hk]; exact hT)
    · rfl
  · intro j hT; rw [s.applyWrite_ovcnt]
    cases w <;> simp only [Write.onOv]
    split <;> rename_i hk
    · exact absurd (h _ rfl) (by rw [hk]; exact hT)
    · rfl
  · intro k hT; rw [s.applyWrite_i]
    cases w with
    | haz g v =>
      cases g <;> simp only [Write.onI]
      split
      · rename_i hk; exact absurd (h _ rfl) (by rw [hk]; exact hT)
      · rfl
    | agu k' v =>
      simp only [Write.onI]; split
      · rename_i hk; exact absurd (h _ rfl) (by rw [hk]; exact hT)
      · rfl
    | _ => rfl
  · intro k hT; rw [s.applyWrite_m]
    cases w with
    | haz g v =>
      cases g <;> simp only [Write.onM]
      split
      · rename_i hk; exact absurd (h _ rfl) (by rw [hk]; exact hT)
      · rfl
    | _ => rfl
  · intro k hT; rw [s.applyWrite_l]
    cases w with
    | haz g v =>
      cases g <;> simp only [Write.onL]
      split
      · rename_i hk; exact absurd (h _ rfl) (by rw [hk]; exact hT)
      · rfl
    | _ => rfl
  · intro k hT; rw [s.applyWrite_b]
    cases w with
    | haz g v =>
      cases g <;> simp only [Write.onB]
      split
      · rename_i hk; exact absurd (h _ rfl) (by rw [hk]; exact hT)
      · rfl
    | _ => rfl
  · intro hT; rw [s.applyWrite_cntr]
    cases w with
    | haz g v => cases g <;> first | rfl | exact absurd (h _ rfl) hT
    | _ => rfl
  · intro hT; rw [s.applyWrite_mstat]
    cases w with
    | haz g v => cases g <;> first | rfl | exact absurd (h _ rfl) hT
    | _ => rfl
  · intro c hT; rw [s.applyWrite_ctl]
    cases w <;> simp only [Write.onCtl]
    split <;> rename_i hk
    · exact absurd (h _ rfl) (by rw [hk]; exact hT)
    · rfl
  · intro hT; rw [s.applyWrite_en]
    cases w <;> first | rfl | exact absurd (h _ rfl) hT
  · intro hT; rw [s.applyWrite_master]
    cases w <;> first | rfl | exact absurd (h _ rfl) hT
  · intro a j hT; rw [s.applyWrite_memLane]
    cases w <;> simp only [Write.onMem]
    split <;> rename_i hk
    · exact absurd (h _ rfl) (by rw [hk.1, hk.2]; exact hT)
    · rfl
  · exact (s.applyWrite_book w).cfg
  · exact fun p hT => s.applyWrite_unset fun hl => hT (h _ hl)

/-- Effects inside `T` change nothing outside `T`. -/
theorem State.applyAll_same (s : State) (ws : List Write) (T : Loc → Prop) (h : writesIn T ws) :
    SameExcept T s (s.applyAll ws) := by
  induction ws generalizing s with
  | nil => exact SameExcept.refl T s
  | cons w ws ih =>
    exact (s.applyWrite_same w T (h w (List.mem_cons_self ..))).trans
      (ih (s.applyWrite w) fun x hx => h x (List.mem_cons_of_mem _ hx))

/-! ## Effects lane by lane -/

/-- A fold over the effects of the executing lanes, where the effects of other lanes leave the folded
value alone, sees lane `j`'s effects only. -/
theorem foldl_execLanes {β : Type} (s : State) (mask : PerLane Bool) (L : Lane → List Write)
    (f : β → Write → β) (j : Lane) (x : β)
    (h : ∀ i, i ≠ j → ∀ y, (L i).foldl f y = y) :
    ((s.execLanes mask).flatMap L).foldl f x
      = if s.executing mask j = true then (L j).foldl f x else x := by
  have key : ∀ ls : List Lane, ls.Nodup →
      ((ls.filter (s.executing mask)).flatMap L).foldl f x
        = if j ∈ ls ∧ s.executing mask j = true then (L j).foldl f x else x := by
    intro ls
    induction ls generalizing x with
    | nil => intro _; simp
    | cons i ls ih =>
      intro hnd
      obtain ⟨hi, hnd⟩ := List.nodup_cons.mp hnd
      by_cases he : s.executing mask i = true
      · rw [List.filter_cons_of_pos he, List.flatMap_cons, List.foldl_append]
        by_cases hij : i = j
        · subst hij
          rw [ih _ hnd]
          simp [hi, he]
        · rw [h i hij, ih _ hnd]
          simp [Ne.symm hij]
      · rw [List.filter_cons_of_neg he, ih _ hnd]
        by_cases hij : i = j
        · subst hij; simp [he]
        · simp [Ne.symm hij]
  rw [State.execLanes, key allLanes (by decide)]
  simp

/-- No effect of the executing lanes changes the folded value. -/
theorem foldl_execLanes_id {β : Type} (s : State) (mask : PerLane Bool) (L : Lane → List Write)
    (f : β → Write → β) (x : β) (h : ∀ i y, (L i).foldl f y = y) :
    ((s.execLanes mask).flatMap L).foldl f x = x := by
  induction s.execLanes mask generalizing x with
  | nil => rfl
  | cons i ls ih => rw [List.flatMap_cons, List.foldl_append, h, ih]

theorem writesIn_nil (T : Loc → Prop) : writesIn T [] := fun _ h => absurd h (by simp)

theorem writesIn_append {T : Loc → Prop} {xs ys : List Write} (hx : writesIn T xs)
    (hy : writesIn T ys) : writesIn T (xs ++ ys) := by
  intro w hw
  rcases List.mem_append.mp hw with h | h
  · exact hx w h
  · exact hy w h

theorem writesIn_cons {T : Loc → Prop} {w : Write} {ws : List Write}
    (hw : ∀ l, w.loc = some l → T l) (h : writesIn T ws) : writesIn T (w :: ws) := by
  intro x hx
  rcases List.mem_cons.mp hx with rfl | h'
  · exact hw
  · exact h x h'

theorem writesIn_execLanes {T : Loc → Prop} (s : State) (mask : PerLane Bool) (L : Lane → List Write)
    (h : ∀ j, s.executing mask j = true → writesIn T (L j)) :
    writesIn T ((s.execLanes mask).flatMap L) := by
  intro w hw
  obtain ⟨j, hj, hw⟩ := List.mem_flatMap.mp hw
  exact h j (List.mem_filter.mp hj).2 w hw

/-- `exec_any` says that some lane executes. -/
theorem State.execAny_iff (s : State) (mask : PerLane Bool) :
    s.execAny mask = true ↔ ∃ j, s.executing mask j = true := by
  simp [State.execAny]

theorem State.mem_execLanes (s : State) (mask : PerLane Bool) (j : Lane) :
    j ∈ s.execLanes mask ↔ s.executing mask j = true := by
  simp [State.execLanes]

end Sys2Proof.Machine
end

