-- ==== Sys2Proof/Laws/Exec.lean ====
section
/-! SUPPORT. What one operation can do: `issue` alone in its bundle commits its effects or records its error;
in general it stages, commits or raises. -/

namespace Sys2Proof.Machine

/-! ## Reading the pre-bundle state through the diagnostics -/

/-- Two states hold the same at every location. -/
def sameReads (s t : State) : Prop :=
  t.r = s.r ∧ t.acc = s.acc ∧ t.astatR = s.astatR ∧ t.astatI = s.astatI ∧ t.astatC = s.astatC
    ∧ t.umcount = s.umcount ∧ t.ovcnt = s.ovcnt ∧ t.i = s.i ∧ t.m = s.m ∧ t.l = s.l ∧ t.b = s.b
    ∧ t.cntr = s.cntr ∧ t.mstat = s.mstat ∧ t.lpever = s.lpever ∧ t.pcstack = s.pcstack
    ∧ t.lpstack = s.lpstack ∧ t.icntl = s.icntl ∧ t.imask = s.imask ∧ t.irptl = s.irptl
    ∧ t.ivec = s.ivec ∧ t.en = s.en ∧ t.master = s.master ∧ t.mem = s.mem ∧ t.cfg = s.cfg
    ∧ t.unwritten = s.unwritten

theorem sameReads.same {s t : State} (h : sameReads s t) : SameState s t := by
  obtain ⟨h1, h2, h3, h4, h5, h6, h7, h8, h9, h10, h11, h12, h13, h14, h15, h16, h17, h18, h19, h20,
    h21, h22, h23, h24, h25⟩ := h
  constructor
  · intro k j _; simp [State.reg, h1]
  · intro n j _; simp [State.accLane, h2]
  · intro c j _; cases c <;> simp [State.flags, h3, h4, h5]
  · intro j _; rw [h6]
  · intro j _; rw [h7]
  · intro k _; rw [h8]
  · intro k _; rw [h9]
  · intro k _; rw [h10]
  · intro k _; rw [h11]
  · intro _; exact h12
  · intro _; exact h13
  · intro c _; cases c <;> simp [State.ctl, h14, h15, h16, h17, h18, h19, h20]
  · intro _; exact h21
  · intro _; exact h22
  · intro a j _; simp [State.memLane, h23]
  · exact h24
  · intro p _; simp [State.unset, h25]

theorem State.warn_reads (s : State) (ws : List Warn) : sameReads s (s.warn ws) := by
  simp [sameReads]

theorem State.stage_reads (s : State) (o : SlotOut) (ws : List Write) : sameReads s (s.stage o ws) := by
  simp [sameReads]

theorem State.raiseAt_reads (s : State) (k : Nat) (e : CoreErr) : sameReads s (s.raiseAt k e) := by
  simp [sameReads]

theorem State.openBundle_reads (s : State) (x : BitVec 8) (n : Nat) : sameReads s (s.openBundle x n) := by
  simp [sameReads]

theorem SameState.trans {s t u : State} (h1 : SameState s t) (h2 : SameState t u) : SameState s u :=
  SameExcept.trans h1 h2

theorem SameState.refl (s : State) : SameState s s := SameExcept.refl _ s

/-! ## The order of commits -/

/-- A bundle's effects in the order they are committed: post-modify updates last (R137). -/
def aguLast (ws : List Write) : List Write := (ws.filter fun w => !w.isAgu) ++ ws.filter Write.isAgu

theorem Write.eq_agu {w : Write} (h : w.isAgu = true) : ∃ k v, w = .agu k v := by
  cases w <;> simp [Write.isAgu] at h
  exact ⟨_, _, rfl⟩

/-- A fold that post-modify updates leave alone does not see the reordering. -/
theorem foldl_aguLast {β : Type} (f : β → Write → β) (hf : ∀ x k v, f x (.agu k v) = x) (ws : List Write)
    (x : β) : (aguLast ws).foldl f x = ws.foldl f x := by
  have hid : ∀ x w, w.isAgu = true → f x w = x := by
    intro x w hw
    obtain ⟨k, v, rfl⟩ := Write.eq_agu hw
    exact hf x k v
  have hagu : ∀ (ys : List Write) (x : β), (ys.filter Write.isAgu).foldl f x = x := by
    intro ys
    induction ys with
    | nil => intro _; rfl
    | cons w ys ih =>
      intro x
      by_cases hw : w.isAgu = true
      · rw [List.filter_cons_of_pos hw, List.foldl_cons, hid x w hw, ih]
      · rw [List.filter_cons_of_neg hw, ih]
  rw [aguLast, List.foldl_append, hagu]
  induction ws generalizing x with
  | nil => rfl
  | cons w ws ih =>
    by_cases hw : w.isAgu = true
    · rw [List.filter_cons_of_neg (by simp [hw]), ih, List.foldl_cons, hid x w hw]
    · rw [List.filter_cons_of_pos (by simp [hw]), List.foldl_cons, ih, List.foldl_cons]

/-- Effects without a post-modify update, then post-modify updates: already in commit order. -/
theorem aguLast_append {xs ys : List Write} (hx : ∀ w ∈ xs, w.isAgu = false)
    (hy : ∀ w ∈ ys, w.isAgu = true) : aguLast (xs ++ ys) = xs ++ ys := by
  have h1 : xs.filter (fun w => !w.isAgu) = xs :=
    List.filter_eq_self.mpr fun w hw => by simp [hx w hw]
  have h2 : ys.filter (fun w => !w.isAgu) = [] :=
    List.filter_eq_nil_iff.mpr fun w hw => by simp [hy w hw]
  have h3 : xs.filter Write.isAgu = [] :=
    List.filter_eq_nil_iff.mpr fun w hw => by simp [hx w hw]
  have h4 : ys.filter Write.isAgu = ys := List.filter_eq_self.mpr hy
  simp [aguLast, h1, h2, h3, h4]

theorem writesIn_aguLast {T : Loc → Prop} {ws : List Write} (h : writesIn T ws) :
    writesIn T (aguLast ws) := by
  intro w hw
  rcases List.mem_append.mp hw with h' | h'
  · exact h w (List.mem_filter.mp h').1
  · exact h w (List.mem_filter.mp h').1

theorem State.commit_eq (s : State) :
    s.commit = { s.applyAll (aguLast s.staged.flatten) with
      cycle := s.cycle + 1, slot := 0, staged := [], out := s.outs, outs := [] } := by
  simp [State.commit, aguLast, State.applyAll_append]

/-- What committing a bundle leaves in its locations and in its bookkeeping. -/
structure Committed (ws : List Write) (s t : State) : Prop where
  reg : ∀ k j, t.reg k j = ws.foldl (Write.onReg k j) (s.reg k j)
  acc : ∀ n j, t.accLane n j = ws.foldl (Write.onAcc n j) (s.accLane n j)
  flags : ∀ c j, t.flags c j = ws.foldl (Write.onFlags c j) (s.flags c j)
  umcount : ∀ j, t.umcount.get j = ws.foldl (Write.onUm j) (s.umcount.get j)
  ovcnt : ∀ j, t.ovcnt.get j = ws.foldl (Write.onOv j) (s.ovcnt.get j)
  i : ∀ k, t.i.get k = (aguLast ws).foldl (Write.onI s.cycle k) (s.i.get k)
  m : ∀ k, t.m.get k = ws.foldl (Write.onM s.cycle k) (s.m.get k)
  l : ∀ k, t.l.get k = ws.foldl (Write.onL s.cycle k) (s.l.get k)
  b : ∀ k, t.b.get k = ws.foldl (Write.onB s.cycle k) (s.b.get k)
  cntr : t.cntr = ws.foldl (Write.onCntr s.cycle) s.cntr
  mstat : t.mstat = ws.foldl (Write.onMstat s.cycle) s.mstat
  ctl : ∀ c, t.ctl c = ws.foldl (Write.onCtl c) (s.ctl c)
  en : t.en = ws.foldl (Write.onEn s.cfg) s.en
  master : t.master = ws.foldl (Write.onMaster s.cfg) s.master
  mem : ∀ a j, t.memLane a j = ws.foldl (Write.onMem a j) (s.memLane a j)
  memory : t.mem = ws.foldl Write.onMemory s.mem
  unwritten : t.unwritten = (aguLast ws).foldl (fun ps w => ps.filterMap w.ages) s.unwritten
  same : ∀ T, writesIn T ws → SameExcept T s t
  cfg : t.cfg = s.cfg
  cycle : t.cycle = s.cycle + 1
  slot : t.slot = 0
  staged : t.staged = []
  outs : t.outs = []
  input : t.input = s.input
  site : t.site = s.site
  sstatIn : t.sstatIn = s.sstatIn
  faultRec : t.faultRec = s.faultRec

/-- Say once what a commit does. -/
theorem State.commit_committed (s : State) : Committed s.staged.flatten s s.commit := by
  rw [State.commit_eq]
  have hb := s.applyAll_book (aguLast s.staged.flatten)
  constructor
  · intro k j
    exact (s.applyAll_reg _ k j).trans (foldl_aguLast _ (fun _ _ _ => rfl) _ _)
  · intro n j
    exact (s.applyAll_accLane _ n j).trans (foldl_aguLast _ (fun _ _ _ => rfl) _ _)
  · intro c j
    refine Eq.trans ?_ ((s.applyAll_flags _ c j).trans (foldl_aguLast _ (fun _ _ _ => rfl) _ _))
    cases c <;> rfl
  · intro j
    exact (s.applyAll_umcount _ j).trans (foldl_aguLast _ (fun _ _ _ => rfl) _ _)
  · intro j
    exact (s.applyAll_ovcnt _ j).trans (foldl_aguLast _ (fun _ _ _ => rfl) _ _)
  · intro k; exact s.applyAll_i _ k
  · intro k
    exact (s.applyAll_m _ k).trans (foldl_aguLast _ (fun _ _ _ => rfl) _ _)
  · intro k
    exact (s.applyAll_l _ k).trans (foldl_aguLast _ (fun _ _ _ => rfl) _ _)
  · intro k
    exact (s.applyAll_b _ k).trans (foldl_aguLast _ (fun _ _ _ => rfl) _ _)
  · exact (s.applyAll_cntr _).trans (foldl_aguLast _ (fun _ _ _ => rfl) _ _)
  · exact (s.applyAll_mstat _).trans (foldl_aguLast _ (fun _ _ _ => rfl) _ _)
  · intro c
    refine Eq.trans ?_ ((s.applyAll_ctl _ c).trans (foldl_aguLast _ (fun _ _ _ => rfl) _ _))
    cases c <;> rfl
  · exact (s.applyAll_en _).trans (foldl_aguLast _ (fun _ _ _ => rfl) _ _)
  · exact (s.applyAll_master _).trans (foldl_aguLast _ (fun _ _ _ => rfl) _ _)
  · intro a j
    exact (s.applyAll_memLane _ a j).trans (foldl_aguLast _ (fun _ _ _ => rfl) _ _)
  · exact (s.applyAll_mem _).trans (foldl_aguLast _ (fun _ _ _ => rfl) _ _)
  · exact s.applyAll_unwritten _
  · intro T hT
    refine (s.applyAll_same _ T (writesIn_aguLast hT)).trans
      (SameExcept.mono (T := fun _ => False) (fun _ h => h.elim) ?_)
    exact sameReads.same (by simp [sameReads])
  · exact hb.cfg
  · rfl
  · rfl
  · rfl
  · rfl
  · exact hb.input
  · exact hb.site
  · exact hb.sstatIn
  · exact hb.faultRec

theorem State.commit_out (s : State) : s.commit.out = s.outs := rfl

theorem State.commit_log (s : State) : s.commit.log = s.log := by
  rw [State.commit_eq]
  exact (s.applyAll_book _).log

/-! ## One operation alone in its bundle -/

/-- The effects of an operation alone in its bundle are what its commit does (R130). -/
theorem issue_done {c : Ctl} {op : State → PerLane Bool → OpResult} {s : State} {warns : List Warn}
    {es : List Write} (hs : s.Idle) (he : c.eob = true)
    (hop : op s (s.maskFor c.cond) = .done warns es) :
    ∃ t, issue c op s = .next t ∧ Committed es s t
      ∧ t.log = s.log ++ (s.condWarns c.cond ++ warns).map s.event
      ∧ t.out = [s.slotOut (s.maskFor c.cond)] := by
  have hc := (((s.warn (s.condWarns c.cond ++ warns)).stage (s.slotOut (s.maskFor c.cond))
    es)).commit_committed
  have hfl : ((s.warn (s.condWarns c.cond ++ warns)).stage (s.slotOut (s.maskFor c.cond))
      es).staged.flatten = es := by simp [hs.staged]
  rw [hfl] at hc
  refine ⟨((s.warn (s.condWarns c.cond ++ warns)).stage (s.slotOut (s.maskFor c.cond)) es).commit,
    ?_, ?_, ?_, ?_⟩
  · simp only [issue, hs.noFault, hop, he, if_true]
    rw [State.close]
    simp [hs.staged, firstConflict]
  · have hr : SameState s ((s.warn (s.condWarns c.cond ++ warns)).stage
        (s.slotOut (s.maskFor c.cond)) es) := by
      refine sameReads.same ?_; simp [sameReads]
    exact
      { reg := hc.reg, acc := hc.acc, umcount := hc.umcount, ovcnt := hc.ovcnt, i := hc.i, m := hc.m,
        l := hc.l, b := hc.b, cntr := hc.cntr, mstat := hc.mstat, en := hc.en, master := hc.master,
        mem := hc.mem, memory := hc.memory, unwritten := hc.unwritten, cfg := hc.cfg, cycle := hc.cycle, slot := hc.slot, staged := hc.staged,
        outs := hc.outs, input := hc.input, site := hc.site, sstatIn := hc.sstatIn,
        faultRec := hc.faultRec
        flags := fun c' j => by have := hc.flags c' j; cases c' <;> exact this
        ctl := fun c' => by have := hc.ctl c'; cases c' <;> exact this
        same := fun T hT => (hr.mono fun _ h => h.elim).trans (hc.same T hT) }
  · rw [State.commit_log]; simp
  · rw [State.commit_out]; simp [hs.outs]

/-- An operation alone in its bundle that raises an error commits nothing and records it (R331). -/
theorem issue_fail {c : Ctl} {op : State → PerLane Bool → OpResult} {s : State} {warns : List Warn}
    {e : CoreErr} (hs : s.Idle) (hop : op s (s.maskFor c.cond) = .fail warns e) :
    ∃ t, issue c op s = .next t ∧ Raises e 0 s t
      ∧ t.log = s.log ++ (s.condWarns c.cond ++ warns).map s.event := by
  refine ⟨(s.warn (s.condWarns c.cond ++ warns)).raiseAt s.slot e, ?_, ⟨?_, ?_, ?_, ?_, ?_⟩, ?_⟩
  · simp only [issue, hs.noFault, hop]
  · exact (s.warn_reads _).same.trans (State.raiseAt_reads _ _ _).same
  · simp
  · simp [hs.noFault, hs.slot]
  · simp
  · simp
  · simp

/-- `Commits` from what the commit does. -/
theorem Committed.commits {c : Ctl} {T : Loc → Prop} {es : List Write} {s t : State} (h : Committed es s t)
    (hs : s.Idle) (hT : writesIn T es) (hout : t.out = [s.slotOut (s.maskFor c.cond)]) :
    Commits c T s t :=
  ⟨h.same T hT, h.cycle, ⟨h.faultRec.trans hs.noFault, h.slot, h.staged, h.outs⟩, hout, h.input, h.sstatIn⟩

/-! ## One operation of any bundle -/

/-- The operation of each instruction, as its meaning gives it to `perform`. -/
def opOf : Instr → State → PerLane Bool → OpResult
  | .add _ dst sa b => aluReal dst fun s j => aluSum (s.reg sa j).toInt (s.srcInt b j) 0
  | .addc _ dst sa b =>
    aluReal dst fun s j => aluSum (s.reg sa j).toInt (s.srcInt b j) ((s.flags .re j).ac.toNat : Int)
  | .sub _ dst sa b => aluReal dst fun s j => aluDiff (s.reg sa j).toInt (s.srcInt b j) 0
  | .subc _ dst sa b =>
    aluReal dst fun s j =>
      aluDiff (s.reg sa j).toInt (s.srcInt b j) (subCarry s.cfg.subcForm (s.flags .re j).ac)
  | .subb _ dst sa b => aluReal dst fun s j => aluDiff (s.srcInt b j) (s.reg sa j).toInt 0
  | .subbc _ dst sa b =>
    aluReal dst fun s j =>
      aluDiff (s.srcInt b j) (s.reg sa j).toInt (subCarry s.cfg.subcForm (s.flags .re j).ac)
  | .and _ dst sa b => aluReal dst fun s j => aluPlain (s.reg sa j &&& wrap12 (s.srcInt b j))
  | .or _ dst sa b => aluReal dst fun s j => aluPlain (s.reg sa j ||| wrap12 (s.srcInt b j))
  | .xor _ dst sa b => aluReal dst fun s j => aluPlain (s.reg sa j ^^^ wrap12 (s.srcInt b j))
  | .not _ dst sa => aluReal dst fun s j => aluPlain (~~~(s.reg sa j))
  | .abs _ dst sa => aluReal dst fun s j => aluAbs (s.reg sa j).toInt
  | .inc _ dst sa => aluReal dst fun s j => aluSum (s.reg sa j).toInt 1 0
  | .dec _ dst sa => aluReal dst fun s j => aluDiff (s.reg sa j).toInt 1 0
  | .tstbit _ dst sa b => bitOp dst sa b fun a m => a &&& m
  | .setbit _ dst sa b => bitOp dst sa b fun a m => a ||| m
  | .clrbit _ dst sa b => bitOp dst sa b fun a m => a &&& ~~~m
  | .tglbit _ dst sa b => bitOp dst sa b fun a m => a ^^^ m
  | .scr _ dst sa b =>
    aluReal dst fun s j =>
      if (wrap12 (s.srcInt b j)).getLsbD 0 then aluNeg (s.reg sa j).toInt else aluPlain (s.reg sa j)
  | .addA _ dst sa b =>
    aluAcc dst fun s j =>
      ((s.accWord sa j).toInt + s.accSrcInt b j,
        carry32 (zext32 (s.accWord sa j).toInt + zext32 (s.accSrcInt b j)))
  | .subA _ dst sa b =>
    aluAcc dst fun s j =>
      ((s.accWord sa j).toInt - s.accSrcInt b j,
        carry32 (zext32 (s.accWord sa j).toInt - zext32 (s.accSrcInt b j)))
  | .addC _ dst sa sb =>
    aluPair dst fun s j =>
      (aluSum (s.reg sa.re j).toInt (s.reg sb.re j).toInt 0,
        aluSum (s.reg sa.im j).toInt (s.reg sb.im j).toInt 0)
  | .subC _ dst sa sb =>
    aluPair dst fun s j =>
      (aluDiff (s.reg sa.re j).toInt (s.reg sb.re j).toInt 0,
        aluDiff (s.reg sa.im j).toInt (s.reg sb.im j).toInt 0)
  | .rccwC _ dst sa b =>
    aluPair dst fun s j => rotated (turns (s.srcIndex b j)) (s.reg sa.re j) (s.reg sa.im j)
  | .rcwC _ dst sa b =>
    aluPair dst fun s j => rotated (-turns (s.srcIndex b j)) (s.reg sa.re j) (s.reg sa.im j)
  | .magC _ dst sa => magOp dst sa
  | .rectC _ dst sa sb => rectOp dst sa sb
  | .mpy _ dst sa sb mode rnd => macReal dst rnd fun s j => s.product mode (s.reg sa j) (s.reg sb j)
  | .mac _ dst sa sb mode rnd =>
    macReal dst rnd fun s j => s.accTerm dst j + s.product mode (s.reg sa j) (s.reg sb j)
  | .mas _ dst sa sb mode rnd =>
    macReal dst rnd fun s j => s.accTerm dst j + -s.product mode (s.reg sa j) (s.reg sb j)
  | .mpyC _ dst sa sb mode rnd => macPair dst rnd fun s j => s.productC mode sa sb j
  | .macC _ dst sa sb mode rnd => macPair dst rnd fun s j => s.accPlus dst j (s.productC mode sa sb j)
  | .masC _ dst sa sb mode rnd => macPair dst rnd fun s j => s.accMinus dst j (s.productC mode sa sb j)
  | .mpyRC _ dst sa sb mode rnd => macPair dst rnd fun s j => s.productRC mode sa sb j
  | .macRC _ dst sa sb mode rnd => macPair dst rnd fun s j => s.accPlus dst j (s.productRC mode sa sb j)
  | .masRC _ dst sa sb mode rnd => macPair dst rnd fun s j => s.accMinus dst j (s.productRC mode sa sb j)
  | .rndacc _ dst sa => rndaccOp dst sa
  | .clracc _ dst => clraccOp dst
  | .ashift _ dst sa n f rnd => shiftReal dst sa fun s j => s.ashifted sa (s.srcInt n j) f rnd j
  | .lshift _ dst sa n f rnd => shiftReal dst sa fun s j => s.lshifted sa (s.srcInt n j) f rnd j
  | .ashiftor _ dst sa n f rnd => shiftOr dst sa fun s j => s.ashifted sa (s.srcInt n j) f rnd j
  | .lshiftor _ dst sa n f rnd => shiftOr dst sa fun s j => s.lshifted sa (s.srcInt n j) f rnd j
  | .ashiftC _ dst sa n f rnd =>
    shiftPair dst sa fun s j =>
      (s.ashifted (shiftRe sa) (s.amountRe n j) f rnd j, s.ashifted (shiftIm sa) (s.amountIm n j) f rnd j)
  | .lshiftC _ dst sa n f rnd =>
    shiftPair dst sa fun s j =>
      (s.lshifted (shiftRe sa) (s.amountRe n j) f rnd j, s.lshifted (shiftIm sa) (s.amountIm n j) f rnd j)
  | .ldDirect _ dst addr => loadWord dst (.direct addr)
  | .ldPost _ dst k m => loadWord dst (.post k m)
  | .stDirect _ src addr => storeWord src (.direct addr)
  | .stPost _ src k m => storeWord src (.post k m)
  | .lddDirect _ dst addr => loadPair dst (.direct addr)
  | .lddPost _ dst k m => loadPair dst (.post k m)
  | .stdDirect _ src addr => storePair src (.direct addr)
  | .stdPost _ src k m => storePair src (.post k m)
  | .modify _ k m => modifyOp k m
  | .mov _ dst src => moveRegister dst src
  | .ldi _ dst v => loadImmediate dst v
  | .nop _ => fun _ _ => .done [] []
  | .xrd _ dst src act off => xrdOp dst src act off
  | .xwr _ dst src act off => xwrOp dst src act off

/-- An operation reads values, not which places are unspecified: `checked` looks at that (R64). -/
theorem opOf_withUnwritten (i : Instr) (s : State) (ps : List Place) (mask : PerLane Bool) :
    opOf i (s.withUnwritten ps) mask = opOf i s mask := by
  cases i <;> rfl

/-- An operation does not look at `UNINIT_READ`: `checked` does (R64). -/
theorem opOf_uninitRead (i : Instr) (s : State) (u : UninitRead) (mask : PerLane Bool) :
    opOf i { s with cfg := { s.cfg with uninitRead := u } } mask = opOf i s mask := by
  cases i <;> rfl

/-- Every instruction is one issued operation with its own COND and EOB, its reads checked. -/
theorem exec_eq (i : Instr) (s : State) : exec i s = issue i.ctl (checked i (opOf i)) s := by
  cases i <;> rfl

/-! ## What an operation does after its checks (R331) -/

theorem State.laterPlaces_step (s : State) (seen : List HazReg) (x : Addr) :
    (s.stepLater seen x).filterMap Later.place = (stepReads x).map s.latPlace := by
  have hw : ∀ ws : List Warn, (ws.map Later.warn).filterMap Later.place = [] := by
    intro ws; simp [List.filterMap_eq_nil_iff, Later.place]
  unfold State.stepLater
  induction stepReads x with
  | nil => rfl
  | cons h hs ih => simp only [List.flatMap_cons, List.filterMap_append, hw, ih]; rfl

theorem State.laterPlaces_pair (s : State) (mask : PerLane Bool) (src : RPair) (a : Nat) :
    (s.pairLater mask src a).filterMap Later.place =
      ((s.execLanes mask).map fun j => .reg src.re j) ++ (s.execLanes mask).map fun j => .reg src.im j := by
  have hw : ∀ ws : List Warn, (ws.map Later.warn).filterMap Later.place = [] := by
    intro ws; simp [List.filterMap_eq_nil_iff, Later.place]
  have hr : ∀ (k : Fin 32) (js : List Lane), (js.map fun j => Later.read (.reg k j)).filterMap Later.place =
      js.map fun j => .reg k j := by
    intro k js; induction js with
    | nil => rfl
    | cons j js ih => simp only [List.map_cons, List.filterMap_cons, Later.place, ih]
  simp only [State.pairLater, List.filterMap_append, hw, hr, List.append_nil]

/-- The places that each operation reads after its checks. -/
theorem State.laterPlaces_eq (s : State) (mask : PerLane Bool) (i : Instr) :
    s.laterPlaces mask i =
      if s.execAny mask then
        match i with
        | .ldPost _ _ k m | .lddPost _ _ k m | .stPost _ _ k m => (stepReads (.post k m)).map s.latPlace
        | .stdDirect _ src _ =>
          ((s.execLanes mask).map fun j => .reg src.re j) ++ (s.execLanes mask).map fun j => .reg src.im j
        | .stdPost _ src k m =>
          ((s.execLanes mask).map fun j => .reg src.re j) ++ ((s.execLanes mask).map fun j => .reg src.im j)
            ++ (stepReads (.post k m)).map s.latPlace
        | _ => []
      else [] := by
  unfold State.laterPlaces State.later
  split
  · cases i <;>
      simp only [laterPlaces_step, laterPlaces_pair, List.filterMap_append, List.filterMap_nil]
  · rfl

/-- The warnings of an operation that completes end with those of its part after the checks. -/
theorem opOf_later {i : Instr} {s : State} {mask : PerLane Bool} {ws : List Warn} {es : List Write}
    (h : opOf i s mask = .done ws es) :
    ∃ early, ws = early ++ (s.later mask i).filterMap Later.warning := by
  have nil : s.later mask i = [] → ∃ early, ws = early ++ (s.later mask i).filterMap Later.warning :=
    fun h => ⟨ws, by simp [h]⟩
  have load : ∀ dst x, loadWord dst x s mask = .done ws es → s.execAny mask = true →
      ∃ early, ws = early ++ (s.stepLater [] x).filterMap Later.warning := by
    intro dst x h ha
    simp only [loadWord, ha, if_true] at h
    split at h
    · cases h
    · split at h <;> cases h
      exact ⟨_, rfl⟩
  have loads : ∀ dst x, loadPair dst x s mask = .done ws es → s.execAny mask = true →
      ∃ early, ws = early ++ (s.stepLater [] x).filterMap Later.warning := by
    intro dst x h ha
    simp only [loadPair, ha, if_true, State.pairAccess] at h
    split at h
    · cases h
    · split at h
      · cases h
      · split at h <;> cases h
        exact ⟨_, rfl⟩
  have stores : ∀ src x, storePair src x s mask = .done ws es → s.execAny mask = true →
      ∃ early, ws = early ++ (s.pairLater mask src (s.effAddr x) ++ s.stepLater [] x).filterMap Later.warning := by
    intro src x h ha
    simp only [storePair, ha, if_true, State.pairAccess] at h
    split at h
    · cases h
    · split at h <;> cases h
      exact ⟨_, rfl⟩
  cases ha : s.execAny mask with
  | false => exact nil (by simp [State.later, ha])
  | true =>
    cases i with
    | ldPost c dst k m => simpa only [State.later, ha, if_true] using load dst _ h ha
    | lddPost c dst k m => simpa only [State.later, ha, if_true] using loads dst _ h ha
    | stdPost c src k m => simpa only [State.later, ha, if_true, State.effAddr] using stores src _ h ha
    | stdDirect c src a =>
      simpa only [State.later, ha, if_true, State.stepLater, stepReads, List.flatMap_nil, List.append_nil,
        State.effAddr] using stores src _ h ha
    | stPost c src k m =>
      simp only [opOf, storeWord, ha, if_true, OpResult.done.injEq] at h
      exact ⟨_, by simpa only [State.later, ha, if_true] using h.1.symm⟩
    | _ => exact nil (by simp [State.later])

/-- A read after the checks that finds an unspecified place keeps the warnings emitted before it, and those
alone (R331, R335). -/
theorem checked_later {i : Instr} {s : State} {mask : PerLane Bool} {p : Place} {early : List Warn}
    {es : List Write} (hu : s.cfg.uninitRead = .fault)
    (hc : s.firstUnset (s.condPlaces i.ctl.cond) = none) (hs : s.firstUnset (s.sourcePlaces mask i) = none)
    (ho : opOf i s mask = .done (early ++ (s.later mask i).filterMap Later.warning) es)
    (hp : s.firstUnset (s.laterPlaces mask i) = some p) :
    checked i (opOf i) s mask =
      .fail (early ++ ((s.later mask i).takeWhile (· != .read p)).filterMap Later.warning) (fUninit p) := by
  have hd : s.drawn = s := by simp [State.drawn, hu]
  have hw : (s.later mask i).filterMap Later.warning =
      ((s.later mask i).takeWhile (· != .read p)).filterMap Later.warning
        ++ warnsAfter p (s.later mask i) := by
    rw [warnsAfter, ← List.filterMap_append, List.takeWhile_append_dropWhile]
  simp only [checked, hc, hs, hd, ho, hp, OpResult.fail.injEq, and_true]
  rw [hw, ← List.append_assoc, List.length_append, Nat.add_sub_cancel, List.take_left']
  rfl

/-! ## The warnings of an operation (R140, log 10) -/

/-- One register read any number of times is read first once. -/
theorem firstReads_same {h : HazReg} : ∀ {hs : List HazReg}, (∀ g ∈ hs, g = h) → hs ≠ [] → firstReads hs = [h]
  | [], _, hne => absurd rfl hne
  | g :: hs, hall, _ => by
    have hg : g = h := hall g (List.mem_cons_self ..)
    have ht : ∀ g ∈ hs, g = h := fun x hx => hall x (List.mem_cons_of_mem _ hx)
    subst hg
    cases hs with
    | nil => rfl
    | cons x xs =>
      have := firstReads_same ht (by simp)
      rw [firstReads, this]; simp

/-- Reads of one register alone warn once, if there is any (log 10). -/
theorem State.staleWarns_same (s : State) {h : HazReg} {hs : List HazReg} (hall : ∀ g ∈ hs, g = h) :
    s.staleWarns hs = if hs.isEmpty then [] else s.staleWarns [h] := by
  cases hs with
  | nil => rfl
  | cons g gs =>
    have := firstReads_same hall (by simp)
    simp only [State.staleWarns, this, List.isEmpty_cons, Bool.false_eq_true, if_false]
    rfl

/-- The warnings of reading one register alone through `lat` in the lanes `js`. -/
theorem State.staleWarns_lanes (s : State) {h : HazReg} (js : List Lane) {f : Lane → List Place}
    (hf : ∀ j ∈ js, (f j).filterMap Place.hazReg = [h]) :
    s.staleWarns ((js.flatMap f).filterMap Place.hazReg) = if js.isEmpty then [] else s.staleWarns [h] := by
  have hm : (js.flatMap f).filterMap Place.hazReg = js.map fun _ => h := by
    induction js with
    | nil => rfl
    | cons j js ih =>
      rw [List.flatMap_cons, List.filterMap_append, hf j (List.mem_cons_self ..),
        ih fun i hi => hf i (List.mem_cons_of_mem _ hi)]
      rfl
  rw [hm, s.staleWarns_same (h := h) (by simp)]
  cases js <;> rfl

/-- No read through `lat` gives no warning. -/
theorem State.staleWarns_none (s : State) (js : List Lane) {f : Lane → List Place}
    (hf : ∀ j, (f j).filterMap Place.hazReg = []) : s.staleWarns ((js.flatMap f).filterMap Place.hazReg) = [] := by
  have hm : (js.flatMap f).filterMap Place.hazReg = [] := by
    induction js with
    | nil => rfl
    | cons j js ih => simp only [List.flatMap_cons, List.filterMap_append, hf, ih, List.append_nil]
  rw [hm]; rfl

/-- A handle that is no hazard-tracked register is read in none of their places; one that is, in one. -/
theorem State.handlePlaces_hazReg (s : State) (h : Handle) (j : Lane) :
    (s.handlePlaces h j).filterMap Place.hazReg = hazReads h := by
  cases h <;> rfl

/-- Register lanes and accumulator fields are not read through `lat`. -/
@[simp] theorem srcPlaces_hazReg (b : Src) (j : Lane) : (srcPlaces b j).filterMap Place.hazReg = [] := by
  cases b <;> rfl

@[simp] theorem accSrcPlaces_hazReg (b : AccSrc) (j : Lane) :
    (accSrcPlaces b j).filterMap Place.hazReg = [] := by cases b <;> rfl

@[simp] theorem priorPlaces_hazReg (dst : Option (Fin 8)) (j : Lane) :
    (priorPlaces dst j).filterMap Place.hazReg = [] := by cases dst <;> rfl

@[simp] theorem shiftPlaces_hazReg (a : ShiftSrc) (j : Lane) :
    (shiftPlaces a j).filterMap Place.hazReg = [] := by cases a <;> rfl

@[simp] theorem amountRePlaces_hazReg (n : AmountPair) (j : Lane) :
    (amountRePlaces n j).filterMap Place.hazReg = [] := by cases n <;> rfl

@[simp] theorem amountImPlaces_hazReg (n : AmountPair) (j : Lane) :
    (amountImPlaces n j).filterMap Place.hazReg = [] := by cases n <;> rfl

theorem hazReg_regs (k : Fin 32) (f : Lane → Lane) (js : List Lane) :
    (js.map fun j => Place.reg k (f j)).filterMap Place.hazReg = [] := by
  induction js with
  | nil => rfl
  | cons j js ih => simp [List.filterMap_cons, Place.hazReg]

/-- Where no index is bad, a bit operation comes to every lane. -/
theorem State.bitLanes_good {s : State} {b : Src} {js : List Lane}
    (h : js.find? (fun j => badIndex (s.srcIndex b j)) = none) : s.bitLanes b js = js := by
  induction js with
  | nil => rfl
  | cons j js ih =>
    simp only [List.find?_cons] at h
    split at h
    · cases h
    · rename_i hb; simp [State.bitLanes, hb, ih h]

/-- The warnings of an operation that accesses no memory and completes are those of the reads of
`sourcePlaces`, in their order (R140, log 10). -/
theorem opOf_warns {i : Instr} {s : State} {mask : PerLane Bool} {ws : List Warn} {es : List Write}
    (h : opOf i s mask = .done ws es) :
    match i with
    | .ldDirect _ _ _ | .ldPost _ _ _ _ | .stDirect _ _ _ | .stPost _ _ _ _ | .lddDirect _ _ _
    | .lddPost _ _ _ _ | .stdDirect _ _ _ | .stdPost _ _ _ _ => True
    | i => ws = s.staleWarns ((s.sourcePlaces mask i).filterMap Place.hazReg) := by
  have modes : ∀ f : Lane → List Place, (∀ j ∈ s.execLanes mask, (f j).filterMap Place.hazReg = [.mstat]) →
      (if s.execAny mask then s.staleWarns [.mstat] else []) =
        s.staleWarns (((s.execLanes mask).flatMap f).filterMap Place.hazReg) := by
    intro f hf
    rw [s.staleWarns_lanes _ hf]
    cases hl : s.execLanes mask with
    | nil =>
      have : ¬ s.execAny mask = true := by
        rw [State.execAny_iff]; rintro ⟨j, hj⟩
        rw [← s.mem_execLanes, hl] at hj; cases hj
      simp [this]
    | cons j js =>
      have : s.execAny mask = true :=
        (s.execAny_iff mask).mpr ⟨j, (s.mem_execLanes mask j).mp (by simp [hl])⟩
      simp [this]
  cases i <;> try trivial
  all_goals simp only [opOf, aluReal, bitOp, aluAcc, aluPair, magOp, rectOp, macReal, macPair, rndaccOp, clraccOp,
    shiftReal, shiftOr, shiftPair, modifyOp, moveRegister, loadImmediate, xrdOp, xwrOp] at h
  all_goals simp only [State.sourcePlaces]
  all_goals try (cases h; refine modes _ ?_; intro j _; simp [State.productPlacesC, State.productPlacesRC,
    State.modePlace, State.latPlace, Place.hazReg, List.filterMap_cons, accPlaces, pairPlaces, priorPairPlaces])
  all_goals try (cases h; refine (s.staleWarns_none _ ?_).symm; intro j
                 simp [shiftPairPlaces, Place.hazReg, List.filterMap_cons])
  case tstbit | setbit | clrbit | tglbit =>
    split at h <;> cases h
    rename_i hb
    rw [State.bitLanes_good hb]
    refine modes _ fun j hj => ?_
    have := List.find?_eq_none.mp hb j hj
    simp [State.bitPlaces, this, Place.hazReg, List.filterMap_cons, State.modePlace, State.latPlace]
  case modify c k m =>
    simp only [State.scalarPlaces]
    split at h <;> cases h <;> simp_all <;> rfl
  case mov c dst src =>
    split at h <;> cases h
    cases hh : hazReads src with
    | nil =>
      rw [s.staleWarns_none _ fun j => (s.handlePlaces_hazReg src j).trans hh]
      simp [State.staleWarns, firstReads]
    | cons g gs =>
      have hg : hazReads src = [g] := by
        revert hh; cases src <;> simp [hazReads, hazOf] <;> rintro rfl rfl <;> simp
      rw [s.staleWarns_lanes _ fun j _ => (s.handlePlaces_hazReg src j).trans hg, ← hh, hg]
  case ldi => split at h <;> cases h; rfl
  case nop => cases h; rfl
  case clracc => cases h; rfl
  case xrd c dst src act off =>
    split at h <;> cases h
    rename_i hx
    rw [if_pos hx, hazReg_regs]; rfl
  case xwr c dst src act off =>
    split at h
    · cases h
    · split at h <;> cases h
      rename_i hx _
      rw [if_pos (by simpa using hx), hazReg_regs]; rfl

/-! ## Unspecified reads (R64) -/

/-- With nothing unspecified there is nothing to draw. -/
theorem State.drawAll_nil {s : State} (h : s.unwritten = []) : s.drawAll = s := by
  have hu : ∀ p, s.unset p = false := by simp [State.unset, h]
  have he : ∀ g e, s.drawnEntry g e = e := by
    intro g e; simp [State.drawnEntry, hu, Hazard.value]
  have hc : ∀ c, s.drawnCtl c = s.ctl c := by intro c; simp [State.drawnCtl, hu]
  have hv : ∀ {α : Type} {n : Nat} (v : Vector α n), (Vector.ofFn fun k => v.get k) = v := by
    intro α n v; ext k hk; simp [Vector.get_eq_getElem]
  have hr : (Vector.ofFn fun k => PerLane.ofFn fun j => s.reg k j) = s.r := by
    refine Eq.trans ?_ (hv s.r)
    refine congrArg Vector.ofFn (funext fun k => ?_)
    exact PerLane.ext_get fun j => by simp [State.reg]
  have ha : (Vector.ofFn fun n => PerLane.ofFn fun j => s.accLane n j) = s.acc := by
    refine Eq.trans ?_ (hv s.acc)
    refine congrArg Vector.ofFn (funext fun k => ?_)
    exact PerLane.ext_get fun j => by simp [State.accLane]
  simp only [State.drawAll, State.drawnAcc, hu, he, hc, hv, hr, ha, Bool.false_eq_true, if_false,
    State.ctl]

/-- An operation that reads no unspecified place reads the state as it is. -/
theorem State.Known.drawn {s : State} {i : Instr} (h : s.Known i) : s.drawn = s := by
  rcases h with h | h | ⟨h, _⟩
  · simp [State.drawn, h]
  · rcases s.drawn_cases with hd | hd
    · exact hd
    · rw [hd, State.drawAll_nil h]
  · simp [State.drawn, h]

/-- An operation that reads no unspecified place passes the check of its reads. -/
theorem State.Known.firstUnset {s : State} {i : Instr} (h : s.Known i) {ps : List Place}
    (hp : ∀ p ∈ ps, p ∈ s.placesRead i) : s.firstUnset ps = none := by
  rcases h with h | h | ⟨h, hu⟩
  · simp [State.firstUnset, h]
  · unfold State.firstUnset
    split <;> simp [State.unset, h]
  · simp only [State.firstUnset, h, List.find?_eq_none, Bool.not_eq_true]
    exact fun p hm => hu p (hp p hm)

/-- The reads of an operation that reads no unspecified place do not show (R64). -/
theorem checked_known {i : Instr} {op : State → PerLane Bool → OpResult} {s : State} (h : s.Known i) :
    checked i op s (s.maskFor i.ctl.cond) = op s (s.maskFor i.ctl.cond) := by
  unfold checked
  rw [h.firstUnset (fun p hp => by simp [State.placesRead, hp]),
    h.firstUnset (fun p hp => by simp [State.placesRead, hp]),
    h.firstUnset (fun p hp => by simp [State.placesRead, hp]), h.drawn]
  simp only
  split <;> simp_all

/-- An operation that reads no unspecified place is issued as it is (R64). -/
theorem perform_known {i : Instr} {op : State → PerLane Bool → OpResult} {s : State} (h : s.Known i) :
    perform i op s = issue i.ctl op s := by
  simp only [perform, issue, checked_known h]

/-- An operation that reads no unspecified place is its own operation, issued (R64). -/
theorem exec_known {i : Instr} {s : State} (h : s.Known i) : exec i s = issue i.ctl (opOf i) s :=
  (exec_eq i s).trans (perform_known h)

/-- An operation that completes with its reads checked completes on the state it reads. -/
theorem checked_done {i : Instr} {op : State → PerLane Bool → OpResult} {s : State} {mask : PerLane Bool}
    {ws : List Warn} {es : List Write} (h : checked i op s mask = .done ws es) :
    op s.drawn mask = .done ws es := by
  unfold checked at h
  split at h
  · cases h
  · split at h
    · cases h
    · split at h
      · cases h
      · rename_i hop
        split at h <;> cases h
        exact hop

/-- The end of a bundle either commits it or records the conflict (R130, R137). -/
theorem State.close_cases (s : State) :
    (firstConflict [] s.staged = none ∧ s.close = s.commit)
      ∨ (∃ k, firstConflict [] s.staged = some k ∧ s.close = s.raiseAt k eCombo) := by
  unfold State.close
  cases h : firstConflict [] s.staged with
  | none => exact Or.inl ⟨rfl, rfl⟩
  | some k => exact Or.inr ⟨k, rfl, rfl⟩

/-- Everything an issued operation can answer (R130, R139). -/
theorem issue_cases (c : Ctl) (op : State → PerLane Bool → OpResult) (s : State) :
    (s.faultRec.isSome ∧ issue c op s = .refused .faultRecorded)
      ∨ (s.faultRec = none ∧ ∃ warns e, op s (s.maskFor c.cond) = .fail warns e
          ∧ issue c op s = .next ((s.warn (s.condWarns c.cond ++ warns)).raiseAt s.slot e))
      ∨ (s.faultRec = none ∧ ∃ warns es, op s (s.maskFor c.cond) = .done warns es
          ∧ issue c op s = .next
              (if c.eob then ((s.warn (s.condWarns c.cond ++ warns)).stage
                  (s.slotOut (s.maskFor c.cond)) es).close
                else (s.warn (s.condWarns c.cond ++ warns)).stage (s.slotOut (s.maskFor c.cond)) es)) := by
  unfold issue
  cases hf : s.faultRec with
  | some f => exact Or.inl ⟨rfl, rfl⟩
  | none =>
    cases hop : op s (s.maskFor c.cond) with
    | fail warns e => exact Or.inr (Or.inl ⟨rfl, warns, e, rfl, by simp [hop]⟩)
    | done warns es => exact Or.inr (Or.inr ⟨rfl, warns, es, rfl, by simp [hop]⟩)

end Sys2Proof.Machine
end

