-- ==== Sys2Proof/Laws/Effects.lean ====
section
/-! SUPPORT. What every operation's effects can be: their lanes execute (for XWR, are enabled) and their
addresses lie in the data memory. -/

namespace Sys2Proof.Machine

/-- The lane of an effect satisfies `P`, and its address lies in 0..0xFFFF. -/
def Write.fits (P : Lane → Prop) : Write → Prop
  | .reg _ j _ | .acc _ j _ _ | .flags _ j _ | .umClear j | .umInc j | .ovInc j => P j
  | .mem a j _ => a < 65536 ∧ P j
  | .memTouch a => a < 65536
  | .haz _ _ | .ctl _ _ | .dstat0 _ | .dstat1 _ | .agu _ _ => True

theorem Write.fits_mono {P Q : Lane → Prop} (h : ∀ j, P j → Q j) {w : Write} (hw : w.fits P) :
    w.fits Q := by
  cases w <;> simp only [Write.fits] at hw ⊢ <;> first | exact h _ hw | exact ⟨hw.1, h _ hw.2⟩ | exact hw

/-- Every effect of a list fits. -/
def allFit (P : Lane → Prop) (ws : List Write) : Prop := ∀ w ∈ ws, w.fits P

theorem allFit_nil (P : Lane → Prop) : allFit P [] := fun _ h => absurd h (by simp)

theorem allFit_cons {P : Lane → Prop} {w : Write} {ws : List Write} (hw : w.fits P) (h : allFit P ws) :
    allFit P (w :: ws) := by
  intro x hx
  rcases List.mem_cons.mp hx with rfl | h'
  · exact hw
  · exact h x h'

theorem allFit_append {P : Lane → Prop} {xs ys : List Write} (hx : allFit P xs) (hy : allFit P ys) :
    allFit P (xs ++ ys) := by
  intro w hw
  rcases List.mem_append.mp hw with h | h
  · exact hx w h
  · exact hy w h

theorem allFit_lanes {P : Lane → Prop} {js : List Lane} {L : Lane → List Write}
    (h : ∀ j ∈ js, allFit P (L j)) : allFit P (js.flatMap L) := by
  intro w hw
  obtain ⟨j, hj, hw⟩ := List.mem_flatMap.mp hw
  exact h j hj w hw

theorem allFit_regWrite {P : Lane → Prop} {j : Lane} (hj : P j) (dst : Option (Fin 32)) (v : Data) :
    allFit P (regWrite dst j v) := by
  cases dst
  · exact allFit_nil P
  · exact allFit_cons hj (allFit_nil P)

theorem allFit_accWrite {P : Lane → Prop} {j : Lane} (hj : P j) (dst : Option (Fin 8)) (v : AccWord) :
    allFit P (accWrite dst j v) := by
  cases dst
  · exact allFit_nil P
  · exact allFit_cons hj (allFit_nil P)

theorem allFit_ovCount {P : Lane → Prop} {j : Lane} (hj : P j) (ov : Bool) : allFit P (ovCount j ov) := by
  cases ov
  · exact allFit_nil P
  · exact allFit_cons hj (allFit_nil P)

theorem allFit_writes {P : Lane → Prop} {j : Lane} (h : Handle) (hj : h.policy = .lanes → P j) (v : Int) :
    allFit P (h.writes j v) := by
  cases h <;> simp only [Handle.writes, Handle.policy, true_implies] at hj ⊢ <;>
    first
    | exact allFit_nil P
    | exact allFit_cons hj (allFit_nil P)
    | exact allFit_cons trivial (allFit_nil P)

/-- The effects of writing a handle are in executing lanes. -/
theorem allFit_dest (s : State) (mask : PerLane Bool) (h : Handle) (v : Lane → Int) :
    allFit (fun j => s.executing mask j = true) (s.destWrites mask h v) := by
  refine allFit_lanes fun j hj => allFit_writes h (fun hp => ?_) _
  simp only [State.usedLanes, hp] at hj
  exact (s.mem_execLanes mask j).mp hj

theorem State.postAddr_lt (s : State) (k : Fin 8) : s.postAddr k < 65536 := by
  unfold State.postAddr; exact (BitVec.isLt _)

theorem State.effAddr_lt (s : State) (x : Addr) : s.effAddr x < 65536 := by
  cases x with
  | direct a => exact a.isLt
  | post k m => exact s.postAddr_lt k

theorem allFit_step (P : Lane → Prop) (s : State) (x : Addr) : allFit P (s.stepWrites x) := by
  cases x
  · exact allFit_nil P
  · exact allFit_cons trivial (allFit_nil P)

theorem allFit_store (s : State) (mask : PerLane Bool) {a : Nat} (ha : a < 65536) (v : Lane → Int) :
    allFit (fun j => s.executing mask j = true) (s.storeWrites mask a v) :=
  allFit_cons ha (allFit_lanes fun j hj =>
    allFit_cons ⟨ha, (s.mem_execLanes mask j).mp hj⟩ (allFit_nil _))

theorem allFit_um (s : State) (mask : PerLane Bool) (a : Nat) :
    allFit (fun j => s.executing mask j = true) (s.umWrites mask a) := by
  unfold State.umWrites
  split
  · split
    · refine allFit_lanes fun j hj => ?_
      have := (s.mem_execLanes mask j).mp hj
      exact allFit_cons this (allFit_cons this (allFit_cons this (allFit_nil _)))
    · exact allFit_nil _
  · exact allFit_nil _

/-! ## The families -/

section

variable {s : State} {mask : PerLane Bool} {ws : List Warn} {es : List Write}

/-- What the families' lemmas say: every effect is in an executing lane. -/
def Fit (s : State) (mask : PerLane Bool) (es : List Write) : Prop :=
  allFit (fun j => s.executing mask j = true) es

theorem fit_lanes {L : Lane → List Write}
    (h : ∀ j, s.executing mask j = true → allFit (fun j => s.executing mask j = true) (L j)) :
    Fit s mask ((s.execLanes mask).flatMap L) :=
  allFit_lanes fun j hj => h j ((s.mem_execLanes mask j).mp hj)

theorem aluReal_fit {dst : Option (Fin 32)} {f : State → Lane → AluOut}
    (h : aluReal dst f s mask = .done ws es) : Fit s mask es := by
  cases h
  exact fit_lanes fun j hj =>
    allFit_append (allFit_regWrite hj _ _) (allFit_cons hj (allFit_nil _))

theorem bitOp_fit {dst : Option (Fin 32)} {sa : Fin 32} {b : Src} {g : Data → Data → Data}
    (h : bitOp dst sa b g s mask = .done ws es) : Fit s mask es := by
  unfold bitOp at h
  split at h
  · cases h
  · exact aluReal_fit h

theorem aluAcc_fit {dst : Option (Fin 8)} {f : State → Lane → Int × Bool}
    (h : aluAcc dst f s mask = .done ws es) : Fit s mask es := by
  cases h
  exact fit_lanes fun j hj =>
    allFit_append (allFit_accWrite hj _ _) (allFit_cons hj (allFit_nil _))

theorem aluPair_fit {dst : Option RPair} {f : State → Lane → AluOut × AluOut}
    (h : aluPair dst f s mask = .done ws es) : Fit s mask es := by
  cases h
  exact fit_lanes fun j hj =>
    allFit_append (allFit_append (allFit_regWrite hj _ _) (allFit_regWrite hj _ _))
      (allFit_cons hj (allFit_cons hj (allFit_cons hj (allFit_nil _))))

theorem magOp_fit {dst : Option (Fin 32)} {sa : RPair} (h : magOp dst sa s mask = .done ws es) :
    Fit s mask es := by
  cases h
  exact fit_lanes fun j hj =>
    allFit_append (allFit_regWrite hj _ _) (allFit_cons hj (allFit_cons hj (allFit_nil _)))

theorem rectOp_fit {dst : Option RPair} {sa sb : Fin 32} (h : rectOp dst sa sb s mask = .done ws es) :
    Fit s mask es := by
  cases h
  exact fit_lanes fun j hj => allFit_append (allFit_regWrite hj _ _) (allFit_regWrite hj _ _)

theorem macReal_fit {dst : Option (Fin 8)} {rnd : Bool} {f : State → Lane → Int}
    (h : macReal dst rnd f s mask = .done ws es) : Fit s mask es := by
  cases h
  exact fit_lanes fun j hj =>
    allFit_append (allFit_accWrite hj _ _) (allFit_cons hj (allFit_ovCount hj _))

theorem macPair_fit {dst : Option AccPair} {rnd : Bool} {f : State → Lane → Int × Int}
    (h : macPair dst rnd f s mask = .done ws es) : Fit s mask es := by
  cases h
  exact fit_lanes fun j hj =>
    allFit_append (allFit_append (allFit_append
      (allFit_append (allFit_accWrite hj _ _) (allFit_accWrite hj _ _))
      (allFit_cons hj (allFit_cons hj (allFit_cons hj (allFit_nil _)))))
      (allFit_ovCount hj _)) (allFit_ovCount hj _)

theorem rndaccOp_fit {dst : Option (Fin 8)} {sa : Fin 8} (h : rndaccOp dst sa s mask = .done ws es) :
    Fit s mask es := by
  cases h
  exact fit_lanes fun j hj =>
    allFit_append (allFit_accWrite hj _ _) (allFit_cons hj (allFit_ovCount hj _))

theorem clraccOp_fit {dst : Option (Fin 8)} (h : clraccOp dst s mask = .done ws es) : Fit s mask es := by
  cases h
  exact fit_lanes fun j hj =>
    allFit_append (allFit_accWrite hj _ _) (allFit_cons hj (allFit_nil _))

theorem shiftReal_fit {dst : Option (Fin 8)} {a : ShiftSrc} {f : State → Lane → Int}
    (h : shiftReal dst a f s mask = .done ws es) : Fit s mask es := by
  cases h
  exact fit_lanes fun j hj =>
    allFit_append (allFit_accWrite hj _ _) (allFit_cons hj (allFit_nil _))

theorem shiftOr_fit {dst : Option (Fin 8)} {a : ShiftSrc} {f : State → Lane → Int}
    (h : shiftOr dst a f s mask = .done ws es) : Fit s mask es := by
  cases h
  exact fit_lanes fun j hj =>
    allFit_append (allFit_accWrite hj _ _) (allFit_cons hj (allFit_nil _))

theorem shiftPair_fit {dst : Option AccPair} {a : ShiftPair} {f : State → Lane → Int × Int}
    (h : shiftPair dst a f s mask = .done ws es) : Fit s mask es := by
  cases h
  exact fit_lanes fun j hj =>
    allFit_append (allFit_append (allFit_accWrite hj _ _) (allFit_accWrite hj _ _))
      (allFit_cons hj (allFit_cons hj (allFit_cons hj (allFit_nil _))))

theorem loadWord_fit {dst : Handle} {x : Addr} (h : loadWord dst x s mask = .done ws es) :
    Fit s mask es := by
  unfold loadWord at h
  split at h
  · simp only at h
    split at h
    · cases h
    · split at h
      · cases h
      · cases h
        exact allFit_append (allFit_cons (s.effAddr_lt x) (allFit_dest _ _ _ _)) (allFit_step _ _ _)
  · cases h; exact allFit_nil _

theorem storeWord_fit {src : Handle} {x : Addr} (h : storeWord src x s mask = .done ws es) :
    Fit s mask es := by
  unfold storeWord at h
  split at h
  · cases h
    exact allFit_append (allFit_store _ _ (s.effAddr_lt x) _) (allFit_step _ _ _)
  · cases h; exact allFit_nil _

/-- A double-word access that goes on has both its words in the data memory (R80, R82). -/
theorem pairAccess_done {x : Addr} {access : List Warn → OpResult}
    (h : s.pairAccess x access = .done ws es) :
    s.effAddr x + 1 < 65536 ∧ ∃ before, access before = .done ws es := by
  unfold State.pairAccess at h
  simp only at h
  split at h
  · cases h
  · split at h
    · cases h
    · exact ⟨by omega, _, h⟩

theorem loadPair_fit {dst : Option RPair} {x : Addr} (h : loadPair dst x s mask = .done ws es) :
    Fit s mask es := by
  unfold loadPair at h
  split at h
  · obtain ⟨ha, before, h⟩ := pairAccess_done h
    simp only at h
    split at h
    · cases h
    · cases h
    · cases h
      refine allFit_append (allFit_append (allFit_um _ _ _) (allFit_cons (s.effAddr_lt x)
        (allFit_cons ha (allFit_lanes fun j hj => ?_)))) (allFit_step _ _ _)
      have hj := (s.mem_execLanes mask j).mp hj
      exact allFit_append (allFit_regWrite hj _ _) (allFit_regWrite hj _ _)
  · cases h; exact allFit_nil _

theorem storePair_fit {src : RPair} {x : Addr} (h : storePair src x s mask = .done ws es) :
    Fit s mask es := by
  unfold storePair at h
  split at h
  · obtain ⟨ha, before, h⟩ := pairAccess_done h
    cases h
    exact allFit_append (allFit_append (allFit_append (allFit_um _ _ _)
      (allFit_store _ _ (s.effAddr_lt x) _)) (allFit_store _ _ ha _)) (allFit_step _ _ _)
  · cases h; exact allFit_nil _

theorem modifyOp_fit {k m : Fin 8} (h : modifyOp k m s mask = .done ws es) : Fit s mask es := by
  unfold modifyOp at h
  split at h
  · cases h; exact allFit_cons trivial (allFit_nil _)
  · cases h; exact allFit_nil _

theorem moveRegister_fit {dst src : Handle} (h : moveRegister dst src s mask = .done ws es) :
    Fit s mask es := by
  unfold moveRegister at h
  simp only at h
  split at h
  · cases h
  · cases h; exact allFit_dest _ _ _ _

theorem loadImmediate_fit {dst : Handle} {v : Half} (h : loadImmediate dst v s mask = .done ws es) :
    Fit s mask es := by
  unfold loadImmediate at h
  split at h
  · cases h
  · cases h; exact allFit_dest _ _ _ _

theorem xrdOp_fit {dst src : Fin 32} {act : XAct} {off : Fin 4}
    (h : xrdOp dst src act off s mask = .done ws es) : Fit s mask es := by
  unfold xrdOp at h
  split at h
  · cases h
    exact fit_lanes fun j hj => allFit_cons hj (allFit_nil _)
  · cases h

/-- XWR's effects are in enabled lanes (R322). -/
theorem xwrOp_fit {dst src : Fin 32} {act : XAct} {off : Fin 4}
    (h : xwrOp dst src act off s mask = .done ws es) : allFit (fun j => s.enabled j = true) es := by
  unfold xwrOp at h
  split at h
  · cases h
  · split at h
    · cases h
    · cases h
      intro w hw
      obtain ⟨j, hj, rfl⟩ := List.mem_map.mp hw
      exact (List.mem_filter.mp hj).2

end

/-- Say once where the effects of an operation other than XWR can be. -/
theorem opOf_fit {i : Instr} (hi : ∀ c d a act off, i ≠ .xwr c d a act off) {s : State}
    {mask : PerLane Bool} {ws : List Warn} {es : List Write} (h : opOf i s mask = .done ws es) :
    Fit s mask es := by
  unfold opOf at h
  cases i with
  | add => exact aluReal_fit h
  | addc => exact aluReal_fit h
  | sub => exact aluReal_fit h
  | subc => exact aluReal_fit h
  | subb => exact aluReal_fit h
  | subbc => exact aluReal_fit h
  | and => exact aluReal_fit h
  | or => exact aluReal_fit h
  | xor => exact aluReal_fit h
  | not => exact aluReal_fit h
  | abs => exact aluReal_fit h
  | inc => exact aluReal_fit h
  | dec => exact aluReal_fit h
  | scr => exact aluReal_fit h
  | tstbit => exact bitOp_fit h
  | setbit => exact bitOp_fit h
  | clrbit => exact bitOp_fit h
  | tglbit => exact bitOp_fit h
  | addA => exact aluAcc_fit h
  | subA => exact aluAcc_fit h
  | addC => exact aluPair_fit h
  | subC => exact aluPair_fit h
  | rccwC => exact aluPair_fit h
  | rcwC => exact aluPair_fit h
  | magC => exact magOp_fit h
  | rectC => exact rectOp_fit h
  | mpy => exact macReal_fit h
  | mac => exact macReal_fit h
  | mas => exact macReal_fit h
  | mpyC => exact macPair_fit h
  | macC => exact macPair_fit h
  | masC => exact macPair_fit h
  | mpyRC => exact macPair_fit h
  | macRC => exact macPair_fit h
  | masRC => exact macPair_fit h
  | rndacc => exact rndaccOp_fit h
  | clracc => exact clraccOp_fit h
  | ashift => exact shiftReal_fit h
  | lshift => exact shiftReal_fit h
  | ashiftor => exact shiftOr_fit h
  | lshiftor => exact shiftOr_fit h
  | ashiftC => exact shiftPair_fit h
  | lshiftC => exact shiftPair_fit h
  | ldDirect => exact loadWord_fit h
  | ldPost => exact loadWord_fit h
  | stDirect => exact storeWord_fit h
  | stPost => exact storeWord_fit h
  | lddDirect => exact loadPair_fit h
  | lddPost => exact loadPair_fit h
  | stdDirect => exact storePair_fit h
  | stdPost => exact storePair_fit h
  | modify => exact modifyOp_fit h
  | mov => exact moveRegister_fit h
  | ldi => exact loadImmediate_fit h
  | xrd => exact xrdOp_fit h
  | nop c => cases h; exact allFit_nil _
  | xwr c d a act off => exact absurd rfl (hi c d a act off)

/-- An executing lane is enabled (R133). -/
theorem State.enabled_of_executing {s : State} {mask : PerLane Bool} {j : Lane}
    (h : s.executing mask j = true) : s.enabled j = true := (Bool.and_eq_true_iff.mp h).1

/-- Say once where the effects of any operation can be: in enabled lanes, inside the data memory. -/
theorem opOf_enabled {i : Instr} {s : State} {mask : PerLane Bool} {ws : List Warn} {es : List Write}
    (h : opOf i s mask = .done ws es) : allFit (fun j => s.enabled j = true) es := by
  by_cases hi : ∀ c d a act off, i ≠ .xwr c d a act off
  · exact fun w hw => Write.fits_mono (fun _ => State.enabled_of_executing) (opOf_fit hi h w hw)
  · cases i with
    | xwr c d a act off => exact xwrOp_fit h
    | _ => exact absurd (fun c d a act off => by simp) hi

/-- What an operation reads is enabled where the state is. -/
theorem State.drawn_enabled (s : State) (j : Lane) : s.drawn.enabled j = s.enabled j := by
  simp [State.enabled]

theorem State.drawn_executing (s : State) (mask : PerLane Bool) (j : Lane) :
    s.drawn.executing mask j = s.executing mask j := by
  simp [State.executing, State.drawn_enabled]

/-- `opOf_fit` for an operation with its reads checked. -/
theorem exec_fit {i : Instr} (hi : ∀ c d a act off, i ≠ .xwr c d a act off) {s : State}
    {mask : PerLane Bool} {ws : List Warn} {es : List Write}
    (h : checked i (opOf i) s mask = .done ws es) : Fit s mask es := by
  have hf := opOf_fit hi (checked_done h)
  simpa [Fit, State.drawn_executing] using hf

/-- `opOf_enabled` for an operation with its reads checked. -/
theorem exec_enabled {i : Instr} {s : State} {mask : PerLane Bool} {ws : List Warn} {es : List Write}
    (h : checked i (opOf i) s mask = .done ws es) : allFit (fun j => s.enabled j = true) es := by
  have hf := opOf_enabled (checked_done h)
  simpa [State.drawn_enabled] using hf

end Sys2Proof.Machine
end

