-- ==== Sys2Proof/Laws/Encoding.lean ====
section
/-! SUPPORT. The small lemmas of the encoding: fields and words, codes and handles, and what each check
of the decoder answers. -/

namespace Sys2Proof

/-! ## Fields and words (R101) -/

theorem Fields.unpack_pack (f : Fields) : Fields.unpack f.pack = f := by
  cases f
  simp only [Fields.unpack, Fields.pack, Fields.mk.injEq]
  refine ⟨?_, ?_, ?_, ?_, ?_, ?_, ?_, ?_, ?_, ?_, ?_, ?_, ?_⟩
  all_goals first
    | (apply BitVec.eq_of_getLsbD_eq
       intro i hi
       simp only [BitVec.getLsbD_extractLsb', BitVec.getLsbD_append, BitVec.getLsbD_ofBool, hi,
         decide_true, Bool.true_and]
       interval_cases i <;> simp)
    | (simp only [BitVec.getLsbD_append, BitVec.getLsbD_ofBool]; simp)

theorem Fields.pack_unpack (d : Descr) : (Fields.unpack d).pack = d := by
  apply BitVec.eq_of_getLsbD_eq
  intro i hi
  simp only [Fields.unpack, Fields.pack, BitVec.getLsbD_append, BitVec.getLsbD_ofBool,
    BitVec.getLsbD_extractLsb']
  interval_cases i <;> simp

/-! ## Codes (R104, R112, R113, R116) -/

@[simp] theorem Cond.ofCode_code (c : Cond) : Cond.ofCode c.code = c := by cases c <;> rfl

@[simp] theorem Cond.code_ofCode (n : BitVec 5) : (Cond.ofCode n).code = n := by
  revert n; decide

@[simp] theorem SignMode.ofMod_code (m : SignMode) : SignMode.ofMod m.code = m := by cases m <;> rfl

@[simp] theorem SignMode.code_ofMod (m : BitVec 2) : (SignMode.ofMod m).code = m := by
  revert m; decide

@[simp] theorem asField_code (f : Field) : asField f.code = .ok f := by cases f <;> rfl

@[simp] theorem asXAct_code (x : XAct) : asXAct x.code = .ok x := by cases x <;> rfl

theorem asField_ok {m : BitVec 2} {f : Field} (h : asField m = .ok f) : f.code = m := by
  cases f <;> (revert m; decide)

theorem asXAct_ok {m : BitVec 2} {x : XAct} (h : asXAct m = .ok x) : x.code = m := by
  cases x <;> (revert m; decide)

@[simp] theorem Handle.ofCode_code (h : Handle) : Handle.ofCode h.code = some h := by
  cases h with
  | r k => revert k; decide
  | acc n => revert n; decide
  | accH n => revert n; decide
  | accM n => revert n; decide
  | accL n => revert n; decide
  | i k => revert k; decide
  | m k => revert k; decide
  | l k => revert k; decide
  | b k => revert k; decide
  | ivec k => revert k; decide
  | astat c => cases c <;> rfl
  | _ => rfl

theorem Handle.code_ofCode {n : BitVec 7} {h : Handle} (hn : Handle.ofCode n = some h) : h.code = n := by
  have key : ∀ n : BitVec 7, (Handle.ofCode n).elim true (fun h => h.code == n) = true := by decide
  have := key n
  rw [hn] at this
  simpa using this

@[simp] theorem reservedHandle_code (h : Handle) : reservedHandle h.code = false := by
  cases h with
  | r k => revert k; decide
  | acc n => revert n; decide
  | accH n => revert n; decide
  | accM n => revert n; decide
  | accL n => revert n; decide
  | i k => revert k; decide
  | m k => revert k; decide
  | l k => revert k; decide
  | b k => revert k; decide
  | ivec k => revert k; decide
  | astat c => cases c <;> rfl
  | _ => rfl

@[simp] theorem reservedHandle_rCode (k : Fin 32) : reservedHandle (rCode k) = false :=
  reservedHandle_code _

@[simp] theorem reservedHandle_accCode (n : Fin 8) : reservedHandle (accCode n) = false :=
  reservedHandle_code _

@[simp] theorem reservedHandle_rPairCode (p : RPair) : reservedHandle (rPairCode p) = false :=
  reservedHandle_code _

@[simp] theorem reservedHandle_accPairCode (p : AccPair) : reservedHandle (accPairCode p) = false :=
  reservedHandle_code _

@[simp] theorem reservedHandle_noneCode : reservedHandle noneCode = false := rfl

@[simp] theorem reservedHandle_shiftSrc (a : ShiftSrc) : reservedHandle a.code = false := by
  cases a <;> simp [ShiftSrc.code]

@[simp] theorem reservedHandle_shiftPair (a : ShiftPair) : reservedHandle a.code = false := by
  cases a <;> simp [ShiftPair.code]

@[simp] theorem reservedHandle_optCode {α : Type} (code : α → BitVec 7)
    (h : ∀ x, reservedHandle (code x) = false) (d : Option α) : reservedHandle (optCode code d) = false := by
  cases d
  · rfl
  · exact h _

/-- An R handle is below 32. -/
theorem rCode_lt (k : Fin 32) : (rCode k).toNat < 32 := by revert k; decide

/-- An accumulator handle is not. -/
theorem accCode_not_lt (n : Fin 8) : ¬ (accCode n).toNat < 32 := by revert n; decide

/-! ## The operand checks on encoded operands -/

@[simp] theorem asR_rCode (k : Fin 32) : asR (rCode k) = .ok k := by revert k; decide

@[simp] theorem asAcc_accCode (n : Fin 8) : asAcc (accCode n) = .ok n := by revert n; decide

@[simp] theorem asRPair_rPairCode (p : RPair) : asRPair (rPairCode p) = .ok p := by revert p; decide

@[simp] theorem asAccPair_accPairCode (p : AccPair) : asAccPair (accPairCode p) = .ok p := by
  revert p; decide

@[simp] theorem asWritable_code (h : Handle) : asWritable h.code = .ok h := by simp [asWritable]

@[simp] theorem asReadable_code (h : Handle) (hr : h.readable = true) : asReadable h.code = .ok h := by
  simp [asReadable, hr]

@[simp] theorem asShiftSrc_code (a : ShiftSrc) : asShiftSrc a.code = .ok a := by
  cases a with
  | reg k => revert k; decide
  | acc n => revert n; decide

@[simp] theorem asShiftPair_code (a : ShiftPair) : asShiftPair a.code = .ok a := by
  cases a with
  | regs k => revert k; decide
  | accs n => revert n; decide

@[simp] theorem orNone_r (d : Option (Fin 32)) : orNone asR (optCode rCode d) = .ok d := by
  cases d with
  | none => rfl
  | some k => revert k; decide

@[simp] theorem orNone_rPair (d : Option RPair) : orNone asRPair (optCode rPairCode d) = .ok d := by
  cases d with
  | none => rfl
  | some p => revert p; decide

@[simp] theorem orNone_acc (d : Option (Fin 8)) : orNone asAcc (optCode accCode d) = .ok d := by
  cases d with
  | none => rfl
  | some n => revert n; decide

@[simp] theorem orNone_accPair (d : Option AccPair) :
    orNone asAccPair (optCode accPairCode d) = .ok d := by
  cases d with
  | none => rfl
  | some n => revert n; decide

@[simp] theorem need_true (e : CoreErr) : need true e = .ok () := rfl

theorem need_ok {b : Bool} {e : CoreErr} {u : Unit} (h : need b e = .ok u) : b = true := by
  cases b
  · simp [need] at h
  · rfl

/-! ## The operand checks read backwards -/

theorem asR_ok {h : BitVec 7} {k : Fin 32} (e : asR h = .ok k) : rCode k = h := by
  revert h k; decide

theorem asAcc_ok {h : BitVec 7} {n : Fin 8} (e : asAcc h = .ok n) : accCode n = h := by
  revert h n; decide

theorem asRPair_ok {h : BitVec 7} {p : RPair} (e : asRPair h = .ok p) : rPairCode p = h := by
  revert h p; decide

theorem asAccPair_ok {h : BitVec 7} {p : AccPair} (e : asAccPair h = .ok p) : accPairCode p = h := by
  revert h p; decide

theorem asWritable_ok {h : BitVec 7} {x : Handle} (e : asWritable h = .ok x) : x.code = h := by
  unfold asWritable at e
  split at e
  · rename_i y hy; cases e; exact Handle.code_ofCode hy
  · simp at e

theorem asReadable_ok {h : BitVec 7} {x : Handle} (e : asReadable h = .ok x) :
    x.code = h ∧ x.readable = true := by
  unfold asReadable at e
  split at e
  · rename_i y hy
    split at e
    · rename_i hr; cases e; exact ⟨Handle.code_ofCode hy, hr⟩
    · simp at e
  · simp at e

theorem orNone_ok {α : Type} {as : BitVec 7 → Except CoreErr α} {code : α → BitVec 7} {h : BitVec 7}
    {d : Option α} (hc : ∀ {h x}, as h = .ok x → code x = h) (e : orNone as h = .ok d) :
    optCode code d = h := by
  unfold orNone at e
  split at e
  · rename_i hn; cases e; exact hn.symm
  · cases ha : as h with
    | error x => simp [ha] at e
    | ok x => simp [ha] at e; subst e; exact hc ha

/-! ## The post-modify immediate (R115) -/

@[simp] theorem immK_postCode (k m : Fin 8) : immK (postCode k m) = k := by revert k m; decide

@[simp] theorem immM_postCode (k m : Fin 8) : immM (postCode k m) = m := by revert k m; decide

@[simp] theorem postImm_postCode (k m : Fin 8) : postImm (postCode k m) = .ok () := by
  revert k m; decide

theorem postCode_imm {v : Half} (h : v.extractLsb' 6 10 = 0#10) : postCode (immK v) (immM v) = v := by
  apply BitVec.eq_of_toNat_eq
  have h' := congrArg BitVec.toNat h
  simp only [BitVec.extractLsb'_toNat, BitVec.toNat_ofNat] at h'
  simp only [postCode, immK, immM, BitVec.toNat_ofNat, BitVec.val_toFin, BitVec.extractLsb'_toNat]
  have hv := v.isLt
  simp only [Nat.shiftRight_eq_div_pow] at *
  omega

/-! ## The cross-lane immediate (R115) -/

@[simp] theorem immOff_offCode (off : Fin 4) : immOff (offCode off) = off := by revert off; decide

@[simp] theorem offImm_offCode (off : Fin 4) : offImm (offCode off) = .ok () := by revert off; decide

theorem offCode_imm {v : Half} (h : v.extractLsb' 2 14 = 0#14) : offCode (immOff v) = v := by
  apply BitVec.eq_of_toNat_eq
  have h' := congrArg BitVec.toNat h
  simp only [BitVec.extractLsb'_toNat, BitVec.toNat_ofNat] at h'
  simp only [offCode, immOff, BitVec.toNat_ofNat, BitVec.val_toFin, BitVec.extractLsb'_toNat]
  have hv := v.isLt
  simp only [Nat.shiftRight_eq_div_pow] at *
  omega

end Sys2Proof
end

