-- ==== Sys2Proof/Laws/Lanes.lean ====
section
/-! SUPPORT. The operations that work lane by lane: what each shared operation of the ALU, the MAC and the
shifter leaves in an executing lane, and that it changes nothing else. -/

namespace Sys2Proof.Machine

theorem re_ne_im (p : RPair) : p.re ≠ p.im := by revert p; decide

theorem acc_re_ne_im (p : AccPair) : p.re ≠ p.im := by revert p; decide

/-! ## Effects of one lane -/

/-- Every effect of a list is on a location of lane `j`. -/
def inLane (j : Lane) (ws : List Write) : Prop := ∀ w ∈ ws, ∃ l, w.loc = some l ∧ l.lane = some j

theorem inLane_nil (j : Lane) : inLane j [] := fun _ h => absurd h (by simp)

theorem inLane_cons {j : Lane} {w : Write} {ws : List Write} (l : Loc) (hw : w.loc = some l)
    (hl : l.lane = some j) (h : inLane j ws) : inLane j (w :: ws) := by
  intro x hx
  rcases List.mem_cons.mp hx with rfl | h'
  · exact ⟨l, hw, hl⟩
  · exact h x h'

theorem inLane_append {j : Lane} {xs ys : List Write} (hx : inLane j xs) (hy : inLane j ys) :
    inLane j (xs ++ ys) := by
  intro w hw
  rcases List.mem_append.mp hw with h | h
  · exact hx w h
  · exact hy w h

theorem inLane_regWrite (dst : Option (Fin 32)) (j : Lane) (v : Data) : inLane j (regWrite dst j v) := by
  cases dst
  · exact inLane_nil j
  · exact inLane_cons _ rfl rfl (inLane_nil j)

theorem inLane_accWrite (dst : Option (Fin 8)) (j : Lane) (v : AccWord) :
    inLane j (accWrite dst j v) := by
  cases dst
  · exact inLane_nil j
  · exact inLane_cons _ rfl rfl (inLane_nil j)

theorem inLane_ovCount (j : Lane) (ov : Bool) : inLane j (ovCount j ov) := by
  cases ov
  · exact inLane_nil j
  · exact inLane_cons _ rfl rfl (inLane_nil j)

theorem inLane_flags (c : Copy) (j : Lane) (u : FlagUpd) : inLane j [.flags c j u] :=
  inLane_cons _ rfl rfl (inLane_nil j)

/-- Effects of lane `i` leave alone what no effect of lane `i` changes. -/
theorem foldl_otherLane {β : Type} {i : Lane} {ws : List Write} (hws : inLane i ws)
    (f : β → Write → β) (hf : ∀ w, (∃ l, w.loc = some l ∧ l.lane = some i) → ∀ x, f x w = x) (x : β) :
    ws.foldl f x = x := by
  induction ws generalizing x with
  | nil => rfl
  | cons w ws ih =>
    rw [List.foldl_cons, hf w (hws w (List.mem_cons_self ..))]
    exact ih (fun y hy => hws y (List.mem_cons_of_mem _ hy)) x

/-- What a lane-by-lane operation leaves in an executing lane: the fold of that lane's effects. -/
structure LaneAfter (s t : State) (j : Lane) (ws : List Write) : Prop where
  reg : ∀ k, t.reg k j = ws.foldl (Write.onReg k j) (s.reg k j)
  acc : ∀ n, t.accLane n j = ws.foldl (Write.onAcc n j) (s.accLane n j)
  flags : ∀ c, t.flags c j = ws.foldl (Write.onFlags c j) (s.flags c j)
  umcount : t.umcount.get j = ws.foldl (Write.onUm j) (s.umcount.get j)
  ovcnt : t.ovcnt.get j = ws.foldl (Write.onOv j) (s.ovcnt.get j)

theorem Committed.lane {s t : State} {mask : PerLane Bool} {L : Lane → List Write}
    (h : Committed ((s.execLanes mask).flatMap L) s t) (hL : ∀ i, inLane i (L i)) {j : Lane}
    (hj : s.executing mask j = true) : LaneAfter s t j (L j) := by
  constructor
  · intro k
    rw [h.reg, foldl_execLanes s mask L _ j, if_pos hj]
    intro i hij
    refine foldl_otherLane (hL i) _ ?_
    rintro w ⟨l, hl, hi⟩ x
    cases w <;> simp only [Write.loc, Option.some.injEq, reduceCtorEq] at hl <;> subst hl <;>
      simp only [Loc.lane, Option.some.injEq, reduceCtorEq] at hi <;> simp_all [Write.onReg]
  · intro n
    rw [h.acc, foldl_execLanes s mask L _ j, if_pos hj]
    intro i hij
    refine foldl_otherLane (hL i) _ ?_
    rintro w ⟨l, hl, hi⟩ x
    cases w <;> simp only [Write.loc, Option.some.injEq, reduceCtorEq] at hl <;> subst hl <;>
      simp only [Loc.lane, Option.some.injEq, reduceCtorEq] at hi <;> simp_all [Write.onAcc]
  · intro c
    rw [h.flags, foldl_execLanes s mask L _ j, if_pos hj]
    intro i hij
    refine foldl_otherLane (hL i) _ ?_
    rintro w ⟨l, hl, hi⟩ x
    cases w <;> simp only [Write.loc, Option.some.injEq, reduceCtorEq] at hl <;> subst hl <;>
      simp only [Loc.lane, Option.some.injEq, reduceCtorEq] at hi <;> simp_all [Write.onFlags]
  · rw [h.umcount, foldl_execLanes s mask L _ j, if_pos hj]
    intro i hij
    refine foldl_otherLane (hL i) _ ?_
    rintro w ⟨l, hl, hi⟩ x
    cases w <;> simp only [Write.loc, Option.some.injEq, reduceCtorEq] at hl <;> subst hl <;>
      simp only [Loc.lane, Option.some.injEq, reduceCtorEq] at hi <;> simp_all [Write.onUm]
  · rw [h.ovcnt, foldl_execLanes s mask L _ j, if_pos hj]
    intro i hij
    refine foldl_otherLane (hL i) _ ?_
    rintro w ⟨l, hl, hi⟩ x
    cases w <;> simp only [Write.loc, Option.some.injEq, reduceCtorEq] at hl <;> subst hl <;>
      simp only [Loc.lane, Option.some.injEq, reduceCtorEq] at hi <;> simp_all [Write.onOv]

/-- A lane-by-lane operation alone in its bundle. -/
theorem issue_lanes {c : Ctl} {op : State → PerLane Bool → OpResult} {s : State} {warns : List Warn}
    {L : Lane → List Write} (T : Loc → Prop) (hs : s.Idle) (he : c.eob = true)
    (hop : op s (s.maskFor c.cond) = .done warns ((s.execLanes (s.maskFor c.cond)).flatMap L))
    (hL : ∀ i, inLane i (L i)) (hT : ∀ j, s.runs c j → writesIn T (L j)) :
    ∃ t, issue c op s = .next t ∧ Commits c T s t ∧ ∀ j, s.runs c j → LaneAfter s t j (L j) := by
  obtain ⟨t, h1, h2, _, h4⟩ := issue_done hs he hop
  exact ⟨t, h1, h2.commits hs (writesIn_execLanes _ _ _ hT) h4, fun j hj => h2.lane hL hj⟩

/-! ## The ALU -/

theorem sat12_eq (s : State) (r : Data) (ov cy : Bool) : sat12 s.arSat r ov cy = s.saturated r ov cy := by
  simp [sat12, State.saturated]

/-- The flags of a 12-bit result that does not write AS (R160, R162, R169). -/
theorem AluOut.flags_apply (s : State) (k : Copy) (j : Lane) (r : Data) (ov cy : Bool) :
    ((AluOut.flags ⟨r, ov, cy, none⟩).latchAv s.avLatch (s.flags k j)).apply (s.flags k j)
      = s.aluFlags k j (decide (r = 0#12)) r.msb ov cy := by
  simp [AluOut.flags, FlagUpd.latchAv, FlagUpd.apply, State.aluFlags]

/-- What a real ALU operation does (R181 to R184). -/
theorem aluReal_result {c : Ctl} {dst : Option (Fin 32)} {f : State → Lane → AluOut} {s : State}
    (hs : s.Idle) (he : c.eob = true) :
    ∃ t, issue c (aluReal dst f) s = .next t ∧ Commits c (s.regTargets c dst) s t
      ∧ ∀ j, s.runs c j →
        (∀ k, dst = some k → t.reg k j = s.saturated (f s j).r (f s j).ov (f s j).c)
        ∧ t.flags .re j =
          ((f s j).flags.latchAv s.avLatch (s.flags .re j)).apply (s.flags .re j) := by
  obtain ⟨t, h1, h2, h3⟩ := issue_lanes (s.regTargets c dst) (op := aluReal dst f) hs he rfl
    (fun i => inLane_append (inLane_regWrite _ _ _) (inLane_flags _ _ _)) (by
      intro j hj w hw l hl
      refine ⟨j, hj, ?_⟩
      cases dst <;> simp [State.aluWrite, regWrite] at hw
      · subst hw; cases hl; exact Or.inl rfl
      · rcases hw with rfl | rfl <;> cases hl
        · exact Or.inr ⟨_, rfl, rfl⟩
        · exact Or.inl rfl)
  refine ⟨t, h1, h2, fun j hj => ⟨?_, ?_⟩⟩
  · rintro k rfl
    rw [(h3 j hj).reg]
    simp [State.aluWrite, regWrite, Write.onReg, sat12_eq]
  · rw [(h3 j hj).flags]
    cases dst <;> simp [State.aluWrite, regWrite, Write.onFlags]

/-- A real ALU operation whose results write no AS. -/
theorem aluReal_plain {c : Ctl} {dst : Option (Fin 32)} {f : State → Lane → AluOut} {s : State}
    (hs : s.Idle) (he : c.eob = true) {r : Lane → Data} {ov cy : Lane → Bool}
    (hf : ∀ j, f s j = ⟨r j, ov j, cy j, none⟩) :
    ∃ t, issue c (aluReal dst f) s = .next t ∧ RealAlu c dst s t r ov cy := by
  obtain ⟨t, h1, h2, h3⟩ := aluReal_result (dst := dst) (f := f) hs he
  refine ⟨t, h1, h2, fun j hj => ?_, fun j hj => ?_⟩
  · have h := (h3 j hj).1; rw [hf j] at h; exact h
  · have h := (h3 j hj).2; rw [hf j, AluOut.flags_apply] at h; exact h

theorem Acc.word_whole (a : Acc) (v : AccWord) : (a.write .whole v).word = v := by
  simp only [Acc.write, Acc.word]
  ext i hi
  simp
  grind

theorem Acc.write_zero (a : Acc) : (a.write .whole 0#32).word = 0#32 := a.word_whole 0#32

/-- What ADD.A and SUB.A do (R204). -/
theorem aluAcc_result {c : Ctl} {dst : Option (Fin 8)} {f : State → Lane → Int × Bool} {s : State}
    (hs : s.Idle) (he : c.eob = true) :
    ∃ t, issue c (aluAcc dst f) s = .next t ∧ Commits c (s.accTargets c dst) s t
      ∧ ∀ j, s.runs c j →
        (∀ k, dst = some k → t.accWord k j = wrap32 (f s j).1)
        ∧ t.flags .re j = s.aluFlags .re j (decide (wrap32 (f s j).1 = 0#32)) (wrap32 (f s j).1).msb
          (ov32 s.cfg.accOvfWidth (f s j).1) (f s j).2 := by
  obtain ⟨t, h1, h2, h3⟩ := issue_lanes (s.accTargets c dst) (op := aluAcc dst f) hs he rfl
    (fun i => inLane_append (inLane_accWrite _ _ _) (inLane_flags _ _ _)) (by
      intro j hj w hw l hl
      refine ⟨j, hj, ?_⟩
      cases dst <;> simp [State.accAluWrite, accWrite] at hw
      · subst hw; cases hl; exact Or.inl rfl
      · rcases hw with rfl | rfl <;> cases hl
        · exact Or.inr ⟨_, rfl, rfl⟩
        · exact Or.inl rfl)
  refine ⟨t, h1, h2, fun j hj => ⟨?_, ?_⟩⟩
  · rintro k rfl
    rw [State.accWord, (h3 j hj).acc]
    simp [State.accAluWrite, accWrite, Write.onAcc, Acc.word_whole]
  · rw [(h3 j hj).flags]
    cases dst <;> simp [State.accAluWrite, accWrite, Write.onFlags, accFlags, FlagUpd.latchAv,
      FlagUpd.apply, State.aluFlags]

/-- What a complex ALU operation does (R221). -/
theorem aluPair_result {c : Ctl} {dst : Option RPair} {f : State → Lane → AluOut × AluOut} {s : State}
    (hs : s.Idle) (he : c.eob = true) {r i : Lane → Data} {ovR cyR ovI cyI : Lane → Bool}
    (hf : ∀ j, f s j = (⟨r j, ovR j, cyR j, none⟩, ⟨i j, ovI j, cyI j, none⟩)) :
    ∃ t, issue c (aluPair dst f) s = .next t ∧ PairAlu c dst s t r i ovR cyR ovI cyI := by
  obtain ⟨t, h1, h2, h3⟩ := issue_lanes (s.pairTargets c dst) (op := aluPair dst f) hs he rfl
    (fun i => inLane_append (inLane_append (inLane_regWrite _ _ _) (inLane_regWrite _ _ _))
      (inLane_cons _ rfl rfl (inLane_cons _ rfl rfl (inLane_flags _ _ _)))) (by
      intro j hj w hw l hl
      refine ⟨j, hj, ?_⟩
      cases dst <;> simp [State.pairWrite, regWrite, regRe, regIm] at hw
      · rcases hw with rfl | rfl | rfl <;> cases hl <;> exact Or.inl ⟨_, rfl⟩
      · rcases hw with rfl | rfl | rfl | rfl | rfl <;> cases hl
        · exact Or.inr ⟨_, rfl, Or.inl rfl⟩
        · exact Or.inr ⟨_, rfl, Or.inr rfl⟩
        all_goals exact Or.inl ⟨_, rfl⟩)
  refine ⟨t, h1, h2, fun j hj p hp => ⟨?_, ?_⟩, fun j hj => ?_, fun j hj => ?_, fun j hj => ?_⟩
  · subst hp
    rw [(h3 j hj).reg, hf j]
    have := re_ne_im p
    simp [State.pairWrite, regWrite, regRe, regIm, Write.onReg, sat12_eq, Ne.symm this]
  · subst hp
    rw [(h3 j hj).reg, hf j]
    simp [State.pairWrite, regWrite, regRe, regIm, Write.onReg, sat12_eq]
  · rw [(h3 j hj).flags, hf j]
    cases dst <;> simp [State.pairWrite, regWrite, regRe, regIm, Write.onFlags, AluOut.flags_apply]
  · rw [(h3 j hj).flags, hf j]
    cases dst <;> simp [State.pairWrite, regWrite, regRe, regIm, Write.onFlags, AluOut.flags_apply]
  · rw [(h3 j hj).flags, hf j]
    cases dst <;> simp [State.pairWrite, regWrite, regRe, regIm, Write.onFlags, AluOut.flags,
      combineFlags, combineFlag, FlagUpd.latchAv, FlagUpd.apply, State.aluFlags, combined]

/-! ## The MAC -/

theorem ov32_eq (s : State) (t : Int) : ov32 s.cfg.accOvfWidth t = s.tooWide t := by
  unfold ov32 State.tooWide
  cases s.cfg.accOvfWidth <;> simp only [Bool.not_and, ← decide_not, Int.not_le]

/-- The low 12 bits of a pattern, as a masked pattern and as a field. -/
theorem low12_eq (x : AccWord) : (x &&& 0xFFF#32 = 0x800#32) ↔ x.extractLsb' 0 12 = 0x800#12 := by
  rw [← BitVec.toNat_inj, ← BitVec.toNat_inj]
  simp only [BitVec.toNat_and, BitVec.extractLsb'_toNat, BitVec.toNat_ofNat]
  have h : x.toNat &&& 4095 = x.toNat % 4096 := Nat.and_two_pow_sub_one_eq_mod x.toNat 12
  norm_num [h]

theorem rnd32_eq (s : State) (x : AccWord) : rnd32 s.urnd x = s.rounded x := by
  unfold rnd32 State.rounded
  simp only [Bool.and_eq_true, decide_eq_true_eq, low12_eq]
  rfl

theorem product_eq (s : State) (mode : SignMode) (u v : Data) : s.product mode u v = s.times mode u v := by
  cases mode <;> cases h : s.mMode <;> simp [State.product, State.times, factor, signedA, signedB, h]

theorem foldl_ovCount_flags (c : Copy) (j i : Lane) (ov : Bool) (x : Flags) :
    (ovCount i ov).foldl (Write.onFlags c j) x = x := by cases ov <;> rfl

theorem foldl_ovCount_acc (n : Fin 8) (j i : Lane) (ov : Bool) (x : Acc) :
    (ovCount i ov).foldl (Write.onAcc n j) x = x := by cases ov <;> rfl

theorem foldl_ovCount_ov (j : Lane) (ov : Bool) (x : AccWord) :
    (ovCount j ov).foldl (Write.onOv j) x = x + (if ov = true then 1#32 else 0#32) := by
  cases ov <;> simp [ovCount, Write.onOv]

/-- What a real MAC operation does (R243 to R248). -/
theorem macReal_result {c : Ctl} {dst : Option (Fin 8)} {rnd : Bool} {f : State → Lane → Int} {s : State}
    (hs : s.Idle) (he : c.eob = true) :
    ∃ t, issue c (macReal dst rnd f) s = .next t ∧ RealMac c dst rnd s t (f s) := by
  obtain ⟨t, h1, h2, h3⟩ := issue_lanes
    (fun l => s.accTargets c dst l ∨ ∃ j, s.runs c j ∧ l = .ovcnt j) (op := macReal dst rnd f) hs he rfl
    (fun i => inLane_append (inLane_accWrite _ _ _) (inLane_cons _ rfl rfl (inLane_ovCount _ _))) (by
      intro j hj w hw l hl
      cases dst <;> simp [State.macWrite, accWrite, ovCount] at hw
      · rcases hw with rfl | ⟨_, rfl⟩ <;> cases hl
        · exact Or.inl ⟨j, hj, Or.inl rfl⟩
        · exact Or.inr ⟨j, hj, rfl⟩
      · rcases hw with rfl | rfl | ⟨_, rfl⟩ <;> cases hl
        · exact Or.inl ⟨j, hj, Or.inr ⟨_, rfl, rfl⟩⟩
        · exact Or.inl ⟨j, hj, Or.inl rfl⟩
        · exact Or.inr ⟨j, hj, rfl⟩)
  refine ⟨t, h1, h2, fun j hj => ?_, fun j hj => ?_, fun j hj => ?_⟩
  · rintro k rfl
    rw [State.accWord, (h3 j hj).acc]
    simp [State.macWrite, accWrite, Write.onAcc, foldl_ovCount_acc, Acc.word_whole, State.macValue,
      wrap32, rnd32_eq]
  · rw [(h3 j hj).flags]
    cases dst <;> simp [State.macWrite, accWrite, Write.onFlags, foldl_ovCount_flags, mvFlag,
      FlagUpd.apply, ov32_eq]
  · rw [(h3 j hj).ovcnt]
    cases dst <;> simp [State.macWrite, accWrite, Write.onOv, foldl_ovCount_ov, ov32_eq]

/-- What a complex MAC operation does (R246, R247, R253). -/
theorem macPair_result {c : Ctl} {dst : Option AccPair} {rnd : Bool} {f : State → Lane → Int × Int}
    {s : State} (hs : s.Idle) (he : c.eob = true) :
    ∃ t, issue c (macPair dst rnd f) s = .next t
      ∧ PairMac c dst rnd s t (fun j => (f s j).1) (fun j => (f s j).2) := by
  obtain ⟨t, h1, h2, h3⟩ := issue_lanes
    (fun l => s.accPairTargets c dst l ∨ ∃ j, s.runs c j ∧ l = .ovcnt j) (op := macPair dst rnd f) hs he
    rfl
    (fun i => inLane_append (inLane_append (inLane_append
      (inLane_append (inLane_accWrite _ _ _) (inLane_accWrite _ _ _))
      (inLane_cons _ rfl rfl (inLane_cons _ rfl rfl (inLane_flags _ _ _))))
      (inLane_ovCount _ _)) (inLane_ovCount _ _)) (by
      intro j hj w hw l hl
      cases dst <;> simp [State.macPairWrite, accWrite, accRe, accIm, ovCount] at hw
      · rcases hw with rfl | rfl | rfl | ⟨_, rfl⟩ | ⟨_, rfl⟩ <;> cases hl <;>
          first | exact Or.inl ⟨j, hj, Or.inl ⟨_, rfl⟩⟩ | exact Or.inr ⟨j, hj, rfl⟩
      · rcases hw with rfl | rfl | rfl | rfl | rfl | ⟨_, rfl⟩ | ⟨_, rfl⟩ <;> cases hl <;>
          first
          | exact Or.inl ⟨j, hj, Or.inl ⟨_, rfl⟩⟩
          | exact Or.inr ⟨j, hj, rfl⟩
          | exact Or.inl ⟨j, hj, Or.inr ⟨_, rfl, Or.inl rfl⟩⟩
          | exact Or.inl ⟨j, hj, Or.inr ⟨_, rfl, Or.inr rfl⟩⟩)
  refine ⟨t, h1, h2, fun j hj p hp => ⟨?_, ?_⟩, fun j hj => ?_, fun j hj => ?_, fun j hj => ?_,
    fun j hj => ?_⟩
  · subst hp
    rw [State.accWord, (h3 j hj).acc]
    simp [State.macPairWrite, accWrite, accRe, accIm, Write.onAcc, foldl_ovCount_acc, Acc.word_whole,
      State.macValue, wrap32, rnd32_eq, Ne.symm (acc_re_ne_im p)]
  · subst hp
    rw [State.accWord, (h3 j hj).acc]
    simp [State.macPairWrite, accWrite, accRe, accIm, Write.onAcc, foldl_ovCount_acc, Acc.word_whole,
      State.macValue, wrap32, rnd32_eq]
  · rw [(h3 j hj).flags]
    cases dst <;> simp [State.macPairWrite, accWrite, accRe, accIm, Write.onFlags, foldl_ovCount_flags,
      mvFlag, FlagUpd.apply, ov32_eq]
  · rw [(h3 j hj).flags]
    cases dst <;> simp [State.macPairWrite, accWrite, accRe, accIm, Write.onFlags, foldl_ovCount_flags,
      mvFlag, FlagUpd.apply, ov32_eq]
  · rw [(h3 j hj).flags]
    cases dst <;> simp [State.macPairWrite, accWrite, accRe, accIm, Write.onFlags, foldl_ovCount_flags,
      mvFlag, FlagUpd.apply, ov32_eq, combineFlags, combineFlag, combined]
  · rw [(h3 j hj).ovcnt]
    cases dst <;> simp [State.macPairWrite, accWrite, accRe, accIm, Write.onOv, foldl_ovCount_ov, ov32_eq]

/-! ## The shifter -/

/-- The effects of a shift are on its targets. -/
theorem shiftWrite_in {s : State} {c : Ctl} {dst : Option (Fin 8)} {a : ShiftSrc} {j : Lane}
    (hj : s.runs c j) (v : AccWord) (x : Int) :
    writesIn (s.accTargets c dst) (s.shiftWrite dst a j v x) := by
  intro w hw l hl
  refine ⟨j, hj, ?_⟩
  cases dst <;> simp [State.shiftWrite, accWrite] at hw
  · subst hw; cases hl; exact Or.inl rfl
  · rcases hw with rfl | rfl <;> cases hl
    · exact Or.inr ⟨_, rfl, rfl⟩
    · exact Or.inl rfl

/-- What a lane holds after the effects of a shift. -/
theorem shiftWrite_after {s t : State} {dst : Option (Fin 8)} {a : ShiftSrc} {j : Lane} {v : AccWord}
    {x : Int} (h : LaneAfter s t j (s.shiftWrite dst a j v x)) :
    (∀ k, dst = some k → t.accWord k j = v)
      ∧ t.flags .re j = { s.flags .re j with ss := s.shiftSign a j, sv := s.tooWide x } := by
  refine ⟨?_, ?_⟩
  · rintro k rfl
    rw [State.accWord, h.acc]
    simp [State.shiftWrite, accWrite, Write.onAcc, Acc.word_whole]
  · rw [h.flags]
    cases dst <;> simp [State.shiftWrite, accWrite, Write.onFlags, shiftFlags, FlagUpd.apply, ov32_eq]

/-- What ASHIFT and LSHIFT do (R273, R274). -/
theorem shiftReal_result {c : Ctl} {dst : Option (Fin 8)} {a : ShiftSrc} {f : State → Lane → Int}
    {s : State} (hs : s.Idle) (he : c.eob = true) :
    ∃ t, issue c (shiftReal dst a f) s = .next t ∧ Commits c (s.accTargets c dst) s t
      ∧ ∀ j, s.runs c j → (∀ k, dst = some k → t.accWord k j = wrap32 (f s j))
        ∧ t.flags .re j = { s.flags .re j with ss := s.shiftSign a j, sv := s.tooWide (f s j) } := by
  obtain ⟨t, h1, h2, h3⟩ := issue_lanes (s.accTargets c dst) (op := shiftReal dst a f) hs he rfl
    (fun i => inLane_append (inLane_accWrite _ _ _) (inLane_flags _ _ _))
    (fun j hj => shiftWrite_in hj _ _)
  exact ⟨t, h1, h2, fun j hj => shiftWrite_after (h3 j hj)⟩

/-- What ASHIFTOR and LSHIFTOR do (R273, R274). -/
theorem shiftOr_result {c : Ctl} {dst : Option (Fin 8)} {a : ShiftSrc} {f : State → Lane → Int}
    {s : State} (hs : s.Idle) (he : c.eob = true) :
    ∃ t, issue c (shiftOr dst a f) s = .next t ∧ Commits c (s.accTargets c dst) s t
      ∧ ∀ j, s.runs c j →
        (∀ k, dst = some k → t.accWord k j = wrap32 (f s j) ||| s.accWord k j)
        ∧ t.flags .re j = { s.flags .re j with ss := s.shiftSign a j, sv := s.tooWide (f s j) } := by
  obtain ⟨t, h1, h2, h3⟩ := issue_lanes (s.accTargets c dst) (op := shiftOr dst a f) hs he rfl
    (fun i => inLane_append (inLane_accWrite _ _ _) (inLane_flags _ _ _))
    (fun j hj => shiftWrite_in hj _ _)
  refine ⟨t, h1, h2, fun j hj => ?_⟩
  obtain ⟨g1, g2⟩ := shiftWrite_after (h3 j hj)
  exact ⟨fun k hk => by rw [g1 k hk, hk]; rfl, g2⟩

/-- What a complex shift does (R280, R281). -/
theorem shiftPair_result {c : Ctl} {dst : Option AccPair} {a : ShiftPair} {f : State → Lane → Int × Int}
    {s : State} (hs : s.Idle) (he : c.eob = true) :
    ∃ t, issue c (shiftPair dst a f) s = .next t ∧ Commits c (s.accPairTargets c dst) s t
      ∧ ∀ j, s.runs c j →
        (∀ p, dst = some p → t.accWord p.re j = wrap32 (f s j).1 ∧ t.accWord p.im j = wrap32 (f s j).2)
        ∧ t.flags .re j =
          { s.flags .re j with ss := s.shiftSign (shiftRe a) j, sv := s.tooWide (f s j).1 }
        ∧ t.flags .im j =
          { s.flags .im j with ss := s.shiftSign (shiftIm a) j, sv := s.tooWide (f s j).2 }
        ∧ t.flags .cx j = { s.flags .cx j with
            ss := combined s.cfg.combine.ss (s.shiftSign (shiftRe a) j) (s.shiftSign (shiftIm a) j)
            sv := combined s.cfg.combine.sv (s.tooWide (f s j).1) (s.tooWide (f s j).2) } := by
  obtain ⟨t, h1, h2, h3⟩ := issue_lanes (s.accPairTargets c dst) (op := shiftPair dst a f) hs he rfl
    (fun i => inLane_append (inLane_append (inLane_accWrite _ _ _) (inLane_accWrite _ _ _))
      (inLane_cons _ rfl rfl (inLane_cons _ rfl rfl (inLane_flags _ _ _)))) (by
      intro j hj w hw l hl
      refine ⟨j, hj, ?_⟩
      cases dst <;> simp [State.shiftPairWrite, accWrite, accRe, accIm] at hw
      · rcases hw with rfl | rfl | rfl <;> cases hl <;> exact Or.inl ⟨_, rfl⟩
      · rcases hw with rfl | rfl | rfl | rfl | rfl <;> cases hl
        · exact Or.inr ⟨_, rfl, Or.inl rfl⟩
        · exact Or.inr ⟨_, rfl, Or.inr rfl⟩
        all_goals exact Or.inl ⟨_, rfl⟩)
  refine ⟨t, h1, h2, fun j hj => ⟨fun p hp => ⟨?_, ?_⟩, ?_, ?_, ?_⟩⟩
  · subst hp
    rw [State.accWord, (h3 j hj).acc]
    simp [State.shiftPairWrite, accWrite, accRe, accIm, Write.onAcc, Acc.word_whole,
      Ne.symm (acc_re_ne_im p)]
  · subst hp
    rw [State.accWord, (h3 j hj).acc]
    simp [State.shiftPairWrite, accWrite, accRe, accIm, Write.onAcc, Acc.word_whole]
  · rw [(h3 j hj).flags]
    cases dst <;> simp [State.shiftPairWrite, accWrite, accRe, accIm, Write.onFlags, shiftFlags,
      FlagUpd.apply, ov32_eq]
  · rw [(h3 j hj).flags]
    cases dst <;> simp [State.shiftPairWrite, accWrite, accRe, accIm, Write.onFlags, shiftFlags,
      FlagUpd.apply, ov32_eq]
  · rw [(h3 j hj).flags]
    cases dst <;> simp [State.shiftPairWrite, accWrite, accRe, accIm, Write.onFlags, shiftFlags,
      FlagUpd.apply, ov32_eq, combineFlags, combineFlag, combined]

end Sys2Proof.Machine
end

