-- ==== Sys2Proof/Laws/Handles.lean ====
section
/-! SUPPORT. Writing a handle: which locations the effects are on, and what the handle holds afterwards (R41
to R44). -/

namespace Sys2Proof.Machine

/-! ## The lane whose value a write uses -/

theorem find_least {p : Lane → Bool} {j : Lane} (hp : p j = true) (h : ∀ i, i < j → ¬ p i = true) :
    allLanes.find? p = some j := by
  have h0 := h 0
  have h1 := h 1
  have h2 := h 2
  fin_cases j <;> simp_all [allLanes]

theorem find_some {p : Lane → Bool} {j : Lane} (h : allLanes.find? p = some j) :
    p j = true ∧ ∀ i, i < j → ¬ p i = true := by
  refine ⟨List.find?_some h, fun i hi hpi => ?_⟩
  have h0 := h
  cases p0 : p 0 <;> cases p1 : p 1 <;> cases p2 : p 2 <;> cases p3 : p 3 <;>
    simp [allLanes, p0, p1, p2, p3] at h0 <;> subst h0 <;> fin_cases i <;> simp_all

theorem State.firstLane_eq {s : State} {mask : PerLane Bool} {j : Lane} (h : s.firstLaneUnder mask j) :
    s.firstLane mask = some j := find_least h.1 h.2

theorem State.masterLane_eq {s : State} {mask : PerLane Bool} {j : Lane} (h : s.masterLaneUnder mask j) :
    s.masterLane mask = some j :=
  find_least (by simpa [State.masterOpenUnder] using h.1) fun i hi hx =>
    h.2 i hi (by simpa [State.masterOpenUnder] using hx)

theorem State.firstLane_some {s : State} {mask : PerLane Bool} {j : Lane}
    (h : s.firstLane mask = some j) : s.firstLaneUnder mask j := find_some h

theorem State.masterLane_some {s : State} {mask : PerLane Bool} {j : Lane}
    (h : s.masterLane mask = some j) : s.masterLaneUnder mask j := by
  obtain ⟨h1, h2⟩ := find_some h
  exact ⟨by simpa [State.masterOpenUnder] using h1, fun i hi hx => h2 i hi (by simpa [State.masterOpenUnder] using hx)⟩

/-! ## Where the effects are -/

theorem destWrites_in (s : State) (mask : PerLane Bool) (h : Handle) (v : Lane → Int) :
    writesIn (s.targetsUnder mask h) (s.destWrites mask h v) := by
  intro w hw l hl
  obtain ⟨j, hj, hw⟩ := List.mem_flatMap.mp hw
  cases h <;> simp only [State.usedLanes, Handle.policy, Option.mem_toList, List.not_mem_nil] at hj <;>
    simp only [Handle.writes, List.mem_singleton, List.not_mem_nil] at hw <;> subst hw <;> cases hl <;>
    first
    | exact ⟨j, (s.mem_execLanes _ j).mp hj, rfl⟩
    | exact ⟨(s.execAny_iff _).mpr ⟨j, (State.firstLane_some hj).1⟩, rfl⟩
    | exact ⟨⟨j, (State.masterLane_some hj).1⟩, rfl⟩

/-! ## What the handle holds afterwards -/

/-- The effects around a handle's own in a load: entries created, and a post-modify update of another
register. -/
structure Around (h : Handle) (pre post : List Write) : Prop where
  pre : ∀ w ∈ pre, ∃ a, w = .memTouch a
  post : ∀ w ∈ post, ∃ k x, w = .agu k x ∧ h ≠ .i k

theorem foldl_id {β : Type} {f : β → Write → β} {ws : List Write} (h : ∀ w ∈ ws, ∀ x, f x w = x) (x : β) :
    ws.foldl f x = x := by
  induction ws generalizing x with
  | nil => rfl
  | cons w ws ih =>
    rw [List.foldl_cons, h w (List.mem_cons_self ..)]
    exact ih (fun y hy => h y (List.mem_cons_of_mem _ hy)) x

/-- Effects around a handle's own do not show where only the handle's own do. -/
theorem Around.foldl {β : Type} {h : Handle} {pre post : List Write} (ha : Around h pre post)
    {f : β → Write → β} (ht : ∀ x a, f x (.memTouch a) = x)
    (hg : ∀ x k v, h ≠ .i k → f x (.agu k v) = x) (ws : List Write) (x : β) :
    (pre ++ ws ++ post).foldl f x = ws.foldl f x := by
  rw [List.foldl_append, List.foldl_append, foldl_id (ws := pre), foldl_id (ws := post)]
  · intro w hw y; obtain ⟨k, v, rfl, hk⟩ := ha.post w hw; exact hg y k v hk
  · intro w hw y; obtain ⟨a, rfl⟩ := ha.pre w hw; exact ht y a

theorem writes_agu (h : Handle) (j : Lane) (v : Int) : ∀ w ∈ h.writes j v, w.isAgu = false := by
  cases h <;> simp [Handle.writes, Write.isAgu]

theorem destWrites_agu (s : State) (mask : PerLane Bool) (h : Handle) (v : Lane → Int) :
    ∀ w ∈ s.destWrites mask h v, w.isAgu = false := by
  intro w hw
  obtain ⟨j, _, hw⟩ := List.mem_flatMap.mp hw
  exact writes_agu h j (v j) w hw

theorem Around.aguLast {s : State} {mask : PerLane Bool} {h : Handle} {pre post : List Write}
    (ha : Around h pre post) (v : Lane → Int) :
    aguLast (pre ++ s.destWrites mask h v ++ post) = pre ++ s.destWrites mask h v ++ post := by
  refine aguLast_append (fun w hw => ?_) (fun w hw => ?_)
  · rcases List.mem_append.mp hw with hw | hw
    · obtain ⟨a, rfl⟩ := ha.pre w hw; rfl
    · exact destWrites_agu _ _ _ _ w hw
  · obtain ⟨k, x, rfl, _⟩ := ha.post w hw; rfl

/-- A fold over the effects of a handle with one lane value. -/
theorem foldl_dest_one {β : Type} {s : State} {mask : PerLane Bool} {h : Handle} {v : Lane → Int}
    {j : Lane} (hj : s.usedLanes mask h = [j]) (f : β → Write → β) (x : β) :
    (s.destWrites mask h v).foldl f x = (h.writes j (v j)).foldl f x := by
  simp [State.destWrites, hj]

theorem State.usedLanes_first {s : State} {mask : PerLane Bool} {j : Lane} {h : Handle} (hp : h.policy = .first)
    (hj : s.firstLaneUnder mask j) : s.usedLanes mask h = [j] := by
  simp [State.usedLanes, hp, State.firstLane_eq hj]

theorem State.usedLanes_master {s : State} {mask : PerLane Bool} {j : Lane} {h : Handle} (hp : h.policy = .master)
    (hj : s.masterLaneUnder mask j) : s.usedLanes mask h = [j] := by
  simp [State.usedLanes, hp, State.masterLane_eq hj]

/-- A fold over the effects of a handle with a value in each executing lane. -/
theorem foldl_dest_lanes {β : Type} {s : State} {mask : PerLane Bool} {h : Handle} {v : Lane → Int}
    {j : Lane} (hp : h.policy = .lanes) (f : β → Write → β)
    (hf : ∀ i, i ≠ j → ∀ x, (h.writes i (v i)).foldl f x = x) (x : β) (hj : s.executing mask j = true) :
    (s.destWrites mask h v).foldl f x = (h.writes j (v j)).foldl f x := by
  rw [State.destWrites]
  simp only [State.usedLanes, hp]
  rw [foldl_execLanes s mask _ f j x hf, if_pos hj]

theorem Params.eligible_getLsbD (p : Params) (v : BitVec 4) (i : Lane) :
    (p.eligible v).getLsbD i.val = (p.active i && v.getLsbD i.val) := by
  cases h : p.lanes <;> fin_cases i <;>
    simp [Params.eligible, Params.active, LaneCount.n, h]

/-- The low bits of a 32-bit wrap. -/
theorem low_wrap32 (v : Int) (w : Nat) (h : w ≤ 32) : (wrap32 v).extractLsb' 0 w = BitVec.ofInt w v := by
  apply BitVec.eq_of_toNat_eq
  unfold wrap32
  rw [BitVec.extractLsb'_toNat, BitVec.toNat_ofInt, BitVec.toNat_ofInt, Nat.shiftRight_zero]
  have hd : (2 ^ w : Nat) ∣ 2 ^ 32 := Nat.pow_dvd_pow 2 h
  have h1 : (0 : Int) ≤ v % 2 ^ 32 := Int.emod_nonneg _ (by positivity)
  have h2 : (0 : Int) ≤ v % 2 ^ w := Int.emod_nonneg _ (by positivity)
  zify
  rw [Int.toNat_of_nonneg h1, Int.toNat_of_nonneg h2]
  exact Int.emod_emod_of_dvd v (by exact_mod_cast hd)

theorem bit11_wrap32 (v : Int) : (wrap32 v).getLsbD 11 = (BitVec.ofInt 12 v).msb := by
  rw [← low_wrap32 v 12 (by omega), BitVec.msb_eq_getLsbD_last]; simp

theorem low8_wrap16 (v : Int) : (wrap16 v).setWidth 8 = BitVec.ofInt 8 v := by
  apply BitVec.eq_of_toNat_eq
  unfold wrap16
  rw [BitVec.toNat_setWidth, BitVec.toNat_ofInt, BitVec.toNat_ofInt]
  omega

/-- The ten flags written from a pattern read as that pattern (R48). -/
theorem ofBits_bits (v : BitVec 10) (f : Flags) : ((FlagUpd.ofBits v).apply f).bits = v := by
  unfold FlagUpd.ofBits FlagUpd.apply Flags.bits
  simp only [Option.getD_some]
  revert v; decide +kernel

/-- A write to DSTAT1 selects its least eligible bit (R52). -/
theorem selectMaster_cases (p : Params) (v m : BitVec 4) :
    (∀ i : Lane, p.active i = true → v.getLsbD i.val = true → (∀ k, k < i → v.getLsbD k.val = false) →
      Write.onMaster p m (.dstat1 v) = 1#4 <<< i.val)
    ∧ ((∀ i : Lane, p.active i = true → v.getLsbD i.val = false) →
      Write.onMaster p m (.dstat1 v) = m) := by
  have key : ∀ (n : LaneCount) (q : Params), q.lanes = n → ∀ v : BitVec 4,
      (∀ i : Lane, q.active i = true → v.getLsbD i.val = true → (∀ k, k < i → v.getLsbD k.val = false) →
        q.eligible v ≠ 0#4 ∧ lowestBit (q.eligible v) = 1#4 <<< i.val)
      ∧ ((∀ i : Lane, q.active i = true → v.getLsbD i.val = false) → q.eligible v = 0#4) := by
    intro n q h
    simp only [Params.active, Params.eligible, h]
    cases n <;> decide
  obtain ⟨h1, h2⟩ := key p.lanes p rfl v
  constructor
  · intro i a b c
    simp [Write.onMaster, h1 i a b c]
  · intro h
    simp [Write.onMaster, h2 h]

/-- Say once what a handle holds after a committed write to it. -/
theorem written_of_committed {s t : State} {mask : PerLane Bool} {h : Handle} {v : Lane → Int} {pre post : List Write}
    (ha : Around h pre post)
    (hc : Committed (pre ++ s.destWrites mask h v ++ post) s t) : WrittenUnder mask s t v h := by
  cases h with
  | r k =>
    intro j hj
    rw [hc.reg, ha.foldl (fun _ _ => rfl) (fun _ _ _ _ => rfl),
      foldl_dest_lanes rfl _ (fun i hi x => by simp [Handle.writes, Write.onReg, hi]) _ hj]
    simp [Handle.writes, Write.onReg, wrap12]
  | acc n =>
    intro j hj
    rw [State.accWord, hc.acc, ha.foldl (fun _ _ => rfl) (fun _ _ _ _ => rfl),
      foldl_dest_lanes rfl _ (fun i hi x => by simp [Handle.writes, Write.onAcc, hi]) _ hj]
    simp [Handle.writes, Write.onAcc, wrap32, Acc.word_whole]
  | accH n =>
    intro j hj
    rw [hc.acc, ha.foldl (fun _ _ => rfl) (fun _ _ _ _ => rfl),
      foldl_dest_lanes rfl _ (fun i hi x => by simp [Handle.writes, Write.onAcc, hi]) _ hj]
    simp [Handle.writes, Write.onAcc, Acc.write, low_wrap32]
  | accM n =>
    intro j hj
    rw [hc.acc, ha.foldl (fun _ _ => rfl) (fun _ _ _ _ => rfl),
      foldl_dest_lanes rfl _ (fun i hi x => by simp [Handle.writes, Write.onAcc, hi]) _ hj]
    simp [Handle.writes, Write.onAcc, Acc.write, low_wrap32, ← bit11_wrap32]
  | accL n =>
    intro j hj
    rw [hc.acc, ha.foldl (fun _ _ => rfl) (fun _ _ _ _ => rfl),
      foldl_dest_lanes rfl _ (fun i hi x => by simp [Handle.writes, Write.onAcc, hi]) _ hj]
    simp [Handle.writes, Write.onAcc, Acc.write, low_wrap32]
  | umcount =>
    intro j hj
    rw [hc.umcount, ha.foldl (fun _ _ => rfl) (fun _ _ _ _ => rfl),
      foldl_dest_lanes rfl _ (fun i hi x => by simp [Handle.writes, Write.onUm, hi]) _ hj]
    simp [Handle.writes, Write.onUm]
  | astat k =>
    intro j hj
    rw [hc.flags, ha.foldl (fun _ _ => rfl) (fun _ _ _ _ => rfl),
      foldl_dest_lanes rfl _ (fun i hi x => by simp [Handle.writes, Write.onFlags, hi]) _ hj]
    simp [Handle.writes, Write.onFlags, ofBits_bits]
  | i k =>
    intro j hj
    rw [hc.i, ha.aguLast, ha.foldl (fun _ _ => rfl) (fun x k' v hk => by
        have : ¬ k' = k := fun he => hk (by rw [he])
        simp [Write.onI, this]),
      foldl_dest_one (State.usedLanes_first rfl hj)]
    simp [Handle.writes, Write.onI, wrap16]
  | m k =>
    intro j hj
    rw [hc.m, ha.foldl (fun _ _ => rfl) (fun _ _ _ _ => rfl),
      foldl_dest_one (State.usedLanes_first rfl hj)]
    simp [Handle.writes, Write.onM, wrap16]
  | l k =>
    intro j hj
    rw [hc.l, ha.foldl (fun _ _ => rfl) (fun _ _ _ _ => rfl),
      foldl_dest_one (State.usedLanes_first rfl hj)]
    simp [Handle.writes, Write.onL, wrap16]
  | b k =>
    intro j hj
    rw [hc.b, ha.foldl (fun _ _ => rfl) (fun _ _ _ _ => rfl),
      foldl_dest_one (State.usedLanes_first rfl hj)]
    simp [Handle.writes, Write.onB, wrap16]
  | cntr =>
    intro j hj
    rw [hc.cntr, ha.foldl (fun _ _ => rfl) (fun _ _ _ _ => rfl),
      foldl_dest_one (State.usedLanes_master rfl hj)]
    simp [Handle.writes, Write.onCntr, wrap16]
  | mstat =>
    intro j hj
    rw [hc.mstat, ha.foldl (fun _ _ => rfl) (fun _ _ _ _ => rfl),
      foldl_dest_one (State.usedLanes_master rfl hj)]
    simp [Handle.writes, Write.onMstat, low8_wrap16]
  | lpever =>
    intro j hj
    refine (hc.ctl .lpever).trans ?_
    rw [ha.foldl (fun _ _ => rfl) (fun _ _ _ _ => rfl), foldl_dest_one (State.usedLanes_master rfl hj)]
    simp [Handle.writes, Write.onCtl, wrap16]
  | pcstack =>
    intro j hj
    refine (hc.ctl .pcstack).trans ?_
    rw [ha.foldl (fun _ _ => rfl) (fun _ _ _ _ => rfl), foldl_dest_one (State.usedLanes_master rfl hj)]
    simp [Handle.writes, Write.onCtl, wrap16]
  | lpstack =>
    intro j hj
    refine (hc.ctl .lpstack).trans ?_
    rw [ha.foldl (fun _ _ => rfl) (fun _ _ _ _ => rfl), foldl_dest_one (State.usedLanes_master rfl hj)]
    simp [Handle.writes, Write.onCtl, wrap16]
  | icntl =>
    intro j hj
    refine (hc.ctl .icntl).trans ?_
    rw [ha.foldl (fun _ _ => rfl) (fun _ _ _ _ => rfl), foldl_dest_one (State.usedLanes_master rfl hj)]
    simp [Handle.writes, Write.onCtl, wrap16]
  | imask =>
    intro j hj
    refine (hc.ctl .imask).trans ?_
    rw [ha.foldl (fun _ _ => rfl) (fun _ _ _ _ => rfl), foldl_dest_one (State.usedLanes_master rfl hj)]
    simp [Handle.writes, Write.onCtl, wrap16]
  | irptl =>
    intro j hj
    refine (hc.ctl .irptl).trans ?_
    rw [ha.foldl (fun _ _ => rfl) (fun _ _ _ _ => rfl), foldl_dest_one (State.usedLanes_master rfl hj)]
    simp [Handle.writes, Write.onCtl, wrap16]
  | ivec k =>
    intro j hj
    refine (hc.ctl (.ivec k)).trans ?_
    rw [ha.foldl (fun _ _ => rfl) (fun _ _ _ _ => rfl), foldl_dest_one (State.usedLanes_master rfl hj)]
    simp [Handle.writes, Write.onCtl, wrap16]
  | dstat0 =>
    intro j hj i
    rw [hc.en, ha.foldl (fun _ _ => rfl) (fun _ _ _ _ => rfl),
      foldl_dest_one (State.usedLanes_master rfl hj)]
    simp only [Handle.writes, Write.onEn, List.foldl_cons, List.foldl_nil, BitVec.getLsbD_or,
      Params.eligible_getLsbD]
  | dstat1 =>
    intro j hj
    have hm : t.master = Write.onMaster s.cfg s.master (.dstat1 (BitVec.ofInt 4 (v j))) := by
      rw [hc.master, ha.foldl (fun _ _ => rfl) (fun _ _ _ _ => rfl),
        foldl_dest_one (State.usedLanes_master rfl hj)]
      rfl
    rw [hm]
    exact selectMaster_cases s.cfg (BitVec.ofInt 4 (v j)) s.master
  | sstat => trivial
  | did => trivial
  | noReg => trivial

end Sys2Proof.Machine
end

