-- ==== Sys2Proof/Laws/PerInstr.lean ====
section
/-! SUPPORT. Per instruction: its encoded word has the fixed bits of its row of spec/opcode_table.json. -/

namespace Sys2Proof.Laws

/-- The fixed bits of a row of spec/opcode_table.json: the row's words are those with `word &&& mask = bits`. -/
structure Row where
  bits : Descr
  mask : Descr

/-- The row of each instruction, as spec/opcode_table.json gives it. -/
def row : Instr → Row
  | .add .. => ⟨0x0100000000000000#64, 0xFFE0000003BF0000#64⟩
  | .addc .. => ⟨0x0200000000000000#64, 0xFFE0000003BF0000#64⟩
  | .sub .. => ⟨0x0300000000000000#64, 0xFFE0000003BF0000#64⟩
  | .subc .. => ⟨0x0400000000000000#64, 0xFFE0000003BF0000#64⟩
  | .subb .. => ⟨0x0500000000000000#64, 0xFFE0000003BF0000#64⟩
  | .subbc .. => ⟨0x0600000000000000#64, 0xFFE0000003BF0000#64⟩
  | .and .. => ⟨0x0700000000000000#64, 0xFFE0000003BF0000#64⟩
  | .or .. => ⟨0x0800000000000000#64, 0xFFE0000003BF0000#64⟩
  | .xor .. => ⟨0x0900000000000000#64, 0xFFE0000003BF0000#64⟩
  | .not .. => ⟨0x0A000001FC000000#64, 0xFFE00001FFFFFFFF#64⟩
  | .abs .. => ⟨0x0B000001FC000000#64, 0xFFE00001FFFFFFFF#64⟩
  | .inc .. => ⟨0x0C000001FC000000#64, 0xFFE00001FFFFFFFF#64⟩
  | .dec .. => ⟨0x0D000001FC000000#64, 0xFFE00001FFFFFFFF#64⟩
  | .tstbit .. => ⟨0x0E00000000000000#64, 0xFFE0000003BF0000#64⟩
  | .setbit .. => ⟨0x0F00000000000000#64, 0xFFE0000003BF0000#64⟩
  | .clrbit .. => ⟨0x1000000000000000#64, 0xFFE0000003BF0000#64⟩
  | .tglbit .. => ⟨0x1100000000000000#64, 0xFFE0000003BF0000#64⟩
  | .scr .. => ⟨0x1200000000000000#64, 0xFFE0000003BF0000#64⟩
  | .addA .. => ⟨0x0120000000000000#64, 0xFFE0000003BF0000#64⟩
  | .subA .. => ⟨0x0320000000000000#64, 0xFFE0000003BF0000#64⟩
  | .addC .. => ⟨0x1800000000000000#64, 0xFFE0000003FFFFFF#64⟩
  | .subC .. => ⟨0x1900000000000000#64, 0xFFE0000003FFFFFF#64⟩
  | .rccwC .. => ⟨0x1A00000000000000#64, 0xFFE0000003BF0000#64⟩
  | .rcwC .. => ⟨0x1B00000000000000#64, 0xFFE0000003BF0000#64⟩
  | .magC .. => ⟨0x1C000001FC000000#64, 0xFFE00001FFFFFFFF#64⟩
  | .rectC .. => ⟨0x1D00000000000000#64, 0xFFE0000003FFFFFF#64⟩
  | .mpy .. => ⟨0x2060000000000000#64, 0xFFE00000007FFFFF#64⟩
  | .mac .. => ⟨0x2160000000000000#64, 0xFFE00000007FFFFF#64⟩
  | .mas .. => ⟨0x2260000000000000#64, 0xFFE00000007FFFFF#64⟩
  | .mpyC .. => ⟨0x2360000000000000#64, 0xFFE00000007FFFFF#64⟩
  | .macC .. => ⟨0x2460000000000000#64, 0xFFE00000007FFFFF#64⟩
  | .masC .. => ⟨0x2560000000000000#64, 0xFFE00000007FFFFF#64⟩
  | .mpyRC .. => ⟨0x2660000000000000#64, 0xFFE00000007FFFFF#64⟩
  | .macRC .. => ⟨0x2760000000000000#64, 0xFFE00000007FFFFF#64⟩
  | .masRC .. => ⟨0x2860000000000000#64, 0xFFE00000007FFFFF#64⟩
  | .rndacc .. => ⟨0x29600001FC000000#64, 0xFFE00001FFFFFFFF#64⟩
  | .clracc .. => ⟨0x2A6000FFFC000000#64, 0xFFE000FFFFFFFFFF#64⟩
  | .ashift .. => ⟨0x3040000000000000#64, 0xFFE00000003F0000#64⟩
  | .lshift .. => ⟨0x3140000000000000#64, 0xFFE00000003F0000#64⟩
  | .ashiftor .. => ⟨0x3240000000000000#64, 0xFFE00000003F0000#64⟩
  | .lshiftor .. => ⟨0x3340000000000000#64, 0xFFE00000003F0000#64⟩
  | .ashiftC .. => ⟨0x3440000000000000#64, 0xFFE00000003F0000#64⟩
  | .lshiftC .. => ⟨0x3540000000000000#64, 0xFFE00000003F0000#64⟩
  | .ldDirect .. => ⟨0x408000FFFC400000#64, 0xFFE000FFFFFF0000#64⟩
  | .ldPost .. => ⟨0x408000FFFC000000#64, 0xFFE000FFFFFFFFC0#64⟩
  | .stDirect .. => ⟨0x41807F01FC400000#64, 0xFFE07F01FFFF0000#64⟩
  | .stPost .. => ⟨0x41807F01FC000000#64, 0xFFE07F01FFFFFFC0#64⟩
  | .lddDirect .. => ⟨0x428000FFFC400000#64, 0xFFE000FFFFFF0000#64⟩
  | .lddPost .. => ⟨0x428000FFFC000000#64, 0xFFE000FFFFFFFFC0#64⟩
  | .stdDirect .. => ⟨0x43807F01FC400000#64, 0xFFE07F01FFFF0000#64⟩
  | .stdPost .. => ⟨0x43807F01FC000000#64, 0xFFE07F01FFFFFFC0#64⟩
  | .modify .. => ⟨0x44807FFFFC000000#64, 0xFFE07FFFFFFFFFC0#64⟩
  | .mov .. => ⟨0x50A00001FC000000#64, 0xFFE00001FFFFFFFF#64⟩
  | .ldi .. => ⟨0x51A000FFFC400000#64, 0xFFE000FFFFFF0000#64⟩
  | .nop .. => ⟨0x52A07FFFFC000000#64, 0xFFE07FFFFFFFFFFF#64⟩
  | .xrd .. => ⟨0x60C00001FC000000#64, 0xFFE00001FFCFFFFC#64⟩
  | .xwr .. => ⟨0x61C00001FC000000#64, 0xFFE00001FFCFFFFC#64⟩

/-- The word of an instruction has the fixed bits of its row. -/
def TableRow.Statement (i : Instr) : Prop := encode i &&& (row i).mask = (row i).bits

/-- Two fields of a word, masked field by field. -/
def fieldsAnd (f g : Fields) : Fields :=
  ⟨f.opc &&& g.opc, f.typ &&& g.typ, f.cond &&& g.cond, f.eob && g.eob, f.dst &&& g.dst, f.sa &&& g.sa,
    f.sb &&& g.sb, f.mod &&& g.mod, f.rnd && g.rnd, f.immb && g.immb, f.xact &&& g.xact,
    f.zero &&& g.zero, f.imm &&& g.imm⟩

/-- The fields of a masked word are the masked fields. -/
theorem unpack_and (d e : Descr) :
    Fields.unpack (d &&& e) = fieldsAnd (Fields.unpack d) (Fields.unpack e) := by
  simp [Fields.unpack, fieldsAnd, BitVec.extractLsb'_and]

/-- The statement, field by field. -/
theorem tableRow {i : Instr}
    (h : fieldsAnd (fieldsOf i) (Fields.unpack (row i).mask) = Fields.unpack (row i).bits) :
    TableRow.Statement i := by
  have h' : Fields.unpack (encode i &&& (row i).mask) = Fields.unpack (row i).bits := by
    rw [unpack_and, ← h, encode, Fields.unpack_pack]
  unfold TableRow.Statement
  rw [← Fields.pack_unpack (encode i &&& (row i).mask), h', Fields.pack_unpack]

/-- The bits above the two post-modify numbers are 0 (R115). -/
@[simp] theorem postCode_and (k m : Fin 8) : postCode k m &&& 0xFFC0#16 = 0#16 := by revert k m; decide

/-- The bits above the lane offset are 0 (R115). -/
@[simp] theorem offCode_and (off : Fin 4) : offCode off &&& 0xFFFC#16 = 0#16 := by revert off; decide

/-- The word of every instruction has the fixed bits of its row. -/
theorem tableRow_all (i : Instr) : TableRow.Statement i := by
  refine tableRow ?_
  cases i
  all_goals
    first
    | (simp only [row, fieldsOf, blankFields, blankMac, Fields.unpack]
       simp [fieldsAnd, noneCode]; done)
    | (rename_i b
       cases b <;>
         (simp only [row, fieldsOf, Fields.withSrc, Fields.withAccSrc, blankFields, Fields.unpack]
          simp [fieldsAnd, noneCode]); done)
    | (rename_i n f r
       cases n <;>
         (simp only [row, fieldsOf, Fields.withSrc, Fields.withAmounts, blankFields, blankShift,
            Fields.unpack]
          simp [fieldsAnd, noneCode]))

theorem TableRow.add (c : Ctl) (dst : Option (Fin 32)) (sa : Fin 32) (b : Src) :
    TableRow.Statement (.add c dst sa b) := tableRow_all _

theorem TableRow.addc (c : Ctl) (dst : Option (Fin 32)) (sa : Fin 32) (b : Src) :
    TableRow.Statement (.addc c dst sa b) := tableRow_all _

theorem TableRow.sub (c : Ctl) (dst : Option (Fin 32)) (sa : Fin 32) (b : Src) :
    TableRow.Statement (.sub c dst sa b) := tableRow_all _

theorem TableRow.subc (c : Ctl) (dst : Option (Fin 32)) (sa : Fin 32) (b : Src) :
    TableRow.Statement (.subc c dst sa b) := tableRow_all _

theorem TableRow.subb (c : Ctl) (dst : Option (Fin 32)) (sa : Fin 32) (b : Src) :
    TableRow.Statement (.subb c dst sa b) := tableRow_all _

theorem TableRow.subbc (c : Ctl) (dst : Option (Fin 32)) (sa : Fin 32) (b : Src) :
    TableRow.Statement (.subbc c dst sa b) := tableRow_all _

theorem TableRow.and (c : Ctl) (dst : Option (Fin 32)) (sa : Fin 32) (b : Src) :
    TableRow.Statement (.and c dst sa b) := tableRow_all _

theorem TableRow.or (c : Ctl) (dst : Option (Fin 32)) (sa : Fin 32) (b : Src) :
    TableRow.Statement (.or c dst sa b) := tableRow_all _

theorem TableRow.xor (c : Ctl) (dst : Option (Fin 32)) (sa : Fin 32) (b : Src) :
    TableRow.Statement (.xor c dst sa b) := tableRow_all _

theorem TableRow.not (c : Ctl) (dst : Option (Fin 32)) (sa : Fin 32) :
    TableRow.Statement (.not c dst sa) := tableRow_all _

theorem TableRow.abs (c : Ctl) (dst : Option (Fin 32)) (sa : Fin 32) :
    TableRow.Statement (.abs c dst sa) := tableRow_all _

theorem TableRow.inc (c : Ctl) (dst : Option (Fin 32)) (sa : Fin 32) :
    TableRow.Statement (.inc c dst sa) := tableRow_all _

theorem TableRow.dec (c : Ctl) (dst : Option (Fin 32)) (sa : Fin 32) :
    TableRow.Statement (.dec c dst sa) := tableRow_all _

theorem TableRow.tstbit (c : Ctl) (dst : Option (Fin 32)) (sa : Fin 32) (b : Src) :
    TableRow.Statement (.tstbit c dst sa b) := tableRow_all _

theorem TableRow.setbit (c : Ctl) (dst : Option (Fin 32)) (sa : Fin 32) (b : Src) :
    TableRow.Statement (.setbit c dst sa b) := tableRow_all _

theorem TableRow.clrbit (c : Ctl) (dst : Option (Fin 32)) (sa : Fin 32) (b : Src) :
    TableRow.Statement (.clrbit c dst sa b) := tableRow_all _

theorem TableRow.tglbit (c : Ctl) (dst : Option (Fin 32)) (sa : Fin 32) (b : Src) :
    TableRow.Statement (.tglbit c dst sa b) := tableRow_all _

theorem TableRow.scr (c : Ctl) (dst : Option (Fin 32)) (sa : Fin 32) (b : Src) :
    TableRow.Statement (.scr c dst sa b) := tableRow_all _

theorem TableRow.addA (c : Ctl) (dst : Option (Fin 8)) (sa : Fin 8) (b : AccSrc) :
    TableRow.Statement (.addA c dst sa b) := tableRow_all _

theorem TableRow.subA (c : Ctl) (dst : Option (Fin 8)) (sa : Fin 8) (b : AccSrc) :
    TableRow.Statement (.subA c dst sa b) := tableRow_all _

theorem TableRow.addC (c : Ctl) (dst : Option RPair) (sa sb : RPair) :
    TableRow.Statement (.addC c dst sa sb) := tableRow_all _

theorem TableRow.subC (c : Ctl) (dst : Option RPair) (sa sb : RPair) :
    TableRow.Statement (.subC c dst sa sb) := tableRow_all _

theorem TableRow.rccwC (c : Ctl) (dst : Option RPair) (sa : RPair) (b : Src) :
    TableRow.Statement (.rccwC c dst sa b) := tableRow_all _

theorem TableRow.rcwC (c : Ctl) (dst : Option RPair) (sa : RPair) (b : Src) :
    TableRow.Statement (.rcwC c dst sa b) := tableRow_all _

theorem TableRow.magC (c : Ctl) (dst : Option (Fin 32)) (sa : RPair) :
    TableRow.Statement (.magC c dst sa) := tableRow_all _

theorem TableRow.rectC (c : Ctl) (dst : Option RPair) (sa sb : Fin 32) :
    TableRow.Statement (.rectC c dst sa sb) := tableRow_all _

theorem TableRow.mpy (c : Ctl) (dst : Option (Fin 8)) (sa sb : Fin 32) (mode : SignMode) (rnd : Bool) :
    TableRow.Statement (.mpy c dst sa sb mode rnd) := tableRow_all _

theorem TableRow.mac (c : Ctl) (dst : Option (Fin 8)) (sa sb : Fin 32) (mode : SignMode) (rnd : Bool) :
    TableRow.Statement (.mac c dst sa sb mode rnd) := tableRow_all _

theorem TableRow.mas (c : Ctl) (dst : Option (Fin 8)) (sa sb : Fin 32) (mode : SignMode) (rnd : Bool) :
    TableRow.Statement (.mas c dst sa sb mode rnd) := tableRow_all _

theorem TableRow.mpyC (c : Ctl) (dst : Option AccPair) (sa sb : RPair) (mode : SignMode) (rnd : Bool) :
    TableRow.Statement (.mpyC c dst sa sb mode rnd) := tableRow_all _

theorem TableRow.macC (c : Ctl) (dst : Option AccPair) (sa sb : RPair) (mode : SignMode) (rnd : Bool) :
    TableRow.Statement (.macC c dst sa sb mode rnd) := tableRow_all _

theorem TableRow.masC (c : Ctl) (dst : Option AccPair) (sa sb : RPair) (mode : SignMode) (rnd : Bool) :
    TableRow.Statement (.masC c dst sa sb mode rnd) := tableRow_all _

theorem TableRow.mpyRC (c : Ctl) (dst : Option AccPair) (sa : Fin 32) (sb : RPair) (mode : SignMode) (rnd : Bool) :
    TableRow.Statement (.mpyRC c dst sa sb mode rnd) := tableRow_all _

theorem TableRow.macRC (c : Ctl) (dst : Option AccPair) (sa : Fin 32) (sb : RPair) (mode : SignMode) (rnd : Bool) :
    TableRow.Statement (.macRC c dst sa sb mode rnd) := tableRow_all _

theorem TableRow.masRC (c : Ctl) (dst : Option AccPair) (sa : Fin 32) (sb : RPair) (mode : SignMode) (rnd : Bool) :
    TableRow.Statement (.masRC c dst sa sb mode rnd) := tableRow_all _

theorem TableRow.rndacc (c : Ctl) (dst : Option (Fin 8)) (sa : Fin 8) :
    TableRow.Statement (.rndacc c dst sa) := tableRow_all _

theorem TableRow.clracc (c : Ctl) (dst : Option (Fin 8)) :
    TableRow.Statement (.clracc c dst) := tableRow_all _

theorem TableRow.ashift (c : Ctl) (dst : Option (Fin 8)) (sa : ShiftSrc) (n : Src) (f : Field) (rnd : Bool) :
    TableRow.Statement (.ashift c dst sa n f rnd) := tableRow_all _

theorem TableRow.lshift (c : Ctl) (dst : Option (Fin 8)) (sa : ShiftSrc) (n : Src) (f : Field) (rnd : Bool) :
    TableRow.Statement (.lshift c dst sa n f rnd) := tableRow_all _

theorem TableRow.ashiftor (c : Ctl) (dst : Option (Fin 8)) (sa : ShiftSrc) (n : Src) (f : Field) (rnd : Bool) :
    TableRow.Statement (.ashiftor c dst sa n f rnd) := tableRow_all _

theorem TableRow.lshiftor (c : Ctl) (dst : Option (Fin 8)) (sa : ShiftSrc) (n : Src) (f : Field) (rnd : Bool) :
    TableRow.Statement (.lshiftor c dst sa n f rnd) := tableRow_all _

theorem TableRow.ashiftC (c : Ctl) (dst : Option AccPair) (sa : ShiftPair) (n : AmountPair) (f : Field) (rnd : Bool) :
    TableRow.Statement (.ashiftC c dst sa n f rnd) := tableRow_all _

theorem TableRow.lshiftC (c : Ctl) (dst : Option AccPair) (sa : ShiftPair) (n : AmountPair) (f : Field) (rnd : Bool) :
    TableRow.Statement (.lshiftC c dst sa n f rnd) := tableRow_all _

theorem TableRow.ldDirect (c : Ctl) (dst : Handle) (addr : Half) :
    TableRow.Statement (.ldDirect c dst addr) := tableRow_all _

theorem TableRow.ldPost (c : Ctl) (dst : Handle) (k m : Fin 8) :
    TableRow.Statement (.ldPost c dst k m) := tableRow_all _

theorem TableRow.stDirect (c : Ctl) (src : Handle) (addr : Half) :
    TableRow.Statement (.stDirect c src addr) := tableRow_all _

theorem TableRow.stPost (c : Ctl) (src : Handle) (k m : Fin 8) :
    TableRow.Statement (.stPost c src k m) := tableRow_all _

theorem TableRow.lddDirect (c : Ctl) (dst : Option RPair) (addr : Half) :
    TableRow.Statement (.lddDirect c dst addr) := tableRow_all _

theorem TableRow.lddPost (c : Ctl) (dst : Option RPair) (k m : Fin 8) :
    TableRow.Statement (.lddPost c dst k m) := tableRow_all _

theorem TableRow.stdDirect (c : Ctl) (src : RPair) (addr : Half) :
    TableRow.Statement (.stdDirect c src addr) := tableRow_all _

theorem TableRow.stdPost (c : Ctl) (src : RPair) (k m : Fin 8) :
    TableRow.Statement (.stdPost c src k m) := tableRow_all _

theorem TableRow.modify (c : Ctl) (k m : Fin 8) :
    TableRow.Statement (.modify c k m) := tableRow_all _

theorem TableRow.mov (c : Ctl) (dst src : Handle) :
    TableRow.Statement (.mov c dst src) := tableRow_all _

theorem TableRow.ldi (c : Ctl) (dst : Handle) (v : Half) :
    TableRow.Statement (.ldi c dst v) := tableRow_all _

theorem TableRow.nop (c : Ctl) :
    TableRow.Statement (.nop c) := tableRow_all _

theorem TableRow.xrd (c : Ctl) (dst src : Fin 32) (act : XAct) (off : Fin 4) :
    TableRow.Statement (.xrd c dst src act off) := tableRow_all _

theorem TableRow.xwr (c : Ctl) (dst src : Fin 32) (act : XAct) (off : Fin 4) :
    TableRow.Statement (.xwr c dst src act off) := tableRow_all _

end Sys2Proof.Laws
end

