-- ==== Sys2Proof/Laws/Runs.lean ====
section
/-! SUPPORT. What a whole bundle can do: it decodes or records the first error, and its slots end in one
commit or in one record (R130, R331). -/

namespace Sys2Proof.Machine

/-! ## The descriptor's COND and EOB survive decoding -/

theorem map_ok {α : Type} {f : α → Instr} {e : Except CoreErr α} {i : Instr} (h : f <$> e = .ok i) :
    ∃ x, i = f x := by
  cases e with
  | error _ => cases h
  | ok x => cases h; exact ⟨x, rfl⟩

theorem decodeAlu_ctl {c : Ctl} {f : Fields} {i : Instr} (h : decodeAlu c f = .ok i) : i.ctl = c := by
  unfold decodeAlu at h
  split at h <;> first | (obtain ⟨x, rfl⟩ := map_ok h; rfl) | cases h

theorem decodeAluAcc_ctl {c : Ctl} {f : Fields} {i : Instr} (h : decodeAluAcc c f = .ok i) :
    i.ctl = c := by
  unfold decodeAluAcc at h
  split at h <;> first | (obtain ⟨x, rfl⟩ := map_ok h; rfl) | cases h

theorem decodeShift_ctl {c : Ctl} {f : Fields} {i : Instr} (h : decodeShift c f = .ok i) :
    i.ctl = c := by
  unfold decodeShift at h
  split at h <;> first | (obtain ⟨x, rfl⟩ := map_ok h; rfl) | cases h

theorem decodeMac_ctl {c : Ctl} {f : Fields} {i : Instr} (h : decodeMac c f = .ok i) : i.ctl = c := by
  unfold decodeMac at h
  split at h <;> first | (obtain ⟨x, rfl⟩ := map_ok h; rfl) | cases h

theorem decodeMem_ctl {c : Ctl} {f : Fields} {i : Instr} (h : decodeMem c f = .ok i) : i.ctl = c := by
  unfold decodeMem at h
  split at h <;>
    first
    | (obtain ⟨x, rfl⟩ := map_ok h
       first | rfl | (cases f.immb <;> rfl))
    | cases h

theorem decodeMove_ctl {c : Ctl} {f : Fields} {i : Instr} (h : decodeMove c f = .ok i) : i.ctl = c := by
  unfold decodeMove at h
  split at h <;> first | (obtain ⟨x, rfl⟩ := map_ok h; rfl) | cases h

theorem decodeXlane_ctl {p : Params} {c : Ctl} {f : Fields} {i : Instr}
    (h : decodeXlane p c f = .ok i) : i.ctl = c := by
  unfold decodeXlane at h
  split at h <;> first | (obtain ⟨x, rfl⟩ := map_ok h; rfl) | cases h

theorem decodeFields_ctl {p : Params} {f : Fields} {i : Instr} (h : decodeFields p f = .ok i) :
    i.ctl = ⟨Cond.ofCode f.cond, f.eob⟩ := by
  unfold decodeFields at h
  split at h
  · exact decodeAlu_ctl h
  · exact decodeAluAcc_ctl h
  · exact decodeShift_ctl h
  · exact decodeMac_ctl h
  · exact decodeMem_ctl h
  · exact decodeMove_ctl h
  · exact decodeXlane_ctl h
  · cases h

/-- A decoded operation ends its bundle exactly where its descriptor has EOB = 1 (R102). -/
theorem decode_eob {p : Params} {d : Descr} {i : Instr} (h : decode p d = .ok i) :
    i.ctl.eob = endsBundle d := by
  rw [decodeFields_ctl h]; rfl

/-! ## The slots of one bundle -/

/-- Operations of which exactly the last ends its bundle (R102). -/
def OneBundle : List Instr → Prop
  | [] => False
  | [i] => i.ctl.eob = true
  | i :: is => i.ctl.eob = false ∧ OneBundle is

theorem takeBundle_some {ds b more : List Descr} (h : takeBundle ds = some (b, more)) :
    ds = b ++ more ∧ ∃ init d, b = init ++ [d] ∧ endsBundle d = true
      ∧ ∀ x ∈ init, endsBundle x = false := by
  induction ds generalizing b more with
  | nil => cases h
  | cons d ds ih =>
    unfold takeBundle at h
    split at h
    · rename_i he
      cases h
      exact ⟨rfl, [], d, rfl, he, fun _ hx => absurd hx (by simp)⟩
    · rename_i he
      cases ht : takeBundle ds with
      | none => simp [ht] at h
      | some v =>
        obtain ⟨b', more'⟩ := v
        rw [ht] at h
        cases h
        obtain ⟨h1, init, e, h2, h3, h4⟩ := ih ht
        refine ⟨by rw [h1]; rfl, d :: init, e, by rw [h2]; rfl, h3, ?_⟩
        intro x hx
        rcases List.mem_cons.mp hx with rfl | hx
        · simpa using he
        · exact h4 x hx

/-- The decoded operations of a bundle are one bundle. -/
theorem decodeSlots_oneBundle {p : Params} {init : List Descr} {d : Descr} {k : Nat} {is : List Instr}
    (hd : endsBundle d = true) (hi : ∀ x ∈ init, endsBundle x = false)
    (h : decodeSlots p k (init ++ [d]) = .ok is) : OneBundle is := by
  induction init generalizing k is with
  | nil =>
    simp only [List.nil_append, decodeSlots] at h
    cases hx : decode p d with
    | error e => simp [hx] at h
    | ok i =>
      simp only [hx] at h
      cases h
      exact (decode_eob hx).trans hd
  | cons x init ih =>
    simp only [List.cons_append, decodeSlots] at h
    cases hx : decode p x with
    | error e => simp [hx] at h
    | ok i =>
      simp only [hx] at h
      cases hr : decodeSlots p (k + 1) (init ++ [d]) with
      | error e => simp [hr] at h
      | ok js =>
        simp only [hr] at h
        cases h
        have ho := ih (fun y hy => hi y (List.mem_cons_of_mem _ hy)) hr
        cases js with
        | nil => exact ho.elim
        | cons j js => exact ⟨(decode_eob hx).trans (hi x (List.mem_cons_self ..)), ho⟩

/-- A bundle that started at `s` has come to `u` without ending: the locations are those of `s`, and every
staged effect is in an enabled lane and inside the data memory. -/
structure InProgress (s u : State) : Prop where
  reads : sameReads s u
  cycle : u.cycle = s.cycle
  noFault : u.faultRec = none
  input : u.input = s.input
  sstatIn : u.sstatIn = s.sstatIn
  site : u.site = s.site
  log : ∃ es, u.log = s.log ++ es
  fit : ∀ ws ∈ u.staged, allFit (fun j => s.enabled j = true) ws

/-- The bundle that started at `s` has recorded an error at `t`, and changed no location (R331). -/
structure Stopped (s t : State) : Prop where
  reads : sameReads s t
  cycle : t.cycle = s.cycle
  record : ∃ e k, t.faultRec = some { err := e, slot := k, site := s.site, cycle := s.cycle }
  input : t.input = s.input
  sstatIn : t.sstatIn = s.sstatIn
  site : t.site = s.site
  log : ∃ es, t.log = s.log ++ es
  slot : t.slot = 0
  staged : t.staged = []
  outs : t.outs = []

theorem sameReads.trans {s t u : State} (h1 : sameReads s t) (h2 : sameReads t u) : sameReads s u := by
  simp only [sameReads] at *
  obtain ⟨a1, a2, a3, a4, a5, a6, a7, a8, a9, a10, a11, a12, a13, a14, a15, a16, a17, a18, a19, a20,
    a21, a22, a23, a24, a25⟩ := h1
  obtain ⟨b1, b2, b3, b4, b5, b6, b7, b8, b9, b10, b11, b12, b13, b14, b15, b16, b17, b18, b19, b20,
    b21, b22, b23, b24, b25⟩ := h2
  simp only [b1, b2, b3, b4, b5, b6, b7, b8, b9, b10, b11, b12, b13, b14, b15, b16, b17, b18, b19, b20,
    b21, b22, b23, b24, b25, a1, a2, a3, a4, a5, a6, a7, a8, a9, a10, a11, a12, a13, a14, a15, a16, a17, a18,
    a19, a20, a21, a22, a23, a24, a25, and_self]

theorem sameReads.refl (s : State) : sameReads s s := by simp [sameReads]

/-- Enabled lanes are read from the locations. -/
theorem sameReads.enabled {s t : State} (h : sameReads s t) (j : Lane) : t.enabled j = s.enabled j := by
  simp only [sameReads] at h
  simp [State.enabled, h]

/-- Diagnostics keep a bundle in progress. -/
theorem InProgress.warn {s u : State} (h : InProgress s u) (ws : List Warn) :
    InProgress s (u.warn ws) where
  reads := h.reads.trans (u.warn_reads ws)
  cycle := by simpa using h.cycle
  noFault := by simpa using h.noFault
  input := by simpa using h.input
  sstatIn := by simpa using h.sstatIn
  site := by simpa using h.site
  log := by
    obtain ⟨es, he⟩ := h.log
    exact ⟨es ++ ws.map u.event, by simp [he]⟩
  fit := by simpa using h.fit

/-- An error ends a bundle in progress. -/
theorem InProgress.raiseAt {s u : State} (h : InProgress s u) (k : Nat) (e : CoreErr) :
    Stopped s (u.raiseAt k e) where
  reads := h.reads.trans (u.raiseAt_reads k e)
  cycle := by simpa using h.cycle
  record := ⟨e, k, by simp [h.noFault, h.site, h.cycle]⟩
  input := by simpa using h.input
  sstatIn := by simpa using h.sstatIn
  site := by simpa using h.site
  log := by simpa using h.log
  slot := by simp
  staged := by simp
  outs := by simp

/-- Staging an operation's effects keeps a bundle in progress. -/
theorem InProgress.stage {s u : State} (h : InProgress s u) (o : SlotOut) {es : List Write}
    (hes : allFit (fun j => s.enabled j = true) es) : InProgress s (u.stage o es) where
  reads := h.reads.trans (u.stage_reads o es)
  cycle := by simpa using h.cycle
  noFault := by simpa using h.noFault
  input := by simpa using h.input
  sstatIn := by simpa using h.sstatIn
  site := by simpa using h.site
  log := by simpa using h.log
  fit := by
    intro ws hws
    simp only [State.stage_staged, List.mem_append, List.mem_singleton] at hws
    rcases hws with hws | rfl
    · exact h.fit ws hws
    · exact hes

/-- One operation of a bundle in progress: it stops the bundle, goes on, or, with EOB = 1, commits it. -/
theorem exec_inProgress {s u : State} (h : InProgress s u) (i : Instr) :
    ∃ t, exec i u = .next t ∧
      (Stopped s t
        ∨ (i.ctl.eob = false ∧ InProgress s t)
        ∨ (i.ctl.eob = true ∧ ∃ v, InProgress s v ∧ t = v.commit)) := by
  rw [exec_eq]
  rcases issue_cases i.ctl (checked i (opOf i)) u with ⟨hf, _⟩ | ⟨_, warns, e, _, ht⟩ | ⟨_, warns, es, hop, ht⟩
  · rw [h.noFault] at hf; cases hf
  · exact ⟨_, ht, Or.inl ((h.warn _).raiseAt _ _)⟩
  · have hfit : allFit (fun j => s.enabled j = true) es := fun w hw =>
      Write.fits_mono (fun j hj => by rwa [h.reads.enabled] at hj) (exec_enabled hop w hw)
    have hv := (h.warn (u.condWarns i.ctl.cond ++ warns)).stage (u.slotOut (u.maskFor i.ctl.cond)) hfit
    refine ⟨_, ht, ?_⟩
    cases he : i.ctl.eob with
    | false => exact Or.inr (Or.inl ⟨rfl, by simpa using hv⟩)
    | true =>
      simp only [if_true]
      rcases State.close_cases ((u.warn (u.condWarns i.ctl.cond ++ warns)).stage
          (u.slotOut (u.maskFor i.ctl.cond)) es) with ⟨_, hc⟩ | ⟨k, _, hc⟩
      · exact Or.inr (Or.inr ⟨trivial, _, hv, hc⟩)
      · rw [hc]
        exact Or.inl (hv.raiseAt _ _)

/-- A whole bundle in progress: it is stopped by an error, or commits. -/
theorem runSlots_inProgress {s : State} {is : List Instr} (ho : OneBundle is) :
    ∀ {u : State}, InProgress s u →
      ∃ t, runSlots is u = .next t ∧ (Stopped s t ∨ ∃ v, InProgress s v ∧ t = v.commit) := by
  induction is with
  | nil => exact ho.elim
  | cons i is ih =>
    intro u hu
    obtain ⟨t, ht, hc⟩ := exec_inProgress hu i
    simp only [runSlots, ht]
    cases is with
    | nil =>
      have he : i.ctl.eob = true := ho
      rcases hc with hc | ⟨he', _⟩ | ⟨_, v, hv, rfl⟩
      · obtain ⟨e, k, hr⟩ := hc.record
        exact ⟨t, by simp [hr], Or.inl hc⟩
      · rw [he] at he'; cases he'
      · have hn : v.commit.faultRec = none := (v.commit_committed.faultRec).trans hv.noFault
        exact ⟨v.commit, by simp [hn, runSlots], Or.inr ⟨v, hv, rfl⟩⟩
    | cons j js =>
      obtain ⟨he, ho'⟩ := ho
      rcases hc with hc | ⟨_, hp⟩ | ⟨he', _⟩
      · obtain ⟨e, k, hr⟩ := hc.record
        exact ⟨t, by simp [hr], Or.inl hc⟩
      · obtain ⟨t', ht', hc'⟩ := ih ho' hp
        exact ⟨t', by simp [hp.noFault, ht'], hc'⟩
      · rw [he] at he'; cases he'

/-- Say once what `execute` can do with no error recorded: refuse words that are no bundle, stop the
bundle at an error, or commit it. -/
theorem execute_cases (s : State) (ds : List Descr) (x : BitVec 8) (n : Nat) (hs : s.faultRec = none) :
    (takeBundle ds = none ∧ s.execute ds x n = .refused .unterminatedBundle)
      ∨ ∃ b more, takeBundle ds = some (b, more)
          ∧ ∃ t, s.execute ds x n = .next t
              ∧ (Stopped ((s.withInput (requeue more x n s.input)).openBundle x n) t
                ∨ ∃ v, InProgress ((s.withInput (requeue more x n s.input)).openBundle x n) v
                    ∧ t = v.commit) := by
  unfold State.execute
  rw [hs]
  cases hb : takeBundle ds with
  | none => exact Or.inl ⟨rfl, rfl⟩
  | some v =>
    obtain ⟨b, more⟩ := v
    refine Or.inr ⟨b, more, rfl, ?_⟩
    simp only
    generalize hu : (s.withInput (requeue more x n s.input)).openBundle x n = u
    have hnf : u.faultRec = none := by rw [← hu]; simpa using hs
    have hst : u.staged = [] := by rw [← hu]; simp
    have hp : InProgress u u :=
      ⟨sameReads.refl u, rfl, hnf, rfl, rfl, rfl, ⟨[], by simp⟩, by simp [hst]⟩
    unfold runBundle
    cases hd : decodeSlots u.cfg 0 b with
    | error e => exact ⟨_, rfl, Or.inl (hp.raiseAt _ _)⟩
    | ok is =>
      obtain ⟨_, init, d, rfl, he, hi⟩ := takeBundle_some hb
      exact runSlots_inProgress (decodeSlots_oneBundle he hi hd) hp

end Sys2Proof.Machine
end

