-- ==== Sys2Proof/Tests/Slice0.lean ====
section
/-! SUPPORT. The model's own tests. Every expected value of a test is the spec's (95_test_vectors.md or the
rule named beside it). The witnesses at the end show, for each obligation with hypotheses, a concrete state and
operands that meet them together. -/

open Sys2Proof Sys2Proof.Machine

namespace Sys2Proof.Tests

/-! ## Helpers -/

/-- Unpredicated, the last operation of its bundle. -/
abbrev always : Ctl := ⟨.true, true⟩

/-- Unpredicated, not the last operation of its bundle. -/
abbrev inside : Ctl := ⟨.true, false⟩

/-- A part of the next state, none where there is none. -/
def after {α : Type} (o : Host.Outcome State Fault Refusal) (f : State → α) : Option α :=
  match o with
  | .next t => some (f t)
  | _ => none

/-- `s` with every lane of R`k` holding `v`. -/
def withR (s : State) (k : Fin 32) (v : Data) : State := { s with r := s.r.set k.val (PerLane.fill v) }

/-- `s` with every lane of ACC`n` holding `v`. -/
def withAcc (s : State) (n : Fin 8) (v : AccWord) : State :=
  { s with acc := s.acc.set n.val (PerLane.fill ⟨v.extractLsb' 24 8, v.extractLsb' 12 12, v.extractLsb' 0 12⟩) }

/-- `s` with MSTAT holding `v`, its stamps NEVER (R343). -/
def withMode (s : State) (v : BitVec 8) : State := { s with mstat := Hazard.init v }

/-- `s` with AC of ASTAT_R at 1 in every lane. -/
def withCarry (s : State) : State := { s with astatR := PerLane.fill { Flags.clear with ac := true } }

/-- `s` with I0, M0, L0 and B0 holding `i`, `m`, `l` and `b`, their stamps NEVER (R343). -/
def withAgu (s : State) (i m l b : Half) : State :=
  { s with
    i := s.i.set 0 (Hazard.init i), m := s.m.set 0 (Hazard.init m)
    l := s.l.set 0 (Hazard.init l), b := s.b.set 0 (Hazard.init b) }

/-- `s` with the memory holding the words of `m` in lane 0, UNDEF in the others. -/
def withMem (s : State) (m : List (Nat × Data)) : State :=
  { s with mem := m.map fun e => (e.1, ⟨some e.2, none, none, none⟩) }

/-- `s` with the four lanes enabled and R5 = (10, 11, 12, 13). -/
def fourLanes : State :=
  { State.reset with en := 0xF#4, r := State.reset.r.set 5 ⟨10#12, 11#12, 12#12, 13#12⟩ }

/-- R1 = `a` and R2 = `b`. -/
def two (a b : Data) : State := withR (withR State.reset 1 a) 2 b

/-- R4 to R7 = `a`, `b`, `c` and `d`: the pairs (R4, R5) and (R6, R7). -/
def pairs (a b c d : Data) : State := withR (withR (withR (withR State.reset 4 a) 5 b) 6 c) 7 d

/-- Lane 0 of R3, and AZ, AN, AV and AC of ASTAT_R. -/
def alu (t : State) : Data × Bool × Bool × Bool × Bool :=
  (t.reg 3 0, (t.flags .re 0).az, (t.flags .re 0).an, (t.flags .re 0).av, (t.flags .re 0).ac)

/-- Lane 0 of ACC0, and AZ, AN, AV and AC of ASTAT_R. -/
def accAlu (t : State) : AccWord × Bool × Bool × Bool × Bool :=
  (t.accWord 0 0, (t.flags .re 0).az, (t.flags .re 0).an, (t.flags .re 0).av, (t.flags .re 0).ac)

/-- Lane 0 of R8 and R9. -/
def pair8 (t : State) : Data × Data := (t.reg 8 0, t.reg 9 0)

/-- Lane 0 of ACC0, and MV of ASTAT_R. -/
def mac0 (t : State) : AccWord × Bool := (t.accWord 0 0, (t.flags .re 0).mv)

/-- Lane 0 of ACC0 and ACC1. -/
def accPair0 (t : State) : AccWord × AccWord := (t.accWord 0 0, t.accWord 1 0)

/-- Lane 0 of ACC0, and SS and SV of ASTAT_R. -/
def shift0 (t : State) : AccWord × Bool × Bool :=
  (t.accWord 0 0, (t.flags .re 0).ss, (t.flags .re 0).sv)

/-- The error recorded and its slot. -/
def fault (t : State) : Option (CoreErr × Nat) := t.faultRec.map fun f => (f.err, f.slot)

/-! ## Decoding: words of 95_test_vectors.md B1 -/

theorem test_decode_alu :
    [0x010F830208000000#64, 0x01048303FC400005#64, 0x030F830208000000#64, 0x0B0F8303FC000000#64,
      0x0E0F8303FC400004#64].map (decode Params.default) =
    [.ok (.add always (some 3) 1 (.reg 2)), .ok (.add ⟨.lt, true⟩ (some 3) 1 (.imm 5)),
      .ok (.sub always (some 3) 1 (.reg 2)), .ok (.abs always (some 3) 1),
      .ok (.tstbit always (some 3) 1 (.imm 4))] := by decide

theorem test_decode_alu_acc :
    [0x012FA04208000000#64, 0x032FA043FC400020#64].map (decode Params.default) =
    [.ok (.addA always (some 0) 1 (.reg 2)), .ok (.subA always (some 0) 1 (.imm 0x20))] := by decide

theorem test_decode_complex :
    [0x180F880818000000#64, 0x1A0F8809FC400001#64, 0x1C0F8809FC000000#64].map (decode Params.default) =
    [.ok (.addC always (some 4) 2 3), .ok (.rccwC always (some 4) 2 (.imm 1)),
      .ok (.magC always (some 8) 2)] := by decide

theorem test_decode_mac :
    [0x206FA00208000000#64, 0x216FA00209000000#64, 0x236FA00818000000#64, 0x276FA20218000000#64,
      0x296FA043FC000000#64].map (decode Params.default) =
    [.ok (.mpy always (some 0) 1 2 .ss false), .ok (.mac always (some 0) 1 2 .su false),
      .ok (.mpyC always (some 0) 2 3 .ss false), .ok (.macRC always (some 1) 1 3 .ss false),
      .ok (.rndacc always (some 0) 1)] := by decide

theorem test_decode_shift :
    [0x304FA003FCC0FFFF#64, 0x304FA003FD400000#64, 0x344FA009FC40FE03#64].map (decode Params.default) =
    [.ok (.ashift always (some 0) (.reg 1) (.imm 0xFFFF) .dflt true),
      .ok (.ashift always (some 0) (.reg 1) (.imm 0) .hi false),
      .ok (.ashiftC always (some 0) (.regs 2) (.imm 0xFE03) .dflt false)] := by decide

theorem test_decode_mem :
    [0x408F85FFFC400100#64, 0x408F85FFFC00001A#64, 0x428F86FFFC400300#64, 0x438FFF0DFC400300#64,
      0x448FFFFFFC000009#64].map (decode Params.default) =
    [.ok (.ldDirect always (.r 5) 0x100), .ok (.ldPost always (.r 5) 2 3),
      .ok (.lddDirect always (some 3) 0x300), .ok (.stdDirect always 3 0x300),
      .ok (.modify always 1 1)] := by decide

theorem test_decode_move :
    [0x50AF8165FC000000#64, 0x51AFD3FFFC400004#64, 0x52AFFFFFFC000000#64].map (decode Params.default) =
    [.ok (.mov always (.r 1) (.accM 2)), .ok (.ldi always (.l 3) 4), .ok (.nop always)] := by decide

theorem test_decode_xlane :
    [0x60CF840BFC200003#64, 0x61CF840BFC200001#64].map (decode Params.default) =
    [.ok (.xrd always 4 5 .four 3), .ok (.xwr always 4 5 .four 1)] := by decide

theorem test_decode_store :
    decode Params.default 0x418FFF41FC400300#64 = .ok (.stDirect always (.acc 0) 0x300) := by decide

theorem test_decode_clracc :
    decode Params.default 0x2A6FA0FFFC000000#64 = .ok (.clracc always (some 0)) := by decide

/-! Words of every other row of the opcode table, put together from the field layout (R101), the handles
(R104) and the pairs (R110). -/

/-- TYPE 0, real: operands in R10, R20 and R30, or the immediates -2048 and 11. -/
theorem test_decode_alu_rows :
    [0x020F8A2878000000#64, 0x040F8A2878000000#64, 0x050F8A2878000000#64, 0x060F8A2878000000#64,
      0x070F8A2878000000#64, 0x080F8A2878000000#64, 0x090F8A2878000000#64, 0x120F8A29FC40F800#64,
      0x0A0F8A29FC000000#64, 0x0C0F8A29FC000000#64, 0x0D0F8A29FC000000#64, 0x0F0F8A29FC40000B#64,
      0x100F8A29FC40000B#64, 0x110F8A29FC40000B#64].map (decode Params.default) =
    [.ok (.addc always (some 10) 20 (.reg 30)), .ok (.subc always (some 10) 20 (.reg 30)),
      .ok (.subb always (some 10) 20 (.reg 30)), .ok (.subbc always (some 10) 20 (.reg 30)),
      .ok (.and always (some 10) 20 (.reg 30)), .ok (.or always (some 10) 20 (.reg 30)),
      .ok (.xor always (some 10) 20 (.reg 30)), .ok (.scr always (some 10) 20 (.imm 0xF800)),
      .ok (.not always (some 10) 20), .ok (.inc always (some 10) 20), .ok (.dec always (some 10) 20),
      .ok (.setbit always (some 10) 20 (.imm 11)), .ok (.clrbit always (some 10) 20 (.imm 11)),
      .ok (.tglbit always (some 10) 20 (.imm 11))] := by decide

/-- TYPE 0, complex. -/
theorem test_decode_complex_rows :
    [0x190F8A2878000000#64, 0x1B0F8A2878000000#64, 0x1D0F8A2A7C000000#64].map (decode Params.default) =
    [.ok (.subC always (some 5) 10 15), .ok (.rcwC always (some 5) 10 (.reg 30)),
      .ok (.rectC always (some 5) 21 31)] := by decide

/-- TYPE 3: each sign mode and RND. -/
theorem test_decode_mac_rows :
    [0x226FA5287A000000#64, 0x246FA4287B800000#64, 0x256FA42879000000#64, 0x266FA42A78800000#64,
      0x286FA42A7A000000#64].map (decode Params.default) =
    [.ok (.mas always (some 5) 20 30 .us false), .ok (.macC always (some 2) 10 15 .uu true),
      .ok (.masC always (some 2) 10 15 .su false), .ok (.mpyRC always (some 2) 21 15 .ss true),
      .ok (.masRC always (some 2) 21 15 .us false)] := by decide

/-- TYPE 2: each field and RND. -/
theorem test_decode_shift_rows :
    [0x314FA54C79000000#64, 0x324FA5287A000000#64, 0x334FA529FCC0FFE0#64, 0x354FA44C78000000#64].map (decode Params.default) =
    [.ok (.lshift always (some 5) (.acc 6) (.reg 30) .hi false),
      .ok (.ashiftor always (some 5) (.reg 20) (.reg 30) .lo false),
      .ok (.lshiftor always (some 5) (.reg 20) (.imm 0xFFE0) .dflt true),
      .ok (.lshiftC always (some 2) (.accs 3) (.regs 15) .dflt false)] := by decide

/-- TYPE 4, post-modify: k in IMM[2:0] and m in IMM[5:3]. -/
theorem test_decode_mem_rows :
    [0x418FFF4BFC00000A#64, 0x428F9EFFFC00003F#64, 0x438FFF29FC000001#64].map (decode Params.default) =
    [.ok (.stPost always (.acc 5) 2 1), .ok (.lddPost always (some 15) 7 7), .ok (.stdPost always 10 1 0)] := by decide

/-- Every handle of R104, at the ends of its group, as the source of `MOV R1` (word 0x50AF8101FC000000 with the
handle in bits 39:33). -/
theorem test_decode_handles :
    [0, 31, 32, 39, 40, 47, 48, 55, 56, 63, 64, 71, 72, 79, 80, 87, 88, 95, 96, 97, 98, 99, 100, 101, 102, 103, 104, 105, 106, 107, 108, 109, 110, 111, 112, 113, 114, 115].map (fun h => decode Params.default (0x50AF8101FC000000#64 ||| (BitVec.ofNat 64 h <<< 33))) =
    [.r 0, .r 31, .acc 0, .acc 7, .accH 0, .accH 7, .accM 0, .accM 7, .accL 0, .accL 7, .i 0, .i 7, .m 0, .m 7, .l 0, .l 7, .b 0, .b 7, .cntr, .lpever, .pcstack, .lpstack, .mstat, .sstat, .icntl, .imask, .irptl, .ivec 0, .ivec 1, .ivec 2, .ivec 3, .dstat0, .dstat1, .did, .umcount, .astat .re, .astat .im, .astat .cx].map (fun h => .ok (.mov always (.r 1) h)) := by decide

/-- The reserved handles 116 and 126, and NONE, are no sources (R106, R107). -/
theorem test_decode_reserved_handles :
    [116, 126, 127].map (fun h => match decode Params.default (0x50AF8101FC000000#64 ||| (BitVec.ofNat 64 h <<< 33)) with
      | .ok _ => none
      | .error e => some e.code) = [some .eReg, some .eReg, some .eReg] := by decide

/-- The 32 condition codes (R112), in the COND field of NOP. -/
theorem test_decode_conditions :
    (List.range 32).map (fun n => decode Params.default (0x52A0FFFFFC000000#64 ||| (BitVec.ofNat 64 n <<< 48))) =
    ([.eq, .ne, .gt, .le, .lt, .ge, .av, .notAv, .ac, .notAc, .sv, .notSv, .mv, .notMv, .notCe, .true,
      .eqC, .neC, .gtC, .leC, .ltC, .geC, .avC, .notAvC, .acC, .notAcC, .svC, .notSvC, .mvC, .notMvC, .umC,
      .notUmC] : List Cond).map (fun c => .ok (.nop ⟨c, true⟩)) := by decide

/-- The decode errors of B1, in its order. -/
theorem test_decode_errors :
    [0x0000000000000000#64, 0x01EF830208000000#64, 0x010F830208010000#64, 0x010FF40208000000#64,
      0x180F890818000000#64, 0x010F8303FC400800#64, 0x304FA003FF400000#64, 0x60CF840BFC000001#64,
      0x010FF40208010000#64].map (fun d =>
        match decode Params.default d with
        | .ok _ => none
        | .error e => some e.code) =
    [some .eCombo, some .eCombo, some .eCombo, some .eReg, some .eReg, some .eReg, some .eCombo,
      some .eCombo, some .eReg] := by decide

/-- The words of the encoder are those of B1. -/
theorem test_encode :
    [Instr.add ⟨.lt, true⟩ (some 3) 1 (.imm 5), .ashiftC always (some 0) (.regs 2) (.imm 0xFE03) .dflt false,
      .modify always 1 1, .xrd always 4 5 .four 3].map encode =
    [0x01048303FC400005#64, 0x344FA009FC40FE03#64, 0x448FFFFFFC000009#64, 0x60CF840BFC200003#64] := by
  decide

/-- The host's two entry points read one word alike. -/
theorem test_table_word :
    decodeTableWord 64 0x010F830208000000 = some (.add always (some 3) 1 (.reg 2)) := by decide

theorem test_fetch :
    after (step ((two 0x123#12 0x0FF#12).withFetchWord 64 0x010F830208000000)) alu =
      some (0x222#12, false, false, false, false) := by decide

/-! ## WellFormed refuses an ill-formed term for each of its checks -/

theorem test_illformed_alu :
    Instr.wellFormed Params.default (.add always (some 3) 1 (.imm 0x0800#16)) = false := by decide
theorem test_illformed_bit :
    Instr.wellFormed Params.default (.tstbit always (some 3) 1 (.imm 12#16)) = false := by decide
theorem test_illformed_rotate :
    Instr.wellFormed Params.default (.rccwC always (some 4) 2 (.imm 4#16)) = false := by decide
theorem test_illformed_shift :
    Instr.wellFormed Params.default (.ashift always (some 0) (.reg 1) (.imm 33#16) .dflt false) = false := by
  decide
theorem test_illformed_shift_pair_re :
    Instr.wellFormed Params.default (.ashiftC always (some 0) (.regs 2) (.imm 0x0021#16) .dflt false) = false := by
  decide
theorem test_illformed_shift_pair_im :
    Instr.wellFormed Params.default (.ashiftC always (some 0) (.regs 2) (.imm 0x2100#16) .dflt false) = false := by
  decide
theorem test_illformed_source :
    Instr.wellFormed Params.default (.mov always (.r 1) .noReg) = false
    ∧ Instr.wellFormed Params.default (.stDirect always .noReg 0) = false := by decide
theorem test_illformed_window :
    Instr.wellFormed { Params.default with regXLo := 8, regXHi := 15 } (.xrd always 7 8 .two 0) = false
    ∧ Instr.wellFormed { Params.default with regXLo := 8, regXHi := 15 } (.xrd always 8 16 .two 0) = false := by
  decide
theorem test_illformed_act :
    Instr.wellFormed { Params.default with lanes := .two } (.xwr always 4 5 .four 0) = false := by decide
theorem test_illformed_off :
    Instr.wellFormed { Params.default with lanes := .two } (.xwr always 4 5 .two 2) = false := by decide

/-! ## Real ALU (B3) -/

theorem test_add_overflow :
    after (exec (.add always (some 3) 1 (.reg 2)) (two 0x7FF#12 0x001#12)) alu =
      some (0x800#12, false, true, true, false) := by decide
theorem test_add_saturates :
    after (exec (.add always (some 3) 1 (.reg 2)) (withMode (two 0x800#12 0x800#12) 0x08#8)) alu =
      some (0x800#12, true, false, true, true) := by decide
theorem test_addc :
    after (exec (.addc always (some 3) 1 (.reg 2)) (withCarry (two 0xFFF#12 0#12))) alu =
      some (0x000#12, true, false, false, true) := by decide
theorem test_sub :
    after (exec (.sub always (some 3) 1 (.reg 2)) (two 5#12 7#12)) alu =
      some (0xFFE#12, false, true, false, true) := by decide
theorem test_sub_saturates :
    after (exec (.sub always (some 3) 1 (.reg 2)) (withMode (two 0x800#12 1#12) 0x08#8)) alu =
      some (0x7FF#12, false, false, true, false) := by decide
theorem test_subc :
    after (exec (.subc always (some 3) 1 (.reg 2)) (two 5#12 3#12)) alu =
      some (0x001#12, false, false, false, false) := by decide
theorem test_subc_borrow :
    after (exec (.subc always (some 3) 1 (.reg 2))
      { withCarry (two 5#12 3#12) with cfg := { Params.default with subcForm := .borrow } }) alu =
      some (0x001#12, false, false, false, false) := by decide
theorem test_subb :
    after (exec (.subb always (some 3) 1 (.reg 2)) (two 5#12 7#12)) alu =
      some (0x002#12, false, false, false, false) := by decide
theorem test_subbc :
    after (exec (.subbc always (some 3) 1 (.reg 2)) (withCarry (two 5#12 7#12))) alu =
      some (0x002#12, false, false, false, false) := by decide
theorem test_and :
    after (exec (.and always (some 3) 1 (.reg 2)) (two 0xF0F#12 0x0FF#12)) alu =
      some (0x00F#12, false, false, false, false) := by decide
theorem test_or :
    after (exec (.or always (some 3) 1 (.reg 2)) (two 0xF00#12 0x00F#12)) alu =
      some (0xF0F#12, false, true, false, false) := by decide
theorem test_xor :
    after (exec (.xor always (some 3) 1 (.reg 2)) (two 0xAAA#12 0xFFF#12)) alu =
      some (0x555#12, false, false, false, false) := by decide
theorem test_not :
    after (exec (.not always (some 3) 1) (two 0xFFF#12 0#12)) alu =
      some (0x000#12, true, false, false, false) := by decide
theorem test_abs :
    after (exec (.abs always (some 3) 1) (two 0x800#12 0#12)) (fun t => (alu t, (t.flags .re 0).as)) =
      some ((0x800#12, false, true, true, false), true) := by decide
theorem test_inc :
    after (exec (.inc always (some 3) 1) (two 0xFFF#12 0#12)) alu =
      some (0x000#12, true, false, false, true) := by decide
theorem test_dec :
    after (exec (.dec always (some 3) 1) (two 0#12 0#12)) alu =
      some (0xFFF#12, false, true, false, true) := by decide
theorem test_tstbit :
    after (exec (.tstbit always (some 3) 1 (.imm 11#16)) (two 0x800#12 0#12)) alu =
      some (0x800#12, false, true, false, false) := by decide
theorem test_tstbit_index :
    after (exec (.tstbit always (some 3) 1 (.reg 2)) (two 0x800#12 12#12)) fault =
      some (some (⟨.eReg, .value 12⟩, 0)) := by decide
theorem test_setbit :
    after (exec (.setbit always (some 3) 1 (.imm 0#16)) (two 0#12 0#12)) alu =
      some (0x001#12, false, false, false, false) := by decide
theorem test_clrbit :
    after (exec (.clrbit always (some 3) 1 (.imm 11#16)) (two 0xFFF#12 0#12)) alu =
      some (0x7FF#12, false, false, false, false) := by decide
theorem test_tglbit :
    after (exec (.tglbit always (some 3) 1 (.imm 0#16)) (two 1#12 0#12)) alu =
      some (0x000#12, true, false, false, false) := by decide
theorem test_scr_odd :
    after (exec (.scr always (some 3) 1 (.reg 2)) (two 3#12 1#12)) alu =
      some (0xFFD#12, false, true, false, false) := by decide
theorem test_scr_even :
    after (exec (.scr always (some 3) 1 (.reg 2)) (two 3#12 2#12)) alu =
      some (0x003#12, false, false, false, false) := by decide
theorem test_addA :
    after (exec (.addA always (some 0) 1 (.reg 2)) (withAcc (two 0#12 0xFFF#12) 1 0x1000#32)) accAlu =
      some (0xFFF#32, false, false, false, true) := by decide
theorem test_subA :
    after (exec (.subA always (some 0) 1 (.imm 1#16)) (withAcc State.reset 1 0x80000000#32)) accAlu =
      some (0x7FFFFFFF#32, false, false, true, false) := by decide

/-! ## Complex ALU (B4) -/

theorem test_addC :
    after (exec (.addC always (some 4) 2 3) (pairs 1 2 3 (-2))) (fun t =>
      (pair8 t, (t.flags .re 0).az, (t.flags .im 0).az, (t.flags .cx 0).az)) =
      some ((4#12, 0#12), false, true, false) := by decide
theorem test_subC :
    after (exec (.subC always (some 4) 2 3) (pairs 1 2 3 (-2))) (fun t =>
      (pair8 t, (t.flags .re 0).an, (t.flags .im 0).an, (t.flags .cx 0).an)) =
      some ((0xFFE#12, 4#12), true, false, true) := by decide
theorem test_rccwC :
    after (exec (.rccwC always (some 4) 2 (.imm 1#16)) (pairs 3 5 0 0)) pair8 =
      some (0xFFB#12, 3#12) := by decide
theorem test_rccwC_saturates :
    after (exec (.rccwC always (some 4) 2 (.imm 2#16)) (withMode (pairs 0x800 1 0 0) 0x08#8)) (fun t =>
      (pair8 t, (t.flags .re 0).av)) = some ((0x7FF#12, 0xFFF#12), true) := by decide
theorem test_rcwC :
    after (exec (.rcwC always (some 4) 2 (.imm 1#16)) (pairs 3 5 0 0)) pair8 =
      some (5#12, 0xFFD#12) := by decide

/-! ## MAC (B5) -/

theorem test_mpy :
    after (exec (.mpy always (some 0) 1 2 .ss false) (two 0x800#12 0x800#12)) mac0 =
      some (0x00800000#32, false) := by decide
theorem test_mpy_unsigned :
    after (exec (.mpy always (some 0) 1 2 .uu false) (two 0xFFF#12 0xFFF#12)) mac0 =
      some (0x01FFC002#32, false) := by decide
theorem test_mac_su :
    after (exec (.mac always (some 0) 1 2 .su false)
      (withAcc (withMode (two 3#12 0xFFE#12) 0x10#8) 0 100#32)) mac0 = some (0x305E#32, false) := by decide
theorem test_mac_overflow :
    after (exec (.mac always (some 0) 1 2 .ss false)
      (withAcc (withMode (two 1#12 1#12) 0x10#8) 0 0x7FFFFFFF#32)) (fun t => (mac0 t, t.ovcnt.get 0)) =
      some ((0x80000000#32, true), 1#32) := by decide
theorem test_mas :
    after (exec (.mas always (some 0) 1 2 .ss false)
      (withAcc (withMode (two 3#12 4#12) 0x10#8) 0 100#32)) mac0 = some (88#32, false) := by decide
theorem test_mpyC :
    after (exec (.mpyC always (some 0) 2 3 .ss false) (withMode (pairs 1 2 3 4) 0x10#8)) accPair0 =
      some (0xFFFFFFFB#32, 0xA#32) := by decide
theorem test_macC :
    after (exec (.macC always (some 0) 2 3 .ss false)
      (withAcc (withAcc (withMode (pairs 1 2 3 4) 0x10#8) 0 10) 1 10)) accPair0 =
      some (5#32, 20#32) := by decide
theorem test_masC :
    after (exec (.masC always (some 0) 2 3 .ss false)
      (withAcc (withAcc (withMode (pairs 1 2 3 4) 0x10#8) 0 10) 1 10)) accPair0 =
      some (15#32, 0#32) := by decide
theorem test_mpyRC :
    after (exec (.mpyRC always (some 0) 4 3 .ss false) (withMode (pairs 3 0 5 (-1)) 0x10#8)) accPair0 =
      some (15#32, 0xFFFFFFFD#32) := by decide
theorem test_macRC :
    after (exec (.macRC always (some 0) 4 3 .ss false)
      (withAcc (withAcc (withMode (pairs 3 0 5 (-1)) 0x10#8) 0 1) 1 1)) accPair0 =
      some (16#32, 0xFFFFFFFE#32) := by decide
theorem test_masRC :
    after (exec (.masRC always (some 0) 4 3 .ss false)
      (withAcc (withAcc (withMode (pairs 3 0 5 (-1)) 0x10#8) 0 1) 1 1)) accPair0 =
      some (0xFFFFFFF2#32, 4#32) := by decide
theorem test_rndacc :
    after (exec (.rndacc always (some 0) 1) (withAcc State.reset 1 0x7FFFF800#32)) mac0 =
      some (0x80000000#32, true) := by decide
theorem test_rndacc_unbiased :
    after (exec (.rndacc always (some 0) 1) (withAcc (withMode State.reset 0x01#8) 1 0x800#32)) mac0 =
      some (0#32, false) := by decide
theorem test_clracc :
    after (exec (.clracc always (some 0)) (withAcc State.reset 0 0x123#32)) mac0 =
      some (0#32, false) := by decide

/-! ## Shifts (B6) -/

theorem test_ashift_round :
    after (exec (.ashift always (some 0) (.reg 1) (.imm 0xFFFF#16) .dflt true) (two 0xFF3#12 0#12)) shift0 =
      some (0xFFFFFFFA#32, true, false) := by decide
theorem test_ashift_hi :
    after (exec (.ashift always (some 0) (.reg 1) (.imm 0#16) .hi false) (two 0x800#12 0#12)) shift0 =
      some (0xFF800000#32, true, false) := by decide
theorem test_lshift :
    after (exec (.lshift always (some 0) (.reg 1) (.imm 0xFFFC#16) .dflt false) (two 0x800#12 0#12)) shift0 =
      some (0x80#32, true, false) := by decide
theorem test_lshift_acc :
    after (exec (.lshift always (some 0) (.acc 2) (.imm 0#16) .dflt false)
      (withAcc State.reset 2 0x80000000#32)) shift0 = some (0x80000000#32, true, true) := by decide
theorem test_ashiftor :
    after (exec (.ashiftor always (some 0) (.reg 1) (.imm 4#16) .dflt false)
      (withAcc (two 1#12 0#12) 0 0xF#32)) shift0 = some (0x1F#32, false, false) := by decide
theorem test_lshiftor :
    after (exec (.lshiftor always (some 0) (.reg 2) (.imm 0#16) .dflt false)
      (withAcc (two 0#12 0xABC#12) 0 0x00123000#32)) shift0 = some (0x00123ABC#32, true, false) := by decide
theorem test_ashiftC :
    after (exec (.ashiftC always (some 0) (.regs 2) (.imm 0xFE03#16) .dflt false) (pairs 1 0xFF0 0 0))
      (fun t => (accPair0 t, (t.flags .re 0).ss, (t.flags .im 0).ss, (t.flags .cx 0).ss)) =
      some ((8#32, 0xFFFFFFFC#32), false, true, true) := by decide
theorem test_lshiftC :
    after (exec (.lshiftC always (some 0) (.regs 2) (.imm 0xFE03#16) .dflt false) (pairs 1 0xFF0 0 0))
      accPair0 = some (8#32, 0x3FC#32) := by decide

/-! ## Memory (B7) -/

theorem test_ld_sign :
    after (exec (.ldDirect always (.i 0) 0x100#16) (withMem State.reset [(0x100, 0x800#12)]))
      (fun t => (t.i.get 0).cur) = some 0xF800#16 := by decide
theorem test_ld_absent :
    after (step { State.reset with input := [.execute [0x408F81FFFC400100#64] 0 0] })
      (fun t => t.log.map (·.warn)) = some [.undefCreate 0x100, .undefRead 0x100 0] := by decide
theorem test_ld_post :
    after (exec (.ldPost always (.r 5) 0 0) (withMem (withAgu State.reset 0x100 1 0 0) [(0x100, 0x055#12)]))
      (fun t => (t.reg 5 0, t.lat (.i 0))) = some (0x055#12, 0x101#16) := by decide
theorem test_ld_bitrev :
    after (exec (.ldPost always (.r 1) 0 0)
      (withMem (withMode (withAgu State.reset 1 1 0 0) 0x02#8) [(0x8000, 0x0AA#12)]))
      (fun t => (t.reg 1 0, t.lat (.i 0))) = some (0x0AA#12, 2#16) := by decide
theorem test_st_low :
    after (exec (.stDirect always (.acc 0) 0x10#16) (withAcc State.reset 0 0x12345678#32))
      (fun t => (t.memLane 0x10 0, t.memLane 0x10 1)) = some (some 0x678#12, none) := by decide
theorem test_st_circular :
    after (exec (.stPost always (.r 1) 0 0) (withAgu (two 7#12 0#12) 0x103 1 4 0x100))
      (fun t => (t.memLane 0x103 0, t.lat (.i 0))) = some (some 7#12, 0x100#16) := by decide
theorem test_ldd :
    after (exec (.lddDirect always (some 3) 0x300#16)
      (withMem State.reset [(0x300, 0x111#12), (0x301, 0x222#12)])) (fun t => (t.reg 6 0, t.reg 7 0)) =
      some (0x111#12, 0x222#12) := by decide
theorem test_ldd_unaligned :
    after (exec (.lddDirect always (some 3) 0x301#16)
      (withMode (withMem State.reset [(0x301, 0x111#12), (0x302, 0x222#12)]) 0x20#8))
      (fun t => (t.reg 7 0, (t.flags .re 0).um, (t.flags .im 0).um, t.umcount.get 0)) =
      some (0x222#12, true, false, 1#12) := by decide
theorem test_ldd_errors :
    after (exec (.lddPost always (some 3) 0 0) (withAgu State.reset 0x301 0 0 0)) fault =
      some (some (⟨.eUnaligned, .addr 0x301⟩, 0))
    ∧ after (exec (.lddPost always (some 3) 0 0) (withMode (withAgu State.reset 0xFFFF 0 0 0) 0x20#8)) fault =
      some (some (⟨.eAddr, .addr 0x10000⟩, 0)) := by decide
theorem test_std :
    after (exec (.stdDirect always 3 0x300#16) (pairs 0 0 0x111 0x222))
      (fun t => (t.memLane 0x300 0, t.memLane 0x301 0)) = some (some 0x111#12, some 0x222#12) := by decide
theorem test_std_post :
    after (exec (.stdPost always 3 0 0) (withAgu (pairs 0 0 0x111 0x222) 0x300 2 0 0))
      (fun t => (t.memLane 0x301 0, t.lat (.i 0))) = some (some 0x222#12, 0x302#16) := by decide
theorem test_modify_down :
    after (exec (.modify always 0 0) (withAgu State.reset 0x100 0xFFFF 4 0x100)) (fun t => t.lat (.i 0)) =
      some 0x103#16 := by decide
theorem test_modify_large :
    after (exec (.modify always 0 0) (withAgu State.reset 0x100 9 4 0x100)) (fun t => t.lat (.i 0)) =
      some 0x105#16 := by decide

/-! ## Moves, immediates, cross-lane transfers (B8) -/

theorem test_mov_field :
    after (exec (.mov always (.accM 0) (.r 1)) (two 0x800#12 0#12)) (·.accWord 0 0) =
      some 0xFF800000#32 := by decide
theorem test_mov_did :
    after (exec (.mov always (.r 1) .did) fourLanes) (fun t => allLanes.map (t.reg 1)) =
      some [0#12, 1#12, 2#12, 3#12] := by decide
theorem test_ldi :
    after (exec (.ldi always (.acc 0) 0xFFFF#16) State.reset) (·.accWord 0 0) = some 0xFFFFFFFF#32 := by
  decide
theorem test_ldi_master :
    after (exec (.ldi always .dstat1 0b0110#16) fourLanes) (·.master) = some 0b0010#4 := by decide
theorem test_nop_all_false :
    after (exec (.nop ⟨.eq, true⟩) State.reset) (fun t => (t.cycle, t.out.map (·.trueCount))) =
      some (1, [0]) := by decide
theorem test_xrd :
    after (exec (.xrd always 4 5 .four 3) fourLanes) (fun t => allLanes.map (t.reg 4)) =
      some [13#12, 10#12, 11#12, 12#12] := by decide
theorem test_xrd_two :
    after (exec (.xrd always 4 5 .two 1) fourLanes) (fun t => allLanes.map (t.reg 4)) =
      some [11#12, 10#12, 11#12, 10#12] := by decide
theorem test_xwr :
    after (exec (.xwr always 4 5 .four 1) fourLanes) (fun t => allLanes.map (t.reg 4)) =
      some [13#12, 10#12, 11#12, 12#12] := by decide
theorem test_xwr_collision :
    after (exec (.xwr always 4 5 .two 0) fourLanes) fault = some (some (eCombo, 0)) := by decide

/-! ## Bundles, hazards and errors (B2, B9) -/

theorem test_bundle_independent :
    after (runSlots [.add inside (some 1) 1 (.imm 1#16), .mov always (.r 2) (.r 1)] (two 1#12 0#12))
      (fun t => (t.reg 1 0, t.reg 2 0)) = some (2#12, 1#12) := by decide
theorem test_bundle_conflict :
    after (runSlots [.add inside (some 3) 1 (.reg 2), .sub always (some 4) 1 (.reg 2)] (two 1#12 2#12))
      (fun t => (fault t, t.cycle)) = some (some (eCombo, 1), 0) := by decide
theorem test_bundle_agu_wins :
    after (runSlots [.ldi inside (.i 0) 0x500#16, .modify always 0 0] (withAgu State.reset 0x100 1 0 0))
      (fun t => t.lat (.i 0)) = some 0x101#16 := by decide
theorem test_bundle_decode_error :
    after (step { State.reset with input := [.execute [0x010F030208000000#64, 0x0000800000000000#64] 0 7] })
      (fun t => (fault t, t.faultRec.map (·.site))) = some (some (eCombo, 1), some 7) := by decide
theorem test_sticky_overflow :
    after (exec (.add always (some 3) 1 (.reg 2)) { withMode (two 1#12 1#12) 0x04#8 with
      astatR := PerLane.fill { Flags.clear with av := true } }) alu =
      some (2#12, false, false, true, false) := by decide

/-! ## Unspecified values (B9, R64, R85, R143) -/

/-- After reset with `UNINIT_READ = fault` (R9's default). -/
def faulting : State := State.resetWith { Params.default with uninitRead := .fault }

/-- B9: a read of an unwritten R1 raises F_UNINIT; written, it does not (R64). -/
theorem test_uninit_register :
    after (exec (.inc always (some 3) 1) faulting) (fun t => t.faultRec.map (·.err.code.number)) =
      some (some 5)
    ∧ after (exec (.ldi always (.r 1) 7#16) faulting) (fun t =>
      after (exec (.inc always (some 3) 1) t) (fun u => (u.faultRec.isNone, u.reg 3 0))) =
      some (some (true, 8#12)) := by decide +kernel
/-- A write of I0 leaves its backups unspecified: the next bundle reads one of them (R143), the third reads the
written value. -/
theorem test_uninit_backup :
    after (exec (.ldi always (.i 0) 7#16) faulting) (fun t =>
      (t.unset (.haz (.i 0) .cur), t.unset (t.latPlace (.i 0)),
        after (exec (.mov always (.r 1) (.i 0)) t) (fun u => u.faultRec.map (·.err.code)),
        after (exec (.mov always (.r 1) (.i 0)) { t with cycle := 3 }) (fun u => u.reg 1 0))) =
      some (false, true, some (some .fUninit), some 7#12) := by decide +kernel
/-- CLRACC ends the unspecified state of an accumulator (R263), and a write of M that of M and H alone (R28). -/
theorem test_uninit_accumulator :
    after (exec (.clracc always (some 0)) faulting) (fun t =>
      [Place.acc 0 0 .h, .acc 0 0 .m, .acc 0 0 .l].map t.unset) = some [false, false, false]
    ∧ after (exec (.ldi always (.accM 0) 1#16) faulting) (fun t =>
      [Place.acc 0 0 .h, .acc 0 0 .m, .acc 0 0 .l, .acc 0 1 .m].map t.unset) =
      some [false, false, true, true] := by decide +kernel
/-- E_UNALIGNED comes before the read of the words to store (R297). -/
theorem test_uninit_after_checks :
    after (exec (.stdDirect always 3 0x301#16) faulting) (fun t => t.faultRec.map (·.err.code)) =
      some (some .eUnaligned)
    ∧ after (exec (.stdDirect always 3 0x300#16) faulting) (fun t => t.faultRec.map (·.err.code)) =
      some (some .fUninit) := by decide +kernel
/-- An error keeps the warnings emitted before it and those alone (R331, R339): STD DM(0x300), R6 reads R6 before
its first `MemWrite` and R7 before its second (R77, R297), and LD through I0 creates the entry before it reads
M0 (R293). -/
theorem test_uninit_warnings :
    after (exec (.stdDirect always 3 0x300#16) faulting) (fun t => t.log.map (·.warn)) = some []
    ∧ after (exec (.stdDirect always 3 0x300#16)
        (faulting.withUnwritten (faulting.unwritten.filter (·.handle != .r 6)))) (fun t => t.log.map (·.warn)) =
      some [.undefCreate 0x300]
    ∧ after (exec (.ldPost always (.r 1) 0 0)
        (faulting.withUnwritten (faulting.unwritten.filter (·.handle != .i 0)))) (fun t => t.log.map (·.warn)) =
      some [.undefCreate 0, .undefRead 0 0] := by decide +kernel
/-- MAC reads its factors, then M_MODE, then the accumulator (R240, R241, R251): the W_STALE of MSTAT stays in the
log where ACC0 is unspecified, and is not there where R2 is; ADD.C reads its real parts and AR_SAT before R7
(R222). MSTAT is written in the bundle before. -/
theorem test_uninit_modes :
    (([(Instr.mac always (some 0) 1 2 .ss false, [Place.acc 0 0 .h]),
        (.mac always (some 0) 1 2 .ss false, [.acc 0 0 .h, .reg 2 0]),
        (.addC always none 2 3, [.reg 7 0]), (.addC always none 2 3, [.reg 6 0])]).map fun x =>
      after (exec x.1
        { faulting with unwritten := x.2, cycle := 1, mstat := faulting.mstat.push 0#8 0 })
        (fun t => (t.log.map (·.warn), t.faultRec.map (·.err)))) =
      [some ([.stale .mstat], some ⟨.fUninit, .handle (Handle.accH 0).code⟩),
        some ([], some ⟨.fUninit, .handle (Handle.r 2).code⟩),
        some ([.stale .mstat], some ⟨.fUninit, .handle (Handle.r 7).code⟩),
        some ([], some ⟨.fUninit, .handle (Handle.r 6).code⟩)] := by decide +kernel
/-- The W_STALE of Lk and Bk comes after the read of an unspecified Mm (R85, R140, R331): L0 and B0 are
written in the bundle before, M0 is not. -/
theorem test_uninit_stale :
    after (exec (.stPost always (.r 1) 0 0)
      { faulting with
        unwritten := [.haz (.m 0) .cur], cycle := 1
        l := faulting.l.set 0 ((faulting.l.get 0).push 0#16 0)
        b := faulting.b.set 0 ((faulting.b.get 0).push 0#16 0) })
      (fun t => (t.log.map (·.warn), t.faultRec.map (·.err))) =
      some ([.undefCreate 0], some ⟨.fUninit, .handle (Handle.m 0).code⟩) := by decide +kernel
/-- A host read of NONE is E_REG (R40), one of an unwritten register F_UNINIT under `fault`, and a dump shows
OVCNT (R58). -/
theorem test_host_read :
    (match State.reset.hostRead .noReg 0 with | .error e => some e.code | .ok _ => none) = some .eReg
    ∧ (match faulting.hostRead (.r 1) 0 with | .error e => some e.code | .ok _ => none) = some .fUninit
    ∧ (State.reset.setOvcnt 0 9#32).dump.ovcnt.get 0 = 9#32 := by decide +kernel

/-! ## Witnesses: states and operands that meet the hypotheses of the obligations -/

/-- Between bundles after reset, lane 0 executes an unpredicated operation, and lanes 1 to 3 do not. -/
theorem witness_idle : State.reset.Idle ∧ always.eob = true ∧ State.reset.runs always 0
    ∧ State.reset.runsAny always ∧ ∀ j : Lane, j ≠ 0 → ¬ State.reset.runs always j := by
  refine ⟨⟨rfl, rfl, rfl, rfl⟩, rfl, ?_, ?_, ?_⟩
  · unfold State.runs; decide
  · unfold State.runsAny; decide
  · unfold State.runs; decide

/-- Between bundles with the four lanes enabled, every lane executes an unpredicated operation. -/
theorem witness_four : fourLanes.Idle ∧ ∀ j : Lane, fourLanes.runs always j := by
  refine ⟨⟨rfl, rfl, rfl, rfl⟩, ?_⟩; unfold State.runs; decide

/-- Every operation reads specified places only in a state like reset's, under the model's `held`. -/
theorem witness_known (i : Instr) : State.reset.Known i ∧ fourLanes.Known i ∧ (two 0 12).Known i
    ∧ (two 0 (-1)).Known i ∧ (withMode State.reset 0x20#8).Known i
    ∧ (withAgu State.reset 0xFFFE 1 0 0).Known i :=
  ⟨Or.inl rfl, Or.inl rfl, Or.inl rfl, Or.inl rfl, Or.inl rfl, Or.inl rfl⟩

/-- After reset with `UNINIT_READ = fault`, once the host has written R1 and R2. -/
def strict : State :=
  { State.resetWith { Params.default with uninitRead := .fault } with
    unwritten := unspecifiedAtReset.filter fun p => !(p.handle == .r 1 || p.handle == .r 2) }

/-- Under `fault` an operation that reads R1 and R2 reads specified places, and one that reads R3 does not. -/
theorem witness_known_fault : strict.Known (.add always (some 3) 1 (.reg 2))
    ∧ .reg 3 0 ∈ strict.placesRead (.inc always (some 3) 3) ∧ strict.unset (.reg 3 0) = true :=
  ⟨Or.inr (Or.inr ⟨rfl, by decide +kernel⟩), by decide, by decide +kernel⟩

/-- With AZ = 1 nowhere, no lane executes an operation under EQ. -/
theorem witness_none : ¬ State.reset.runsAny ⟨.eq, true⟩ := by unfold State.runsAny; decide

theorem witness_DecodeEncodeRoundTrip :
    Instr.wellFormed Params.default (.add always none 31 (.imm 0x7FF#16)) = true
    ∧ Instr.wellFormed Params.default (.add always (some 31) 0 (.imm 0xF800#16)) = true
    ∧ Instr.wellFormed Params.default (.tglbit always (some 0) 1 (.imm 11#16)) = true
    ∧ Instr.wellFormed Params.default (.ashiftC always (some 3) (.accs 3) (.imm 0xE020#16) .lo true) = true
    ∧ Instr.wellFormed { Params.default with lanes := .two } (.xwr always 31 0 .two 1) = true := by decide

theorem witness_DecodedWordsAreCanonical :
    decode Params.default 0x010F8303FC4007FF#64 = .ok (.add always (some 3) 1 (.imm 0x7FF#16)) := by decide

theorem witness_UnmappedPairsRaiseCombo :
    decode Params.default 0xFFFFFFFFFFFFFFFF#64 = .error eCombo
    ∧ decode Params.default 0x0000000000000000#64 = .error eCombo
    ∧ decode Params.default 0x022F830208000000#64 = .error eCombo := by decide

/-- The state in which the host has sent one bundle of the words `ds`. -/
def sent (ds : List Descr) : State := { State.reset with input := [.execute ds 0#8 0] }

theorem witness_StepRunsDecodedInstruction :
    (sent [0x010F830208000000#64]).input = .execute [0x010F830208000000#64] 0#8 0 :: []
    ∧ (sent [0x010F830208000000#64]).faultRec = none
    ∧ decode (sent [0x010F830208000000#64]).cfg 0x010F830208000000#64 =
      .ok (.add always (some 3) 1 (.reg 2)) := by decide

theorem witness_OpenBundleKeepsArchitecture :
    ∃ t, exec (.add inside (some 3) 1 (.reg 2)) State.reset = .next t := ⟨_, rfl⟩

theorem witness_DecodeErrorsAreRecordedFirst :
    takeBundle [0x010F030208000000#64, 0x0000800000000000#64] =
      some ([0x010F030208000000#64] ++ 0x0000800000000000#64 :: [], [])
    ∧ decode Params.default 0x010F030208000000#64 = .ok (.add inside (some 3) 1 (.reg 2))
    ∧ decode Params.default 0x0000800000000000#64 = .error eCombo := by decide

theorem witness_BundleErrorsArePrecise :
    (sent [0x0000800000000000#64]).faultRec = none
    ∧ after (step (sent [0x0000800000000000#64])) (fun t => t.faultRec.isSome) = some true := by decide

theorem witness_BundlesAdvanceTheCycleByOne :
    takeBundle [0x010F030208000000#64, 0x010F830208000000#64, 0x52AFFFFFFC000000#64] =
      some ([0x010F030208000000#64, 0x010F830208000000#64], [0x52AFFFFFFC000000#64]) := by decide

/-- The invariant holds with a command queued, and the step answers a next state. -/
theorem witness_StepKeepsInvariant :
    (sent [0x52AFFFFFFC000000#64]).Inv ∧ ∃ t, step (sent [0x52AFFFFFFC000000#64]) = .next t :=
  ⟨{ cfg := by decide, memWf := by decide, memInert := by decide, enWithin := by decide,
     masterOne := by decide, masterWithin := by decide, iOrdered := by decide, mOrdered := by decide,
     lOrdered := by decide, bOrdered := by decide, cntrOrdered := by decide, mstatOrdered := by decide,
     unwritten := fun p hp => unspecified_open p hp, slot := rfl, staged := rfl, outs := rfl }, ⟨_, rfl⟩⟩

theorem witness_ResetHasInvariant :
    Params.default.wf = true ∧ Params.wf { Params.default with lanes := .one, resetEn := 0#4 } = true
    ∧ Params.wf { Params.default with lanes := .two, resetMaster := 0b0010#4 } = true := by decide

theorem witness_OnlyResetClears :
    (sent [0x52AFFFFFFC000000#64]).input.head? ≠ some .reset
    ∧ (sent [0x52AFFFFFFC000000#64]).en.getLsbD 0 = true
    ∧ after (step (sent [0x52AFFFFFFC000000#64])) (fun t => t.en.getLsbD 0) = some true
    ∧ after (step { State.reset with
      faultRec := some ⟨eCombo, 0, 0, 0⟩, input := [.setIrptl 1#16] }) (fun t => t.faultRec.isSome) =
      some true := by decide

theorem witness_InactiveLanesUntouched :
    after (step { sent [0x52AFFFFFFC000000#64] with cfg := { Params.default with lanes := .two } })
      (fun t => (t.cfg.active 1, t.cfg.active 2)) = some (true, false) := by decide

theorem witness_OtherLanesKeepTheirValues :
    State.reset.Idle ∧ (∃ t, exec (.inc always (some 3) 1) State.reset = .next t)
    ∧ ¬ State.reset.runs (Instr.inc always (some 3) 1).ctl 1 :=
  ⟨witness_idle.1, ⟨_, rfl⟩, witness_idle.2.2.2.2 1 (by decide)⟩

/-- Lane 0 is enabled; CNTR at 1 and 2 are the values where NOT CE changes. -/
theorem witness_ConditionFormulas : State.reset.enabled 0 = true
    ∧ (State.maskFor { State.reset with cntr := Hazard.init 1#16 } .notCe).get 0 = false
    ∧ (State.maskFor { State.reset with cntr := Hazard.init 2#16 } .notCe).get 0 = true := by decide

theorem witness_HazardVisibility :
    (∀ t, (Hazard.init 0#16).tCur = some t → t + 3 ≤ 0)
    ∧ ∀ t, (⟨1#16, 0#16, 0#16, some 4, none, none⟩ : Hazard 16).tCur = some t → t + 3 ≤ 7 := by
  constructor <;> intro t h <;> cases h; omega

theorem witness_ModeChangeTakesThreeBundles : State.reset.Idle ∧ State.reset.isMaster 0 = true
    ∧ ∀ t, State.reset.mstat.tCur = some t → t + 3 ≤ State.reset.cycle :=
  ⟨witness_idle.1, by decide, by intro t h; cases h⟩

/-- Under each value of SUBC_FORM, after reset (AC = 0). -/
theorem witness_SubtractResults : State.reset.Idle ∧ (∀ i, State.reset.Known i)
    ∧ State.reset.cfg.subcForm = .adsp
    ∧ (∀ j, (fun _ : Lane => (-1 : Int)) j = (if (State.reset.flags .re j).ac = true then 0 else -1))
    ∧ (State.resetWith { Params.default with subcForm := .borrow }).Idle
    ∧ (∀ i, (State.resetWith { Params.default with subcForm := .borrow }).Known i)
    ∧ ∀ j, (fun _ : Lane => (0 : Int)) j = (if (State.reset.flags .re j).ac = true then -1 else 0) :=
  ⟨witness_idle.1, fun _ => Or.inl rfl, rfl, by decide, ⟨rfl, rfl, rfl, rfl⟩, fun _ => Or.inl rfl, by decide⟩

theorem witness_OverflowTestsAreExact : (0 : Int) ≤ 1 ∧ (1 : Int) ≤ 1 := by decide

/-- Index 0 and index 11, the ends of the range. -/
theorem witness_BitResults : State.reset.Idle ∧ (∀ i, State.reset.Known i)
    ∧ (∀ j, 0 ≤ State.reset.srcIndex (.imm 0#16) j ∧ State.reset.srcIndex (.imm 0#16) j ≤ 11)
    ∧ ∀ j, 0 ≤ State.reset.srcIndex (.imm 11#16) j ∧ State.reset.srcIndex (.imm 11#16) j ≤ 11 :=
  ⟨witness_idle.1, fun _ => Or.inl rfl, by decide, by decide⟩

/-- Index 12 and index -1, just outside the range, in the lowest executing lane. -/
theorem witness_BitIndexErrors : (two 0 12).Idle ∧ (two 0 12).runs always 0
    ∧ 11 < (two 0 12).srcIndex (.reg 2) 0
    ∧ (two 0 (-1)).Idle ∧ (two 0 (-1)).runs always 0 ∧ (two 0 (-1)).srcIndex (.reg 2) 0 < 0
    ∧ (∀ i : Lane, ¬ i < 0) ∧ ∀ i, (two 0 12).Known i ∧ (two 0 (-1)).Known i := by
  refine ⟨⟨rfl, rfl, rfl, rfl⟩, ?_, by decide, ⟨rfl, rfl, rfl, rfl⟩, ?_, by decide, by decide,
    fun _ => ⟨Or.inl rfl, Or.inl rfl⟩⟩ <;>
    (unfold State.runs; decide)

/-- With the operand pair 0, whose turns are all 0 and do not overflow. -/
theorem witness_RotationResults : State.reset.Idle ∧ (∀ i, State.reset.Known i) ∧
    (∀ j, 0#12 = State.reset.reg (RPair.re 2) j ∧ 0#12 = State.reset.reg (RPair.im 2) j
      ∧ 0#12 = -(State.reset.reg (RPair.im 2) j) ∧ 0#12 = State.reset.reg (RPair.re 2) j
      ∧ 0#12 = -(State.reset.reg (RPair.re 2) j) ∧ 0#12 = -(State.reset.reg (RPair.im 2) j)
      ∧ 0#12 = State.reset.reg (RPair.im 2) j ∧ 0#12 = -(State.reset.reg (RPair.re 2) j))
    ∧ ∀ j, false = decide (State.reset.reg (RPair.im 2) j = 0x800#12)
      ∧ false = decide (State.reset.reg (RPair.re 2) j = 0x800#12) :=
  ⟨witness_idle.1, fun _ => Or.inl rfl, by decide, by decide⟩

theorem witness_CordicResults : State.reset.Idle ∧ (∀ i, State.reset.Known i) ∧ ∃ (m : Lane → Int) (xy : Lane → Int × Int),
    (∀ j, m j = Config.cordicVector (State.reset.reg 4 j).toInt (State.reset.reg 5 j).toInt)
    ∧ ∀ j, xy j = Config.cordicRotate (State.reset.reg 4 j).toInt (State.reset.reg 5 j).toInt :=
  ⟨witness_idle.1, fun _ => Or.inl rfl, _, _, fun _ => rfl, fun _ => rfl⟩

/-- With a destination, and with NONE. -/
theorem witness_MacResults : State.reset.Idle ∧ (∀ i, State.reset.Known i) ∧ ∃ acc : Lane → Int,
    (∀ k, some (7 : Fin 8) = some k → ∀ j, acc j = (State.reset.accWord k j).toInt)
    ∧ ∀ j, acc j = 0 :=
  ⟨witness_idle.1, fun _ => Or.inl rfl, fun _ => 0, fun k h => by cases h; decide, fun _ => rfl⟩

/-- With a destination pair, and with NONE; the products of the pairs (R4, R5) and (R6, R7), all 0. -/
theorem witness_ComplexMacResults : State.reset.Idle ∧ (∀ i, State.reset.Known i) ∧ ∃ accR accI pr pi qr qi : Lane → Int,
    (∀ p, some (3 : AccPair) = some p →
      ∀ j, accR j = (State.reset.accWord p.re j).toInt ∧ accI j = (State.reset.accWord p.im j).toInt)
    ∧ (∀ j, accR j = 0 ∧ accI j = 0)
    ∧ (∀ j, pr j = State.reset.times .ss (State.reset.reg 4 j) (State.reset.reg 6 j)
          - State.reset.times .ss (State.reset.reg 5 j) (State.reset.reg 7 j)
        ∧ pi j = State.reset.times .ss (State.reset.reg 4 j) (State.reset.reg 7 j)
          + State.reset.times .ss (State.reset.reg 5 j) (State.reset.reg 6 j))
    ∧ ∀ j, qr j = State.reset.times .ss (State.reset.reg 1 j) (State.reset.reg 6 j)
        ∧ qi j = State.reset.times .ss (State.reset.reg 1 j) (State.reset.reg 7 j) :=
  ⟨witness_idle.1, fun _ => Or.inl rfl, fun _ => 0, fun _ => 0, fun _ => 0, fun _ => 0, fun _ => 0, fun _ => 0,
    fun p h => by cases h; decide, by decide, by decide, by decide⟩

theorem witness_ShiftIsFloorDivision : 1 ≤ 31 ∧ 31 < 32 ∧ 32 ≤ 32
    ∧ sh (-1) (-31) true true false = -1 ∧ sh 13 (-1) true false true = 7
    ∧ sh (-5) (-32) true true false = -1 := by decide

/-- From a register by 32 places to the left, and from an accumulator. -/
theorem witness_ShiftResults : State.reset.Idle ∧ (∀ i, State.reset.Known i) ∧ ∀ j,
    (State.reset.reg 1 j).msb = false ∧ (State.reset.accWord 7 j).msb = false
    ∧ 0 = sh ((State.reset.reg 1 j).toInt * 1) (State.reset.srcInt (.imm 32#16) j) true false false
    ∧ 0 = sh ((State.reset.reg 1 j).toNat * 1) (State.reset.srcInt (.imm 32#16) j) false false false
    ∧ 0 = sh ((State.reset.accWord 7 j).toInt * 4096) (State.reset.srcInt (.imm 0xFFE0#16) j) true false true
    ∧ 0 = sh ((State.reset.accWord 7 j).toNat * 4096) (State.reset.srcInt (.imm 0xFFE0#16) j) false false true :=
  ⟨witness_idle.1, fun _ => Or.inl rfl, by decide⟩

/-- The amounts 32 and -32, the ends of the range, in one immediate. -/
theorem witness_ComplexShiftResults : State.reset.Idle ∧ (∀ i, State.reset.Known i)
    ∧ (∀ p, ShiftPair.regs 2 = .regs p → ShiftSrc.reg 4 = .reg p.re ∧ ShiftSrc.reg 5 = .reg p.im)
    ∧ (∀ p, ShiftPair.accs 3 = .accs p → ShiftSrc.acc 6 = .acc p.re ∧ ShiftSrc.acc 7 = .acc p.im)
    ∧ (∀ v, AmountPair.imm 0xE020#16 = .imm v →
      (32 : Int) = (v.extractLsb' 0 8).toInt ∧ (-32 : Int) = (v.extractLsb' 8 8).toInt)
    ∧ ∀ p, AmountPair.regs 2 = .regs p → ∀ j, (0 : Int) = (State.reset.reg p.re j).toInt := by
  refine ⟨witness_idle.1, fun _ => Or.inl rfl, ?_, ?_, ?_, ?_⟩
  · intro p h; cases h; decide
  · intro p h; cases h; decide
  · intro v h; cases h; decide
  · intro p h; cases h; decide

theorem witness_BitReversal : 15 ≤ 15 ∧ bitrev16 0x1234#16 = 0x2C48#16 ∧ bitrev16 0x0001#16 = 0x8000#16 := by
  decide

/-- The four cases of the wrap, at the ends of the buffer 0x100 to 0x103 and with L = 0. -/
theorem witness_ModifyResult :
    ([(0x103, 1, 4), (0x100, 0xFFFF, 4), (0x102, 1, 4), (0xFFFF, 1, 0)] : List (Half × Half × Half)).map
      (fun e => (withAgu State.reset e.1 e.2.1 e.2.2 0x100).stepped 0 0) =
      [0x100#16, 0x103#16, 0x103#16, 0x000#16] := by decide

/-- A word that does not exist is readable where UNDEF_READ draws; where it faults, one that is UNDEF only in
lane 1, which does not execute, is readable for a load into Rk, and one that is not UNDEF in the first lane for
a load into Ik. -/
theorem witness_LoadResults : Handle.r 5 ≠ .did ∧ Handle.i 0 ≠ .did ∧ (∀ i, State.reset.Known i)
    ∧ State.reset.readable (State.reset.usesLane always (.i 0)) (State.reset.postAddr 0)
    ∧ (withMem { State.reset with cfg := { Params.default with undefRead := .fault } }
        [(0xFFFF, 1#12)]).readable (State.reset.usesLane always (.r 5)) 0xFFFF
    ∧ (withMem { State.reset with cfg := { Params.default with undefRead := .fault } }
        [(0xFFFF, 1#12)]).readable (State.reset.usesLane always (.i 0)) 0xFFFF := by
  refine ⟨by decide, by decide, fun _ => Or.inl rfl, Or.inl rfl, Or.inr ?_, Or.inr ?_⟩
  · intro j hj
    by_cases h : j = 0
    · subst h; decide
    · exact absurd hj (witness_idle.2.2.2.2 j h)
  · intro j hj
    by_cases h : j = 0
    · subst h; decide
    · exact absurd hj.1 (witness_idle.2.2.2.2 j h)

/-- After reset under each value of UNDEF_READ: no entry, and under `fault` at the last even address the first
word UNDEF, or the second one alone, for a direct load and for a post-modify one; lane 0 is used by a load into
Rk and by one into Ik. -/
theorem witness_LoadsOfUndefinedWords (c : Ctl) (p : Option RPair) : State.reset.Idle
    ∧ State.reset.runsAny always ∧ State.reset.cfg.undefRead = .draw ∧ State.reset.mem.find 0xFFFF = none
    ∧ ∃ s u : State, s.Idle ∧ u.Idle ∧ s.cfg.undefRead = .fault ∧ u.cfg.undefRead = .fault
      ∧ s.runsAny always ∧ u.runsAny always ∧ (∀ i, s.Known i ∧ u.Known i)
      ∧ s.usesLane always (.r 1) 0 ∧ s.runs always 0 ∧ u.runs always 0
      ∧ s.memLane (s.effAddr (.direct 0xFFFE#16)) 0 = none ∧ s.effAddr (.direct 0xFFFE#16) % 2 = 0
      ∧ (∀ a, Addr.direct 0xFFFE#16 = .direct a → Instr.lddDirect c p 0xFFFE#16 = .lddDirect c p a)
      ∧ s.memLane (s.effAddr (.post 0 0)) 0 = none
      ∧ (∀ k m, Addr.post 0 0 = .post k m → Instr.lddPost c p 0 0 = .lddPost c p k m)
      ∧ (∀ i, u.runs always i → (u.memLane (u.effAddr (.direct 0xFFFE#16)) i).isSome = true)
      ∧ u.memLane (u.effAddr (.direct 0xFFFE#16) + 1) 0 = none := by
  refine ⟨witness_idle.1, witness_idle.2.2.2.1, rfl, rfl,
    State.resetWith { Params.default with undefRead := .fault },
    withMem (State.resetWith { Params.default with undefRead := .fault }) [(0xFFFE, 1#12)],
    ⟨rfl, rfl, rfl, rfl⟩, ⟨rfl, rfl, rfl, rfl⟩, rfl, rfl, ?_, ?_, fun _ => ⟨Or.inl rfl, Or.inl rfl⟩, ?_, ?_, ?_,
    rfl, by decide, fun _ h => by cases h; rfl, rfl, fun _ _ h => by cases h; rfl, ?_, by decide⟩
  · unfold State.runsAny; decide
  · unfold State.runsAny; decide
  · show State.runs _ _ _; unfold State.runs; decide
  · unfold State.runs; decide
  · unfold State.runs; decide
  · unfold State.runs; decide

theorem witness_StoreResults : State.reset.Idle ∧ (∀ i, State.reset.Known i) ∧ State.reset.runs always 0 :=
  ⟨witness_idle.1, fun _ => Or.inl rfl, witness_idle.2.2.1⟩

/-- An even address, and an odd one with UMA_EN = 1, the highest that has a second word. -/
theorem witness_DoubleLoadResults (c : Ctl) (dst : Option RPair) : State.reset.Idle ∧ (∀ i, State.reset.Known i)
    ∧ 0xFFFE = State.reset.effAddr (.direct 0xFFFE#16) ∧ (0xFFFE % 2 = 1 → State.reset.umaEn = true)
    ∧ 0xFFFD = (withMode State.reset 0x20#8).effAddr (.direct 0xFFFD#16)
    ∧ (0xFFFD % 2 = 1 → (withMode State.reset 0x20#8).umaEn = true)
    ∧ (∀ addr, Addr.direct 0xFFFE#16 = .direct addr → Instr.lddDirect c dst 0xFFFE#16 = .lddDirect c dst addr)
    ∧ (∀ k m, Addr.direct 0xFFFE#16 = .post k m → Instr.lddDirect c dst 0xFFFE#16 = .lddPost c dst k m)
    ∧ State.reset.readable (State.reset.runs c) 0xFFFE
    ∧ State.reset.readable (State.reset.runs c) (0xFFFE + 1)
    ∧ (∀ i, (withMode State.reset 0x20#8).Known i) ∧ (withMode State.reset 0x20#8).runsAny always
    ∧ ¬ State.reset.runsAny ⟨.eq, true⟩ :=
  ⟨witness_idle.1, fun _ => Or.inl rfl, by decide, by decide, by decide, by decide, fun _ h => by cases h; rfl,
    fun _ _ h => (by cases h), Or.inl rfl, Or.inl rfl, fun _ => Or.inl rfl,
    by unfold State.runsAny; decide, witness_none⟩

/-- A post-modify access at an even address, and a direct one at the highest odd one that has a second word. -/
theorem witness_DoubleStoreResults (c : Ctl) (src : RPair) : (withAgu State.reset 0xFFFE 1 0 0).Idle
    ∧ (∀ i, (withAgu State.reset 0xFFFE 1 0 0).Known i)
    ∧ (∀ addr, Addr.post 0 0 = .direct addr → Instr.stdPost c src 0 0 = .stdDirect c src addr)
    ∧ (∀ k m, Addr.post 0 0 = .post k m → Instr.stdPost c src 0 0 = .stdPost c src k m)
    ∧ 0xFFFE = (withAgu State.reset 0xFFFE 1 0 0).effAddr (.post 0 0)
    ∧ (0xFFFE % 2 = 1 → (withAgu State.reset 0xFFFE 1 0 0).umaEn = true)
    ∧ (∀ addr, Addr.direct 0xFFFD#16 = .direct addr → Instr.stdDirect c src 0xFFFD#16 = .stdDirect c src addr)
    ∧ (∀ k m, Addr.direct 0xFFFD#16 = .post k m → Instr.stdDirect c src 0xFFFD#16 = .stdPost c src k m)
    ∧ 0xFFFD = (withMode State.reset 0x20#8).effAddr (.direct 0xFFFD#16)
    ∧ (0xFFFD % 2 = 1 → (withMode State.reset 0x20#8).umaEn = true)
    ∧ (withMode State.reset 0x20#8).runsAny always ∧ ∀ i, (withMode State.reset 0x20#8).Known i :=
  ⟨⟨rfl, rfl, rfl, rfl⟩, fun _ => Or.inl rfl, fun _ h => (by cases h), fun _ _ h => by cases h; rfl, by decide,
    by decide, fun _ h => by cases h; rfl, fun _ _ h => (by cases h), by decide, by decide,
    by unfold State.runsAny; decide, fun _ => Or.inl rfl⟩

/-- The two errors, and no error without an executing lane. -/
theorem witness_DoubleWordErrors : State.reset.runsAny always ∧ State.reset.umaEn = false
    ∧ State.reset.effAddr (.direct 0xFFFF#16) % 2 = 1 ∧ (withMode State.reset 0x20#8).umaEn = true
    ∧ (withMode State.reset 0x20#8).effAddr (.direct 0xFFFF#16) = 0xFFFF
    ∧ ¬ State.reset.runsAny ⟨.eq, true⟩ ∧ ∀ i, State.reset.Known i ∧ (withMode State.reset 0x20#8).Known i :=
  ⟨witness_idle.2.2.2.1, by decide, by decide, by decide, by decide, witness_none, fun _ => ⟨Or.inl rfl, Or.inl rfl⟩⟩

theorem witness_WritesToDidRaiseCombo (i : Instr) : State.reset.Idle ∧ State.reset.Known i
    ∧ State.reset.readable (State.reset.runs always) (0xFFFF#16).toNat
    ∧ State.reset.readable (State.reset.runs always) (State.reset.postAddr 0)
    ∧ State.reset.runsAny always ∧ ¬ State.reset.runsAny ⟨.eq, true⟩ :=
  ⟨witness_idle.1, Or.inl rfl, Or.inl rfl, Or.inl rfl, witness_idle.2.2.2.1, witness_none⟩

/-- Each command at the head of the queue. A write of a handle of each kind, by the mask of lane 0 alone, which
the write uses; a write to DID by that mask, by one without an executing lane, and with an error recorded; the
reset with an error recorded; lane 1 is active, not enabled. -/
theorem witness_HostCommands :
    (∀ h ∈ [Handle.r 31, .accM 7, .astat .cx, .umcount, .i 7, .cntr, .mstat, .dstat1, .sstat, .noReg],
      { State.reset with input := [.write h (PerLane.fill 5) ⟨true, false, false, false⟩] }.input =
        .write h (PerLane.fill 5) ⟨true, false, false, false⟩ :: [] ∧ h ≠ .did)
    ∧ State.reset.firstLaneUnder ⟨true, false, false, false⟩ 0
    ∧ State.reset.masterLaneUnder ⟨true, false, false, false⟩ 0
    ∧ (State.reset.i.get 7).settled State.reset.cycle ∧ State.reset.cntr.settled State.reset.cycle
    ∧ (Hazard.push (Hazard.init 0#16) 1 0).settled 3 ∧ ¬ (Hazard.push (Hazard.init 0#16) 1 0).settled 2
    ∧ { State.reset with input := [.write .did (PerLane.fill 5) (PerLane.fill true)] }.input =
      .write .did (PerLane.fill 5) (PerLane.fill true) :: []
    ∧ State.reset.execAny (PerLane.fill true) = true ∧ State.reset.faultRec = none
    ∧ State.reset.execAny ⟨false, true, true, true⟩ = false
    ∧ { State.reset with faultRec := some ⟨eCombo, 0, 0, 0⟩ }.faultRec ≠ none
    ∧ { State.reset with input := [.setIrptl 0xFFFF#16] }.input = .setIrptl 0xFFFF#16 :: []
    ∧ { State.reset with input := [.preload 0xFFFF#16 (PerLane.fill 1#12) (PerLane.fill true)] }.input =
      .preload 0xFFFF#16 (PerLane.fill 1#12) (PerLane.fill true) :: []
    ∧ State.reset.cfg.active 1 = true ∧ State.reset.enabled 1 = false
    ∧ { State.reset with input := [.reset], faultRec := some ⟨eCombo, 0, 0, 0⟩ }.input = .reset :: [] := by
  unfold State.firstLaneUnder State.masterLaneUnder State.masterOpenUnder
  refine ⟨fun h hh => ⟨rfl, ?_⟩, by decide, by decide, fun t ht => (by cases ht), fun t ht => (by cases ht),
    fun t ht => (by cases ht; decide), fun h => absurd (h 0 rfl) (by decide), by decide⟩
  rintro rfl; exact absurd hh (by decide)

/-- Each value of UNINIT_READ that a clause names. -/
theorem witness_HostReads : State.reset.cfg.uninitRead = .held ∧ strict.cfg.uninitRead = .fault
    ∧ strict.unset (.reg 3 0) = true ∧ strict.unset (.reg 1 0) = false := by decide +kernel

theorem witness_CrossLaneResults : fourLanes.Idle ∧ (∀ i, fourLanes.Known i)
    ∧ XAct.four.n ≤ fourLanes.cfg.lanes.n
    ∧ (3 : Fin 4).val < fourLanes.cfg.lanes.n ∧ (1 : Lane).val = ((2 : Lane).val + 3) % XAct.four.n
    ∧ ∀ i j k : Lane, fourLanes.enabled k = true →
      k.val = (i.val + 3) % XAct.four.n → k.val = (j.val + 3) % XAct.four.n → i = j :=
  ⟨witness_four.1, fun _ => Or.inl rfl, by decide, by decide, by decide, by decide⟩

/-- Lanes 0 and 2 collide at lane 0; act 4 and off 2 are just too large for two lanes. -/
theorem witness_CrossLaneErrors : fourLanes.runs always 0 ∧ fourLanes.runs always 2
    ∧ fourLanes.enabled 0 = true ∧ (0 : Lane).val = ((0 : Lane).val + 0) % XAct.two.n
    ∧ (0 : Lane).val = ((2 : Lane).val + 0) % XAct.two.n ∧ LaneCount.two.n < XAct.four.n
    ∧ LaneCount.two.n ≤ (2 : Fin 4).val ∧ ∀ i, fourLanes.Known i :=
  ⟨witness_four.2 0, witness_four.2 2, by decide, by decide, by decide, by decide, by decide, fun _ => Or.inl rfl⟩

theorem witness_AddResults : State.reset.Idle ∧ always.eob = true ∧ ∀ i, State.reset.Known i :=
  ⟨witness_idle.1, rfl, fun _ => Or.inl rfl⟩
theorem witness_LogicResults : State.reset.Idle ∧ always.eob = true ∧ ∀ i, State.reset.Known i :=
  ⟨witness_idle.1, rfl, fun _ => Or.inl rfl⟩
theorem witness_AbsAndScrResults : State.reset.Idle ∧ always.eob = true ∧ ∀ i, State.reset.Known i :=
  ⟨witness_idle.1, rfl, fun _ => Or.inl rfl⟩
theorem witness_AccumulatorAluResults : State.reset.Idle ∧ always.eob = true ∧ ∀ i, State.reset.Known i :=
  ⟨witness_idle.1, rfl, fun _ => Or.inl rfl⟩
theorem witness_ComplexAddSubtractResults : State.reset.Idle ∧ always.eob = true ∧ (∀ i, State.reset.Known i)
    ∧ State.reset.cfg.combine = Combine.default :=
  ⟨witness_idle.1, rfl, fun _ => Or.inl rfl, rfl⟩
theorem witness_RoundAndClearResults : State.reset.Idle ∧ always.eob = true ∧ ∀ i, State.reset.Known i :=
  ⟨witness_idle.1, rfl, fun _ => Or.inl rfl⟩
theorem witness_NopReportsItsCondition : State.reset.Idle ∧ always.eob = true ∧ ∀ i, State.reset.Known i :=
  ⟨witness_idle.1, rfl, fun _ => Or.inl rfl⟩
theorem witness_MoveAndImmediateResults : State.reset.Idle ∧ always.eob = true ∧ ∀ i, State.reset.Known i :=
  ⟨witness_idle.1, rfl, fun _ => Or.inl rfl⟩

/-- The first operation of a bundle is `LDI` of 0 into `h`. -/
def half (h : Handle) : Host.Outcome State Fault Refusal := exec (.ldi ⟨.true, false⟩ h 0#16) State.reset

/-- The lanes and the master are as they were in the state in which the second operation executes. -/
theorem half_lanes (h : Handle) (u : State) (hu : half h = .next u) :
    u.cfg = State.reset.cfg ∧ u.en = State.reset.en ∧ u.master = State.reset.master ∧ u.astatR = State.reset.astatR := by
  rw [half, exec_eq] at hu
  rcases issue_cases _ _ _ with ⟨_, h⟩ | ⟨_, _, _, _, h⟩ | ⟨_, _, _, _, h⟩ <;> rw [h] at hu <;> cases hu <;>
    exact ⟨rfl, rfl, rfl, rfl⟩

/-- Clause by clause: handles that share lanes, and two fields that do not; scalar registers; DSTAT0 with DSTAT1;
under `EQ` no lane executes, so that nothing collides. -/
theorem witness_WriteConflicts : State.reset.Idle ∧ (∀ i, State.reset.Known i)
    ∧ (∀ h ∈ [(Handle.r 1, Handle.r 1), (.acc 7, .accL 7), (.accM 0, .accH 0), (.umcount, .umcount),
        (.astat .cx, .astat .cx), (.i 7, .i 7), (.ivec 3, .ivec 3), (.dstat0, .dstat1)],
      ∀ u, half h.1 = .next u → State.reset.collide u ⟨.true, false⟩ always h.1 h.2)
    ∧ (∀ h ∈ [(Handle.r 1, Handle.r 2), (.accH 7, .accL 7), (.accM 0, .accL 0), (.i 6, .i 7), (.sstat, .sstat),
        (.astat .re, .astat .cx)], ∀ u, ¬ State.reset.collide u ⟨.true, false⟩ always h.1 h.2)
    ∧ ∀ u, half (.r 1) = .next u → ¬ State.reset.collide u ⟨.true, false⟩ ⟨.eq, true⟩ (.r 1) (.r 1) := by
  have h0 : State.reset.runs ⟨.true, false⟩ 0 := by unfold State.runs; decide
  have hu : ∀ h u, half h = .next u → u.runs always 0 ∧ u.masterLaneIs always 0 ∧ ∀ j, ¬ u.runs ⟨.eq, true⟩ j := by
    intro h u hx
    obtain ⟨e1, e2, e3, e4⟩ := half_lanes h u hx
    simp only [State.runs, State.masterLaneIs, State.masterLaneUnder, State.masterOpenUnder, State.executing,
      State.maskFor, PerLane.get_ofFn, State.enabled, State.isMaster, State.flags, Cond.copy, e1, e2, e3, e4]
    exact ⟨rfl, ⟨⟨rfl, rfl⟩, fun i hi => absurd hi (by revert i; decide)⟩,
      fun j => by fin_cases j <;> exact Bool.false_ne_true⟩
  have hm : State.reset.masterLaneIs ⟨.true, false⟩ 0 :=
    ⟨⟨by decide, by decide⟩, fun i hi => absurd hi (by revert i; decide)⟩
  have hz : ∀ (s : State) (c : Ctl), s.runs c 0 → s.firstLaneIs c 0 :=
    fun s c h => ⟨h, fun i hi => absurd hi (by revert i; decide)⟩
  refine ⟨witness_idle.1, fun _ => Or.inl rfl, ?_, ?_, ?_⟩
  · intro h hh u hx
    obtain ⟨h1, h2, _⟩ := hu h.1 u hx
    simp only [List.mem_cons, List.not_mem_nil, or_false] at hh
    rcases hh with rfl | rfl | rfl | rfl | rfl | rfl | rfl | rfl
    · exact Or.inl ⟨rfl, 0, h0, h1⟩
    · exact Or.inl ⟨rfl, 0, h0, h1⟩
    · exact Or.inl ⟨rfl, 0, h0, h1⟩
    · exact Or.inl ⟨rfl, 0, h0, h1⟩
    · exact Or.inl ⟨rfl, 0, h0, h1⟩
    · exact Or.inr ⟨rfl, ⟨0, hz _ _ h0⟩, 0, hz _ _ h1⟩
    · exact Or.inr ⟨rfl, ⟨0, hm⟩, 0, h2⟩
    · exact Or.inr ⟨rfl, ⟨0, hm⟩, 0, h2⟩
  · intro h hh u
    simp only [List.mem_cons, List.not_mem_nil, or_false] at hh
    rcases hh with rfl | rfl | rfl | rfl | rfl | rfl <;> rintro (⟨hc, _⟩ | ⟨hc, _⟩) <;> exact absurd hc (by decide)
  · rintro u hx (⟨_, j, _, hj⟩ | ⟨hc, _⟩)
    · exact (hu _ u hx).2.2 j hj
    · exact absurd hc (by decide)

/-- Both operations execute in lane 0, or (under EQ) the second one nowhere; equal addresses, and the first and
the last one; the same I register, and two. -/
theorem witness_FlagMemoryAndAddressConflicts : State.reset.Idle ∧ (∀ i, State.reset.Known i)
    ∧ State.reset.runs ⟨.true, false⟩ 0 ∧ State.reset.runs always 0 ∧ State.reset.runsAny ⟨.true, false⟩
    ∧ State.reset.runsAny always ∧ (∀ j : Lane, ¬ State.reset.runs ⟨.eq, true⟩ j)
    ∧ (0x0000#16 : Half) ≠ 0xFFFF#16 ∧ (0 : Fin 8) ≠ 7 := by
  refine ⟨witness_idle.1, fun _ => Or.inl rfl, ?_, witness_idle.2.2.1, ?_, witness_idle.2.2.2.1, ?_, by decide,
    by decide⟩
  · unfold State.runs; decide
  · unfold State.runsAny; decide
  · unfold State.runs; decide

theorem witness_AddressUpdateBeatsWrites : State.reset.Idle ∧ State.reset.runsAny ⟨.true, true⟩
    ∧ State.reset.readable (State.reset.usesLane ⟨.true, true⟩ (.i 0)) (0xFFFF#16).toNat
    ∧ ∀ i, State.reset.Known i :=
  ⟨witness_idle.1, witness_idle.2.2.2.1, Or.inl rfl, fun _ => Or.inl rfl⟩

theorem witness_MovesInOneBundleSwap : State.reset.Idle ∧ (31 : Fin 32) ≠ 0 ∧ State.reset.runs always 0
    ∧ ∀ i, State.reset.Known i :=
  ⟨witness_idle.1, by decide, witness_idle.2.2.1, fun _ => Or.inl rfl⟩

/-- MODIFY in a buffer, and the two values of BIT_REV. -/
theorem witness_ModesAndAddresses :
    (State.reset.mstat.latAt 0).getLsbD 1 = false
    ∧ ((withMode State.reset 0x02#8).mstat.latAt 0).getLsbD 1 = true
    ∧ (withMode (withAgu State.reset 0x1234 0 0 0) 0x02#8).postAddr 0 = 0x2C48
    ∧ (withAgu State.reset 0x1234 0 0 0).postAddr 0 = 0x1234 := by decide

theorem witness_PlacesReadByEachOperation (s : State) (c : Ctl) (p : Place) : ∃ cond mode : Prop,
    (cond ↔ c.cond = .notCe ∧ p = s.latPlace .cntr) ∧ (mode ↔ p = s.latPlace .mstat) ∧ XAct.two.n ≤ Params.default.lanes.n
    ∧ (1 : Fin 4).val < Params.default.lanes.n := ⟨_, _, Iff.rfl, Iff.rfl, by decide, by decide⟩

/-- INC R3, R3 reads R3, which nothing has written; MODIFY reads M0 and others, and LD through I0 reads M0 after
its access. -/
theorem witness_UnspecifiedReadsFault : strict.Idle ∧ strict.cfg.uninitRead = .fault
    ∧ .reg 3 0 ∈ strict.placesRead (.inc always (some 3) 3) ∧ strict.unset (.reg 3 0) = true
    ∧ .haz (.m 0) .cur ∈ strict.placesRead (.ldPost always (.r 1) 0 0)
    ∧ strict.unset (.haz (.m 0) .cur) = true :=
  ⟨⟨rfl, rfl, rfl, rfl⟩, rfl, by decide, by decide +kernel, by decide, by decide +kernel⟩

theorem witness_UnspecifiedReadsDraw :
    (State.resetWith { Params.default with uninitRead := .draw }).Idle
    ∧ (State.resetWith { Params.default with uninitRead := .draw }).cfg.uninitRead = .draw :=
  ⟨⟨rfl, rfl, rfl, rfl⟩, rfl⟩

/-- Each kind of destination, in states where places are unspecified: an R register, an accumulator, the target
lane of XWR, a stepped Ik, and the handles of LDI, of LD with an executing lane and of LD that steps another Ik. -/
theorem witness_WritesEndUnspecified :
    State.reset.Idle ∧ State.reset.runs always 0 ∧ State.reset.runsAny always
    ∧ State.reset.unset (.reg 3 0) = true
    ∧ (∀ i ∈ [Instr.add always (some 3) 1 (.reg 2), .clracc always (some 0), .modify always 0 0,
        .ldi always (.accM 0) 5#16, .ldi always (.i 0) 5#16, .ldi always .pcstack 5#16,
        .ldDirect always .cntr 0#16, .ldPost always (.i 1) 0 0],
      ∃ t, exec i State.reset = .next t ∧ t.faultRec = none)
    ∧ 3 ∈ (Instr.add always (some 3) 1 (.reg 2)).regDests ∧ 0 ∈ (Instr.clracc always (some 0)).accDests
    ∧ (Instr.modify always 0 0).steps = some 0 ∧ (Instr.ldPost always (.i 1) 0 0).steps ≠ some 1
    ∧ (Instr.ldPost always (.i 1) 0 0).handleDest = some (.i 1)
    ∧ (∃ j, State.reset.usesLane always (.i 0) j) ∧ (∃ j, State.reset.usesLane always .pcstack j)
    ∧ fourLanes.Idle ∧ fourLanes.runs always 3 ∧ fourLanes.enabled 0 = true ∧ (0 : Nat) = (3 + 1) % 4
    ∧ ∃ t, exec (.xwr always 4 5 .four 1) fourLanes = .next t ∧ t.faultRec = none := by
  refine ⟨witness_idle.1, witness_idle.2.2.1, witness_idle.2.2.2.1, by decide +kernel, ?_, by decide, by decide,
    rfl, by decide, rfl, ⟨0, witness_idle.2.2.1, fun i hi => absurd hi (by simp)⟩,
    ⟨0, by unfold State.usesLane State.masterLaneIs State.masterLaneUnder State.masterOpenUnder; decide⟩, ⟨rfl, rfl, rfl, rfl⟩,
    by unfold State.runs; decide, by decide, rfl, ⟨_, rfl, rfl⟩⟩
  simp only [List.mem_cons, List.not_mem_nil, or_false]
  rintro i (rfl | rfl | rfl | rfl | rfl | rfl | rfl | rfl) <;> exact ⟨_, rfl, rfl⟩

end Sys2Proof.Tests
end

section
/-!
# Bit-reversed addressing (R88)

Bit by bit, `bitrev16` reads its argument from the other end.
-/
namespace Sys2Proof.Machine

/-- A bit of `bitrev16 a`, counted from the least significant end, is the bit of `a` at the same
distance from the most significant end; both are false past the 16 bits. -/
@[simp] theorem getLsbD_bitrev16 (a : Half) (i : Nat) :
    (bitrev16 a).getLsbD i = a.getMsbD i :=
  BitVec.getLsbD_reverse

/-- Settles O38: inside the 16 bits, bit `i` from the top is bit `15 - i` from the bottom. -/
theorem bitReversal : Obligations.BitReversal := by
  intro a i hi
  have inRange : i < 16 := by omega
  calc (bitrev16 a).getLsbD i
      = a.getMsbD i := getLsbD_bitrev16 a i
    _ = a.getLsbD (15 - i) := by simp [BitVec.getMsbD, inRange]

end Sys2Proof.Machine
end

section
/-!
# Words outside the opcode table (R111)

TYPE selects one family decoder and OPC one arm of it; a pair with no row in R110 is left to the last
arm, which answers E_COMBO before any operand is read.
-/
namespace Sys2Proof

/-- The OPC values that R110 lists under a TYPE. -/
def opcsOfType : Nat → List Nat
  | 0 => [0x01, 0x02, 0x03, 0x04, 0x05, 0x06, 0x07, 0x08, 0x09, 0x0A, 0x0B, 0x0C, 0x0D, 0x0E, 0x0F,
      0x10, 0x11, 0x12, 0x18, 0x19, 0x1A, 0x1B, 0x1C, 0x1D]
  | 1 => [0x01, 0x03]
  | 2 => [0x30, 0x31, 0x32, 0x33, 0x34, 0x35]
  | 3 => [0x20, 0x21, 0x22, 0x23, 0x24, 0x25, 0x26, 0x27, 0x28, 0x29, 0x2A]
  | 4 => [0x40, 0x41, 0x42, 0x43, 0x44]
  | 5 => [0x50, 0x51, 0x52]
  | 6 => [0x60, 0x61]
  | _ => []

/-- The OPC of an arm is listed. -/
theorem mem_opcsOfType {typ opc row : Nat} (hopc : opc = row) (hrow : row ∈ opcsOfType typ) :
    opc ∈ opcsOfType typ := hopc ▸ hrow

section
variable {p : Params} {c : Ctl} {f : Fields}

theorem decodeAlu_unmapped (h : f.opc.toNat ∉ opcsOfType 0) : decodeAlu c f = .error eCombo := by
  unfold decodeAlu
  split
  case h_25 => rfl
  all_goals next hopc => exact absurd (mem_opcsOfType hopc (by decide)) h

theorem decodeAluAcc_unmapped (h : f.opc.toNat ∉ opcsOfType 1) :
    decodeAluAcc c f = .error eCombo := by
  unfold decodeAluAcc
  split
  case h_3 => rfl
  all_goals next hopc => exact absurd (mem_opcsOfType hopc (by decide)) h

theorem decodeShift_unmapped (h : f.opc.toNat ∉ opcsOfType 2) :
    decodeShift c f = .error eCombo := by
  unfold decodeShift
  split
  case h_7 => rfl
  all_goals next hopc => exact absurd (mem_opcsOfType hopc (by decide)) h

theorem decodeMac_unmapped (h : f.opc.toNat ∉ opcsOfType 3) : decodeMac c f = .error eCombo := by
  unfold decodeMac
  split
  case h_12 => rfl
  all_goals next hopc => exact absurd (mem_opcsOfType hopc (by decide)) h

theorem decodeMem_unmapped (h : f.opc.toNat ∉ opcsOfType 4) : decodeMem c f = .error eCombo := by
  unfold decodeMem
  split
  case h_6 => rfl
  all_goals next hopc => exact absurd (mem_opcsOfType hopc (by decide)) h

theorem decodeMove_unmapped (h : f.opc.toNat ∉ opcsOfType 5) : decodeMove c f = .error eCombo := by
  unfold decodeMove
  split
  case h_4 => rfl
  all_goals next hopc => exact absurd (mem_opcsOfType hopc (by decide)) h

theorem decodeXlane_unmapped (h : f.opc.toNat ∉ opcsOfType 6) :
    decodeXlane p c f = .error eCombo := by
  unfold decodeXlane
  split
  case h_3 => rfl
  all_goals next hopc => exact absurd (mem_opcsOfType hopc (by decide)) h

/-- Check (1) of R120 in terms of the fields: TYPE 7 has no OPC at all. -/
theorem decodeFields_unmapped (h : f.opc.toNat ∉ opcsOfType f.typ.toNat) :
    decodeFields p f = .error eCombo := by
  unfold decodeFields
  split
  case h_8 => rfl
  all_goals rename_i htyp; rw [htyp] at h
  · exact decodeAlu_unmapped h
  · exact decodeAluAcc_unmapped h
  · exact decodeShift_unmapped h
  · exact decodeMac_unmapped h
  · exact decodeMem_unmapped h
  · exact decodeMove_unmapped h
  · exact decodeXlane_unmapped h

end

/-- Settles O4: the pairs listed are those of `opcsOfType`, type by type, so a word outside the list has
no arm in its family decoder. -/
theorem unmappedPairsRaiseCombo : Obligations.UnmappedPairsRaiseCombo := by
  intro p d unlisted
  refine decodeFields_unmapped fun hopc => unlisted ?_
  change (d.extractLsb' 56 8).toNat ∈ opcsOfType (d.extractLsb' 53 3).toNat at hopc
  generalize (d.extractLsb' 56 8).toNat = opc, d.extractLsb' 53 3 = typ at hopc ⊢
  revert opc
  revert typ
  decide

end Sys2Proof
end

section
/-!
# The cycle counter across one bundle (R132)

A bundle starts at a state that differs from the host's only in the queue and in the bundle's inputs, so
what `execute_cases` says of the end of a bundle holds from the host's state too.
-/
namespace Sys2Proof.Machine

/-- A queued bundle is taken from the queue and executed. -/
theorem step_execute {s : State} {ds : List Descr} {x : BitVec 8} {site : Nat} {rest : List HostCmd}
    (hq : s.input = .execute ds x site :: rest) :
    step s = (s.withInput rest).execute ds x site := by
  rw [step, hq]
  rfl

theorem State.withInput_reads (s : State) (q : List HostCmd) : sameReads s (s.withInput q) := by
  simp [sameReads]

/-- A commit advances the cycle and leaves the fault record clear. -/
theorem InProgress.commit_advances {s v : State} (h : InProgress s v) :
    v.commit.faultRec = none ∧ v.commit.cycle = s.cycle + 1 := by
  have hc := v.commit_committed
  exact ⟨hc.faultRec.trans h.noFault, by rw [hc.cycle, h.cycle]⟩

/-- A stopped bundle holds an error, at the cycle and in the locations it started with. -/
theorem Stopped.holds_cycle {s t : State} (h : Stopped s t) :
    t.faultRec ≠ none ∧ t.cycle = s.cycle ∧ SameState s t := by
  obtain ⟨e, k, recorded⟩ := h.record
  exact ⟨by simp [recorded], h.cycle, h.reads.same⟩

/-- Settles O10: from the state in which the bundle starts, its slots end in one commit or in one record. -/
theorem bundlesAdvanceTheCycleByOne : Obligations.BundlesAdvanceTheCycleByOne := by
  intro s ds b more x site rest hq noFault hb
  rw [step_execute hq]
  rcases execute_cases (s.withInput rest) ds x site (by simpa using noFault) with
    ⟨unterminated, _⟩ | ⟨b', more', _, t, ht, ended⟩
  · rw [hb] at unterminated
    cases unterminated
  generalize hstart : ((s.withInput rest).withInput
    (requeue more' x site (s.withInput rest).input)).openBundle x site = start at ended
  have startCycle : start.cycle = s.cycle := by simp [← hstart]
  have startReads : sameReads s start := by
    rw [← hstart]
    exact (s.withInput_reads _).trans ((State.withInput_reads _ _).trans (State.openBundle_reads _ _ _))
  refine ⟨t, ht, ?_⟩
  rcases ended with stopped | ⟨v, inProgress, rfl⟩
  · obtain ⟨recorded, sameCycle, same⟩ := stopped.holds_cycle
    exact Or.inr ⟨recorded, sameCycle.trans startCycle, startReads.same.trans same⟩
  · obtain ⟨clear, advanced⟩ := inProgress.commit_advances
    exact Or.inl ⟨clear, by rw [advanced, startCycle]⟩

end Sys2Proof.Machine
end

section
/-!
# The decoder inverts the encoder (R101 to R120)

Each check of R120, and each operand form built from them, succeeds exactly on the fields that the encoder
writes for the operands it answers. Both directions of the round trip are read off these equivalences.
-/
namespace Sys2Proof

/-! ## The checks -/

@[simp] theorem except_bind_ok {α β : Type} {x : Except CoreErr α} {f : α → Except CoreErr β} {r : β} :
    (x >>= f) = .ok r ↔ ∃ a, x = .ok a ∧ f a = .ok r := by
  cases x with
  | error e => exact ⟨fun h => (nomatch h), fun ⟨_, h, _⟩ => (nomatch h)⟩
  | ok a => exact ⟨fun h => ⟨a, rfl, h⟩, fun ⟨b, h, hr⟩ => by cases h; exact hr⟩

@[simp] theorem except_map_ok {α β : Type} {x : Except CoreErr α} {f : α → β} {r : β} :
    f <$> x = .ok r ↔ ∃ a, x = .ok a ∧ f a = r := by
  cases x with
  | error e => exact ⟨fun h => (nomatch h), fun ⟨_, h, _⟩ => (nomatch h)⟩
  | ok a => exact ⟨fun h => ⟨a, rfl, by cases h; rfl⟩, fun ⟨_, h, hr⟩ => by cases h; cases hr; rfl⟩

@[simp] theorem except_pure_ok {α : Type} {x r : α} : (pure x : Except CoreErr α) = .ok r ↔ x = r :=
  ⟨fun h => by cases h; rfl, fun h => by cases h; rfl⟩

@[simp] theorem need_ok_iff {b : Bool} {e : CoreErr} {u : Unit} : need b e = .ok u ↔ b = true :=
  ⟨need_ok, fun h => by rw [h]; rfl⟩

@[simp] theorem noReserved_ok_iff {hs : List (BitVec 7)} {u : Unit} :
    noReserved hs = .ok u ↔ ∀ h ∈ hs, reservedHandle h = false := by
  induction hs with
  | nil => simp [noReserved]
  | cons h hs ih => cases hr : reservedHandle h <;> simp [noReserved, hr, ih]

@[simp] theorem asR_ok_iff {h : BitVec 7} {k : Fin 32} : asR h = .ok k ↔ h = rCode k :=
  ⟨fun e => (asR_ok e).symm, fun e => by rw [e, asR_rCode]⟩

@[simp] theorem asAcc_ok_iff {h : BitVec 7} {n : Fin 8} : asAcc h = .ok n ↔ h = accCode n :=
  ⟨fun e => (asAcc_ok e).symm, fun e => by rw [e, asAcc_accCode]⟩

@[simp] theorem asRPair_ok_iff {h : BitVec 7} {q : RPair} : asRPair h = .ok q ↔ h = rPairCode q :=
  ⟨fun e => (asRPair_ok e).symm, fun e => by rw [e, asRPair_rPairCode]⟩

@[simp] theorem asAccPair_ok_iff {h : BitVec 7} {q : AccPair} : asAccPair h = .ok q ↔ h = accPairCode q :=
  ⟨fun e => (asAccPair_ok e).symm, fun e => by rw [e, asAccPair_accPairCode]⟩

@[simp] theorem asWritable_ok_iff {h : BitVec 7} {x : Handle} : asWritable h = .ok x ↔ h = x.code :=
  ⟨fun e => (asWritable_ok e).symm, fun e => by rw [e, asWritable_code]⟩

@[simp] theorem asReadable_ok_iff {h : BitVec 7} {x : Handle} :
    asReadable h = .ok x ↔ h = x.code ∧ x.readable = true :=
  ⟨fun e => ⟨(asReadable_ok e).1.symm, (asReadable_ok e).2⟩, fun ⟨e, hr⟩ => by rw [e, asReadable_code x hr]⟩

theorem orNone_ok_iff {α : Type} {as : BitVec 7 → Except CoreErr α} {code : α → BitVec 7} {h : BitVec 7}
    {d : Option α} (has : ∀ {h x}, as h = .ok x ↔ h = code x) (hnone : ∀ x, code x ≠ noneCode) :
    orNone as h = .ok d ↔ h = optCode code d := by
  constructor
  · exact fun e => (orNone_ok (fun e => (has.mp e).symm) e).symm
  · rintro rfl
    cases d with
    | none => simp [orNone, optCode]
    | some x => simp only [orNone, optCode, hnone, if_false, except_map_ok]; exact ⟨x, has.mpr rfl, rfl⟩

theorem rCode_ne_none (k : Fin 32) : rCode k ≠ noneCode := by
  revert k; decide

theorem accCode_ne_none (n : Fin 8) : accCode n ≠ noneCode := by
  revert n; decide

@[simp] theorem orNone_asR_ok_iff {h : BitVec 7} {d : Option (Fin 32)} :
    orNone asR h = .ok d ↔ h = optCode rCode d := orNone_ok_iff asR_ok_iff rCode_ne_none

@[simp] theorem orNone_asAcc_ok_iff {h : BitVec 7} {d : Option (Fin 8)} :
    orNone asAcc h = .ok d ↔ h = optCode accCode d := orNone_ok_iff asAcc_ok_iff accCode_ne_none

@[simp] theorem orNone_asRPair_ok_iff {h : BitVec 7} {d : Option RPair} :
    orNone asRPair h = .ok d ↔ h = optCode rPairCode d :=
  orNone_ok_iff asRPair_ok_iff fun q => rCode_ne_none q.re

@[simp] theorem orNone_asAccPair_ok_iff {h : BitVec 7} {d : Option AccPair} :
    orNone asAccPair h = .ok d ↔ h = optCode accPairCode d :=
  orNone_ok_iff asAccPair_ok_iff fun q => accCode_ne_none q.re

@[simp] theorem asShiftSrc_ok_iff {h : BitVec 7} {a : ShiftSrc} : asShiftSrc h = .ok a ↔ h = a.code := by
  constructor
  · intro e
    unfold asShiftSrc at e
    split at e <;> obtain ⟨x, hx, rfl⟩ := except_map_ok.mp e
    · exact asR_ok_iff.mp hx
    · exact asAcc_ok_iff.mp hx
  · rintro rfl; exact asShiftSrc_code a

@[simp] theorem asShiftPair_ok_iff {h : BitVec 7} {a : ShiftPair} : asShiftPair h = .ok a ↔ h = a.code := by
  constructor
  · intro e
    unfold asShiftPair at e
    split at e <;> obtain ⟨x, hx, rfl⟩ := except_map_ok.mp e
    · exact asRPair_ok_iff.mp hx
    · exact asAccPair_ok_iff.mp hx
  · rintro rfl; exact asShiftPair_code a

@[simp] theorem asField_ok_iff {m : BitVec 2} {x : Field} : asField m = .ok x ↔ m = x.code :=
  ⟨fun e => (asField_ok e).symm, fun e => by rw [e, asField_code]⟩

@[simp] theorem asXAct_ok_iff {m : BitVec 2} {x : XAct} : asXAct m = .ok x ↔ m = x.code :=
  ⟨fun e => (asXAct_ok e).symm, fun e => by rw [e, asXAct_code]⟩

@[simp] theorem fillers_ok_iff {f : Fields} {m : Meaningful} {unused : List (BitVec 7)} {u : Unit} :
    fillers f m unused = .ok u ↔ f.zero = 0#4 ∧ (m.mod = false → f.mod = 0#2)
      ∧ (m.rnd = false → f.rnd = false) ∧ (m.immb = false → f.immb = false)
      ∧ (m.xact = false → f.xact = 0#2) ∧ (m.imm = false → f.imm = 0#16)
      ∧ ∀ h ∈ unused, h = noneCode := by
  have imp : ∀ {b : Bool} {q : Prop}, (b = true ∨ q) ↔ (b = false → q) := by
    intro b q; cases b <;> simp
  simp [fillers, need_ok_iff, imp, and_assoc]

/-! ## The operand forms -/

/-- The fields of a descriptor with every operand taken out (R117). -/
def Fields.blank (f : Fields) : Fields :=
  { opc := f.opc, typ := f.typ, cond := f.cond, eob := f.eob, dst := noneCode, sa := noneCode,
    sb := noneCode, mod := 0#2, rnd := false, immb := false, xact := 0#2, zero := 0#4, imm := 0#16 }

theorem Fields.blank_eq {f : Fields} {opc : BitVec 8} {typ : BitVec 3} (hopc : f.opc = opc)
    (htyp : f.typ = typ) : f.blank = blankFields opc typ ⟨Cond.ofCode f.cond, f.eob⟩ := by
  simp [Fields.blank, blankFields, hopc, htyp]

section
variable {f : Fields}

theorem parseBinary_ok_iff {wf : Src → Bool} {val : Half → Int} {d : Option (Fin 32)} {a : Fin 32}
    {b : Src} (hreg : ∀ k, wf (.reg k) = true) :
    parseBinary wf val f = .ok (d, a, b) ↔
      wf b = true ∧ f = ({ f.blank with dst := optCode rCode d, sa := rCode a } : Fields).withSrc b := by
  obtain ⟨opc, typ, cond, eob, dst, sa, sb, mod, rnd, immb, xact, zero, imm⟩ := f
  cases b <;> cases immb <;>
    simp [parseBinary, Fields.usedSb, asSrc, fillersSrc, srcRange, Fields.blank, Fields.withSrc, hreg] <;>
    aesop

theorem parseUnary_ok_iff {d : Option (Fin 32)} {a : Fin 32} :
    parseUnary f = .ok (d, a) ↔ f = { f.blank with dst := optCode rCode d, sa := rCode a } := by
  obtain ⟨opc, typ, cond, eob, dst, sa, sb, mod, rnd, immb, xact, zero, imm⟩ := f
  simp [parseUnary, Fields.blank]
  aesop

theorem asAccSrc_ok_iff {b : AccSrc} : asAccSrc f = .ok b ↔
    match b with
    | .reg k => f.immb = false ∧ f.sb = rCode k
    | .acc n => f.immb = false ∧ f.sb = accCode n
    | .imm v => f.immb = true ∧ f.imm = v := by
  cases himm : f.immb with
  | true => cases b <;> simp [asAccSrc, himm]
  | false =>
    by_cases hlt : f.sb.toNat < 32
    · cases b <;> simp [asAccSrc, himm, hlt]
      exact fun hsb => accCode_not_lt _ (hsb ▸ hlt)
    · cases b <;> simp [asAccSrc, himm, hlt]
      exact fun hsb => hlt (hsb ▸ rCode_lt _)

theorem parseAccBinary_ok_iff {d : Option (Fin 8)} {a : Fin 8} {b : AccSrc} :
    parseAccBinary f = .ok (d, a, b) ↔
      f = ({ f.blank with dst := optCode accCode d, sa := accCode a } : Fields).withAccSrc b := by
  obtain ⟨opc, typ, cond, eob, dst, sa, sb, mod, rnd, immb, xact, zero, imm⟩ := f
  cases b <;> cases immb <;>
    simp [parseAccBinary, Fields.usedSb, asAccSrc_ok_iff, fillersSrc, Fields.blank, Fields.withAccSrc] <;>
    aesop
  

theorem parsePairs_ok_iff {d : Option RPair} {a b : RPair} :
    parsePairs f = .ok (d, a, b) ↔
      f = { f.blank with dst := optCode rPairCode d, sa := rPairCode a, sb := rPairCode b } := by
  obtain ⟨opc, typ, cond, eob, dst, sa, sb, mod, rnd, immb, xact, zero, imm⟩ := f
  simp [parsePairs, Fields.blank]
  aesop

theorem parseRotate_ok_iff {d : Option RPair} {a : RPair} {b : Src} :
    parseRotate f = .ok (d, a, b) ↔ b.wfRotate = true
      ∧ f = ({ f.blank with dst := optCode rPairCode d, sa := rPairCode a } : Fields).withSrc b := by
  obtain ⟨opc, typ, cond, eob, dst, sa, sb, mod, rnd, immb, xact, zero, imm⟩ := f
  cases b <;> cases immb <;>
    simp [parseRotate, Fields.usedSb, asSrc, fillersSrc, srcRange, Fields.blank, Fields.withSrc, Src.wfRotate] <;>
    aesop

theorem parseMag_ok_iff {d : Option (Fin 32)} {a : RPair} :
    parseMag f = .ok (d, a) ↔ f = { f.blank with dst := optCode rCode d, sa := rPairCode a } := by
  obtain ⟨opc, typ, cond, eob, dst, sa, sb, mod, rnd, immb, xact, zero, imm⟩ := f
  simp [parseMag, Fields.blank]
  aesop

theorem parseRect_ok_iff {d : Option RPair} {a b : Fin 32} :
    parseRect f = .ok (d, a, b) ↔
      f = { f.blank with dst := optCode rPairCode d, sa := rCode a, sb := rCode b } := by
  obtain ⟨opc, typ, cond, eob, dst, sa, sb, mod, rnd, immb, xact, zero, imm⟩ := f
  simp [parseRect, Fields.blank]
  aesop

theorem parseMac_ok_iff {δ α β : Type} {asD : BitVec 7 → Except CoreErr δ}
    {asA : BitVec 7 → Except CoreErr α} {asB : BitVec 7 → Except CoreErr β} {codeD : δ → BitVec 7}
    {codeA : α → BitVec 7} {codeB : β → BitVec 7}
    (hD : ∀ {h d}, orNone asD h = .ok d ↔ h = optCode codeD d) (hA : ∀ {h a}, asA h = .ok a ↔ h = codeA a)
    (hB : ∀ {h b}, asB h = .ok b ↔ h = codeB b) (rD : ∀ d, reservedHandle (codeD d) = false)
    (rA : ∀ a, reservedHandle (codeA a) = false) (rB : ∀ b, reservedHandle (codeB b) = false)
    {d : Option δ} {a : α} {b : β} {m : SignMode} {r : Bool} :
    parseMac asD asA asB f = .ok (d, a, b, m, r) ↔
      f = { f.blank with dst := optCode codeD d, sa := codeA a, sb := codeB b, mod := m.code, rnd := r } := by
  obtain ⟨opc, typ, cond, eob, dst, sa, sb, mod, rnd, immb, xact, zero, imm⟩ := f
  simp [parseMac, Fields.blank, hD, hA, hB]
  aesop

theorem parseRndacc_ok_iff {d : Option (Fin 8)} {a : Fin 8} :
    parseRndacc f = .ok (d, a) ↔ f = { f.blank with dst := optCode accCode d, sa := accCode a } := by
  obtain ⟨opc, typ, cond, eob, dst, sa, sb, mod, rnd, immb, xact, zero, imm⟩ := f
  simp [parseRndacc, Fields.blank]
  aesop

theorem parseClracc_ok_iff {d : Option (Fin 8)} :
    parseClracc f = .ok d ↔ f = { f.blank with dst := optCode accCode d } := by
  obtain ⟨opc, typ, cond, eob, dst, sa, sb, mod, rnd, immb, xact, zero, imm⟩ := f
  simp [parseClracc, Fields.blank]
  aesop

theorem parseShift_ok_iff {d : Option (Fin 8)} {a : ShiftSrc} {n : Src} {fl : Field} {r : Bool} :
    parseShift f = .ok (d, a, n, fl, r) ↔ n.wfShift = true
      ∧ f = ({ f.blank with dst := optCode accCode d, sa := a.code, mod := fl.code, rnd := r } : Fields).withSrc n := by
  obtain ⟨opc, typ, cond, eob, dst, sa, sb, mod, rnd, immb, xact, zero, imm⟩ := f
  cases n <;> cases immb <;>
    simp [parseShift, Fields.usedSb, asSrc, fillersSrc, srcRange, Fields.blank, Fields.withSrc, Src.wfShift] <;>
    aesop

theorem parseShiftC_ok_iff {d : Option AccPair} {a : ShiftPair} {n : AmountPair} {fl : Field} {r : Bool} :
    parseShiftC f = .ok (d, a, n, fl, r) ↔ n.wf = true
      ∧ f = ({ f.blank with dst := optCode accPairCode d, sa := a.code, mod := fl.code, rnd := r } : Fields).withAmounts n := by
  obtain ⟨opc, typ, cond, eob, dst, sa, sb, mod, rnd, immb, xact, zero, imm⟩ := f
  cases n <;> cases immb <;>
    simp [parseShiftC, Fields.usedSb, asAmountPair, fillersSrc, amountRange, Fields.blank, Fields.withAmounts, AmountPair.wf] <;>
    aesop

theorem postImm_ok_iff {v : Half} {u : Unit} : postImm v = .ok u ↔ ∃ k m, v = postCode k m := by
  constructor
  · intro h
    exact ⟨immK v, immM v, (postCode_imm (by simpa [postImm] using h)).symm⟩
  · rintro ⟨k, m, rfl⟩
    exact postImm_postCode k m

theorem parseModify_ok_iff {u : Unit} :
    parseModify f = .ok u ↔ ∃ k m, f = { f.blank with imm := postCode k m } := by
  obtain ⟨opc, typ, cond, eob, dst, sa, sb, mod, rnd, immb, xact, zero, imm⟩ := f
  simp [parseModify, Fields.blank, postImm_ok_iff]
  aesop

theorem parseLoad_ok_iff {δ : Type} {asD : BitVec 7 → Except CoreErr δ} {code : δ → BitVec 7}
    (hD : ∀ {h d}, asD h = .ok d ↔ h = code d) (rD : ∀ d, reservedHandle (code d) = false) {d : δ} :
    parseLoad asD f = .ok d ↔ f = { f.blank with dst := code d, immb := true, imm := f.imm }
      ∨ ∃ k m, f = { f.blank with dst := code d, imm := postCode k m } := by
  obtain ⟨opc, typ, cond, eob, dst, sa, sb, mod, rnd, immb, xact, zero, imm⟩ := f
  cases immb <;> simp [parseLoad, Fields.blank, hD, postImm_ok_iff] <;>
    aesop

theorem parseStore_ok_iff {σ : Type} {asS : BitVec 7 → Except CoreErr σ} {code : σ → BitVec 7} {ok : σ → Prop}
    (hS : ∀ {h a}, asS h = .ok a ↔ h = code a ∧ ok a) (rS : ∀ a, reservedHandle (code a) = false) {a : σ} :
    parseStore asS f = .ok a ↔ ok a ∧ (f = { f.blank with sa := code a, immb := true, imm := f.imm }
      ∨ ∃ k m, f = { f.blank with sa := code a, imm := postCode k m }) := by
  obtain ⟨opc, typ, cond, eob, dst, sa, sb, mod, rnd, immb, xact, zero, imm⟩ := f
  cases immb <;> simp [parseStore, Fields.blank, hS, postImm_ok_iff] <;>
    aesop

theorem parseMov_ok_iff {d a : Handle} :
    parseMov f = .ok (d, a) ↔ a.readable = true ∧ f = { f.blank with dst := d.code, sa := a.code } := by
  obtain ⟨opc, typ, cond, eob, dst, sa, sb, mod, rnd, immb, xact, zero, imm⟩ := f
  simp [parseMov, Fields.blank]
  aesop

theorem parseLdi_ok_iff {d : Handle} :
    parseLdi f = .ok d ↔ f = { f.blank with dst := d.code, immb := true, imm := f.imm } := by
  obtain ⟨opc, typ, cond, eob, dst, sa, sb, mod, rnd, immb, xact, zero, imm⟩ := f
  simp [parseLdi, Fields.blank]
  aesop

theorem nopFillers_ok_iff {u : Unit} : fillers f {} [f.dst, f.sa, f.sb] = .ok u ↔ f = f.blank := by
  obtain ⟨opc, typ, cond, eob, dst, sa, sb, mod, rnd, immb, xact, zero, imm⟩ := f
  simp [Fields.blank]
  aesop

theorem asWindow_ok_iff {p : Params} {h : BitVec 7} {k : Fin 32} :
    asWindow p h = .ok k ↔ h = rCode k ∧ p.inWindow k = true := by
  simp [asWindow]

theorem offImm_ok_iff {v : Half} {u : Unit} : offImm v = .ok u ↔ ∃ off, v = offCode off := by
  constructor
  · intro h
    exact ⟨immOff v, (offCode_imm (by simpa [offImm] using h)).symm⟩
  · rintro ⟨off, rfl⟩
    exact offImm_offCode off

theorem parseXlane_ok_iff {p : Params} {d a : Fin 32} {act : XAct} {off : Fin 4} :
    parseXlane p f = .ok (d, a, act, off) ↔ (p.inWindow d && p.inWindow a && p.xlaneFits act off) = true
      ∧ f = { f.blank with dst := rCode d, sa := rCode a, xact := act.code, imm := offCode off } := by
  obtain ⟨opc, typ, cond, eob, dst, sa, sb, mod, rnd, immb, xact, zero, imm⟩ := f
  simp [parseXlane, Fields.blank, asWindow_ok_iff, offImm_ok_iff]
  aesop

end

/-! ## The forms that share a parser -/

section
variable {f : Fields}

theorem parseAlu_ok_iff {d : Option (Fin 32)} {a : Fin 32} {b : Src} :
    parseBinary Src.wfAlu immSigned f = .ok (d, a, b) ↔ b.wfAlu = true
      ∧ f = ({ f.blank with dst := optCode rCode d, sa := rCode a } : Fields).withSrc b :=
  parseBinary_ok_iff fun _ => rfl

theorem parseBit_ok_iff {d : Option (Fin 32)} {a : Fin 32} {b : Src} :
    parseBinary Src.wfBit immUnsigned f = .ok (d, a, b) ↔ b.wfBit = true
      ∧ f = ({ f.blank with dst := optCode rCode d, sa := rCode a } : Fields).withSrc b :=
  parseBinary_ok_iff fun _ => rfl

theorem parseMacReal_ok_iff {d : Option (Fin 8)} {a b : Fin 32} {m : SignMode} {r : Bool} :
    parseMac asAcc asR asR f = .ok (d, a, b, m, r) ↔ f = { f.blank with
      dst := optCode accCode d, sa := rCode a, sb := rCode b, mod := m.code, rnd := r } :=
  parseMac_ok_iff orNone_asAcc_ok_iff asR_ok_iff asR_ok_iff reservedHandle_accCode reservedHandle_rCode
    reservedHandle_rCode

theorem parseMacC_ok_iff {d : Option AccPair} {a b : RPair} {m : SignMode} {r : Bool} :
    parseMac asAccPair asRPair asRPair f = .ok (d, a, b, m, r) ↔ f = { f.blank with
      dst := optCode accPairCode d, sa := rPairCode a, sb := rPairCode b, mod := m.code, rnd := r } :=
  parseMac_ok_iff orNone_asAccPair_ok_iff asRPair_ok_iff asRPair_ok_iff reservedHandle_accPairCode
    reservedHandle_rPairCode reservedHandle_rPairCode

theorem parseMacRC_ok_iff {d : Option AccPair} {a : Fin 32} {b : RPair} {m : SignMode} {r : Bool} :
    parseMac asAccPair asR asRPair f = .ok (d, a, b, m, r) ↔ f = { f.blank with
      dst := optCode accPairCode d, sa := rCode a, sb := rPairCode b, mod := m.code, rnd := r } :=
  parseMac_ok_iff orNone_asAccPair_ok_iff asR_ok_iff asRPair_ok_iff reservedHandle_accPairCode
    reservedHandle_rCode reservedHandle_rPairCode

theorem parseLd_ok_iff {d : Handle} :
    parseLoad asWritable f = .ok d ↔ f = { f.blank with dst := d.code, immb := true, imm := f.imm }
      ∨ ∃ k m, f = { f.blank with dst := d.code, imm := postCode k m } :=
  parseLoad_ok_iff asWritable_ok_iff reservedHandle_code

theorem parseLdd_ok_iff {d : Option RPair} :
    parseLoad (orNone asRPair) f = .ok d ↔
      f = { f.blank with dst := optCode rPairCode d, immb := true, imm := f.imm }
      ∨ ∃ k m, f = { f.blank with dst := optCode rPairCode d, imm := postCode k m } :=
  parseLoad_ok_iff orNone_asRPair_ok_iff (reservedHandle_optCode _ reservedHandle_rPairCode)

theorem parseSt_ok_iff {a : Handle} :
    parseStore asReadable f = .ok a ↔ a.readable = true
      ∧ (f = { f.blank with sa := a.code, immb := true, imm := f.imm }
        ∨ ∃ k m, f = { f.blank with sa := a.code, imm := postCode k m }) :=
  parseStore_ok_iff asReadable_ok_iff reservedHandle_code

theorem parseStd_ok_iff {a : RPair} :
    parseStore asRPair f = .ok a ↔ f = { f.blank with sa := rPairCode a, immb := true, imm := f.imm }
      ∨ ∃ k m, f = { f.blank with sa := rPairCode a, imm := postCode k m } := by
  rw [parseStore_ok_iff (ok := fun _ => True) (by simp) reservedHandle_rPairCode]
  simp

end

/-! ## From the operation to its word and back -/

theorem decodeFields_alu {p : Params} {c : Ctl} {d : Option (Fin 32)} {a : Fin 32} {b : Src}
    (hb : b.wfAlu = true) {i : Instr} (hi : i ∈ [Instr.add c d a b, .addc c d a b, .sub c d a b, .subc c d a b,
      .subb c d a b, .subbc c d a b, .and c d a b, .or c d a b, .xor c d a b, .scr c d a b]) :
    decodeFields p (fieldsOf i) = .ok i := by
  simp only [List.mem_cons, List.not_mem_nil, or_false] at hi
  rcases hi with rfl | rfl | rfl | rfl | rfl | rfl | rfl | rfl | rfl | rfl <;> cases b <;>
    simpa [decodeFields, decodeAlu, fieldsOf, blankFields, Fields.withSrc, Fields.blank, parseAlu_ok_iff]
      using hb

theorem decodeFields_shift {p : Params} {c : Ctl} {d : Option (Fin 8)} {a : ShiftSrc} {n : Src} {fl : Field}
    {r : Bool} (hn : n.wfShift = true) {i : Instr} (hi : i ∈ [Instr.ashift c d a n fl r,
      .lshift c d a n fl r, .ashiftor c d a n fl r, .lshiftor c d a n fl r]) :
    decodeFields p (fieldsOf i) = .ok i := by
  simp only [List.mem_cons, List.not_mem_nil, or_false] at hi
  rcases hi with rfl | rfl | rfl | rfl <;> cases n <;> cases r <;>
    simpa [decodeFields, decodeShift, fieldsOf, blankFields, blankShift, Fields.withSrc, Fields.blank,
      parseShift_ok_iff] using hn

theorem decodeFields_shiftC {p : Params} {c : Ctl} {d : Option AccPair} {a : ShiftPair} {n : AmountPair}
    {fl : Field} {r : Bool} (hn : n.wf = true) {i : Instr}
    (hi : i ∈ [Instr.ashiftC c d a n fl r, .lshiftC c d a n fl r]) :
    decodeFields p (fieldsOf i) = .ok i := by
  simp only [List.mem_cons, List.not_mem_nil, or_false] at hi
  rcases hi with rfl | rfl <;> cases n <;> cases r <;>
    simpa [decodeFields, decodeShift, fieldsOf, blankFields, blankShift, Fields.withAmounts, Fields.blank,
      parseShiftC_ok_iff] using hn

theorem decodeFields_fieldsOf {p : Params} {i : Instr} (h : i.wellFormed p = true) :
    decodeFields p (fieldsOf i) = .ok i := by
  cases i with
  | add c d a b | addc c d a b | sub c d a b | subc c d a b | subb c d a b | subbc c d a b
  | and c d a b | or c d a b | xor c d a b | scr c d a b =>
    exact decodeFields_alu (c := c) (d := d) (a := a) (b := b) h (by simp)
  | tstbit c d a b | setbit c d a b | clrbit c d a b | tglbit c d a b =>
    cases b <;>
      simpa [Instr.wellFormed, decodeFields, decodeAlu, fieldsOf, blankFields, Fields.withSrc, Fields.blank, parseBit_ok_iff] using h
  | not c d a | abs c d a | inc c d a | dec c d a =>
    simp [decodeFields, decodeAlu, fieldsOf, blankFields, Fields.blank, parseUnary_ok_iff]
  | addA c d a b | subA c d a b =>
    cases b <;>
      simp [decodeFields, decodeAluAcc, fieldsOf, blankFields, Fields.withAccSrc, Fields.blank, parseAccBinary_ok_iff]
  | addC c d a b | subC c d a b =>
    simp [decodeFields, decodeAlu, fieldsOf, blankFields, Fields.blank, parsePairs_ok_iff]
  | rccwC c d a b | rcwC c d a b =>
    cases b <;>
      simpa [Instr.wellFormed, decodeFields, decodeAlu, fieldsOf, blankFields, Fields.withSrc, Fields.blank, parseRotate_ok_iff] using h
  | magC c d a => simp [decodeFields, decodeAlu, fieldsOf, blankFields, Fields.blank, parseMag_ok_iff]
  | rectC c d a b => simp [decodeFields, decodeAlu, fieldsOf, blankFields, Fields.blank, parseRect_ok_iff]
  | mpy c d a b m r | mac c d a b m r | mas c d a b m r =>
    cases r <;> simp [decodeFields, decodeMac, fieldsOf, blankFields, blankMac, Fields.blank, parseMacReal_ok_iff]
  | mpyC c d a b m r | macC c d a b m r | masC c d a b m r =>
    cases r <;> simp [decodeFields, decodeMac, fieldsOf, blankFields, blankMac, Fields.blank, parseMacC_ok_iff]
  | mpyRC c d a b m r | macRC c d a b m r | masRC c d a b m r =>
    cases r <;> simp [decodeFields, decodeMac, fieldsOf, blankFields, blankMac, Fields.blank, parseMacRC_ok_iff]
  | rndacc c d a => simp [decodeFields, decodeMac, fieldsOf, blankFields, Fields.blank, parseRndacc_ok_iff]
  | clracc c d => simp [decodeFields, decodeMac, fieldsOf, blankFields, Fields.blank, parseClracc_ok_iff]
  | ashift c d a n fl r | lshift c d a n fl r | ashiftor c d a n fl r | lshiftor c d a n fl r =>
    exact decodeFields_shift (c := c) (d := d) (a := a) (fl := fl) (r := r) h (by simp)
  | ashiftC c d a n fl r | lshiftC c d a n fl r =>
    exact decodeFields_shiftC (c := c) (d := d) (a := a) (fl := fl) (r := r) h (by simp)
  | ldDirect c d v | ldPost c d k m =>
    simp [decodeFields, decodeMem, fieldsOf, blankFields, Fields.blank, parseLd_ok_iff]
  | lddDirect c d v | lddPost c d k m =>
    simp [decodeFields, decodeMem, fieldsOf, blankFields, Fields.blank, parseLdd_ok_iff]
  | stDirect c a v | stPost c a k m =>
    simpa [Instr.wellFormed, decodeFields, decodeMem, fieldsOf, blankFields, Fields.blank, parseSt_ok_iff] using h
  | stdDirect c a v | stdPost c a k m =>
    simp [decodeFields, decodeMem, fieldsOf, blankFields, Fields.blank, parseStd_ok_iff]
  | modify c k m =>
    simp [decodeFields, decodeMem, fieldsOf, blankFields, Fields.blank, parseModify_ok_iff]
  | mov c d a =>
    simpa [Instr.wellFormed, decodeFields, decodeMove, fieldsOf, blankFields, Fields.blank, parseMov_ok_iff] using h
  | ldi c d v => simp [decodeFields, decodeMove, fieldsOf, blankFields, Fields.blank, parseLdi_ok_iff]
  | nop c => simp [decodeFields, decodeMove, fieldsOf, blankFields]
  | xrd c d a act off | xwr c d a act off =>
    simpa [Instr.wellFormed, decodeFields, decodeXlane, fieldsOf, blankFields, Fields.blank, parseXlane_ok_iff] using h

/-- Settles O2: a word determines its fields, and each operand form reads back what the encoder wrote. -/
theorem decodeEncodeRoundTrip : Obligations.DecodeEncodeRoundTrip := by
  intro p i h
  rw [decode, encode, Fields.unpack_pack]
  exact decodeFields_fieldsOf h

/-- The operation is well formed and its fields are those given. -/
def Instr.canonical (p : Params) (f : Fields) (i : Instr) : Prop := i.wellFormed p = true ∧ fieldsOf i = f

/-- Fields that a form `g` fills in from the blank descriptor are those that the encoder fills in for the
(OPC, TYPE) pair `n`, `m`. -/
theorem Fields.eq_encoded {f : Fields} {g : Fields → Fields} {n m : Nat} (hopc : f.opc.toNat = n)
    (htyp : f.typ.toNat = m) (hf : f = g f.blank) :
    g (blankFields (BitVec.ofNat 8 n) (BitVec.ofNat 3 m) ⟨Cond.ofCode f.cond, f.eob⟩) = f := by
  subst hopc htyp
  rw [BitVec.ofNat_toNat, BitVec.ofNat_toNat, BitVec.setWidth_eq, BitVec.setWidth_eq,
    ← Fields.blank_eq rfl rfl, ← hf]

section
variable {p : Params} {f : Fields} {i : Instr}

theorem decodeAlu_canonical (htyp : f.typ.toNat = 0)
    (h : decodeAlu ⟨Cond.ofCode f.cond, f.eob⟩ f = .ok i) : i.canonical p f := by
  unfold decodeAlu at h
  split at h
  case h_1 hopc | h_2 hopc | h_3 hopc | h_4 hopc | h_5 hopc | h_6 hopc | h_7 hopc | h_8 hopc | h_9 hopc
      | h_18 hopc =>
    obtain ⟨⟨d, a, b⟩, hp, rfl⟩ := except_map_ok.mp h
    obtain ⟨hb, hf⟩ := parseAlu_ok_iff.mp hp
    exact ⟨hb, Fields.eq_encoded
      (g := fun f => ({ f with dst := optCode rCode d, sa := rCode a } : Fields).withSrc b) hopc htyp hf⟩
  case h_14 hopc | h_15 hopc | h_16 hopc | h_17 hopc =>
    obtain ⟨⟨d, a, b⟩, hp, rfl⟩ := except_map_ok.mp h
    obtain ⟨hb, hf⟩ := parseBit_ok_iff.mp hp
    exact ⟨hb, Fields.eq_encoded
      (g := fun f => ({ f with dst := optCode rCode d, sa := rCode a } : Fields).withSrc b) hopc htyp hf⟩
  case h_10 hopc | h_11 hopc | h_12 hopc | h_13 hopc =>
    obtain ⟨⟨d, a⟩, hp, rfl⟩ := except_map_ok.mp h
    exact ⟨rfl, Fields.eq_encoded (g := fun f => { f with dst := optCode rCode d, sa := rCode a })
      hopc htyp (parseUnary_ok_iff.mp hp)⟩
  case h_19 hopc | h_20 hopc =>
    obtain ⟨⟨d, a, b⟩, hp, rfl⟩ := except_map_ok.mp h
    exact ⟨rfl, Fields.eq_encoded
      (g := fun f => { f with dst := optCode rPairCode d, sa := rPairCode a, sb := rPairCode b })
      hopc htyp (parsePairs_ok_iff.mp hp)⟩
  case h_21 hopc | h_22 hopc =>
    obtain ⟨⟨d, a, b⟩, hp, rfl⟩ := except_map_ok.mp h
    obtain ⟨hb, hf⟩ := parseRotate_ok_iff.mp hp
    exact ⟨hb, Fields.eq_encoded
      (g := fun f => ({ f with dst := optCode rPairCode d, sa := rPairCode a } : Fields).withSrc b)
      hopc htyp hf⟩
  case h_23 hopc =>
    obtain ⟨⟨d, a⟩, hp, rfl⟩ := except_map_ok.mp h
    exact ⟨rfl, Fields.eq_encoded (g := fun f => { f with dst := optCode rCode d, sa := rPairCode a })
      hopc htyp (parseMag_ok_iff.mp hp)⟩
  case h_24 hopc =>
    obtain ⟨⟨d, a, b⟩, hp, rfl⟩ := except_map_ok.mp h
    exact ⟨rfl, Fields.eq_encoded
      (g := fun f => { f with dst := optCode rPairCode d, sa := rCode a, sb := rCode b })
      hopc htyp (parseRect_ok_iff.mp hp)⟩
  case h_25 => cases h

theorem decodeAluAcc_canonical (htyp : f.typ.toNat = 1)
    (h : decodeAluAcc ⟨Cond.ofCode f.cond, f.eob⟩ f = .ok i) : i.canonical p f := by
  unfold decodeAluAcc at h
  split at h
  case h_1 hopc | h_2 hopc =>
    obtain ⟨⟨d, a, b⟩, hp, rfl⟩ := except_map_ok.mp h
    exact ⟨rfl, Fields.eq_encoded
      (g := fun f => ({ f with dst := optCode accCode d, sa := accCode a } : Fields).withAccSrc b)
      hopc htyp (parseAccBinary_ok_iff.mp hp)⟩
  case h_3 => cases h

theorem decodeShift_canonical (htyp : f.typ.toNat = 2)
    (h : decodeShift ⟨Cond.ofCode f.cond, f.eob⟩ f = .ok i) : i.canonical p f := by
  unfold decodeShift at h
  split at h
  case h_1 hopc | h_2 hopc | h_3 hopc | h_4 hopc =>
    obtain ⟨⟨d, a, n, fl, r⟩, hp, rfl⟩ := except_map_ok.mp h
    obtain ⟨hn, hf⟩ := parseShift_ok_iff.mp hp
    exact ⟨hn, Fields.eq_encoded (g := fun f =>
      ({ f with dst := optCode accCode d, sa := a.code, mod := fl.code, rnd := r } : Fields).withSrc n)
      hopc htyp hf⟩
  case h_5 hopc | h_6 hopc =>
    obtain ⟨⟨d, a, n, fl, r⟩, hp, rfl⟩ := except_map_ok.mp h
    obtain ⟨hn, hf⟩ := parseShiftC_ok_iff.mp hp
    exact ⟨hn, Fields.eq_encoded (g := fun f =>
      ({ f with dst := optCode accPairCode d, sa := a.code, mod := fl.code, rnd := r } : Fields).withAmounts n)
      hopc htyp hf⟩
  case h_7 => cases h

theorem decodeMac_canonical (htyp : f.typ.toNat = 3)
    (h : decodeMac ⟨Cond.ofCode f.cond, f.eob⟩ f = .ok i) : i.canonical p f := by
  unfold decodeMac at h
  split at h
  case h_1 hopc | h_2 hopc | h_3 hopc =>
    obtain ⟨⟨d, a, b, m, r⟩, hp, rfl⟩ := except_map_ok.mp h
    exact ⟨rfl, Fields.eq_encoded (g := fun f =>
      { f with dst := optCode accCode d, sa := rCode a, sb := rCode b, mod := m.code, rnd := r })
      hopc htyp (parseMacReal_ok_iff.mp hp)⟩
  case h_4 hopc | h_5 hopc | h_6 hopc =>
    obtain ⟨⟨d, a, b, m, r⟩, hp, rfl⟩ := except_map_ok.mp h
    exact ⟨rfl, Fields.eq_encoded (g := fun f =>
      { f with dst := optCode accPairCode d, sa := rPairCode a, sb := rPairCode b, mod := m.code, rnd := r })
      hopc htyp (parseMacC_ok_iff.mp hp)⟩
  case h_7 hopc | h_8 hopc | h_9 hopc =>
    obtain ⟨⟨d, a, b, m, r⟩, hp, rfl⟩ := except_map_ok.mp h
    exact ⟨rfl, Fields.eq_encoded (g := fun f =>
      { f with dst := optCode accPairCode d, sa := rCode a, sb := rPairCode b, mod := m.code, rnd := r })
      hopc htyp (parseMacRC_ok_iff.mp hp)⟩
  case h_10 hopc =>
    obtain ⟨⟨d, a⟩, hp, rfl⟩ := except_map_ok.mp h
    exact ⟨rfl, Fields.eq_encoded (g := fun f => { f with dst := optCode accCode d, sa := accCode a })
      hopc htyp (parseRndacc_ok_iff.mp hp)⟩
  case h_11 hopc =>
    obtain ⟨d, hp, rfl⟩ := except_map_ok.mp h
    exact ⟨rfl, Fields.eq_encoded (g := fun f => { f with dst := optCode accCode d })
      hopc htyp (parseClracc_ok_iff.mp hp)⟩
  case h_12 => cases h

theorem decodeMem_canonical (htyp : f.typ.toNat = 4)
    (h : decodeMem ⟨Cond.ofCode f.cond, f.eob⟩ f = .ok i) : i.canonical p f := by
  unfold decodeMem at h
  split at h
  case h_1 hopc =>
    obtain ⟨d, hp, rfl⟩ := except_map_ok.mp h
    rcases parseLd_ok_iff.mp hp with hf | ⟨k, m, hf⟩
    · have direct : f.immb = true := by rw [hf]
      simp only [direct, if_true]
      exact ⟨rfl, Fields.eq_encoded (g := fun g => { g with dst := d.code, immb := true, imm := f.imm })
        hopc htyp hf⟩
    · have post : f.immb = false := by rw [hf]; rfl
      have himm : f.imm = postCode k m := by rw [hf]
      simp only [post, himm, immK_postCode, immM_postCode]
      exact ⟨rfl, Fields.eq_encoded (g := fun g => { g with dst := d.code, imm := postCode k m })
        hopc htyp hf⟩
  case h_2 hopc =>
    obtain ⟨a, hp, rfl⟩ := except_map_ok.mp h
    obtain ⟨ha, hf | ⟨k, m, hf⟩⟩ := parseSt_ok_iff.mp hp
    · have direct : f.immb = true := by rw [hf]
      simp only [direct, if_true]
      exact ⟨ha, Fields.eq_encoded (g := fun g => { g with sa := a.code, immb := true, imm := f.imm })
        hopc htyp hf⟩
    · have post : f.immb = false := by rw [hf]; rfl
      have himm : f.imm = postCode k m := by rw [hf]
      simp only [post, himm, immK_postCode, immM_postCode]
      exact ⟨ha, Fields.eq_encoded (g := fun g => { g with sa := a.code, imm := postCode k m })
        hopc htyp hf⟩
  case h_3 hopc =>
    obtain ⟨d, hp, rfl⟩ := except_map_ok.mp h
    rcases parseLdd_ok_iff.mp hp with hf | ⟨k, m, hf⟩
    · have direct : f.immb = true := by rw [hf]
      simp only [direct, if_true]
      exact ⟨rfl, Fields.eq_encoded
        (g := fun g => { g with dst := optCode rPairCode d, immb := true, imm := f.imm }) hopc htyp hf⟩
    · have post : f.immb = false := by rw [hf]; rfl
      have himm : f.imm = postCode k m := by rw [hf]
      simp only [post, himm, immK_postCode, immM_postCode]
      exact ⟨rfl, Fields.eq_encoded
        (g := fun g => { g with dst := optCode rPairCode d, imm := postCode k m }) hopc htyp hf⟩
  case h_4 hopc =>
    obtain ⟨a, hp, rfl⟩ := except_map_ok.mp h
    rcases parseStd_ok_iff.mp hp with hf | ⟨k, m, hf⟩
    · have direct : f.immb = true := by rw [hf]
      simp only [direct, if_true]
      exact ⟨rfl, Fields.eq_encoded
        (g := fun g => { g with sa := rPairCode a, immb := true, imm := f.imm }) hopc htyp hf⟩
    · have post : f.immb = false := by rw [hf]; rfl
      have himm : f.imm = postCode k m := by rw [hf]
      simp only [post, himm, immK_postCode, immM_postCode]
      exact ⟨rfl, Fields.eq_encoded
        (g := fun g => { g with sa := rPairCode a, imm := postCode k m }) hopc htyp hf⟩
  case h_5 hopc =>
    obtain ⟨u, hp, rfl⟩ := except_map_ok.mp h
    obtain ⟨k, m, hf⟩ := parseModify_ok_iff.mp hp
    have himm : f.imm = postCode k m := by rw [hf]
    rw [himm, immK_postCode, immM_postCode]
    exact ⟨rfl, Fields.eq_encoded (g := fun g => { g with imm := postCode k m }) hopc htyp hf⟩
  case h_6 => cases h

theorem decodeMove_canonical (htyp : f.typ.toNat = 5)
    (h : decodeMove ⟨Cond.ofCode f.cond, f.eob⟩ f = .ok i) : i.canonical p f := by
  unfold decodeMove at h
  split at h
  case h_1 hopc =>
    obtain ⟨⟨d, a⟩, hp, rfl⟩ := except_map_ok.mp h
    obtain ⟨ha, hf⟩ := parseMov_ok_iff.mp hp
    exact ⟨ha, Fields.eq_encoded (g := fun g => { g with dst := d.code, sa := a.code }) hopc htyp hf⟩
  case h_2 hopc =>
    obtain ⟨d, hp, rfl⟩ := except_map_ok.mp h
    exact ⟨rfl, Fields.eq_encoded (g := fun g => { g with dst := d.code, immb := true, imm := f.imm })
      hopc htyp (parseLdi_ok_iff.mp hp)⟩
  case h_3 hopc =>
    obtain ⟨u, hp, rfl⟩ := except_map_ok.mp h
    exact ⟨rfl, Fields.eq_encoded (g := fun g => g) hopc htyp (nopFillers_ok_iff.mp hp)⟩
  case h_4 => cases h

theorem decodeXlane_canonical (htyp : f.typ.toNat = 6)
    (h : decodeXlane p ⟨Cond.ofCode f.cond, f.eob⟩ f = .ok i) : i.canonical p f := by
  unfold decodeXlane at h
  split at h
  case h_1 hopc | h_2 hopc =>
    obtain ⟨⟨d, a, act, off⟩, hp, rfl⟩ := except_map_ok.mp h
    obtain ⟨fits, hf⟩ := parseXlane_ok_iff.mp hp
    exact ⟨fits, Fields.eq_encoded
      (g := fun g => { g with dst := rCode d, sa := rCode a, xact := act.code, imm := offCode off })
      hopc htyp hf⟩
  case h_3 => cases h

theorem decodeFields_canonical (h : decodeFields p f = .ok i) : i.canonical p f := by
  unfold decodeFields at h
  split at h
  case h_1 htyp => exact decodeAlu_canonical htyp h
  case h_2 htyp => exact decodeAluAcc_canonical htyp h
  case h_3 htyp => exact decodeShift_canonical htyp h
  case h_4 htyp => exact decodeMac_canonical htyp h
  case h_5 htyp => exact decodeMem_canonical htyp h
  case h_6 htyp => exact decodeMove_canonical htyp h
  case h_7 htyp => exact decodeXlane_canonical htyp h
  case h_8 => cases h

end

/-- Settles O3: each operand form answers only operands whose encoding is the fields it was given. -/
theorem decodedWordsAreCanonical : Obligations.DecodedWordsAreCanonical := by
  intro p d i h
  obtain ⟨wf, fields⟩ := decodeFields_canonical h
  exact ⟨wf, by rw [encode, fields, Fields.pack_unpack]⟩

end Sys2Proof
end

section
/-!
# The invariant of the machine (R21, R53, R55, R56, R70)

What an effect in an active lane leaves keeps each clause of the invariant; a step only commits such effects,
records an error, or resets.
-/
namespace Sys2Proof.Machine

/-! ## The clauses under one effect -/

section
variable {w : Nat} {e : Hazard w} {v : BitVec w} {c : Nat}

theorem Hazard.ordered_push (h : e.ordered c = true) : (e.push v c).ordered c = true := by
  obtain ⟨cur, bk0, bk1, tCur, tBk0, tBk1⟩ := e
  cases tCur <;> cases tBk0 <;> cases tBk1 <;> simp_all [Hazard.ordered, Hazard.push]

theorem Hazard.ordered_agu : (Hazard.agu v c).ordered c = true := by
  simp [Hazard.ordered, Hazard.agu]

theorem Hazard.ordered_succ (h : e.ordered c = true) : e.ordered (c + 1) = true := by
  obtain ⟨cur, bk0, bk1, tCur, tBk0, tBk1⟩ := e
  cases tCur <;> cases tBk0 <;> cases tBk1 <;> simp_all [Hazard.ordered] <;> omega

theorem Hazard.ordered_init : (Hazard.init v).ordered c = true := rfl

end

theorem Params.within_iff {p : Params} {m : BitVec 4} :
    p.within m = true ↔ ∀ j : Lane, m.getLsbD j.val = true → p.active j = true := by
  simp [Params.within, ← Bool.not_eq_true, ← imp_iff_not_or]

theorem lowestBit_getLsbD {v : BitVec 4} {j : Lane} :
    (lowestBit v).getLsbD j.val = true → v.getLsbD j.val = true := by
  revert v j; decide

theorem oneHot4_lowestBit {v : BitVec 4} : v ≠ 0#4 → oneHot4 (lowestBit v) = true := by
  revert v; decide

theorem Write.onEn_within {p : Params} {x : BitVec 4} (w : Write) (h : p.within x = true) :
    p.within (w.onEn p x) = true := by
  cases w with
  | dstat0 v =>
    rw [Params.within_iff] at h ⊢
    intro j hj
    simp only [Write.onEn, BitVec.getLsbD_or, Params.eligible_getLsbD, Bool.or_eq_true, Bool.and_eq_true] at hj
    rcases hj with hj | ⟨active, _⟩
    · exact h j hj
    · exact active
  | _ => exact h

theorem Write.onMaster_within {p : Params} {x : BitVec 4} (w : Write) (h : p.within x = true) :
    p.within (w.onMaster p x) = true := by
  cases w with
  | dstat1 v =>
    simp only [Write.onMaster]
    split
    · exact h
    · rw [Params.within_iff]
      intro j hj
      have hv := lowestBit_getLsbD hj
      rw [Params.eligible_getLsbD, Bool.and_eq_true] at hv
      exact hv.1
  | _ => exact h

theorem Write.onMaster_oneHot {p : Params} {x : BitVec 4} (w : Write) (h : oneHot4 x = true) :
    oneHot4 (w.onMaster p x) = true := by
  cases w with
  | dstat1 v =>
    simp only [Write.onMaster]
    split
    · exact h
    · exact oneHot4_lowestBit ‹_›
  | _ => exact h

theorem Write.onMemory_wf {P : Lane → Prop} {w : Write} {m : Memory} (hw : w.fits P) (h : m.wf = true) :
    (w.onMemory m).wf = true := by
  cases w with
  | memTouch a => exact Memory.wf_touch a m hw h
  | mem a j v => exact Memory.wf_store a j v m hw.1 h
  | _ => exact h

theorem Write.onMemory_inert {p : Params} {w : Write} {m : Memory}
    (hw : w.fits fun j => p.active j = true) (h : m.inert p = true) : (w.onMemory m).inert p = true := by
  cases w with
  | memTouch a => exact Memory.inert_touch p a m h
  | mem a j v => exact Memory.inert_store p a j v m hw.2 h
  | _ => exact h

theorem Write.onI_ordered {c : Nat} {k : Fin 8} {x : Hazard 16} (w : Write) (h : x.ordered c = true) :
    (w.onI c k x).ordered c = true := by
  unfold Write.onI
  split <;> try split
  all_goals simp only [Hazard.ordered_push, Hazard.ordered_agu, h]

theorem Write.onM_ordered {c : Nat} {k : Fin 8} {x : Hazard 16} (w : Write) (h : x.ordered c = true) :
    (w.onM c k x).ordered c = true := by
  unfold Write.onM
  split <;> try split
  all_goals simp only [Hazard.ordered_push, h]

theorem Write.onL_ordered {c : Nat} {k : Fin 8} {x : Hazard 16} (w : Write) (h : x.ordered c = true) :
    (w.onL c k x).ordered c = true := by
  unfold Write.onL
  split <;> try split
  all_goals simp only [Hazard.ordered_push, h]

theorem Write.onB_ordered {c : Nat} {k : Fin 8} {x : Hazard 16} (w : Write) (h : x.ordered c = true) :
    (w.onB c k x).ordered c = true := by
  unfold Write.onB
  split <;> try split
  all_goals simp only [Hazard.ordered_push, h]

theorem Write.onCntr_ordered {c : Nat} {x : Hazard 16} (w : Write) (h : x.ordered c = true) :
    (w.onCntr c x).ordered c = true := by
  unfold Write.onCntr
  split <;> simp only [Hazard.ordered_push, h]

theorem Write.onMstat_ordered {c : Nat} {x : Hazard 8} (w : Write) (h : x.ordered c = true) :
    (w.onMstat c x).ordered c = true := by
  unfold Write.onMstat
  split <;> simp only [Hazard.ordered_push, h]

/-- An effect moves an unspecified place only down the history of one register (R56). -/
theorem Write.ages_open {w : Write} {p q : Place} (h : w.ages p = some q) (hp : p.open = true) :
    q.open = true := by
  unfold Write.ages at h
  split at h
  case h_3 hz _ hz' x =>
    split at h
    next heq =>
      subst heq
      obtain ⟨y, _, rfl⟩ := Option.map_eq_some_iff.mp h
      cases hz <;> exact hp
    next => cases h; exact hp
  case h_6 => cases h; exact hp
  all_goals
    split at h
    · cases h
    · cases h; exact hp

/-! ## The invariant without the bundle in progress -/

/-- What the invariant says of the architectural state, in the course of a bundle too. -/
structure State.Sound (s : State) : Prop where
  cfg : s.cfg.wf = true
  memWf : s.mem.wf = true
  memInert : s.mem.inert s.cfg = true
  enWithin : s.cfg.within s.en = true
  masterOne : oneHot4 s.master = true
  masterWithin : s.cfg.within s.master = true
  iOrdered : ∀ k, (s.i.get k).ordered s.cycle = true
  mOrdered : ∀ k, (s.m.get k).ordered s.cycle = true
  lOrdered : ∀ k, (s.l.get k).ordered s.cycle = true
  bOrdered : ∀ k, (s.b.get k).ordered s.cycle = true
  cntrOrdered : s.cntr.ordered s.cycle = true
  mstatOrdered : s.mstat.ordered s.cycle = true
  unwritten : ∀ p ∈ s.unwritten, p.open = true

theorem State.Inv.sound {s : State} (h : s.Inv) : s.Sound where
  cfg := h.cfg
  memWf := h.memWf
  memInert := h.memInert
  enWithin := h.enWithin
  masterOne := h.masterOne
  masterWithin := h.masterWithin
  iOrdered := h.iOrdered
  mOrdered := h.mOrdered
  lOrdered := h.lOrdered
  bOrdered := h.bOrdered
  cntrOrdered := h.cntrOrdered
  mstatOrdered := h.mstatOrdered
  unwritten := h.unwritten

theorem State.Sound.inv {s : State} (h : s.Sound) (slot : s.slot = 0) (staged : s.staged = [])
    (outs : s.outs = []) : s.Inv where
  cfg := h.cfg
  memWf := h.memWf
  memInert := h.memInert
  enWithin := h.enWithin
  masterOne := h.masterOne
  masterWithin := h.masterWithin
  iOrdered := h.iOrdered
  mOrdered := h.mOrdered
  lOrdered := h.lOrdered
  bOrdered := h.bOrdered
  cntrOrdered := h.cntrOrdered
  mstatOrdered := h.mstatOrdered
  unwritten := h.unwritten
  slot := slot
  staged := staged
  outs := outs

/-- Only locations, parameters and the cycle count. -/
theorem State.Sound.of_reads {s t : State} (h : s.Sound) (reads : sameReads s t) (cycle : t.cycle = s.cycle) :
    t.Sound := by
  obtain ⟨_, _, _, _, _, _, _, hi, hm, hl, hb, hcntr, hmstat, _, _, _, _, _, _, _, hen, hmaster, hmem, hcfg,
    hunwritten⟩ := reads
  constructor
  case cfg => rw [hcfg]; exact h.cfg
  case memWf => rw [hmem]; exact h.memWf
  case memInert => rw [hmem, hcfg]; exact h.memInert
  case enWithin => rw [hcfg, hen]; exact h.enWithin
  case masterOne => rw [hmaster]; exact h.masterOne
  case masterWithin => rw [hcfg, hmaster]; exact h.masterWithin
  case iOrdered => rw [hi, cycle]; exact h.iOrdered
  case mOrdered => rw [hm, cycle]; exact h.mOrdered
  case lOrdered => rw [hl, cycle]; exact h.lOrdered
  case bOrdered => rw [hb, cycle]; exact h.bOrdered
  case cntrOrdered => rw [hcntr, cycle]; exact h.cntrOrdered
  case mstatOrdered => rw [hmstat, cycle]; exact h.mstatOrdered
  case unwritten => rw [hunwritten]; exact h.unwritten

/-- One effect in active lanes keeps every clause. -/
theorem State.Sound.applyWrite {s : State} (h : s.Sound) {w : Write}
    (hw : w.fits fun j => s.cfg.active j = true) : (s.applyWrite w).Sound := by
  have book := s.applyWrite_book w
  constructor
  case cfg => rw [book.cfg]; exact h.cfg
  case memWf => rw [s.applyWrite_mem]; exact Write.onMemory_wf hw h.memWf
  case memInert => rw [s.applyWrite_mem, book.cfg]; exact Write.onMemory_inert hw h.memInert
  case enWithin => rw [book.cfg, s.applyWrite_en]; exact w.onEn_within h.enWithin
  case masterOne => rw [s.applyWrite_master]; exact w.onMaster_oneHot h.masterOne
  case masterWithin => rw [book.cfg, s.applyWrite_master]; exact w.onMaster_within h.masterWithin
  case iOrdered => intro k; rw [s.applyWrite_i, book.cycle]; exact w.onI_ordered (h.iOrdered k)
  case mOrdered => intro k; rw [s.applyWrite_m, book.cycle]; exact w.onM_ordered (h.mOrdered k)
  case lOrdered => intro k; rw [s.applyWrite_l, book.cycle]; exact w.onL_ordered (h.lOrdered k)
  case bOrdered => intro k; rw [s.applyWrite_b, book.cycle]; exact w.onB_ordered (h.bOrdered k)
  case cntrOrdered => rw [s.applyWrite_cntr, book.cycle]; exact w.onCntr_ordered h.cntrOrdered
  case mstatOrdered => rw [s.applyWrite_mstat, book.cycle]; exact w.onMstat_ordered h.mstatOrdered
  case unwritten =>
    intro p hp
    obtain ⟨q, hq, aged⟩ := (s.mem_applyWrite w p).mp hp
    exact Write.ages_open aged (h.unwritten q hq)

theorem State.Sound.applyAll {s : State} (h : s.Sound) {ws : List Write}
    (hws : allFit (fun j => s.cfg.active j = true) ws) : (s.applyAll ws).Sound := by
  induction ws generalizing s with
  | nil => exact h
  | cons w ws ih =>
    rw [State.applyAll_cons]
    refine ih (h.applyWrite (hws w (by simp))) fun x hx => ?_
    rw [(s.applyWrite_book w).cfg]
    exact hws x (by simp [hx])

theorem State.active_of_enabled {s : State} {j : Lane} (h : s.enabled j = true) : s.cfg.active j = true :=
  (Bool.and_eq_true_iff.mp h).1

theorem allFit_aguLast {P : Lane → Prop} {ws : List Write} (h : allFit P ws) : allFit P (aguLast ws) := by
  intro w hw
  simp only [aguLast, List.mem_append, List.mem_filter] at hw
  rcases hw with ⟨hw, _⟩ | ⟨hw, _⟩ <;> exact h w hw

/-- The effects of a bundle that is about to commit are in active lanes. -/
theorem InProgress.staged_fit {s v : State} (h : InProgress s v) :
    allFit (fun j => v.cfg.active j = true) v.staged.flatten := by
  intro w hw
  obtain ⟨ws, hws, hw⟩ := List.mem_flatten.mp hw
  refine Write.fits_mono (fun j hj => ?_) (h.fit ws hws w hw)
  rw [← h.reads.enabled] at hj
  exact State.active_of_enabled hj

theorem State.Sound.commit {s v : State} (h : s.Sound) (hv : InProgress s v) : v.commit.Inv := by
  have sound := (h.of_reads hv.reads hv.cycle).applyAll (allFit_aguLast hv.staged_fit)
  have cycle : (v.applyAll (aguLast v.staged.flatten)).cycle = v.cycle := (v.applyAll_book _).cycle
  rw [State.commit_eq]
  exact
    { cfg := sound.cfg, memWf := sound.memWf, memInert := sound.memInert, enWithin := sound.enWithin
      masterOne := sound.masterOne, masterWithin := sound.masterWithin
      iOrdered := fun k => Hazard.ordered_succ (cycle ▸ sound.iOrdered k)
      mOrdered := fun k => Hazard.ordered_succ (cycle ▸ sound.mOrdered k)
      lOrdered := fun k => Hazard.ordered_succ (cycle ▸ sound.lOrdered k)
      bOrdered := fun k => Hazard.ordered_succ (cycle ▸ sound.bOrdered k)
      cntrOrdered := Hazard.ordered_succ (cycle ▸ sound.cntrOrdered)
      mstatOrdered := Hazard.ordered_succ (cycle ▸ sound.mstatOrdered)
      unwritten := sound.unwritten, slot := rfl, staged := rfl, outs := rfl }

/-! ## The commands -/

/-- Settles O12: each clause is a property of the reset values; the last one is `unspecified_open`. -/
theorem resetHasInvariant : Obligations.ResetHasInvariant := by
  intro p hp
  simp only [Params.wf, Bool.and_eq_true] at hp
  obtain ⟨⟨one, within⟩, en⟩ := hp
  exact
    { cfg := by simp [State.resetWith, Params.wf, one, within, en]
      memWf := rfl, memInert := rfl, enWithin := en, masterOne := one, masterWithin := within
      iOrdered := fun k => by simp only [State.resetWith, vector_get_replicate, Hazard.ordered_init]
      mOrdered := fun k => by simp only [State.resetWith, vector_get_replicate, Hazard.ordered_init]
      lOrdered := fun k => by simp only [State.resetWith, vector_get_replicate, Hazard.ordered_init]
      bOrdered := fun k => by simp only [State.resetWith, vector_get_replicate, Hazard.ordered_init]
      cntrOrdered := rfl, mstatOrdered := rfl, unwritten := unspecified_open
      slot := rfl, staged := rfl, outs := rfl }

/-- Effects in active lanes, committed between bundles. -/
theorem State.Inv.applyAll {s : State} (h : s.Inv) {ws : List Write}
    (hws : allFit (fun j => s.cfg.active j = true) ws) : (s.applyAll ws).Inv := by
  have book := s.applyAll_book ws
  exact (h.sound.applyAll hws).inv (book.slot.trans h.slot) (book.staged.trans h.staged)
    (book.outs.trans h.outs)

theorem State.Inv.of_reads {s t : State} (h : s.Inv) (reads : sameReads s t) (cycle : t.cycle = s.cycle)
    (slot : t.slot = 0) (staged : t.staged = []) (outs : t.outs = []) : t.Inv :=
  (h.sound.of_reads reads cycle).inv slot staged outs

theorem State.Inv.hostReset {s : State} (h : s.Inv) : s.hostReset.Inv := by
  have reset := resetHasInvariant s.cfg h.cfg
  exact reset.of_reads (by simp [sameReads, State.hostReset]) rfl rfl rfl rfl

theorem State.Inv.hostWrite {s : State} (h : s.Inv) (r : Handle) (v : PerLane Int) (mask : PerLane Bool) :
    (s.hostWrite r v mask).Inv := by
  unfold State.hostWrite
  split
  · exact h.of_reads (s.raiseAt_reads _ _) rfl rfl rfl rfl
  · exact h.applyAll fun w hw => Write.fits_mono
      (fun j hj => State.active_of_enabled (State.enabled_of_executing hj)) (allFit_dest s mask r _ w hw)

theorem State.Inv.hostPreload {s : State} (h : s.Inv) (a : Half) (v : PerLane Data) (mask : PerLane Bool) :
    (s.hostPreload a v mask).Inv := by
  refine (h.of_reads (s.warn_reads _) rfl h.slot h.staged h.outs).applyAll ?_
  refine allFit_cons a.isLt fun w hw => ?_
  obtain ⟨j, hj, rfl⟩ := List.mem_map.mp hw
  simp only [List.mem_filter, Bool.and_eq_true] at hj
  exact ⟨a.isLt, hj.2.1⟩

theorem State.Inv.hostSetIrptl {s : State} (h : s.Inv) (v : Half) : (s.hostSetIrptl v).Inv :=
  { cfg := h.cfg, memWf := h.memWf, memInert := h.memInert, enWithin := h.enWithin
    masterOne := h.masterOne, masterWithin := h.masterWithin, iOrdered := h.iOrdered
    mOrdered := h.mOrdered, lOrdered := h.lOrdered, bOrdered := h.bOrdered
    cntrOrdered := h.cntrOrdered, mstatOrdered := h.mstatOrdered, unwritten := h.unwritten
    slot := h.slot, staged := h.staged, outs := h.outs }

theorem State.Inv.withInput {s : State} (h : s.Inv) (q : List HostCmd) : (s.withInput q).Inv :=
  h.of_reads (s.withInput_reads q) rfl h.slot h.staged h.outs

theorem State.Inv.execute {s t : State} (h : s.Inv) {ds : List Descr} {x : BitVec 8} {n : Nat}
    (ht : s.execute ds x n = .next t) : t.Inv := by
  cases noFault : s.faultRec with
  | some f =>
    simp only [State.execute, noFault, Host.Outcome.next.injEq] at ht
    exact ht ▸ h
  | none =>
    rcases execute_cases s ds x n noFault with ⟨_, refused⟩ | ⟨b, more, _, t', ht', ended⟩
    · rw [refused] at ht; cases ht
    · rw [ht'] at ht
      cases ht
      have start : ((s.withInput (requeue more x n s.input)).openBundle x n).Inv :=
        (h.withInput _).of_reads (State.openBundle_reads _ _ _) rfl rfl rfl rfl
      rcases ended with stopped | ⟨v, hv, rfl⟩
      · exact start.of_reads stopped.reads stopped.cycle stopped.slot stopped.staged stopped.outs
      · exact start.sound.commit hv

/-- Settles O11: a case for each command of the host. -/
theorem stepKeepsInvariant : Obligations.StepKeepsInvariant := by
  intro s t h ht
  unfold step at ht
  split at ht
  · cases ht
  next cmd rest _ =>
    have start := h.withInput rest
    cases cmd with
    | execute ds x n => exact start.execute ht
    | reset => cases ht; exact start.hostReset
    | write r v mask => cases ht; exact start.hostWrite r v mask
    | preload a v mask => cases ht; exact start.hostPreload a v mask
    | setIrptl v => cases ht; exact start.hostSetIrptl v

end Sys2Proof.Machine
end

section
/-!
# What a step leaves alone (R21, R51, R61, R131, R133)

A step other than reset changes no location, or commits effects in active lanes, or sets IRPTL. Each frame
statement is proved of one effect, then of a list of them, then of the step.
-/
namespace Sys2Proof.Machine

/-! ## One lane of every lane-replicated location -/

/-- Lane `j` holds the same registers, accumulators, flags, counters and memory lanes in both states. -/
def LaneSame (j : Lane) (s t : State) : Prop :=
  (∀ k, t.reg k j = s.reg k j) ∧ (∀ n, t.accLane n j = s.accLane n j)
    ∧ (∀ k, t.flags k j = s.flags k j) ∧ t.umcount.get j = s.umcount.get j
    ∧ t.ovcnt.get j = s.ovcnt.get j ∧ (∀ a, t.memLane a j = s.memLane a j)

theorem LaneSame.refl (j : Lane) (s : State) : LaneSame j s s :=
  ⟨fun _ => rfl, fun _ => rfl, fun _ => rfl, rfl, rfl, fun _ => rfl⟩

theorem LaneSame.trans {j : Lane} {s t u : State} (h : LaneSame j s t) (g : LaneSame j t u) :
    LaneSame j s u := by
  obtain ⟨reg, acc, flags, um, ov, mem⟩ := h
  obtain ⟨reg', acc', flags', um', ov', mem'⟩ := g
  exact ⟨fun k => (reg' k).trans (reg k), fun n => (acc' n).trans (acc n),
    fun k => (flags' k).trans (flags k), um'.trans um, ov'.trans ov, fun a => (mem' a).trans (mem a)⟩

/-- A frame that leaves lane `j` out. -/
theorem SameExcept.laneSame {T : Loc → Prop} {s t : State} (h : SameExcept T s t) {j : Lane}
    (hT : ∀ l, l.lane = some j → ¬ T l) : LaneSame j s t :=
  ⟨fun k => h.reg k j (hT _ rfl), fun n => h.acc n j (hT _ rfl), fun c => h.flags c j (hT _ rfl),
    h.umcount j (hT _ rfl), h.ovcnt j (hT _ rfl), fun a => h.mem a j (hT _ rfl)⟩

theorem sameReads.laneSame {s t : State} (h : sameReads s t) (j : Lane) : LaneSame j s t :=
  h.same.laneSame fun _ _ => id

/-- The lane of the location that a fitting effect is on. -/
theorem Write.lane_of_fits {P : Lane → Prop} {w : Write} (hw : w.fits P) {l : Loc} (hl : w.loc = some l)
    {j : Lane} (hj : l.lane = some j) : P j := by
  cases w <;> simp only [Write.loc, Option.some.injEq, reduceCtorEq] at hl <;> subst hl <;>
    simp only [Loc.lane, Option.some.injEq, reduceCtorEq] at hj <;> subst hj
  case mem => exact hw.2
  all_goals exact hw

/-- Effects in lanes of `P` leave the other lanes alone. -/
theorem State.applyAll_laneSame (s : State) {P : Lane → Prop} {ws : List Write} (hws : allFit P ws)
    {j : Lane} (hj : ¬ P j) : LaneSame j s (s.applyAll ws) := by
  refine (s.applyAll_same ws (fun l => l.lane ≠ some j) fun w hw l hl hlj => ?_).laneSame fun l hl h => h hl
  exact hj (Write.lane_of_fits (hws w hw) hl hlj)

theorem State.commit_reads (s : State) : sameReads (s.applyAll (aguLast s.staged.flatten)) s.commit := by
  rw [State.commit_eq]
  simp [sameReads]

/-- A commit of effects in lanes of `P` leaves the other lanes alone. -/
theorem State.commit_laneSame (s : State) {P : Lane → Prop} (hs : allFit P s.staged.flatten) {j : Lane}
    (hj : ¬ P j) : LaneSame j s s.commit :=
  (s.applyAll_laneSame (allFit_aguLast hs) hj).trans (s.commit_reads.laneSame j)

/-! ## One operation -/

/-- Settles O7: an operation that does not end its bundle records an error or stages its effects. -/
theorem openBundleKeepsArchitecture : Obligations.OpenBundleKeepsArchitecture := by
  intro s t i open_ ht
  rw [exec_eq] at ht
  rcases issue_cases i.ctl (checked i (opOf i)) s with
    ⟨_, refused⟩ | ⟨_, warns, e, _, raised⟩ | ⟨_, warns, es, _, done⟩
  · rw [refused] at ht; cases ht
  · rw [raised] at ht
    cases ht
    exact ⟨((s.warn_reads _).trans (State.raiseAt_reads _ _ _)).same, rfl, rfl⟩
  · rw [done, open_] at ht
    cases ht
    exact ⟨((s.warn_reads _).trans (State.stage_reads _ _ _)).same, rfl, rfl⟩

/-- Settles O16: the effects of an operation other than XWR are in its executing lanes (`exec_fit`). -/
theorem otherLanesKeepTheirValues : Obligations.OtherLanesKeepTheirValues := by
  intro s t i idle eob notXwr ht j idleLane
  rw [exec_eq] at ht
  rcases issue_cases i.ctl (checked i (opOf i)) s with
    ⟨_, refused⟩ | ⟨_, warns, e, _, raised⟩ | ⟨_, warns, es, effects, done⟩
  · rw [refused] at ht; cases ht
  · rw [raised] at ht
    cases ht
    exact ((s.warn_reads _).trans (State.raiseAt_reads _ _ _)).laneSame j
  · rw [done, eob] at ht
    cases ht
    generalize hstaged : (s.warn (s.condWarns i.ctl.cond ++ warns)).stage
      (s.slotOut (s.maskFor i.ctl.cond)) es = u
    have reads : sameReads s u := hstaged ▸ (s.warn_reads _).trans (State.stage_reads _ _ _)
    have staged : u.staged = [es] := by simp [← hstaged, idle.staged]
    refine (reads.laneSame j).trans ?_
    rcases u.close_cases with ⟨_, commits⟩ | ⟨k, _, raises⟩
    · rw [if_pos rfl, commits]
      refine u.commit_laneSame (P := fun j => s.runs i.ctl j) ?_ idleLane
      rw [staged, List.flatten_singleton]
      exact exec_fit notXwr effects
    · rw [if_pos rfl, raises]
      exact (u.raiseAt_reads k eCombo).laneSame j

/-! ## One step -/

/-- `step` on a queue that is not empty. -/
theorem step_cons {s : State} {cmd : HostCmd} {rest : List HostCmd} (hq : s.input = cmd :: rest) :
    step s = (s.withInput rest).perform cmd := by
  rw [step, hq]

/-- The state in which a bundle starts. -/
theorem State.start_reads (s : State) (q q' : List HostCmd) (x : BitVec 8) (site : Nat) :
    sameReads s (((s.withInput q).withInput q').openBundle x site) :=
  (s.withInput_reads q).trans ((State.withInput_reads _ q').trans (State.openBundle_reads _ _ _))

/-- How a bundle that is performed ends: from its start, in a record or in a commit. -/
theorem step_bundle {s t : State} {ds : List Descr} {x : BitVec 8} {site : Nat} {rest : List HostCmd}
    (hq : s.input = .execute ds x site :: rest) (noFault : s.faultRec = none) (ht : step s = .next t) :
    ∃ start, sameReads s start ∧ start.cycle = s.cycle ∧ start.log = s.log ∧ start.site = site
      ∧ (Stopped start t ∨ ∃ v, InProgress start v ∧ t = v.commit) := by
  rw [step_execute hq] at ht
  rcases execute_cases (s.withInput rest) ds x site noFault with
    ⟨_, refused⟩ | ⟨b, more, _, t', ht', ended⟩
  · rw [refused] at ht; cases ht
  · rw [ht'] at ht
    cases ht
    exact ⟨_, s.start_reads rest (requeue more x site rest) x site, rfl, rfl, rfl, ended⟩

/-- What a step other than reset does to the locations: nothing, or it commits effects in active lanes, or it
sets IRPTL. -/
theorem step_cases {s t : State} (notReset : s.input.head? ≠ some .reset) (ht : step s = .next t) :
    (∀ f, s.faultRec = some f → t.faultRec = some f)
      ∧ (sameReads s t
        ∨ (∃ u ws, sameReads s u ∧ allFit (fun j => s.cfg.active j = true) ws ∧ sameReads (u.applyAll ws) t)
        ∨ ∃ q v, t = (s.withInput q).setCtl .irptl v) := by
  cases hq : s.input with
  | nil => rw [step, hq] at ht; cases ht
  | cons cmd rest =>
    have ht' := ht
    rw [step_cons hq] at ht
    have reads := s.withInput_reads rest
    cases cmd with
    | reset => simp [hq] at notReset
    | execute ds x site =>
      cases hf : s.faultRec with
      | some f =>
        have : s.withInput rest = t := by simpa [State.perform, State.execute, hf] using ht
        subst this
        exact ⟨fun g hg => by rw [← hg, ← hf]; rfl, Or.inl reads⟩
      | none =>
        refine ⟨fun f h => (nomatch h), ?_⟩
        obtain ⟨start, startReads, _, _, _, stopped | ⟨v, hv, rfl⟩⟩ := step_bundle hq hf ht'
        · exact Or.inl (startReads.trans stopped.reads)
        · have cfg : v.cfg = s.cfg := (hv.reads.same.cfg).trans startReads.same.cfg
          refine Or.inr (Or.inl ⟨v, aguLast v.staged.flatten, startReads.trans hv.reads, ?_, v.commit_reads⟩)
          exact cfg ▸ allFit_aguLast hv.staged_fit
    | write h v mask =>
      simp only [State.perform, Host.Outcome.next.injEq] at ht
      subst ht
      unfold State.hostWrite
      split
      · exact ⟨fun f hf => by simp [State.raiseAt, hf], Or.inl (reads.trans (State.raiseAt_reads _ _ _))⟩
      · refine ⟨fun f hf => (State.applyAll_book _ _).faultRec.trans hf, Or.inr (Or.inl
          ⟨_, _, reads, fun w hw => ?_, sameReads.refl _⟩)⟩
        exact Write.fits_mono (fun j hj => State.active_of_enabled (State.enabled_of_executing hj))
          (allFit_dest (s.withInput rest) mask h _ w hw)
    | preload a v mask =>
      simp only [State.perform, Host.Outcome.next.injEq] at ht
      subst ht
      refine ⟨fun f hf => (State.applyAll_book _ _).faultRec.trans hf, Or.inr (Or.inl
        ⟨_, _, reads.trans (State.warn_reads _ _), ?_, sameReads.refl _⟩)⟩
      refine allFit_cons a.isLt fun w hw => ?_
      obtain ⟨j, hj, rfl⟩ := List.mem_map.mp hw
      simp only [List.mem_filter, Bool.and_eq_true] at hj
      exact ⟨a.isLt, hj.2.1⟩
    | setIrptl v =>
      simp only [State.perform, Host.Outcome.next.injEq] at ht
      subst ht
      exact ⟨fun f hf => hf, Or.inr (Or.inr ⟨rest, v, rfl⟩)⟩

theorem Write.onEn_keeps {p : Params} {x : BitVec 4} {n : Nat} (w : Write) (h : x.getLsbD n = true) :
    (w.onEn p x).getLsbD n = true := by
  cases w with
  | dstat0 v => simp [Write.onEn, h]
  | _ => exact h

theorem State.applyAll_en_keeps (s : State) (ws : List Write) {n : Nat} (h : s.en.getLsbD n = true) :
    (s.applyAll ws).en.getLsbD n = true := by
  rw [State.applyAll_en]
  induction ws generalizing s with
  | nil => exact h
  | cons w ws ih =>
    have := ih (s.applyWrite w) (by rw [State.applyWrite_en]; exact w.onEn_keeps h)
    rwa [State.applyWrite_en, (s.applyWrite_book w).cfg] at this

/-- Settles O14: no effect clears a bit of EN, and a record that is set stays. -/
theorem onlyResetClears : Obligations.OnlyResetClears := by
  intro s t notReset ht
  obtain ⟨fault, ended⟩ := step_cases notReset ht
  refine ⟨fun n hn => ?_, fault⟩
  rcases ended with same | ⟨u, ws, before, _, after⟩ | ⟨q, v, rfl⟩
  · rwa [same.same.en id]
  · rw [after.same.en id]
    exact u.applyAll_en_keeps ws (by rwa [before.same.en id])
  · exact hn

/-- Settles O15: the effects of a step other than reset are in active lanes. -/
theorem inactiveLanesUntouched : Obligations.InactiveLanesUntouched := by
  intro s t notReset ht j inactive
  rcases (step_cases notReset ht).2 with same | ⟨u, ws, before, fit, after⟩ | ⟨q, v, rfl⟩
  · exact same.laneSame j
  · exact (before.laneSame j).trans ((u.applyAll_laneSame fit (by simp [inactive])).trans (after.laneSame j))
  · exact LaneSame.refl j s

/-! ## Bundles that raise an error -/

/-- A bundle command after a recorded error (R139, log 8). -/
theorem step_refuses {t : State} (h : t.faultRec ≠ none) (ds : List Descr) (x : BitVec 8) (site : Nat)
    (rest : List HostCmd) :
    step (t.withInput (.execute ds x site :: rest)) = .next (t.withInput rest) := by
  obtain ⟨f, hf⟩ := Option.ne_none_iff_exists'.mp h
  rw [step_execute (s := t.withInput (.execute ds x site :: rest)) rfl]
  simp [State.execute, hf, State.withInput]

/-- Settles O9: a bundle that has recorded an error is one that stopped. -/
theorem bundleErrorsArePrecise : Obligations.BundleErrorsArePrecise := by
  intro s t ds x site rest hq noFault ht recorded
  obtain ⟨start, reads, startCycle, startLog, startSite, stopped | ⟨v, hv, rfl⟩⟩ := step_bundle hq noFault ht
  · obtain ⟨es, log⟩ := stopped.log
    obtain ⟨e, k, record⟩ := stopped.record
    refine ⟨(reads.trans stopped.reads).same, stopped.cycle.trans startCycle, ⟨es, startLog ▸ log⟩,
      ⟨e, k, ?_⟩, step_refuses recorded⟩
    rw [record, startSite, startCycle]
  · exact absurd hv.commit_advances.1 recorded

/-- Decoding stops at the first descriptor that does not decode. -/
theorem decodeSlots_first {p : Params} {before after : List Descr} {d : Descr} {e : CoreErr}
    (hb : ∀ y ∈ before, ∃ i, decode p y = .ok i) (hd : decode p d = .error e) (k : Nat) :
    decodeSlots p k (before ++ d :: after) = .error (k + before.length, e) := by
  induction before generalizing k with
  | nil => simp [decodeSlots, hd]
  | cons y before ih =>
    obtain ⟨i, hi⟩ := hb y (by simp)
    simp only [List.cons_append, decodeSlots, hi, ih (fun z hz => hb z (by simp [hz])), List.length_cons]
    congr 2
    omega

/-- Settles O8: `decodeSlots` gives the first error, which `runBundle` records. -/
theorem decodeErrorsAreRecordedFirst : Obligations.DecodeErrorsAreRecordedFirst := by
  rintro s ds b more x site rest before after d e hq noFault hb rfl decoded bad
  have failed := decodeSlots_first (after := after) decoded bad 0
  rw [Nat.zero_add] at failed
  refine ⟨_, ?_, ((s.start_reads rest (requeue more x site rest) x site).trans
    (State.raiseAt_reads _ before.length e)).same, rfl, ?_⟩
  · rw [step_execute hq]
    simp [State.execute, noFault, hb, runBundle, failed]
  · simp [State.raiseAt, noFault]

/-- Settles O5: the bundle is the one descriptor, and what follows it in the queue stays. -/
theorem stepRunsDecodedInstruction : Obligations.StepRunsDecodedInstruction := by
  intro s d x site rest i hq noFault hd eob
  have ends : endsBundle d = true := (decode_eob hd).symm.trans eob
  have alone : ∀ u, runSlots [i] u = exec i u := fun u => by
    cases h : exec i u with
    | next t => simp [runSlots, h]
    | fault r => simp [runSlots, h]
    | refused r => simp [runSlots, h]
  rw [step_execute hq]
  simp [State.execute, noFault, takeBundle, ends, runBundle, decodeSlots, hd, alone, requeue, State.withInput]

/-! ## Reset -/

/-- The places that R63 leaves unspecified. -/
theorem mem_unspecifiedAtReset (q : Place) : q ∈ unspecifiedAtReset ↔ q.open = true := by
  refine ⟨unspecified_open q, fun hq => ?_⟩
  have all : ∀ k : Fin 8, k ∈ eightIndices := by decide
  unfold unspecifiedAtReset
  cases q with
  | reg k j => simp
  | acc n j f => cases f <;> simp [all, HazReg.places]
  | haz h x => cases h <;> cases x <;> simp [all, HazReg.places, Place.open] at hq ⊢
  | ctl c =>
    cases c with
    | ivec k => revert k; simp [HazReg.places]; decide
    | _ => simp [HazReg.places, Place.open] at hq ⊢

/-- Settles O13. -/
theorem resetValues : Obligations.ResetValues := by
  intro p
  have never : ∀ k : Fin 8, ((Vector.replicate 8 (Hazard.init 0#16)).get k).stamps = (none, none, none) :=
    fun k => by rw [vector_get_replicate]; rfl
  refine ⟨rfl, rfl, rfl, rfl, rfl, rfl, rfl, fun j => ⟨?_, ?_, fun k => ?_⟩, fun a j => ⟨rfl, ?_⟩, rfl, rfl, rfl,
    fun k => ⟨never k, never k, never k, never k⟩, rfl, fun q => ?_, fun j => rfl⟩
  · simp [State.resetWith]
  · simp [State.resetWith]
  · cases k <;> simp [State.resetWith, State.flags] <;> rfl
  · simp [State.memLane, State.resetWith, Memory.word_nil]
  · rw [Bool.eq_iff_iff, State.unset_iff]
    exact mem_unspecifiedAtReset q

end Sys2Proof.Machine
end

section
/-!
# The ALU on real data (41_alu.md)

Each operation is an `aluReal`, `bitOp` or `aluAcc` of one lane's result; what remains is the value of that
result, in the words of its rule.
-/
namespace Sys2Proof.Machine

/-! ## Carries and results of one lane (R165, R168) -/

theorem zext12_nonneg (x : Int) : 0 ≤ zext12 x := Int.natCast_nonneg _

theorem zext12_le (x : Int) : zext12 x ≤ 0xFFF := by
  have := (wrap12 x).isLt
  unfold zext12
  omega

theorem carry12_of_nonneg {u : Int} (h : 0 ≤ u) : carry12 u = decide (0xFFF < u) := by
  simp [carry12, h]

theorem carry12_of_le {u : Int} (h : u ≤ 0xFFF) : carry12 u = decide (u < 0) := by
  simp [carry12, h]

theorem carry12_eq (u : Int) : carry12 u = (decide (u < 0) || decide (0xFFF < u)) := Bool.or_comm _ _

theorem aluSum_eq (a b : Int) {k : Int} (hk : 0 ≤ k) :
    aluSum a b k = ⟨BitVec.ofInt 12 (a + b + k), ov12Add a b (BitVec.ofInt 12 (a + b + k)),
      decide (0xFFF < zext12 a + zext12 b + k), none⟩ := by
  have := zext12_nonneg a
  have := zext12_nonneg b
  rw [aluSum, carry12_of_nonneg (by omega)]
  rfl

theorem aluDiff_zero (x y : Int) :
    aluDiff x y 0 = ⟨BitVec.ofInt 12 (x - y), ov12Sub x y (BitVec.ofInt 12 (x - y)),
      decide (zext12 x - zext12 y < 0), none⟩ := by
  have := zext12_le x
  have := zext12_nonneg y
  rw [aluDiff, carry12_of_le (by omega), add_zero, add_zero]
  rfl

theorem aluDiff_eq (x y k : Int) :
    aluDiff x y k = ⟨BitVec.ofInt 12 (x - y + k), ov12Sub x y (BitVec.ofInt 12 (x - y + k)),
      decide (zext12 x - zext12 y + k < 0) || decide (0xFFF < zext12 x - zext12 y + k), none⟩ := by
  rw [aluDiff, carry12_eq]
  rfl

theorem zext12_one : zext12 1 = 1 := by decide

theorem msb_and_msb_neg (x : Data) : (x.msb && (-x).msb) = decide (x = 0x800#12) := by
  have := x.isLt
  rw [Bool.eq_iff_iff, Bool.and_eq_true, decide_eq_true_eq, BitVec.msb_eq_decide, BitVec.msb_eq_decide,
    decide_eq_true_eq, decide_eq_true_eq, BitVec.toNat_neg, ← BitVec.toNat_inj]
  simp only [BitVec.toNat_ofNat]
  omega

/-- `-x` overflows only for -2048 (R165, R202). -/
theorem aluNeg_eq (x : Data) : aluNeg x.toInt = ⟨-x, decide (x = 0x800#12), false, none⟩ := by
  have value : wrap12 (-x.toInt) = -x := by rw [wrap12, BitVec.ofInt_neg, BitVec.ofInt_toInt]
  have zero : bit11 0 = false := rfl
  have overflow : ov12Sub 0 x.toInt (-x) = decide (x = 0x800#12) := by
    rw [← msb_and_msb_neg, ov12Sub, zero, bit11, wrap12, BitVec.ofInt_toInt, Bool.false_bne, Bool.bne_false]
  rw [aluNeg, value, overflow]

theorem ofInt_abs (a : Data) : BitVec.ofInt 12 |a.toInt| = if a.msb then -a else a := by
  rw [BitVec.msb_eq_toInt]
  by_cases h : a.toInt < 0
  · simp only [h, decide_true, if_true, abs_of_neg h, BitVec.ofInt_neg, BitVec.ofInt_toInt]
  · simp only [h, decide_false, abs_of_nonneg (not_lt.mp h), BitVec.ofInt_toInt]
    rfl

theorem ofInt_abs_eq_zero (a : Data) : BitVec.ofInt 12 |a.toInt| = 0#12 ↔ a = 0#12 := by
  rw [ofInt_abs]
  split
  · exact neg_eq_zero
  · rfl

theorem msb_ofInt_abs (a : Data) : (BitVec.ofInt 12 |a.toInt|).msb = decide (a = 0x800#12) := by
  rw [ofInt_abs, ← msb_and_msb_neg]
  cases h : a.msb with
  | false => simpa using h
  | true => rfl

/-- `|a|` overflows only for -2048 (R195). -/
theorem aluAbs_eq (a : Data) :
    aluAbs a.toInt = ⟨BitVec.ofInt 12 |a.toInt|, decide (a = 0x800#12), false, some a.msb⟩ := by
  have sign : decide (a.toInt < 0) = a.msb := by rw [BitVec.msb_eq_toInt]
  have magnitude : (if a.toInt < 0 then -a.toInt else a.toInt) = |a.toInt| := by
    split
    · rw [abs_of_neg ‹_›]
    · rw [abs_of_nonneg (by omega)]
  have overflow : decide (a.toInt = -2048) = decide (a = 0x800#12) := by
    rw [decide_eq_decide, ← BitVec.toInt_inj]
    rfl
  rw [aluAbs, sign, magnitude, overflow]
  rfl

/-! ## Arithmetic and logic -/

/-- Settles O21. -/
theorem addResults : Obligations.AddResults := by
  intro s c dst sa b idle eob
  refine ⟨fun known => ?_, fun known => ?_, fun known => ?_⟩ <;> rw [exec_known known]
  · exact aluReal_plain idle eob fun j => by simpa using aluSum_eq (s.reg sa j).toInt (s.srcInt b j) le_rfl
  · exact aluReal_plain idle eob fun j => aluSum_eq _ _ (Int.natCast_nonneg _)
  · refine aluReal_plain idle eob fun j => ?_
    have := aluSum_eq (s.reg sa j).toInt 1 le_rfl
    rw [zext12_one] at this
    simpa using this

/-- Settles O22: `k` is `subCarry` of the lane's AC. -/
theorem subtractResults : Obligations.SubtractResults := by
  intro s c dst sa b k idle eob adsp borrow
  have carry : ∀ j, subCarry s.cfg.subcForm (s.flags .re j).ac = k j := by
    intro j
    cases form : s.cfg.subcForm with
    | adsp => rw [adsp form j]; cases (s.flags .re j).ac <;> rfl
    | borrow => rw [borrow form j]; cases (s.flags .re j).ac <;> rfl
  refine ⟨fun known => ?_, fun known => ?_, fun known => ?_, fun known => ?_, fun known => ?_⟩ <;>
    rw [exec_known known]
  · exact aluReal_plain idle eob fun j => aluDiff_zero _ _
  · exact aluReal_plain idle eob fun j => aluDiff_zero _ _
  · refine aluReal_plain idle eob fun j => ?_
    have := aluDiff_zero (s.reg sa j).toInt 1
    rwa [zext12_one] at this
  · exact aluReal_plain idle eob fun j => by rw [carry j]; exact aluDiff_eq _ _ _
  · exact aluReal_plain idle eob fun j => by rw [carry j]; exact aluDiff_eq _ _ _

/-- Settles O24: none of the four results overflows or carries. -/
theorem logicResults : Obligations.LogicResults := by
  intro s c dst sa b idle eob
  refine ⟨fun known => ?_, fun known => ?_, fun known => ?_, fun known => ?_⟩ <;> rw [exec_known known] <;>
    exact aluReal_plain idle eob fun _ => rfl

/-- Settles O25. -/
theorem absAndScrResults : Obligations.AbsAndScrResults := by
  intro s c dst sa b idle eob
  refine ⟨fun known => ?_, fun known => ?_⟩ <;> rw [exec_known known]
  · obtain ⟨t, ht, commits, lanes⟩ :=
      aluReal_result (c := c) (dst := dst) (f := fun s j => aluAbs (s.reg sa j).toInt) idle eob
    refine ⟨t, ht, commits, fun j hj => ?_⟩
    obtain ⟨value, flags⟩ := lanes j hj
    simp only [aluAbs_eq] at value flags
    refine ⟨value, flags.trans ?_⟩
    simp [AluOut.flags, FlagUpd.latchAv, FlagUpd.apply, State.aluFlags, ofInt_abs_eq_zero, msb_ofInt_abs]
  · refine aluReal_plain idle eob fun j => ?_
    have odd : (wrap12 (s.srcInt b j)).getLsbD 0 = decide (s.srcInt b j % 2 = 1) := by
      rw [wrap12, BitVec.getLsbD, Nat.testBit_zero, BitVec.toNat_ofInt, decide_eq_decide]
      omega
    by_cases h : s.srcInt b j % 2 = 1
    · simp only [odd, h, decide_true, if_true, aluNeg_eq, Bool.true_and]
    · simp only [odd, h, decide_false, Bool.false_eq_true, if_false, Bool.false_and, aluPlain]

/-! ## Bit operations (R198 to R201) -/

theorem badIndex_eq_false {k : Int} : badIndex k = false ↔ 0 ≤ k ∧ k ≤ 11 := by
  simp [badIndex]

/-- A bit operation whose executing lanes have good indices is a real ALU operation. -/
theorem bitOp_good {dst : Option (Fin 32)} {sa : Fin 32} {b : Src} {g : Data → Data → Data} {s : State}
    {mask : PerLane Bool}
    (h : ∀ j, s.executing mask j = true → 0 ≤ s.srcIndex b j ∧ s.srcIndex b j ≤ 11) :
    bitOp dst sa b g s mask
      = aluReal dst (fun s j => aluPlain (g (s.reg sa j) (bitMask (s.srcIndex b j)))) s mask := by
  have none : ((s.execLanes mask).find? fun j => badIndex (s.srcIndex b j)) = none := by
    rw [List.find?_eq_none]
    intro j hj
    simpa [badIndex_eq_false] using h j ((s.mem_execLanes mask j).mp hj)
  rw [bitOp, none]

/-- A bit operation whose least executing lane with a bad index is `j`. -/
theorem bitOp_bad {dst : Option (Fin 32)} {sa : Fin 32} {b : Src} {g : Data → Data → Data} {s : State}
    {mask : PerLane Bool} {j : Lane} (hj : s.executing mask j = true)
    (bad : s.srcIndex b j < 0 ∨ 11 < s.srcIndex b j)
    (least : ∀ i, i < j → s.executing mask i = true → 0 ≤ s.srcIndex b i ∧ s.srcIndex b i ≤ 11) :
    ∃ ws, bitOp dst sa b g s mask = .fail ws ⟨.eReg, .value (s.srcIndex b j)⟩ := by
  have found : ((s.execLanes mask).find? fun i => badIndex (s.srcIndex b i)) = some j := by
    rw [State.execLanes, List.find?_filter]
    refine find_least ?_ fun i hi => ?_
    · simpa [hj, badIndex] using bad
    · simpa [badIndex] using least i hi
  rw [bitOp, found]
  exact ⟨_, rfl⟩

/-- Settles O26. -/
theorem bitResults : Obligations.BitResults := by
  intro s c dst sa b idle eob good
  have op : ∀ g, ∃ t, issue c (bitOp dst sa b g) s = .next t ∧ RealAlu c dst s t
      (fun j => g (s.reg sa j) (bitMask (s.srcIndex b j))) (fun _ => false) (fun _ => false) := by
    intro g
    obtain ⟨t, ht, result⟩ := aluReal_plain (c := c) (dst := dst) (s := s)
      (f := fun s j => aluPlain (g (s.reg sa j) (bitMask (s.srcIndex b j)))) idle eob fun _ => rfl
    refine ⟨t, ?_, result⟩
    rw [← ht]
    simp only [issue, bitOp_good good]
  exact ⟨fun known => exec_known known ▸ op fun a m => a &&& m, fun known => exec_known known ▸ op fun a m => a ||| m,
    fun known => exec_known known ▸ op fun a m => a &&& ~~~m, fun known => exec_known known ▸ op fun a m => a ^^^ m⟩

/-- Settles O27. -/
theorem bitIndexErrors : Obligations.BitIndexErrors := by
  intro s c dst sa b j idle hj bad least op hop known
  have raises : ∀ g, ∃ t, issue c (bitOp dst sa b g) s = .next t
      ∧ Raises ⟨.eReg, .value (s.srcIndex b j)⟩ 0 s t := by
    intro g
    obtain ⟨ws, failed⟩ := bitOp_bad (dst := dst) (sa := sa) (g := g) hj bad least
    obtain ⟨t, ht, raised, _⟩ := issue_fail idle failed
    exact ⟨t, ht, raised⟩
  rw [exec_known known]
  simp only [List.mem_cons, List.not_mem_nil, or_false] at hop
  rcases hop with rfl | rfl | rfl | rfl
  · exact raises fun a m => a &&& m
  · exact raises fun a m => a ||| m
  · exact raises fun a m => a &&& ~~~m
  · exact raises fun a m => a ^^^ m

/-! ## Against an accumulator (R204 to R206) -/

theorem zext32_toInt (x : AccWord) : zext32 x.toInt = x.toNat := by
  rw [zext32, wrap32, BitVec.ofInt_toInt]

theorem carry32_add (x : AccWord) (y : Int) :
    carry32 (zext32 x.toInt + zext32 y) = decide (0xFFFFFFFF < x.toNat + (BitVec.ofInt 32 y).toNat) := by
  rw [zext32_toInt, zext32, wrap32, carry32, Bool.eq_iff_iff]
  simp only [Bool.or_eq_true, decide_eq_true_eq]
  omega

theorem carry32_sub (x : AccWord) (y : Int) :
    carry32 (zext32 x.toInt - zext32 y) = decide (x.toNat < (BitVec.ofInt 32 y).toNat) := by
  have := x.isLt
  rw [zext32_toInt, zext32, wrap32, carry32, Bool.eq_iff_iff]
  simp only [Bool.or_eq_true, decide_eq_true_eq]
  omega

/-- `aluAcc_result` in the words of R204. -/
theorem aluAcc_value {c : Ctl} {dst : Option (Fin 8)} {f : State → Lane → Int × Bool} {s : State} {r : Lane → Int}
    {cy : Lane → Bool} (idle : s.Idle) (eob : c.eob = true) (hf : ∀ j, f s j = (r j, cy j)) :
    ∃ t, issue c (aluAcc dst f) s = .next t ∧ Commits c (s.accTargets c dst) s t
      ∧ ∀ j, s.runs c j → (∀ k, dst = some k → t.accWord k j = BitVec.ofInt 32 (r j))
        ∧ t.flags .re j = s.aluFlags .re j (decide (BitVec.ofInt 32 (r j) = 0#32)) (BitVec.ofInt 32 (r j)).msb
          (s.tooWide (r j)) (cy j) := by
  obtain ⟨t, ht, commits, lanes⟩ := aluAcc_result (c := c) (dst := dst) (f := f) idle eob
  refine ⟨t, ht, commits, fun j hj => ?_⟩
  simpa only [hf, ov32_eq, wrap32] using lanes j hj

/-- Settles O28. -/
theorem accumulatorAluResults : Obligations.AccumulatorAluResults := by
  intro s c dst sa b idle eob
  refine ⟨fun known => ?_, fun known => ?_⟩ <;> rw [exec_known known]
  · exact aluAcc_value idle eob fun j => by rw [carry32_add]
  · exact aluAcc_value idle eob fun j => by rw [carry32_sub]

/-! ## The overflow tests (R165) -/

/-- Settles O23: with operands in -2048..2047 the sum wraps at most once, and the wrap shows in bit 11. -/
theorem overflowTestsAreExact : Obligations.OverflowTestsAreExact := by
  intro a b k hk0 hk1
  have bit : ∀ x : Data, bit11 x.toInt = decide (x.toInt < 0) := fun x => by
    rw [bit11, wrap12, BitVec.ofInt_toInt, BitVec.msb_eq_toInt]
  have wrapped : ∀ t : Int, (BitVec.ofInt 12 t).msb = decide (2048 ≤ t % 4096) := fun t => by
    rw [BitVec.msb_eq_decide, BitVec.toNat_ofInt, decide_eq_decide]
    omega
  have ha := a.toInt_lt
  have ha' := a.le_toInt
  have hb := b.toInt_lt
  have hb' := b.le_toInt
  refine ⟨?_, ?_⟩
  · rw [ov12Add, bit, bit, wrapped, Bool.eq_iff_iff]
    simp only [Bool.and_eq_true, Bool.or_eq_true, decide_eq_true_eq, beq_iff_eq, bne_iff_ne, ne_eq, decide_eq_decide]
    omega
  · rw [ov12Sub, bit, bit, wrapped, Bool.eq_iff_iff]
    simp only [Bool.and_eq_true, Bool.or_eq_true, decide_eq_true_eq, bne_iff_ne, ne_eq, decide_eq_decide]
    omega

end Sys2Proof.Machine
end

section
/-!
# The complex ALU, the MAC and the shifter (42_alu_complex.md to 44_shift.md)

`aluPair_result`, `macReal_result`, `macPair_result` and the three results of the shifter say what an operation
does with the value of a lane; here that value is put in the words of its rule.
-/
namespace Sys2Proof.Machine

/-! ## Complex ALU operations (R221 to R226) -/

theorem zext12_toInt (x : Data) : zext12 x.toInt = x.toNat := by
  rw [zext12, wrap12, BitVec.ofInt_toInt]

theorem aluSum_data (a b : Data) :
    aluSum a.toInt b.toInt 0 = ⟨a + b, ov12Add a.toInt b.toInt (a + b), decide (0xFFF < a.toNat + b.toNat), none⟩ := by
  rw [aluSum_eq _ _ le_rfl, add_zero, BitVec.ofInt_add, BitVec.ofInt_toInt, BitVec.ofInt_toInt, zext12_toInt,
    zext12_toInt]
  congr 1
  rw [decide_eq_decide]
  omega

theorem aluDiff_data (a b : Data) :
    aluDiff a.toInt b.toInt 0 = ⟨a - b, ov12Sub a.toInt b.toInt (a - b), decide (a.toNat < b.toNat), none⟩ := by
  have value : BitVec.ofInt 12 (a.toInt - b.toInt) = a - b := by
    rw [Int.sub_eq_add_neg, BitVec.ofInt_add, BitVec.ofInt_neg, BitVec.ofInt_toInt, BitVec.ofInt_toInt,
      BitVec.sub_eq_add_neg]
  rw [aluDiff_zero, value, zext12_toInt, zext12_toInt]
  congr 1
  rw [decide_eq_decide]
  omega

/-- Settles O29. -/
theorem complexAddSubtractResults : Obligations.ComplexAddSubtractResults := by
  intro s c dst sa sb idle eob
  refine ⟨fun known => ?_, fun known => ?_, rfl, fun table re im => ?_⟩
  · rw [exec_known known]
    exact aluPair_result idle eob fun j => by rw [aluSum_data, aluSum_data]
  · rw [exec_known known]
    exact aluPair_result idle eob fun j => by rw [aluDiff_data, aluDiff_data]
  · rw [table]
    revert re im
    decide

theorem turns_toNat (n : Int) : ((turns n).toNat : Int) = n % 4 := by
  rw [turns, BitVec.toNat_ofInt]
  omega

theorem neg_turns (n : Int) : -turns n = turns (-n) := BitVec.ofInt_neg.symm

/-- The parts of a quarter turn in the words of R224, `n` being the turns modulo 4. -/
theorem rotated_turns {x y : Data} {n : Int} {re im : Int → Data} {ovR ovI : Int → Bool}
    (value : re 0 = x ∧ im 0 = y ∧ re 1 = -y ∧ im 1 = x ∧ re 2 = -x ∧ im 2 = -y ∧ re 3 = y ∧ im 3 = -x)
    (overflow : ovR 0 = false ∧ ovI 0 = false ∧ ovR 1 = decide (y = 0x800#12) ∧ ovI 1 = false
      ∧ ovR 2 = decide (x = 0x800#12) ∧ ovI 2 = decide (y = 0x800#12)
      ∧ ovR 3 = false ∧ ovI 3 = decide (x = 0x800#12)) :
    rotated (turns n) x y
      = (⟨re (n % 4), ovR (n % 4), false, none⟩, ⟨im (n % 4), ovI (n % 4), false, none⟩) := by
  obtain ⟨re0, im0, re1, im1, re2, im2, re3, im3⟩ := value
  obtain ⟨ovR0, ovI0, ovR1, ovI1, ovR2, ovI2, ovR3, ovI3⟩ := overflow
  have nat := turns_toNat n
  have quarter : n % 4 = 0 ∨ n % 4 = 1 ∨ n % 4 = 2 ∨ n % 4 = 3 := by omega
  rcases quarter with h | h | h | h <;> rw [h] at nat ⊢
  · have nat : (turns n).toNat = 0 := by omega
    simp [rotated, aluPlain, *]
  · have nat : (turns n).toNat = 1 := by omega
    simp [rotated, aluPlain, aluNeg_eq, *]
  · have nat : (turns n).toNat = 2 := by omega
    simp [rotated, aluNeg_eq, *]
  · have nat : (turns n).toNat = 3 := by omega
    simp [rotated, aluPlain, aluNeg_eq, *]

/-- Settles O30: RCW.C turns by the negated count. -/
theorem rotationResults : Obligations.RotationResults := by
  intro s c dst sa b re im ovR ovI idle eob value overflow
  have turn : ∀ n j, rotated (turns n) (s.reg sa.re j) (s.reg sa.im j)
      = (⟨re (n % 4) j, ovR (n % 4) j, false, none⟩, ⟨im (n % 4) j, ovI (n % 4) j, false, none⟩) :=
    fun n j => rotated_turns (re := (re · j)) (im := (im · j)) (ovR := (ovR · j)) (ovI := (ovI · j))
      (value j) (overflow j)
  refine ⟨fun known => ?_, fun known => ?_⟩ <;> rw [exec_known known]
  · exact aluPair_result idle eob fun j => turn _ j
  · exact aluPair_result idle eob fun j => by rw [neg_turns]; exact turn _ j

/-! ## The CORDIC operations (R227, R228) -/

theorem magnitude_eq (m : Int) :
    magnitude m = ⟨BitVec.ofInt 12 m, decide (m < -2048) || decide (2047 < m),
      decide (0xFFF < m) || decide (m < 0), none⟩ := rfl

/-- Settles O31. -/
theorem cordicResults : Obligations.CordicResults := by
  intro s c dst dstP sa x y m xy idle eob magnitudes rotations
  refine ⟨fun known => ?_, fun known => ?_⟩ <;> rw [exec_known known]
  · obtain ⟨t, ht, commits, lanes⟩ := issue_lanes
      (fun l => s.regTargets c dst l ∨ ∃ j, s.runs c j ∧ l = .flags .cx j) (op := magOp dst sa) idle eob rfl
      (fun i => inLane_append (inLane_regWrite _ _ _) (inLane_cons _ rfl rfl (inLane_flags _ _ _))) (by
        intro j hj w hw l hl
        cases dst <;> simp [State.magWrite, regWrite] at hw
        · rcases hw with rfl | rfl <;> cases hl
          · exact Or.inl ⟨j, hj, Or.inl rfl⟩
          · exact Or.inr ⟨j, hj, rfl⟩
        · rcases hw with rfl | rfl | rfl <;> cases hl
          · exact Or.inl ⟨j, hj, Or.inr ⟨_, rfl, rfl⟩⟩
          · exact Or.inl ⟨j, hj, Or.inl rfl⟩
          · exact Or.inr ⟨j, hj, rfl⟩)
    refine ⟨t, ht, commits, fun j hj => ⟨?_, fun k hk => ?_⟩⟩
    · rintro k rfl
      rw [(lanes j hj).reg]
      simp [State.magWrite, regWrite, Write.onReg, sat12_eq, magnitude_eq, ← magnitudes]
    · have lane := (lanes j hj).flags k
      simp only [← magnitudes, magnitude_eq] at lane
      rw [lane]
      simp only [List.mem_cons, List.not_mem_nil, or_false] at hk
      rcases hk with rfl | rfl <;>
        cases dst <;> simp [State.magWrite, regWrite, Write.onFlags, AluOut.flags_apply]
  · obtain ⟨t, ht, commits, lanes⟩ := issue_lanes
      (fun l => ∃ j, s.runs c j ∧ ∃ p, dstP = some p ∧ (l = .reg p.re j ∨ l = .reg p.im j))
      (op := rectOp dstP x y) idle eob rfl
      (fun i => inLane_append (inLane_regWrite _ _ _) (inLane_regWrite _ _ _)) (by
        intro j hj w hw l hl
        cases dstP <;> simp [regWrite, regRe, regIm] at hw
        rcases hw with rfl | rfl <;> cases hl
        · exact ⟨j, hj, _, rfl, Or.inl rfl⟩
        · exact ⟨j, hj, _, rfl, Or.inr rfl⟩)
    refine ⟨t, ht, commits, ?_⟩
    rintro j hj p rfl
    have lane := (lanes j hj).reg
    simp only [← rotations] at lane
    rw [lane, lane]
    simp [regWrite, regRe, regIm, Write.onReg, wrap12, Ne.symm (re_ne_im p)]

/-! ## MAC operations (R241 to R263) -/

theorem macReal_sum {c : Ctl} {dst : Option (Fin 8)} {rnd : Bool} {f : State → Lane → Int} {s : State}
    {sum : Lane → Int} (idle : s.Idle) (eob : c.eob = true) (hf : ∀ j, f s j = sum j) :
    ∃ t, issue c (macReal dst rnd f) s = .next t ∧ RealMac c dst rnd s t sum :=
  (funext hf : f s = sum) ▸ macReal_result idle eob

/-- Settles O32. -/
theorem macResults : Obligations.MacResults := by
  intro s c dst sa sb mode rnd acc idle eob accNone accSome
  have term : ∀ j, s.accTerm dst j = acc j := by
    intro j
    cases dst with
    | none => exact (accNone rfl j).symm
    | some k => exact (accSome k rfl j).symm
  refine ⟨fun known => ?_, fun known => ?_, fun known => ?_⟩ <;> rw [exec_known known] <;>
    refine macReal_sum idle eob fun j => ?_
  · rw [product_eq]
  · rw [product_eq, term]
  · rw [product_eq, term, Int.sub_eq_add_neg]

theorem macPair_sums {c : Ctl} {dst : Option AccPair} {rnd : Bool} {f : State → Lane → Int × Int} {s : State}
    {re im : Lane → Int} (idle : s.Idle) (eob : c.eob = true) (hf : ∀ j, f s j = (re j, im j)) :
    ∃ t, issue c (macPair dst rnd f) s = .next t ∧ PairMac c dst rnd s t re im := by
  simpa only [hf] using macPair_result (c := c) (dst := dst) (rnd := rnd) (f := f) idle eob

/-- Settles O33. -/
theorem complexMacResults : Obligations.ComplexMacResults := by
  intro s c dst x sa sb mode rnd accR accI pr pi qr qi idle eob accNone accSome full real
  have termR : ∀ j, s.accTerm (accRe dst) j = accR j := by
    intro j
    cases dst with
    | none => exact (accNone rfl j).1.symm
    | some p => exact (accSome p rfl j).1.symm
  have termI : ∀ j, s.accTerm (accIm dst) j = accI j := by
    intro j
    cases dst with
    | none => exact (accNone rfl j).2.symm
    | some p => exact (accSome p rfl j).2.symm
  have productC : ∀ j, s.productC mode sa sb j = (pr j, pi j) := fun j => by
    simp only [State.productC, product_eq, full j]
  have productRC : ∀ j, s.productRC mode x sb j = (qr j, qi j) := fun j => by
    simp only [State.productRC, product_eq, real j]
  refine ⟨fun known => ?_, fun known => ?_, fun known => ?_, fun known => ?_, fun known => ?_, fun known => ?_⟩ <;>
    rw [exec_known known] <;> refine macPair_sums idle eob fun j => ?_
  · exact productC j
  · rw [productC, State.accPlus, termR, termI]
  · rw [productC, State.accMinus, termR, termI, Int.sub_eq_add_neg, Int.sub_eq_add_neg]
  · exact productRC j
  · rw [productRC, State.accPlus, termR, termI]
  · rw [productRC, State.accMinus, termR, termI, Int.sub_eq_add_neg, Int.sub_eq_add_neg]

/-- Settles O34. -/
theorem roundAndClearResults : Obligations.RoundAndClearResults := by
  intro s c dst sa idle eob
  refine ⟨fun known => ?_, fun known => ?_⟩ <;> rw [exec_known known]
  · obtain ⟨t, ht, commits, lanes⟩ := issue_lanes
      (fun l => s.accTargets c dst l ∨ ∃ j, s.runs c j ∧ l = .ovcnt j) (op := rndaccOp dst sa) idle eob rfl
      (fun i => inLane_append (inLane_accWrite _ _ _) (inLane_cons _ rfl rfl (inLane_ovCount _ _))) (by
        intro j hj w hw l hl
        cases dst <;> simp [State.rndaccWrite, accWrite, ovCount] at hw
        · rcases hw with rfl | ⟨_, rfl⟩ <;> cases hl
          · exact Or.inl ⟨j, hj, Or.inl rfl⟩
          · exact Or.inr ⟨j, hj, rfl⟩
        · rcases hw with rfl | rfl | ⟨_, rfl⟩ <;> cases hl
          · exact Or.inl ⟨j, hj, Or.inr ⟨_, rfl, rfl⟩⟩
          · exact Or.inl ⟨j, hj, Or.inl rfl⟩
          · exact Or.inr ⟨j, hj, rfl⟩)
    refine ⟨t, ht, commits, fun j hj => ⟨?_, ?_, ?_⟩⟩
    · rintro k rfl
      rw [State.accWord, (lanes j hj).acc]
      simp [State.rndaccWrite, accWrite, Write.onAcc, foldl_ovCount_acc, Acc.word_whole, rnd32_eq]
    · rw [(lanes j hj).flags]
      cases dst <;> simp [State.rndaccWrite, accWrite, Write.onFlags, foldl_ovCount_flags, mvFlag,
        FlagUpd.apply, ov32_eq]
    · rw [(lanes j hj).ovcnt]
      cases dst <;> simp [State.rndaccWrite, accWrite, Write.onOv, foldl_ovCount_ov, ov32_eq]
  · obtain ⟨t, ht, commits, lanes⟩ := issue_lanes (s.accTargets c dst) (op := clraccOp dst) idle eob rfl
      (fun i => inLane_append (inLane_accWrite _ _ _) (inLane_flags _ _ _)) (by
        intro j hj w hw l hl
        refine ⟨j, hj, ?_⟩
        cases dst <;> simp [accWrite] at hw
        · subst hw; cases hl; exact Or.inl rfl
        · rcases hw with rfl | rfl <;> cases hl
          · exact Or.inr ⟨_, rfl, rfl⟩
          · exact Or.inl rfl)
    refine ⟨t, ht, commits, fun j hj => ⟨?_, ?_⟩⟩
    · rintro k rfl
      rw [State.accWord, (lanes j hj).acc]
      simp [accWrite, Write.onAcc, Acc.word_whole]
    · rw [(lanes j hj).flags]
      cases dst <;> simp [accWrite, Write.onFlags, mvFlag, FlagUpd.apply]

/-! ## Shifts (R271 to R281) -/

/-- Settles O35: halving after a division by 2^(m-1) is the division by 2^m. -/
theorem shiftIsFloorDivision : Obligations.ShiftIsFloorDivision := by
  intro v arith sgn m
  refine ⟨fun h1 h32 => ?_, fun rnd => ?_, fun h32 rnd => ?_⟩
  · have nonzero : m ≠ 0 := by omega
    have pow : (2 : Int) ^ m = 2 ^ (m - 1) * 2 := by rw [← pow_succ, Nat.sub_add_cancel h1]
    have half : ∀ u : Int, u / 2 ^ (m - 1) / 2 = u / 2 ^ m := fun u => by
      rw [pow, Int.ediv_ediv_of_nonneg (by positivity)]
    constructor
    · simp [sh, nonzero, Nat.not_le.mpr h32, half]
    · simp [sh, nonzero, Nat.not_le.mpr h32, ← half, Int.add_ediv_of_dvd_right]
  · simp [sh]
  · have nonzero : m ≠ 0 := by omega
    simp [sh, nonzero, h32]

theorem preShift_eq (f : Field) (v : Int) : preShift f v = v * (if f = .hi then 4096 else 1) := by
  cases f <;> simp [preShift]

/-- Settles O36. -/
theorem shiftResults : Obligations.ShiftResults := by
  intro s c dst sa n f rnd sgn tA tL idle eob ofReg ofAcc op t or hop known
  have lane : ∀ j, s.shiftSign sa j = sgn j ∧ s.ashifted sa (s.srcInt n j) f rnd j = tA j
      ∧ s.lshifted sa (s.srcInt n j) f rnd j = tL j := by
    intro j
    simp only [State.ashifted, State.lshifted, preShift_eq]
    cases sa with
    | reg k =>
      obtain ⟨hs, hA, hL⟩ := ofReg k rfl j
      exact ⟨hs.symm, by rw [hA, hs]; rfl, by rw [hL, hs]; rfl⟩
    | acc k =>
      obtain ⟨hs, hA, hL⟩ := ofAcc k rfl j
      exact ⟨hs.symm, by rw [hA, hs]; rfl, by rw [hL, hs]; rfl⟩
  have plain : ∀ (g : State → Lane → Int) (v : Lane → Int), (∀ j, g s j = v j) →
      ∃ u, issue c (shiftReal dst sa g) s = .next u ∧ Commits c (s.accTargets c dst) s u
        ∧ ∀ j, s.runs c j → (∀ k, dst = some k → u.accWord k j = BitVec.ofInt 32 (v j))
          ∧ u.flags .re j = { s.flags .re j with ss := sgn j, sv := s.tooWide (v j) } := by
    intro g v hg
    simpa only [hg, wrap32, (lane _).1] using
      shiftReal_result (c := c) (dst := dst) (a := sa) (f := g) idle eob
  have ored : ∀ (g : State → Lane → Int) (v : Lane → Int), (∀ j, g s j = v j) →
      ∃ u, issue c (shiftOr dst sa g) s = .next u ∧ Commits c (s.accTargets c dst) s u
        ∧ ∀ j, s.runs c j → (∀ k, dst = some k → u.accWord k j = BitVec.ofInt 32 (v j) ||| s.accWord k j)
          ∧ u.flags .re j = { s.flags .re j with ss := sgn j, sv := s.tooWide (v j) } := by
    intro g v hg
    simpa only [hg, wrap32, (lane _).1] using
      shiftOr_result (c := c) (dst := dst) (a := sa) (f := g) idle eob
  rw [exec_known known]
  simp only [List.mem_cons, List.not_mem_nil, or_false, Prod.mk.injEq] at hop
  rcases hop with ⟨rfl, rfl, rfl⟩ | ⟨rfl, rfl, rfl⟩ | ⟨rfl, rfl, rfl⟩ | ⟨rfl, rfl, rfl⟩
  · exact plain _ _ fun j => (lane j).2.1
  · exact plain _ _ fun j => (lane j).2.2
  · exact ored _ _ fun j => (lane j).2.1
  · exact ored _ _ fun j => (lane j).2.2

/-- Settles O37. -/
theorem complexShiftResults : Obligations.ComplexShiftResults := by
  intro s c dst sa n f rnd re im nR nI idle eob ofRegs ofAccs amountRegs amountImm op val arith hop tR tI parts known
  have source : re = shiftRe sa ∧ im = shiftIm sa := by
    cases sa with
    | regs p => exact ofRegs p rfl
    | accs p => exact ofAccs p rfl
  have amount : ∀ j, s.amountRe n j = nR j ∧ s.amountIm n j = nI j := by
    intro j
    cases n with
    | regs p => exact ⟨(amountRegs p rfl j).1.symm, (amountRegs p rfl j).2.symm⟩
    | imm v => exact ⟨(amountImm v rfl j).1.symm, (amountImm v rfl j).2.symm⟩
  obtain ⟨rfl, rfl⟩ := source
  have shifted : ∀ g : State → Lane → Int × Int, (∀ j, g s j = (tR j, tI j)) →
      ∃ u, issue c (shiftPair dst sa g) s = .next u ∧ Commits c (s.accPairTargets c dst) s u
        ∧ ∀ j, s.runs c j →
          (∀ p, dst = some p → u.accWord p.re j = BitVec.ofInt 32 (tR j)
            ∧ u.accWord p.im j = BitVec.ofInt 32 (tI j))
          ∧ u.flags .re j = { s.flags .re j with ss := s.shiftSign (shiftRe sa) j, sv := s.tooWide (tR j) }
          ∧ u.flags .im j = { s.flags .im j with ss := s.shiftSign (shiftIm sa) j, sv := s.tooWide (tI j) }
          ∧ u.flags .cx j = { s.flags .cx j with
              ss := combined s.cfg.combine.ss (s.shiftSign (shiftRe sa) j) (s.shiftSign (shiftIm sa) j)
              sv := combined s.cfg.combine.sv (s.tooWide (tR j)) (s.tooWide (tI j)) } := by
    intro g hg
    simpa only [hg, wrap32] using shiftPair_result (c := c) (dst := dst) (a := sa) (f := g) idle eob
  rw [exec_known known]
  simp only [List.mem_cons, List.not_mem_nil, or_false, Prod.mk.injEq] at hop
  rcases hop with ⟨rfl, rfl, rfl⟩ | ⟨rfl, rfl, rfl⟩
  · exact shifted _ fun j => by
      rw [(parts j).1, (parts j).2, State.ashifted, State.ashifted, preShift_eq, preShift_eq, (amount j).1, (amount j).2]
  · exact shifted _ fun j => by
      rw [(parts j).1, (parts j).2, State.lshifted, State.lshifted, preShift_eq, preShift_eq, (amount j).1, (amount j).2]

end Sys2Proof.Machine
end

section
/-!
# Hazard histories, conditions, NOP, moves and immediates (R140 to R155, R310 to R313, R370 to R373)
-/
namespace Sys2Proof.Machine

/-! ## The slot that a read returns (R140) -/

section
variable {w : Nat} {e : Hazard w} {c t : Nat}

theorem Hazard.latAt_far (h : e.tCur = some t) (hc : t + 3 ≤ c) : e.latAt c = e.cur := by
  have : 3 ≤ c - t := by omega
  simp [Hazard.latAt, Hazard.slotAt, Hazard.value, h, this]

theorem Hazard.latAt_two (h : e.tCur = some t) (hc : c = t + 2) : e.latAt c = e.bk0 := by
  subst hc
  simp [Hazard.latAt, Hazard.slotAt, Hazard.value, h]

theorem Hazard.latAt_one_bk0 (h : e.tCur = some t) (hc : c = t + 1) (h0 : ∀ t0, e.tBk0 = some t0 → t0 + 2 ≠ c) :
    e.latAt c = e.bk0 := by
  subst hc
  cases hb : e.tBk0 with
  | none => simp [Hazard.latAt, Hazard.slotAt, Hazard.value, h, hb]
  | some t0 => simp [Hazard.latAt, Hazard.slotAt, Hazard.value, h, hb, h0 t0 hb]

theorem Hazard.latAt_one_bk1 {t0 : Nat} (h : e.tCur = some t) (hc : c = t + 1) (h0 : e.tBk0 = some t0)
    (hb : t0 + 2 = c) : e.latAt c = e.bk1 := by
  subst hc
  simp [Hazard.latAt, Hazard.slotAt, Hazard.value, h, h0, hb]

theorem Hazard.staleAt_eq (h : e.tCur = some t) : e.staleAt c = decide (c - t < 3) := by
  simp [Hazard.staleAt, h]

end

/-- Settles O19: each row names the slot that `lat_at` returns. -/
theorem hazardVisibility : Obligations.HazardVisibility := by
  intro w e x y c before
  have old : ∀ t0, e.tCur = some t0 → t0 + 2 ≠ c + 1 := fun t0 h => by have := before t0 h; omega
  refine ⟨⟨Hazard.latAt_one_bk0 rfl rfl old, ?_⟩, ⟨Hazard.latAt_two rfl rfl, ?_⟩,
    fun n hn => ⟨Hazard.latAt_far rfl (by omega), ?_⟩, Hazard.latAt_one_bk1 rfl rfl rfl rfl,
    Hazard.latAt_two rfl rfl, Hazard.latAt_far rfl (by omega), Hazard.latAt_one_bk0 rfl rfl ?_,
    Hazard.latAt_two rfl rfl, Hazard.latAt_far rfl (by omega)⟩
  · rw [Hazard.staleAt_eq rfl, decide_eq_true_eq]; omega
  · rw [Hazard.staleAt_eq rfl, decide_eq_true_eq]; omega
  · rw [Hazard.staleAt_eq rfl, decide_eq_false_iff_not]; omega
  · rintro t0 ⟨⟩; omega

/-! ## Conditions (R151) -/

/-- The mask of an enabled lane is its condition's formula. -/
theorem State.maskFor_enabled {s : State} {j : Lane} (h : s.enabled j = true) (c : Cond) :
    (s.maskFor c).get j = c.holds (s.flags c.copy j) (decide (1 < (s.drawn.lat .cntr).toNat)) := by
  simp only [State.maskFor, PerLane.get_ofFn, State.active_of_enabled h, h, if_true]
  by_cases hc : c = .true
  · subst hc; rfl
  · rw [if_neg hc]

theorem State.drawn_held {s : State} (h : s.cfg.uninitRead ≠ .draw ∨ s.unwritten = []) : s.drawn = s := by
  unfold State.drawn
  split
  next draw =>
    rcases h with h | h
    · exact absurd draw h
    · exact State.drawAll_nil h
  all_goals rfl

/-- Settles O17. -/
theorem conditionFormulas : Obligations.ConditionFormulas := by
  intro s j enabled
  have mask := fun c => State.maskFor_enabled enabled c
  refine ⟨?_, fun known => ?_, mask .true, mask .umC, mask .notUmC⟩
  · intro c0 c1 c2 c3 c4 c5 c6 c7 c8 c9 c10 c11 c12 c13 k row
    simp only [List.mem_cons, List.not_mem_nil, or_false, Prod.mk.injEq, List.cons.injEq, and_true, and_assoc] at row
    rcases row with ⟨rfl, rfl, rfl, rfl, rfl, rfl, rfl, rfl, rfl, rfl, rfl, rfl, rfl, rfl, rfl⟩ |
      ⟨rfl, rfl, rfl, rfl, rfl, rfl, rfl, rfl, rfl, rfl, rfl, rfl, rfl, rfl, rfl⟩ <;>
      simp only [mask, Cond.holds, Cond.copy, and_self]
  · rw [mask, State.drawn_held known]
    rfl

/-! ## Operations alone in their bundle -/

/-- `issue_done` with the frame of the effects. -/
theorem issue_commits {c : Ctl} {op : State → PerLane Bool → OpResult} {s : State} {warns : List Warn}
    {es : List Write} (T : Loc → Prop) (hs : s.Idle) (he : c.eob = true)
    (hop : op s (s.maskFor c.cond) = .done warns es) (hT : writesIn T es) :
    ∃ t, issue c op s = .next t ∧ Commits c T s t ∧ Committed es s t
      ∧ t.log = s.log ++ (s.condWarns c.cond ++ warns).map s.event := by
  obtain ⟨t, ht, committed, log, out⟩ := issue_done hs he hop
  exact ⟨t, ht, committed.commits hs hT out, committed, log⟩

/-- An operation that reads no place does what it does in the state with every place drawn. -/
theorem checked_unread {i : Instr} {op : State → PerLane Bool → OpResult} {s : State} {mask : PerLane Bool}
    (hc : i.ctl.cond ≠ .notCe) (hs : s.sourcePlaces mask i = []) (hl : s.laterPlaces mask i = []) :
    checked i op s mask = op s.drawn mask := by
  have none : s.firstUnset [] = none := by unfold State.firstUnset; split <;> rfl
  have cond : s.condPlaces i.ctl.cond = [] := by simp [State.condPlaces, hc]
  simp only [checked, cond, hs, hl, none]
  cases op s.drawn mask <;> rfl

/-- The master lane is one lane (R53). -/
theorem State.Inv.isMaster_unique {s : State} (h : s.Inv) {i j : Lane} (hi : s.isMaster i = true)
    (hj : s.isMaster j = true) : i = j := by
  have unique : ∀ (m : BitVec 4) (i j : Lane), oneHot4 m = true → m.getLsbD i.val = true →
      m.getLsbD j.val = true → i = j := by decide
  exact unique s.master i j h.masterOne (Bool.and_eq_true_iff.mp hi).2 (Bool.and_eq_true_iff.mp hj).2

/-- Settles O18. -/
theorem nopReportsItsCondition : Obligations.NopReportsItsCondition := by
  intro s c idle eob known
  rw [exec_known known]
  obtain ⟨t, ht, commits, _⟩ := issue_commits (c := c) (op := opOf (.nop c)) (fun _ => False) idle eob rfl
    (writesIn_nil _)
  refine ⟨t, ht, commits, _, commits.out, fun j active always => ?_, rfl, fun inv j master => ?_⟩
  · simp [State.slotOut, State.maskFor, active, always]
  · have found : allLanes.find? s.isMaster = some j :=
      find_least master fun i hi hm => absurd (inv.isMaster_unique hm master) (ne_of_lt hi)
    simp [State.slotOut, State.taken, found]

theorem nop_next {s : State} (idle : s.Idle) :
    ∃ t, exec (.nop ⟨.true, true⟩) s = .next t ∧ Commits ⟨.true, true⟩ (fun _ => False) s t := by
  rw [exec_eq]
  obtain ⟨t, ht, commits, _⟩ := issue_commits (c := ⟨.true, true⟩)
    (op := checked (.nop ⟨.true, true⟩) (opOf (.nop ⟨.true, true⟩))) (fun _ => False) idle rfl
    (checked_unread (by simp [Instr.ctl]) rfl (by simp [State.laterPlaces_eq])) (writesIn_nil _)
  exact ⟨t, ht, commits⟩

/-! ## Writes to a handle (R41 to R44) -/

theorem State.mem_usedLanes (s : State) (c : Ctl) (h : Handle) (j : Lane) :
    j ∈ s.usedLanes (s.maskFor c.cond) h ↔ s.usesLane c h j := by
  have first : s.firstLane (s.maskFor c.cond) = some j ↔ s.firstLaneIs c j :=
    ⟨State.firstLane_some, State.firstLane_eq⟩
  have master : s.masterLane (s.maskFor c.cond) = some j ↔ s.masterLaneIs c j :=
    ⟨State.masterLane_some, State.masterLane_eq⟩
  cases h <;> simp [State.usedLanes, Handle.policy, State.usesLane, State.mem_execLanes, State.runs, first, master]

theorem State.drawn_usedLanes (s : State) (mask : PerLane Bool) (h : Handle) :
    s.drawn.usedLanes mask h = s.usedLanes mask h := by
  have executing : s.drawn.executing mask = s.executing mask := funext (s.drawn_executing mask)
  have master : s.drawn.isMaster = s.isMaster := by
    funext j
    simp [State.isMaster]
  simp [State.usedLanes, State.execLanes, State.firstLane, State.masterLane, executing, master]

theorem Around.nil (h : Handle) : Around h [] [] := ⟨fun _ hw => (nomatch hw), fun _ hw => (nomatch hw)⟩

theorem State.destError_iff (s : State) (mask : PerLane Bool) (h : Handle) :
    s.destError mask h = true ↔ h = .did ∧ s.execAny mask = true := by
  simp [State.destError]

theorem moveRegister_done {s : State} {mask : PerLane Bool} {dst : Handle} (src : Handle)
    (h : s.destError mask dst = false) :
    moveRegister dst src s mask = .done (if (s.usedLanes mask dst).isEmpty then [] else s.staleWarns (hazReads src))
      (s.destWrites mask dst (s.readLane src)) := by
  simp [moveRegister, h]

theorem loadImmediate_done {s : State} {mask : PerLane Bool} {dst : Handle} (v : Half)
    (h : s.destError mask dst = false) :
    loadImmediate dst v s mask = .done [] (s.destWrites mask dst fun _ => v.toInt) := by
  simp [loadImmediate, h]

/-- A write to a handle that raises no error, alone in its bundle. -/
theorem issue_dest {c : Ctl} {op : State → PerLane Bool → OpResult} {s : State} {warns : List Warn} {h : Handle}
    {v : Lane → Int} (hs : s.Idle) (he : c.eob = true)
    (hop : op s (s.maskFor c.cond) = .done warns (s.destWrites (s.maskFor c.cond) h v)) :
    ∃ t, issue c op s = .next t ∧ Commits c (s.handleTargets c h) s t ∧ Written c s t v h := by
  obtain ⟨t, ht, commits, committed, _⟩ := issue_commits (s.handleTargets c h) hs he hop (destWrites_in s _ h v)
  refine ⟨t, ht, commits, written_of_committed (Around.nil h) ?_⟩
  rwa [List.nil_append, List.append_nil]

/-- Settles O48. -/
theorem moveAndImmediateResults : Obligations.MoveAndImmediateResults := by
  intro s c dst src v idle eob notDid
  have noError : s.destError (s.maskFor c.cond) dst = false := by
    simp [State.destError, notDid]
  refine ⟨fun known => ?_, fun known => ?_⟩ <;> rw [exec_known known]
  · exact issue_dest (c := c) idle eob (moveRegister_done src noError)
  · exact issue_dest (c := c) idle eob (loadImmediate_done v noError)

/-- LDI MSTAT under TRUE, with a master lane. -/
theorem ldiMstat_next {s : State} (v : Half) {m : Lane} (idle : s.Idle) (master : s.isMaster m = true) :
    ∃ t, exec (.ldi ⟨.true, true⟩ .mstat v) s = .next t ∧ t.Idle
      ∧ t.mstat = s.mstat.push (v.setWidth 8) s.cycle ∧ t.cycle = s.cycle + 1 := by
  have found : ∃ j, s.masterLane (s.maskFor .true) = some j := by
    rw [← Option.isSome_iff_exists, State.masterLane, List.find?_isSome]
    have active : s.cfg.active m = true := (Bool.and_eq_true_iff.mp master).1
    exact ⟨m, mem_allLanes m, by simp [master, State.maskFor, active]⟩
  obtain ⟨j, hj⟩ := found
  have effects : s.drawn.destWrites (s.maskFor .true) .mstat (fun _ => v.toInt) = [.haz .mstat v] := by
    rw [State.destWrites, State.drawn_usedLanes]
    simp [State.usedLanes, Handle.policy, hj, Handle.writes, wrap16]
  have op : checked (.ldi ⟨.true, true⟩ .mstat v) (opOf (.ldi ⟨.true, true⟩ .mstat v)) s (s.maskFor .true)
      = .done [] [.haz .mstat v] := by
    rw [checked_unread (by simp [Instr.ctl]) rfl (by simp [State.laterPlaces_eq]), ← effects]
    rfl
  rw [exec_eq]
  obtain ⟨t, ht, committed, _, out⟩ := issue_done (c := ⟨.true, true⟩) idle rfl op
  refine ⟨t, ht, ⟨committed.faultRec.trans idle.noFault, committed.slot, committed.staged, committed.outs⟩, ?_,
    committed.cycle⟩
  simpa [Write.onMstat] using committed.mstat

/-- Settles O20: MSTAT was last written at the cycle of LDI, one, two and three cycles before the reads. -/
theorem modeChangeTakesThreeBundles : Obligations.ModeChangeTakesThreeBundles := by
  intro s v m idle master settled
  obtain ⟨t1, h1, idle1, mstat1, cycle1⟩ := ldiMstat_next v idle master
  obtain ⟨t2, h2, commits2⟩ := nop_next idle1
  obtain ⟨t3, h3, commits3⟩ := nop_next commits2.idle
  obtain ⟨⟨first, _⟩, ⟨second, _⟩, later, _⟩ := hazardVisibility 8 s.mstat (v.setWidth 8) 0 s.cycle settled
  refine ⟨t1, t2, t3, h1, h2, h3, fun n hn => ⟨?_, ?_, ?_⟩⟩
  · rw [State.modeBit, mstat1, cycle1, first]
  · rw [State.modeBit, commits2.same.mstat id, mstat1, commits2.cycle, cycle1, add_assoc, second]
  · have cycle3 : t3.cycle = s.cycle + 3 := by rw [commits3.cycle, commits2.cycle, cycle1]
    rw [State.modeBit, commits3.same.mstat id, commits2.same.mstat id, mstat1, cycle3, (later 3 le_rfl).1]
    simp [hn]

end Sys2Proof.Machine
end

section
/-!
# Loads, stores and the address update (20_memory.md, 45_memory_ops.md)

First what each memory operation does under `exec_any`, as an equation; then the effects it commits, location by
location; then the statements.
-/
namespace Sys2Proof.Machine

theorem Commits.mono {c : Ctl} {T U : Loc → Prop} {s t : State} (h : Commits c T s t) (hU : ∀ l, T l → U l) :
    Commits c U s t :=
  ⟨h.same.mono hU, h.cycle, h.idle, h.out, h.input, h.sstatIn⟩

/-! ## The operations as equations -/

section
variable {s : State} {mask : PerLane Bool}

theorem State.runsAny_false {c : Ctl} (h : ¬ s.runsAny c) : s.execAny (s.maskFor c.cond) = false :=
  Bool.eq_false_iff.mpr h

theorem loadWord_idle (dst : Handle) (x : Addr) (h : s.execAny mask = false) :
    loadWord dst x s mask = .done [] [] := by
  simp [loadWord, h]

theorem storeWord_idle (src : Handle) (x : Addr) (h : s.execAny mask = false) :
    storeWord src x s mask = .done [] [] := by
  simp [storeWord, h]

theorem loadPair_idle (dst : Option RPair) (x : Addr) (h : s.execAny mask = false) :
    loadPair dst x s mask = .done [] [] := by
  simp [loadPair, h]

theorem storePair_idle (src : RPair) (x : Addr) (h : s.execAny mask = false) :
    storePair src x s mask = .done [] [] := by
  simp [storePair, h]

theorem modifyOp_idle (k m : Fin 8) (h : s.execAny mask = false) : modifyOp k m s mask = .done [] [] := by
  simp [modifyOp, h]

theorem State.undefLanes_eq_nil {a : Nat} {js : List Lane} :
    s.undefLanes a js = [] ↔ ∀ j ∈ js, (s.memLane a j).isSome = true := by
  simp [State.undefLanes, Option.isSome_iff_ne_none]

/-- The warnings of a load before its post-modify step. -/
def State.loadWarns (s : State) (mask : PerLane Bool) (dst : Handle) (x : Addr) : List Warn :=
  s.staleWarns (addrReads x) ++ s.createWarns (s.effAddr x)
    ++ s.undefWarns (s.effAddr x) (s.usedLanes mask dst)

/-- A load whose lanes find a word, or draw one (R83). -/
theorem loadWord_read (dst : Handle) (x : Addr) (any : s.execAny mask = true)
    (readable : s.cfg.undefRead = .draw ∨ s.undefLanes (s.effAddr x) (s.usedLanes mask dst) = []) :
    loadWord dst x s mask =
      if s.destError mask dst then .fail (s.loadWarns mask dst x) eCombo
      else .done (s.loadWarns mask dst x ++ (s.stepLater [] x).filterMap Later.warning)
        (.memTouch (s.effAddr x) :: s.destWrites mask dst (s.loadLane (s.effAddr x) 0) ++ s.stepWrites x) := by
  simp only [loadWord, any, if_true, State.loadWarns]
  split
  next fault lanes =>
    rcases readable with draw | none
    · rw [draw] at fault; cases fault
    · rw [none] at lanes; cases lanes
  next => rfl

/-- A load of which a lane finds UNDEF, under `UNDEF_READ = fault` (R83). -/
theorem loadWord_undef {dst : Handle} {x : Addr} {j : Lane} (any : s.execAny mask = true)
    (fault : s.cfg.undefRead = .fault) (hj : j ∈ s.usedLanes mask dst)
    (undef : s.memLane (s.effAddr x) j = none) :
    ∃ ws, loadWord dst x s mask = .fail ws ⟨.fUndef, .addr (s.effAddr x)⟩ := by
  have some : s.undefLanes (s.effAddr x) (s.usedLanes mask dst) ≠ [] := by
    rw [Ne, State.undefLanes_eq_nil]
    intro h
    simpa [undef] using h j hj
  obtain ⟨i, is, lanes⟩ := List.exists_cons_of_ne_nil some
  exact ⟨_, by simp only [loadWord, any, if_true, fault, lanes]; rfl⟩

theorem oddAddr_iff (a : Nat) : oddAddr a = true ↔ a % 2 = 1 := by simp [oddAddr]

theorem pairAccess_unaligned {x : Addr} (access : List Warn → OpResult) (odd : s.effAddr x % 2 = 1)
    (uma : s.umaEn = false) : ∃ ws, s.pairAccess x access = .fail ws ⟨.eUnaligned, .addr (s.effAddr x)⟩ :=
  ⟨_, by simp only [State.pairAccess, (oddAddr_iff _).mpr odd, uma]; rfl⟩

theorem pairAccess_top {x : Addr} (access : List Warn → OpResult) (top : s.effAddr x = 0xFFFF)
    (uma : s.umaEn = true) : ∃ ws, s.pairAccess x access = .fail ws ⟨.eAddr, .addr 0x10000⟩ :=
  ⟨_, by simp only [State.pairAccess, uma, top]; rfl⟩

/-- A double-word access that is performed (R80, R291). -/
theorem pairAccess_performed {x : Addr} (access : List Warn → OpResult)
    (aligned : s.effAddr x % 2 = 1 → s.umaEn = true) (inRange : s.effAddr x + 1 ≤ 0xFFFF) :
    s.pairAccess x access
      = access (s.staleWarns (pairReads x (s.effAddr x)) ++ unalignedWarns (s.effAddr x)) := by
  have checked : (oddAddr (s.effAddr x) && !s.umaEn) = false := by
    rw [Bool.and_eq_false_iff, Bool.not_eq_false']
    by_cases odd : s.effAddr x % 2 = 1
    · exact Or.inr (aligned odd)
    · exact Or.inl (by simpa [oddAddr] using odd)
  have fits : ¬ 65536 ≤ s.effAddr x + 1 := by omega
  simp only [State.pairAccess, checked, fits, if_false, Bool.false_eq_true]

/-- The warnings of a double-word access before what it reads. -/
def State.pairWarns (s : State) (x : Addr) : List Warn :=
  s.staleWarns (pairReads x (s.effAddr x)) ++ unalignedWarns (s.effAddr x)

/-- The warnings of a double-word load up to its post-modify step. -/
def State.loadPairWarns (s : State) (mask : PerLane Bool) (x : Addr) : List Warn :=
  s.pairWarns x ++ s.createWarns (s.effAddr x) ++ s.createWarns (s.effAddr x + 1)
    ++ s.undefWarns (s.effAddr x) (s.execLanes mask) ++ s.undefWarns (s.effAddr x + 1) (s.execLanes mask)

/-- The effects of a double-word load on the pair. -/
def State.loadPairWrites (s : State) (mask : PerLane Bool) (dst : Option RPair) (a : Nat) : List Write :=
  (s.execLanes mask).flatMap fun j =>
    regWrite (regRe dst) j (wrap12 (s.loadLane a 0 j)) ++ regWrite (regIm dst) j (wrap12 (s.loadLane (a + 1) 1 j))

/-- A double-word load that is performed (R296). -/
theorem loadPair_read (dst : Option RPair) (x : Addr) (any : s.execAny mask = true)
    (aligned : s.effAddr x % 2 = 1 → s.umaEn = true) (inRange : s.effAddr x + 1 ≤ 0xFFFF)
    (first : s.cfg.undefRead = .draw ∨ s.undefLanes (s.effAddr x) (s.execLanes mask) = [])
    (second : s.cfg.undefRead = .draw ∨ s.undefLanes (s.effAddr x + 1) (s.execLanes mask) = []) :
    loadPair dst x s mask =
      .done (s.loadPairWarns mask x ++ (s.stepLater [] x).filterMap Later.warning)
        (s.umWrites mask (s.effAddr x)
          ++ .memTouch (s.effAddr x) :: .memTouch (s.effAddr x + 1)
            :: s.loadPairWrites mask dst (s.effAddr x) ++ s.stepWrites x) := by
  simp only [loadPair, any, if_true, pairAccess_performed _ aligned inRange, State.loadPairWarns, State.pairWarns,
    State.loadPairWrites]
  split
  next fault lanes =>
    rcases first with draw | none
    · rw [draw] at fault; cases fault
    · rw [none] at lanes; cases lanes
  next fault _ lanes =>
    rcases second with draw | none
    · rw [draw] at fault; cases fault
    · rw [none] at lanes; cases lanes
  next => rfl

/-- A double-word load of which a lane finds UNDEF in the first word, under `UNDEF_READ = fault`. -/
theorem loadPair_undef_first {dst : Option RPair} {x : Addr} {j : Lane} (any : s.execAny mask = true)
    (aligned : s.effAddr x % 2 = 1 → s.umaEn = true) (inRange : s.effAddr x + 1 ≤ 0xFFFF)
    (fault : s.cfg.undefRead = .fault) (hj : j ∈ s.execLanes mask) (undef : s.memLane (s.effAddr x) j = none) :
    ∃ ws, loadPair dst x s mask = .fail ws ⟨.fUndef, .addr (s.effAddr x)⟩ := by
  have some : s.undefLanes (s.effAddr x) (s.execLanes mask) ≠ [] := by
    rw [Ne, State.undefLanes_eq_nil]
    intro h
    simpa [undef] using h j hj
  obtain ⟨i, is, lanes⟩ := List.exists_cons_of_ne_nil some
  exact ⟨_, by simp only [loadPair, any, if_true, pairAccess_performed _ aligned inRange, fault, lanes]; rfl⟩

/-- The same of the second word, where the first one is read. -/
theorem loadPair_undef_second {dst : Option RPair} {x : Addr} {j : Lane} (any : s.execAny mask = true)
    (aligned : s.effAddr x % 2 = 1 → s.umaEn = true) (inRange : s.effAddr x + 1 ≤ 0xFFFF)
    (fault : s.cfg.undefRead = .fault) (first : s.undefLanes (s.effAddr x) (s.execLanes mask) = [])
    (hj : j ∈ s.execLanes mask) (undef : s.memLane (s.effAddr x + 1) j = none) :
    ∃ ws, loadPair dst x s mask = .fail ws ⟨.fUndef, .addr (s.effAddr x + 1)⟩ := by
  have some : s.undefLanes (s.effAddr x + 1) (s.execLanes mask) ≠ [] := by
    rw [Ne, State.undefLanes_eq_nil]
    intro h
    simpa [undef] using h j hj
  obtain ⟨i, is, lanes⟩ := List.exists_cons_of_ne_nil some
  exact ⟨_, by simp only [loadPair, any, if_true, pairAccess_performed _ aligned inRange, fault, first, lanes]; rfl⟩

/-- A double-word store that is performed (R297). -/
theorem storePair_performed (src : RPair) (x : Addr) (any : s.execAny mask = true)
    (aligned : s.effAddr x % 2 = 1 → s.umaEn = true) (inRange : s.effAddr x + 1 ≤ 0xFFFF) :
    storePair src x s mask =
      .done (s.pairWarns x ++ (s.pairLater mask src (s.effAddr x) ++ s.stepLater [] x).filterMap Later.warning)
        (s.umWrites mask (s.effAddr x) ++ s.storeWrites mask (s.effAddr x) (fun j => (s.reg src.re j).toInt)
          ++ s.storeWrites mask (s.effAddr x + 1) (fun j => (s.reg src.im j).toInt) ++ s.stepWrites x) := by
  simp only [storePair, any, if_true, pairAccess_performed _ aligned inRange, State.pairWarns]

end

/-! ## The effects -/

section
variable {s : State} {mask : PerLane Bool}

/-- A post-modify update after effects that are none (R85, R137). -/
theorem Committed.stepped {ws : List Write} {s t : State} {k : Fin 8} {v : Half}
    (h : Committed (ws ++ [.agu k v]) s t) (hws : ∀ w ∈ ws, w.isAgu = false) :
    t.i.get k = ⟨v, v, v, some s.cycle, some s.cycle, some s.cycle⟩ := by
  rw [h.i, aguLast_append hws (by simp [Write.isAgu]), List.foldl_append]
  simp [Write.onI, Hazard.agu]

/-- Effects that a location does not see. -/
theorem foldl_stepWrites {β : Type} (f : β → Write → β) (hf : ∀ x k v, f x (.agu k v) = x) (x : Addr) (y : β) :
    (s.stepWrites x).foldl f y = y := by
  cases x with
  | direct a => rfl
  | post k m => exact hf y k _

theorem foldl_umWrites_id {β : Type} (f : β → Write → β) (hf : ∀ x c j u, f x (.flags c j u) = x)
    (hu : ∀ x j, f x (.umInc j) = x) (a : Nat) (x : β) : (s.umWrites mask a).foldl f x = x := by
  unfold State.umWrites
  split
  · split
    · exact foldl_execLanes_id s mask _ f x fun i y => by simp [hf, hu]
    · rfl
  · rfl

theorem foldl_storeWrites_id {β : Type} (f : β → Write → β) (ht : ∀ x a, f x (.memTouch a) = x)
    (hm : ∀ x a j v, f x (.mem a j v) = x) (a : Nat) (v : Lane → Int) (x : β) :
    (s.storeWrites mask a v).foldl f x = x := by
  rw [State.storeWrites, List.foldl_cons, ht]
  exact foldl_execLanes_id s mask _ f x fun i y => by simp [hm]

/-- A store writes the executing lanes of its word (R77). -/
theorem foldl_storeWrites_mem (a a' : Nat) (v : Lane → Int) (j : Lane) (x : Option Data) :
    (s.storeWrites mask a v).foldl (Write.onMem a' j) x
      = if a = a' ∧ s.executing mask j = true then some (wrap12 (v j)) else x := by
  rw [State.storeWrites, List.foldl_cons, foldl_execLanes s mask _ (Write.onMem a' j) j]
  · by_cases ha : a = a' <;> simp [Write.onMem, ha]
  · intro i hi y
    simp [Write.onMem, hi]

theorem umWrites_odd {a : Nat} (odd : a % 2 = 1) (source : s.cfg.umSource = .unaligned) :
    s.umWrites mask a
      = (s.execLanes mask).flatMap fun j => [.flags .re j umFlag, .flags .cx j umFlag, .umInc j] := by
  simp only [State.umWrites, source, (oddAddr_iff a).mpr odd, if_true]

/-- An unaligned access sets UM in ASTAT_R and ASTAT_C (R81). -/
theorem foldl_umWrites_flags {a : Nat} (odd : a % 2 = 1) (source : s.cfg.umSource = .unaligned) {j : Lane}
    (hj : s.executing mask j = true) {c : Copy} (hc : c ≠ .im) (x : Flags) :
    (s.umWrites mask a).foldl (Write.onFlags c j) x = { x with um := true } := by
  rw [umWrites_odd odd source, foldl_execLanes s mask _ (Write.onFlags c j) j, if_pos hj]
  · cases c with
    | im => exact absurd rfl hc
    | _ => simp [Write.onFlags, umFlag, FlagUpd.apply]
  · intro i hi y
    simp [Write.onFlags, hi]

/-- An unaligned access adds 1 to UMCOUNT (R81). -/
theorem foldl_umWrites_count {a : Nat} (odd : a % 2 = 1) (source : s.cfg.umSource = .unaligned) {j : Lane}
    (hj : s.executing mask j = true) (x : Data) : (s.umWrites mask a).foldl (Write.onUm j) x = x + 1#12 := by
  rw [umWrites_odd odd source, foldl_execLanes s mask _ (Write.onUm j) j, if_pos hj]
  · simp [Write.onUm]
  · intro i hi y
    simp [Write.onUm, hi]

/-! ## Where the effects are -/

theorem stepWrites_in {T : Loc → Prop} (x : Addr) (h : ∀ k m, x = .post k m → T (.haz (.i k))) :
    writesIn T (s.stepWrites x) := by
  cases x with
  | direct a => exact writesIn_nil T
  | post k m => exact writesIn_cons (fun l hl => by cases hl; exact h k m rfl) (writesIn_nil T)

theorem storeWrites_in {T : Loc → Prop} (a : Nat) (v : Lane → Int)
    (h : ∀ j, s.executing mask j = true → T (.mem a j)) : writesIn T (s.storeWrites mask a v) :=
  writesIn_cons (fun l hl => by cases hl) <| writesIn_execLanes s mask _ fun j hj =>
    writesIn_cons (fun l hl => by cases hl; exact h j hj) (writesIn_nil T)

theorem umWrites_in {T : Loc → Prop} (a : Nat)
    (h : a % 2 = 1 → s.cfg.umSource = .unaligned → ∀ j, s.executing mask j = true →
      T (.flags .re j) ∧ T (.flags .cx j) ∧ T (.umcount j)) : writesIn T (s.umWrites mask a) := by
  unfold State.umWrites
  split
  next source =>
    split
    next odd =>
      refine writesIn_execLanes s mask _ fun j hj => ?_
      obtain ⟨re, cx, um⟩ := h ((oddAddr_iff a).mp odd) source j hj
      exact writesIn_cons (fun l hl => by cases hl; exact re)
        (writesIn_cons (fun l hl => by cases hl; exact cx)
          (writesIn_cons (fun l hl => by cases hl; exact um) (writesIn_nil T)))
    next => exact writesIn_nil T
  next => exact writesIn_nil T

/-! ## Which effects are post-modify updates -/

theorem flatMap_agu {js : List Lane} {L : Lane → List Write} (h : ∀ j, ∀ w ∈ L j, w.isAgu = false) :
    ∀ w ∈ js.flatMap L, w.isAgu = false := by
  intro w hw
  obtain ⟨j, _, hw⟩ := List.mem_flatMap.mp hw
  exact h j w hw

theorem append_agu {xs ys : List Write} (hx : ∀ w ∈ xs, w.isAgu = false) (hy : ∀ w ∈ ys, w.isAgu = false) :
    ∀ w ∈ xs ++ ys, w.isAgu = false :=
  fun w hw => (List.mem_append.mp hw).elim (hx w) (hy w)

theorem storeWrites_agu (a : Nat) (v : Lane → Int) : ∀ w ∈ s.storeWrites mask a v, w.isAgu = false :=
  List.forall_mem_cons.mpr ⟨rfl, flatMap_agu fun j => by simp [Write.isAgu]⟩

theorem umWrites_agu (a : Nat) : ∀ w ∈ s.umWrites mask a, w.isAgu = false := by
  unfold State.umWrites
  split
  · split
    · exact flatMap_agu fun j => by simp [Write.isAgu]
    · simp
  · simp

theorem regWrite_agu (dst : Option (Fin 32)) (j : Lane) (v : Data) : ∀ w ∈ regWrite dst j v, w.isAgu = false := by
  cases dst <;> simp [regWrite, Write.isAgu]

theorem loadPairWrites_agu (dst : Option RPair) (a : Nat) :
    ∀ w ∈ s.loadPairWrites mask dst a, w.isAgu = false :=
  flatMap_agu fun j => append_agu (regWrite_agu _ j _) (regWrite_agu _ j _)

end

/-! ## Addresses and modes (R35, R36, R84, R85) -/

/-- The stepped value in the words of R85. -/
theorem State.stepped_eq (s : State) (k m : Fin 8) {nv len base : Int}
    (hnv : nv = (s.lat (.i k)).toNat + (s.lat (.m m)).toInt) (hlen : len = (s.lat (.l k)).toNat)
    (hbase : base = (s.lat (.b k)).toNat) : s.stepped k m = BitVec.ofInt 16 (circular len base nv) := by
  subst hnv hlen hbase
  rfl

/-- Settles O39. -/
theorem modesAndAddresses : Obligations.ModesAndAddresses := by
  intro s k m a mode nv len base hmode hnv hlen hbase
  subst hmode
  have step := s.stepped_eq k m hnv hlen hbase
  refine ⟨⟨rfl, rfl, rfl, rfl, rfl, rfl⟩, rfl, rfl, fun plain => ?_, fun reversed => ?_, fun h => ?_, fun h hi => ?_,
    fun h lo => ?_, fun h ge lt => ?_⟩
  · simp only [State.postAddr, State.bitRev, State.modeBit, plain, Bool.false_eq_true, if_false]
  · have addr : s.postAddr k = (bitrev16 (s.lat (.i k))).toNat := by
      simp only [State.postAddr, State.bitRev, State.modeBit, reversed, if_true]
    rw [addr]
    exact ⟨(bitrev16 _).isLt, fun i hi => bitReversal _ i hi⟩
  · rw [step, circular, if_pos h]
  · rw [step, circular, if_neg h, if_pos hi]
  · have : ¬ base + len ≤ nv := by omega
    rw [step, circular, if_neg h, if_neg this, if_pos lo]
  · rw [step, circular, if_neg h, if_neg (not_le.mpr lt), if_neg (not_lt.mpr ge)]

/-! ## MODIFY (R298, R299) -/

theorem modifyOp_step {s : State} {mask : PerLane Bool} (k m : Fin 8) (any : s.execAny mask = true) :
    modifyOp k m s mask = .done (s.staleWarns [.i k, .m m, .l k, .b k]) [.agu k (s.stepped k m)] := by
  simp [modifyOp, any]

/-- Settles O40. -/
theorem modifyResult : Obligations.ModifyResult := by
  intro s c k m nv len base idle eob hnv hlen hbase known
  rw [exec_known known]
  by_cases any : s.runsAny c
  · obtain ⟨t, ht, commits, committed, _⟩ := issue_commits (c := c) (fun l => s.runsAny c ∧ l = .haz (.i k)) idle eob
      (modifyOp_step k m any) (writesIn_cons (fun l hl => by cases hl; exact ⟨any, rfl⟩) (writesIn_nil _))
    refine ⟨t, ht, commits, fun _ v h0 hi lo mid => ?_⟩
    have value : s.stepped k m = v := by
      obtain ⟨_, _, _, _, _, s0, shi, slo, smid⟩ := modesAndAddresses s k m 0 _ nv len base rfl hnv hlen hbase
      by_cases zero : len = 0
      · rw [s0 zero, h0 zero]
      · rcases lt_or_ge nv base with below | above
        · rw [slo zero below, lo zero below]
        · rcases lt_or_ge nv (base + len) with inside | beyond
          · rw [smid zero above inside, mid zero above inside]
          · rw [shi zero beyond, hi zero beyond]
    have entry : t.i.get k = ⟨v, v, v, some s.cycle, some s.cycle, some s.cycle⟩ := by
      rw [← value]
      exact Committed.stepped (ws := []) committed (by simp)
    refine ⟨entry, ?_⟩
    rw [State.lat, entry]
    generalize t.cycle = now
    unfold Hazard.latAt
    cases Hazard.slotAt _ now <;> rfl
  · obtain ⟨t, ht, commits, _⟩ := issue_commits (c := c) (fun l => s.runsAny c ∧ l = .haz (.i k)) idle eob
      (modifyOp_idle k m (State.runsAny_false any)) (writesIn_nil _)
    exact ⟨t, ht, commits, fun h => absurd h any⟩

/-! ## LD (R292, R293) -/

theorem State.readable_lanes {s : State} {c : Ctl} {dst : Handle} {a : Nat} (h : s.readable (s.usesLane c dst) a) :
    s.cfg.undefRead = .draw ∨ s.undefLanes a (s.usedLanes (s.maskFor c.cond) dst) = [] :=
  h.imp_right fun h => State.undefLanes_eq_nil.mpr fun j hj => h j ((s.mem_usedLanes c dst j).mp hj)

theorem State.loadLane_eq (s : State) (a n : Nat) : s.loadLane a n = s.loaded (Config.freeWord s.draws n) a := by
  funext j
  unfold State.loadLane State.loaded
  cases s.memLane a j <;> rfl

/-- A load that reads its word and writes a handle but DID, alone in its bundle. -/
theorem load_next {c : Ctl} {dst : Handle} {x : Addr} {s : State} (idle : s.Idle) (eob : c.eob = true)
    (notDid : dst ≠ .did) (readable : s.readable (s.usesLane c dst) (s.effAddr x)) (any : s.runsAny c) :
    ∃ t, issue c (loadWord dst x) s = .next t
      ∧ Commits c (fun l => s.handleTargets c dst l ∨ ∃ k m, x = .post k m ∧ l = .haz (.i k)) s t
      ∧ Committed ([.memTouch (s.effAddr x)]
          ++ s.destWrites (s.maskFor c.cond) dst (s.loadLane (s.effAddr x) 0) ++ s.stepWrites x) s t := by
  have noError : s.destError (s.maskFor c.cond) dst = false := by simp [State.destError, notDid]
  have op := loadWord_read dst x any (State.readable_lanes readable)
  simp only [noError, Bool.false_eq_true, if_false] at op
  obtain ⟨t, ht, commits, committed, _⟩ := issue_commits
    (fun l => s.handleTargets c dst l ∨ ∃ k m, x = .post k m ∧ l = .haz (.i k)) idle eob op <| writesIn_append
    (writesIn_cons (fun l hl => by cases hl) fun w hw l hl => Or.inl (destWrites_in s _ dst _ w hw l hl))
    (stepWrites_in x fun k m hx => Or.inr ⟨k, m, hx, rfl⟩)
  exact ⟨t, ht, commits, committed⟩

/-- The handle after a load whose post-modify step is of another register. -/
theorem load_written {c : Ctl} {dst : Handle} {x : Addr} {s t : State}
    (h : Committed ([.memTouch (s.effAddr x)]
      ++ s.destWrites (s.maskFor c.cond) dst (s.loadLane (s.effAddr x) 0) ++ s.stepWrites x) s t)
    (hx : ∀ k m, x = .post k m → dst ≠ .i k) :
    Written c s t (s.loaded (Config.freeWord s.draws 0) (s.effAddr x)) dst := by
  rw [← State.loadLane_eq]
  refine written_of_committed ⟨by simp, fun w hw => ?_⟩ h
  cases x with
  | direct a => simp [State.stepWrites] at hw
  | post k m =>
    simp only [State.stepWrites, List.mem_singleton] at hw
    exact ⟨k, _, hw, hx k m rfl⟩

/-- Settles O41. -/
theorem loadResults : Obligations.LoadResults := by
  intro s c dst addr k m idle eob notDid
  refine ⟨fun readable known => ?_, fun readable known => ?_⟩ <;> rw [exec_known known]
  · by_cases any : s.runsAny c
    · obtain ⟨t, ht, commits, committed⟩ := load_next (x := .direct addr) idle eob notDid readable any
      refine ⟨t, Config.freeWord s.draws 0, ht, commits.mono ?_, fun _ => load_written committed (by simp)⟩
      rintro l (target | ⟨k, m, hx, _⟩)
      · exact ⟨any, target⟩
      · cases hx
    · obtain ⟨t, ht, commits, _⟩ := issue_commits (c := c) (fun l => s.runsAny c ∧ s.handleTargets c dst l) idle eob
        (loadWord_idle dst (.direct addr) (State.runsAny_false any)) (writesIn_nil _)
      exact ⟨t, Config.freeWord s.draws 0, ht, commits, fun h => absurd h any⟩
  · by_cases any : s.runsAny c
    · obtain ⟨t, ht, commits, committed⟩ := load_next (x := .post k m) idle eob notDid readable any
      refine ⟨t, Config.freeWord s.draws 0, ht, commits.mono ?_, fun _ => ⟨fun other => load_written committed ?_, ?_⟩⟩
      · rintro l (target | ⟨k, m, hx, hl⟩)
        · exact ⟨any, Or.inl target⟩
        · cases hx
          exact ⟨any, Or.inr hl⟩
      · rintro k m ⟨⟩
        exact other
      · exact Committed.stepped committed
          (append_agu (by simp [Write.isAgu]) (destWrites_agu _ _ _ _))
    · obtain ⟨t, ht, commits, _⟩ := issue_commits (c := c)
        (fun l => s.runsAny c ∧ (s.handleTargets c dst l ∨ l = .haz (.i k))) idle eob
        (loadWord_idle dst (.post k m) (State.runsAny_false any)) (writesIn_nil _)
      exact ⟨t, Config.freeWord s.draws 0, ht, commits, fun h => absurd h any⟩

/-! ## ST (R294, R295) -/

theorem storeWord_performed {s : State} {mask : PerLane Bool} (src : Handle) (x : Addr) (any : s.execAny mask = true) :
    storeWord src x s mask = .done
      (s.staleWarns (addrReads x ++ hazReads src) ++ s.createWarns (s.effAddr x)
        ++ (s.stepLater (hazReads src) x).filterMap Later.warning)
      (s.storeWrites mask (s.effAddr x) (s.readLane src) ++ s.stepWrites x) := by
  simp only [storeWord, any, if_true]

/-- A store alone in its bundle: the lanes stored, and the effects on its I register. -/
theorem store_next {c : Ctl} (src : Handle) (x : Addr) {s : State} (idle : s.Idle) (eob : c.eob = true) :
    ∃ t, issue c (storeWord src x) s = .next t
      ∧ Commits c (fun l => (∃ j, s.runs c j ∧ l = .mem (s.effAddr x) j)
          ∨ (s.runsAny c ∧ ∃ k m, x = .post k m ∧ l = .haz (.i k))) s t
      ∧ (∀ j, s.runs c j → t.memLane (s.effAddr x) j = some (BitVec.ofInt 12 (s.readLane src j)))
      ∧ (s.runsAny c → ∀ k m, x = .post k m → t.i.get k = ⟨s.stepped k m, s.stepped k m, s.stepped k m,
          some s.cycle, some s.cycle, some s.cycle⟩) := by
  by_cases any : s.runsAny c
  · obtain ⟨t, ht, commits, committed, _⟩ := issue_commits
      (fun l => (∃ j, s.runs c j ∧ l = .mem (s.effAddr x) j)
          ∨ (s.runsAny c ∧ ∃ k m, x = .post k m ∧ l = .haz (.i k))) idle eob (storeWord_performed src x any)
      (writesIn_append (storeWrites_in _ _ fun j hj => Or.inl ⟨j, hj, rfl⟩)
        (stepWrites_in x fun k m hx => Or.inr ⟨any, k, m, hx, rfl⟩))
    refine ⟨t, ht, commits, fun j hj => ?_, ?_⟩
    · rw [committed.mem, List.foldl_append, foldl_storeWrites_mem, foldl_stepWrites _ fun _ _ _ => rfl,
        if_pos ⟨rfl, hj⟩]
      rfl
    · rintro _ k m rfl
      exact Committed.stepped committed (storeWrites_agu _ _)
  · obtain ⟨t, ht, commits, _⟩ := issue_commits (c := c)
      (fun l => (∃ j, s.runs c j ∧ l = .mem (s.effAddr x) j)
          ∨ (s.runsAny c ∧ ∃ k m, x = .post k m ∧ l = .haz (.i k))) idle eob
      (storeWord_idle src x (State.runsAny_false any)) (writesIn_nil _)
    exact ⟨t, ht, commits, fun j hj => absurd ((s.execAny_iff _).mpr ⟨j, hj⟩) any, fun h => absurd h any⟩

/-- Settles O43. -/
theorem storeResults : Obligations.StoreResults := by
  intro s c src addr k m idle eob
  refine ⟨fun known => ?_, fun known => ?_⟩ <;> rw [exec_known known]
  · obtain ⟨t, ht, commits, stored, _⟩ := store_next src (.direct addr) idle eob
    refine ⟨t, ht, commits.mono ?_,
      stored⟩
    rintro l (target | ⟨_, k, m, hx, _⟩)
    · exact target
    · cases hx
  · obtain ⟨t, ht, commits, stored, stepped⟩ := store_next src (.post k m) idle eob
    refine ⟨t, ht, commits.mono ?_,
      stored, fun any => stepped any k m rfl⟩
    rintro l (target | ⟨any, k, m, hx, hl⟩)
    · exact Or.inl target
    · cases hx
      exact Or.inr ⟨any, hl⟩

end Sys2Proof.Machine
end

section
/-!
# Double words and undefined words (R75, R76, R80 to R83, R291, R296, R297)
-/
namespace Sys2Proof.Machine

/-! ## W_UNALIGNED in the log (R80, R336) -/

/-- No warning is W_UNALIGNED. -/
def noUnaligned (ws : List Warn) : Prop := ∀ w ∈ ws, w.number ≠ 2

theorem noUnaligned_append {xs ys : List Warn} (hx : noUnaligned xs) (hy : noUnaligned ys) :
    noUnaligned (xs ++ ys) :=
  fun w hw => (List.mem_append.mp hw).elim (hx w) (hy w)

section
variable (s : State)

theorem noUnaligned_stale (hs : List HazReg) : noUnaligned (s.staleWarns hs) := by
  intro w hw
  obtain ⟨h, _, rfl⟩ := List.mem_map.mp hw
  simp [Warn.number]

theorem noUnaligned_cond (c : Cond) : noUnaligned (s.condWarns c) := by
  unfold State.condWarns
  split
  · exact noUnaligned_stale s _
  · simp [noUnaligned]

theorem noUnaligned_create (a : Nat) : noUnaligned (s.createWarns a) := by
  unfold State.createWarns
  split <;> simp [noUnaligned, Warn.number]

theorem noUnaligned_undef (a : Nat) (js : List Lane) : noUnaligned (s.undefWarns a js) := by
  intro w hw
  obtain ⟨j, _, rfl⟩ := List.mem_map.mp hw
  simp [Warn.number]

theorem noUnaligned_step (seen : List HazReg) (x : Addr) :
    noUnaligned ((s.stepLater seen x).filterMap Later.warning) := by
  intro w hw
  obtain ⟨y, hy, hw⟩ := List.mem_filterMap.mp hw
  obtain ⟨h, _, hy⟩ := List.mem_flatMap.mp hy
  rcases List.mem_append.mp hy with hy | hy
  · obtain ⟨v, hv, rfl⟩ := List.mem_map.mp hy
    cases hw
    exact noUnaligned_stale s _ _ hv
  · rw [List.mem_singleton.mp hy] at hw
    cases hw

theorem noUnaligned_pair (mask : PerLane Bool) (src : RPair) (a : Nat) :
    noUnaligned ((s.pairLater mask src a).filterMap Later.warning) := by
  intro w hw
  obtain ⟨y, hy, hw⟩ := List.mem_filterMap.mp hw
  simp only [State.pairLater, List.mem_append, List.mem_map] at hy
  rcases hy with ((⟨j, _, rfl⟩ | ⟨v, hv, rfl⟩) | ⟨j, _, rfl⟩) | ⟨v, hv, rfl⟩ <;> cases hw
  · exact noUnaligned_create s _ _ hv
  · exact noUnaligned_create s _ _ hv

variable {s}

theorem filter_noUnaligned {ws : List Warn} (h : noUnaligned ws) :
    (ws.map s.event).filter (fun e => e.warn.number == 2) = [] := by
  rw [List.filter_eq_nil_iff]
  intro e he
  obtain ⟨w, hw, rfl⟩ := List.mem_map.mp he
  simpa [State.event] using h w hw

/-- The only W_UNALIGNED of a double-word access is the one for its odd address. -/
theorem filter_pairWarns (c : Cond) (x : Addr) {rest : List Warn} (h : noUnaligned rest) :
    ((s.condWarns c ++ (s.pairWarns x ++ rest)).map s.event).filter (fun e => e.warn.number == 2)
      = (unalignedWarns (s.effAddr x)).map s.event := by
  have all : ((unalignedWarns (s.effAddr x)).map s.event).filter (fun e => e.warn.number == 2)
      = (unalignedWarns (s.effAddr x)).map s.event := by
    rw [List.filter_eq_self]
    intro e he
    obtain ⟨w, hw, rfl⟩ := List.mem_map.mp he
    unfold unalignedWarns at hw
    split at hw
    · rw [List.mem_singleton.mp hw]; rfl
    · cases hw
  simp only [State.pairWarns, List.map_append, List.filter_append, filter_noUnaligned (noUnaligned_cond s c),
    filter_noUnaligned (noUnaligned_stale s _), filter_noUnaligned h, all, List.nil_append, List.append_nil]

/-- The log of a double-word access, as R336 counts W_UNALIGNED. -/
theorem log_pairWarns {t : State} {c : Ctl} {x : Addr} {rest : List Warn} (idle : s.Idle) (h : noUnaligned rest)
    (log : t.log = s.log ++ (s.condWarns c.cond ++ (s.pairWarns x ++ rest)).map s.event) :
    ∃ es, t.log = s.log ++ es
      ∧ (s.runsAny c → s.effAddr x % 2 = 1 →
        (es.filter fun e => e.warn.number == 2) = [⟨.unaligned (s.effAddr x), 0, s.site, s.cycle⟩])
      ∧ (s.effAddr x % 2 = 0 → (es.filter fun e => e.warn.number == 2) = []) := by
  refine ⟨_, log, fun _ odd => ?_, fun even => ?_⟩ <;> rw [filter_pairWarns c.cond x h]
  · simp [unalignedWarns, oddAddr, odd, State.event, idle.slot]
  · simp [unalignedWarns, oddAddr, even]

end

/-! ## What a double-word access commits beside the words (R81, R85) -/

/-- The locations of UM, UMCOUNT and the stepped I register. -/
def State.sideTargets (s : State) (c : Ctl) (x : Addr) (l : Loc) : Prop :=
  (∃ j, s.runs c j ∧ s.effAddr x % 2 = 1 ∧ s.cfg.umSource = .unaligned
      ∧ (l = .flags .re j ∨ l = .flags .cx j ∨ l = .umcount j))
    ∨ (s.runsAny c ∧ ∃ k m, x = .post k m ∧ l = .haz (.i k))

/-- UM, UMCOUNT and Ik after a double-word access. -/
structure SideEffects (s t : State) (c : Ctl) (x : Addr) : Prop where
  um : ∀ j, s.runs c j → s.effAddr x % 2 = 1 → s.cfg.umSource = .unaligned →
    t.flags .re j = { s.flags .re j with um := true } ∧ t.flags .cx j = { s.flags .cx j with um := true }
      ∧ t.umcount.get j = s.umcount.get j + 1#12
  step : ∀ k m, x = .post k m →
    t.i.get k = ⟨s.stepped k m, s.stepped k m, s.stepped k m, some s.cycle, some s.cycle, some s.cycle⟩

theorem sideTargets_um {s : State} {c : Ctl} {x : Addr} {T : Loc → Prop} (h : ∀ l, s.sideTargets c x l → T l) :
    writesIn T (s.umWrites (s.maskFor c.cond) (s.effAddr x)) :=
  umWrites_in _ fun odd source j hj =>
    ⟨h _ (Or.inl ⟨j, hj, odd, source, Or.inl rfl⟩), h _ (Or.inl ⟨j, hj, odd, source, Or.inr (Or.inl rfl)⟩),
      h _ (Or.inl ⟨j, hj, odd, source, Or.inr (Or.inr rfl)⟩)⟩

theorem sideTargets_step {s : State} {c : Ctl} {x : Addr} {T : Loc → Prop} (any : s.runsAny c)
    (h : ∀ l, s.sideTargets c x l → T l) : writesIn T (s.stepWrites x) :=
  stepWrites_in x fun k m hx => h _ (Or.inr ⟨any, k, m, hx, rfl⟩)

/-- Effects on words between those on UM and those on Ik show in neither. -/
theorem Committed.sideEffects {s t : State} {c : Ctl} {x : Addr} {words : List Write}
    (h : Committed (s.umWrites (s.maskFor c.cond) (s.effAddr x) ++ words ++ s.stepWrites x) s t)
    (agu : ∀ w ∈ words, w.isAgu = false) (flags : ∀ k j y, words.foldl (Write.onFlags k j) y = y)
    (count : ∀ j y, words.foldl (Write.onUm j) y = y) : SideEffects s t c x := by
  refine ⟨fun j hj odd source => ⟨?_, ?_, ?_⟩, ?_⟩
  · rw [h.flags, List.foldl_append, List.foldl_append, foldl_umWrites_flags odd source hj (by decide), flags,
      foldl_stepWrites _ fun _ _ _ => rfl]
  · rw [h.flags, List.foldl_append, List.foldl_append, foldl_umWrites_flags odd source hj (by decide), flags,
      foldl_stepWrites _ fun _ _ _ => rfl]
  · rw [h.umcount, List.foldl_append, List.foldl_append, foldl_umWrites_count odd source hj, count,
      foldl_stepWrites _ fun _ _ _ => rfl]
  · rintro k m rfl
    exact Committed.stepped h (append_agu (umWrites_agu _) agu)

/-! ## LDD (R296) -/

section
variable {s : State} {mask : PerLane Bool} {dst : Option RPair} {a : Nat}

/-- The words of a double-word load: two entries created, and the pair. -/
def State.loadPairWords (s : State) (mask : PerLane Bool) (dst : Option RPair) (a : Nat) : List Write :=
  .memTouch a :: .memTouch (a + 1) :: s.loadPairWrites mask dst a

theorem foldl_loadPairWords_id {β : Type} (f : β → Write → β) (ht : ∀ x b, f x (.memTouch b) = x)
    (hr : ∀ x k j v, f x (.reg k j v) = x) (x : β) : (s.loadPairWords mask dst a).foldl f x = x := by
  rw [State.loadPairWords, List.foldl_cons, List.foldl_cons, ht, ht]
  refine foldl_execLanes_id s mask _ f x fun j y => ?_
  cases dst <;> simp [regWrite, regRe, regIm, hr]

/-- The pair after a double-word load: the lower word in the even register. -/
theorem foldl_loadPairWords_reg (p : RPair) {j : Lane} (hj : s.executing mask j = true) (x : Data) :
    (s.loadPairWords mask (some p) a).foldl (Write.onReg p.re j) x = wrap12 (s.loadLane a 0 j)
      ∧ (s.loadPairWords mask (some p) a).foldl (Write.onReg p.im j) x = wrap12 (s.loadLane (a + 1) 1 j) := by
  have lanes : ∀ k, (s.loadPairWords mask (some p) a).foldl (Write.onReg k j) x
      = (regWrite (regRe (some p)) j (wrap12 (s.loadLane a 0 j))
          ++ regWrite (regIm (some p)) j (wrap12 (s.loadLane (a + 1) 1 j))).foldl (Write.onReg k j) x := by
    intro k
    rw [State.loadPairWords, List.foldl_cons, List.foldl_cons, State.loadPairWrites,
      foldl_execLanes s mask _ (Write.onReg k j) j, if_pos hj]
    · rfl
    · intro i hi y
      simp [regWrite, regRe, regIm, Write.onReg, hi]
  rw [lanes, lanes]
  simp [regWrite, regRe, regIm, Write.onReg, Ne.symm (re_ne_im p)]

theorem loadPairWords_in {T : Loc → Prop}
    (h : ∀ j, s.executing mask j = true → ∀ p, dst = some p → T (.reg p.re j) ∧ T (.reg p.im j)) :
    writesIn T (s.loadPairWords mask dst a) := by
  refine writesIn_cons (fun l hl => by cases hl) (writesIn_cons (fun l hl => by cases hl) ?_)
  refine writesIn_execLanes s mask _ fun j hj => ?_
  cases dst with
  | none => exact writesIn_nil T
  | some p =>
    obtain ⟨re, im⟩ := h j hj p rfl
    exact writesIn_append (writesIn_cons (fun l hl => by cases hl; exact re) (writesIn_nil T))
      (writesIn_cons (fun l hl => by cases hl; exact im) (writesIn_nil T))

end

/-- An LDD, direct or post-modify. -/
theorem exec_ldd {s : State} {c : Ctl} {dst : Option RPair} {x : Addr} {op : Instr}
    (hd : ∀ addr, x = .direct addr → op = .lddDirect c dst addr)
    (hp : ∀ k m, x = .post k m → op = .lddPost c dst k m) (known : s.Known op) :
    exec op s = issue c (loadPair dst x) s := by
  cases x with
  | direct addr =>
    obtain rfl := hd addr rfl
    exact exec_known known
  | post k m =>
    obtain rfl := hp k m rfl
    exact exec_known known

theorem State.readable_runs {s : State} {c : Ctl} {a : Nat} (h : s.readable (s.runs c) a) :
    s.cfg.undefRead = .draw ∨ s.undefLanes a (s.execLanes (s.maskFor c.cond)) = [] :=
  h.imp_right fun h => State.undefLanes_eq_nil.mpr fun j hj => h j ((s.mem_execLanes _ j).mp hj)

/-- The locations of a double-word load. -/
def State.lddTargets (s : State) (c : Ctl) (dst : Option RPair) (x : Addr) (l : Loc) : Prop :=
  (∃ j, s.runs c j ∧ ((∃ p, dst = some p ∧ (l = .reg p.re j ∨ l = .reg p.im j))
    ∨ (s.effAddr x % 2 = 1 ∧ s.cfg.umSource = .unaligned
      ∧ (l = .flags .re j ∨ l = .flags .cx j ∨ l = .umcount j))))
  ∨ (s.runsAny c ∧ ∃ k m, x = .post k m ∧ l = .haz (.i k))

/-- Settles O44. -/
theorem doubleLoadResults : Obligations.DoubleLoadResults := by
  intro s c dst x op a idle eob ha hd hp aligned inRange first second known
  subst ha
  rw [exec_ldd hd hp known]
  have side : ∀ l, s.sideTargets c x l → s.lddTargets c dst x l := by
    rintro l (⟨j, hj, odd, source, hl⟩ | step)
    · exact Or.inl ⟨j, hj, Or.inr ⟨odd, source, hl⟩⟩
    · exact Or.inr step
  by_cases any : s.runsAny c
  · have performed := loadPair_read dst x any aligned inRange (State.readable_runs first) (State.readable_runs second)
    obtain ⟨t, ht, commits, committed, log⟩ := issue_commits (s.lddTargets c dst x) idle eob performed
      (writesIn_append (writesIn_append (sideTargets_um side) (loadPairWords_in fun j hj p hp =>
        ⟨Or.inl ⟨j, hj, Or.inl ⟨p, hp, Or.inl rfl⟩⟩, Or.inl ⟨j, hj, Or.inl ⟨p, hp, Or.inr rfl⟩⟩⟩))
        (sideTargets_step any side))
    have effects : SideEffects s t c x := committed.sideEffects
      (words := s.loadPairWords (s.maskFor c.cond) dst (s.effAddr x))
      (List.forall_mem_cons.mpr ⟨rfl, List.forall_mem_cons.mpr ⟨rfl, loadPairWrites_agu dst _⟩⟩)
      (fun k j y => foldl_loadPairWords_id _ (fun _ _ => rfl) (fun _ _ _ _ => rfl) y)
      (fun j y => foldl_loadPairWords_id _ (fun _ _ => rfl) (fun _ _ _ _ => rfl) y)
    rw [State.loadPairWarns] at log
    simp only [List.append_assoc] at log
    obtain ⟨es, hes, odd, even⟩ := log_pairWarns idle (noUnaligned_append (noUnaligned_create s _)
      (noUnaligned_append (noUnaligned_create s _) (noUnaligned_append (noUnaligned_undef s _ _)
        (noUnaligned_append (noUnaligned_undef s _ _) (noUnaligned_step s _ _))))) log
    refine ⟨t, Config.freeWord s.draws 0, Config.freeWord s.draws 1, ht, commits,
      fun j hj => ⟨?_, effects.um j hj⟩, fun _ => effects.step, es, hes, odd,
      fun h => even (h.resolve_left (not_not.mpr any))⟩
    rintro p rfl
    rw [← State.loadLane_eq, ← State.loadLane_eq]
    have fold : ∀ k, t.reg k j = (s.loadPairWords (s.maskFor c.cond) (some p) (s.effAddr x)).foldl
        (Write.onReg k j) (s.reg k j) := by
      intro k
      rw [committed.reg, List.foldl_append, List.foldl_append,
        foldl_umWrites_id _ (fun _ _ _ _ => rfl) (fun _ _ => rfl), foldl_stepWrites _ fun _ _ _ => rfl]
      rfl
    rw [fold, fold]
    exact ⟨(foldl_loadPairWords_reg p hj _).1, (foldl_loadPairWords_reg p hj _).2⟩
  · obtain ⟨t, ht, commits, _, log⟩ := issue_commits (c := c) (s.lddTargets c dst x) idle eob
      (loadPair_idle dst x (State.runsAny_false any)) (writesIn_nil _)
    rw [List.append_nil] at log
    exact ⟨t, Config.freeWord s.draws 0, Config.freeWord s.draws 1, ht, commits,
      fun j hj => absurd ((s.execAny_iff _).mpr ⟨j, hj⟩) any, fun h => absurd h any, _, log, fun h => absurd h any,
      fun _ => filter_noUnaligned (noUnaligned_cond s c.cond)⟩

/-! ## STD (R297) -/

/-- An STD, direct or post-modify. -/
theorem exec_std {s : State} {c : Ctl} {src : RPair} {x : Addr} {op : Instr}
    (hd : ∀ addr, x = .direct addr → op = .stdDirect c src addr)
    (hp : ∀ k m, x = .post k m → op = .stdPost c src k m) (known : s.Known op) :
    exec op s = issue c (storePair src x) s := by
  cases x with
  | direct addr =>
    obtain rfl := hd addr rfl
    exact exec_known known
  | post k m =>
    obtain rfl := hp k m rfl
    exact exec_known known

/-- The locations of a double-word store. -/
def State.stdTargets (s : State) (c : Ctl) (x : Addr) (l : Loc) : Prop :=
  (∃ j, s.runs c j ∧ (l = .mem (s.effAddr x) j ∨ l = .mem (s.effAddr x + 1) j
    ∨ (s.effAddr x % 2 = 1 ∧ s.cfg.umSource = .unaligned
      ∧ (l = .flags .re j ∨ l = .flags .cx j ∨ l = .umcount j))))
  ∨ (s.runsAny c ∧ ∃ k m, x = .post k m ∧ l = .haz (.i k))

/-- Settles O45. -/
theorem doubleStoreResults : Obligations.DoubleStoreResults := by
  intro s c src x op a idle eob ha hd hp aligned inRange known
  subst ha
  rw [exec_std hd hp known]
  have side : ∀ l, s.sideTargets c x l → s.stdTargets c x l := by
    rintro l (⟨j, hj, odd, source, hl⟩ | step)
    · exact Or.inl ⟨j, hj, Or.inr (Or.inr ⟨odd, source, hl⟩)⟩
    · exact Or.inr step
  by_cases any : s.runsAny c
  · have performed := storePair_performed src x any aligned inRange
    rw [List.append_assoc (s.umWrites _ _)] at performed
    obtain ⟨t, ht, commits, committed, log⟩ := issue_commits (s.stdTargets c x) idle eob performed
      (writesIn_append (writesIn_append (sideTargets_um side) (writesIn_append
        (storeWrites_in _ _ fun j hj => Or.inl ⟨j, hj, Or.inl rfl⟩)
        (storeWrites_in _ _ fun j hj => Or.inl ⟨j, hj, Or.inr (Or.inl rfl)⟩))) (sideTargets_step any side))
    have effects : SideEffects s t c x := committed.sideEffects
      (append_agu (storeWrites_agu _ _) (storeWrites_agu _ _))
      (fun k j y => by
        rw [List.foldl_append, foldl_storeWrites_id _ (fun _ _ => rfl) (fun _ _ _ _ => rfl),
          foldl_storeWrites_id _ (fun _ _ => rfl) (fun _ _ _ _ => rfl)])
      (fun j y => by
        rw [List.foldl_append, foldl_storeWrites_id _ (fun _ _ => rfl) (fun _ _ _ _ => rfl),
          foldl_storeWrites_id _ (fun _ _ => rfl) (fun _ _ _ _ => rfl)])
    rw [List.filterMap_append] at log
    obtain ⟨es, hes, odd, even⟩ := log_pairWarns idle
      (noUnaligned_append (noUnaligned_pair s _ _ _) (noUnaligned_step s _ _)) log
    have word : ∀ b j, s.runs c j → t.memLane b j =
        if s.effAddr x + 1 = b then some (s.reg src.im j)
        else if s.effAddr x = b then some (s.reg src.re j) else s.memLane b j := by
      intro b j hj
      have executing : s.executing (s.maskFor c.cond) j = true := hj
      rw [committed.mem, List.foldl_append, List.foldl_append, List.foldl_append,
        foldl_umWrites_id _ (fun _ _ _ _ => rfl) (fun _ _ => rfl), foldl_stepWrites _ fun _ _ _ => rfl,
        foldl_storeWrites_mem, foldl_storeWrites_mem]
      simp only [executing, and_true, wrap12, BitVec.ofInt_toInt]
    exact ⟨t, ht, commits, fun j hj => ⟨by simp [word _ j hj], by simp [word _ j hj], effects.um j hj⟩,
      fun _ => effects.step, es, hes, odd, fun h => even (h.resolve_left (not_not.mpr any))⟩
  · obtain ⟨t, ht, commits, _, log⟩ := issue_commits (c := c) (s.stdTargets c x) idle eob
      (storePair_idle src x (State.runsAny_false any)) (writesIn_nil _)
    rw [List.append_nil] at log
    exact ⟨t, ht, commits, fun j hj => absurd ((s.execAny_iff _).mpr ⟨j, hj⟩) any, fun h => absurd h any, _, log,
      fun h => absurd h any, fun _ => filter_noUnaligned (noUnaligned_cond s c.cond)⟩

/-! ## The errors of a double-word access (R80, R82, R291) -/

/-- An operation in a state without an error answers a next state. -/
theorem issue_next {c : Ctl} {op : State → PerLane Bool → OpResult} {s : State} (h : s.faultRec = none) :
    ∃ t, issue c op s = .next t := by
  rcases issue_cases c op s with ⟨recorded, _⟩ | ⟨_, _, _, _, raised⟩ | ⟨_, _, _, _, done⟩
  · simp [h] at recorded
  · exact ⟨_, raised⟩
  · exact ⟨_, done⟩

/-- A double-word access alone in its bundle, by its checks. -/
theorem pairErrors {c : Ctl} {op : State → PerLane Bool → OpResult} {s : State} {x : Addr}
    (idle : s.Idle) (eob : c.eob = true)
    (off : ¬ s.runsAny c → op s (s.maskFor c.cond) = .done [] [])
    (on : s.runsAny c → ∃ access, op s (s.maskFor c.cond) = s.pairAccess x access) :
    ∃ t, issue c op s = .next t
      ∧ (s.runsAny c → s.effAddr x % 2 = 1 → s.umaEn = false →
          Raises ⟨.eUnaligned, .addr (s.effAddr x)⟩ 0 s t)
      ∧ (s.runsAny c → s.effAddr x = 0xFFFF → s.umaEn = true → Raises ⟨.eAddr, .addr 0x10000⟩ 0 s t)
      ∧ (¬ s.runsAny c → Commits c (fun _ => False) s t) := by
  by_cases any : s.runsAny c
  · obtain ⟨access, accesses⟩ := on any
    cases uma : s.umaEn with
    | false =>
      by_cases odd : s.effAddr x % 2 = 1
      · obtain ⟨ws, failed⟩ := pairAccess_unaligned access odd uma
        obtain ⟨t, ht, raises, _⟩ := issue_fail idle (accesses.trans failed)
        exact ⟨t, ht, fun _ _ _ => raises, fun _ _ h => (nomatch h), fun h => absurd any h⟩
      · obtain ⟨t, ht⟩ := issue_next (c := c) (op := op) idle.noFault
        exact ⟨t, ht, fun _ h => absurd h odd, fun _ _ h => (nomatch h), fun h => absurd any h⟩
    | true =>
      by_cases top : s.effAddr x = 0xFFFF
      · obtain ⟨ws, failed⟩ := pairAccess_top access top uma
        obtain ⟨t, ht, raises, _⟩ := issue_fail idle (accesses.trans failed)
        exact ⟨t, ht, fun _ _ h => (nomatch h), fun _ _ _ => raises, fun h => absurd any h⟩
      · obtain ⟨t, ht⟩ := issue_next (c := c) (op := op) idle.noFault
        exact ⟨t, ht, fun _ _ h => (nomatch h), fun _ h => absurd h top, fun h => absurd any h⟩
  · obtain ⟨t, ht, commits, _⟩ := issue_commits (fun _ => False) idle eob (off any) (writesIn_nil _)
    exact ⟨t, ht, fun h => absurd h any, fun h => absurd h any, fun _ => commits⟩

/-- Settles O46. -/
theorem doubleWordErrors : Obligations.DoubleWordErrors := by
  intro s c dst src x op idle eob hd hp known
  have load := pairErrors (op := loadPair dst x) (x := x) idle eob (fun h => loadPair_idle dst x (State.runsAny_false h))
    fun h => ⟨_, if_pos h⟩
  have store := pairErrors (op := storePair src x) (x := x) idle eob (fun h => storePair_idle src x (State.runsAny_false h))
    fun h => ⟨_, if_pos h⟩
  rw [exec_known known]
  cases x with
  | direct addr =>
    rcases hd addr rfl with rfl | rfl
    · exact load
    · exact store
  | post k m =>
    rcases hp k m rfl with rfl | rfl
    · exact load
    · exact store

/-! ## Undefined words (R75, R76, R83) -/

/-- Under TRUE every enabled lane executes. -/
theorem State.executing_true (s : State) : s.executing (s.maskFor .true) = s.enabled := by
  funext j
  cases h : s.enabled j with
  | false => simp [State.executing, h]
  | true => simp [State.executing, h, State.maskFor, State.active_of_enabled h]

/-- The warnings of a direct load of an address without an entry. -/
theorem loadWarns_create {s : State} {mask : PerLane Bool} (k : Fin 32) (addr : Half) (idle : s.Idle)
    (absent : s.mem.find addr.toNat = none) :
    s.drawn.loadWarns mask (.r k) (.direct addr)
      = .undefCreate addr.toNat :: (s.execLanes mask).map fun j => .undefRead addr.toNat j := by
  have create : s.drawn.createWarns addr.toNat = [.undefCreate addr.toNat] := by
    simp [State.createWarns, State.hasEntry, absent, idle.staged]
  have undef : ∀ j, s.drawn.memLane addr.toNat j = none := fun j => by
    simp [State.memLane, Memory.word, absent, undefWord]
  have lanes : s.drawn.usedLanes mask (.r k) = s.execLanes mask := s.drawn_usedLanes mask (.r k)
  simp [State.loadWarns, addrReads, State.staleWarns, firstReads, State.effAddr, create, lanes, State.undefWarns,
    State.undefLanes, undef]

/-- An LD, direct or post-modify. -/
theorem exec_ld {s : State} {c : Ctl} {dst : Handle} {x : Addr} {op : Instr}
    (hd : ∀ addr, x = .direct addr → op = .ldDirect c dst addr)
    (hp : ∀ k m, x = .post k m → op = .ldPost c dst k m) (known : s.Known op) :
    exec op s = issue c (loadWord dst x) s := by
  cases x with
  | direct addr =>
    obtain rfl := hd addr rfl
    exact exec_known known
  | post k m =>
    obtain rfl := hp k m rfl
    exact exec_known known

/-- `issue_fail` without the log. -/
theorem issue_raises {c : Ctl} {op : State → PerLane Bool → OpResult} {s : State} {e : CoreErr} (idle : s.Idle)
    (h : ∃ ws, op s (s.maskFor c.cond) = .fail ws e) : ∃ t, issue c op s = .next t ∧ Raises e 0 s t := by
  obtain ⟨ws, failed⟩ := h
  obtain ⟨t, ht, raises, _⟩ := issue_fail idle failed
  exact ⟨t, ht, raises⟩

/-- Settles O42. -/
theorem loadsOfUndefinedWords : Obligations.LoadsOfUndefinedWords := by
  intro s c k dst p x ld ldd addr idle
  refine ⟨fun draw any absent => ?_, fun fault any hd hp => ⟨fun j hj undef known => ?_,
    fun j hj aligned inRange known => ⟨fun undef => ?_, fun first undef => ?_⟩⟩⟩
  · have any' : s.drawn.execAny (s.maskFor .true) = true := by
      rw [State.execAny, funext (s.drawn_executing _)]
      exact any
    have noError : s.drawn.destError (s.maskFor .true) (.r k) = false := rfl
    have op : checked (.ldDirect ⟨.true, true⟩ (.r k) addr) (opOf (.ldDirect ⟨.true, true⟩ (.r k) addr)) s
        (s.maskFor .true) = _ :=
      (checked_unread (by simp [Instr.ctl]) rfl (by simp [State.laterPlaces_eq])).trans
        (loadWord_read (.r k) (.direct addr) any' (Or.inl (by simpa using draw)))
    rw [noError, loadWarns_create k addr idle absent] at op
    simp only [Bool.false_eq_true, if_false] at op
    rw [exec_eq]
    obtain ⟨t, ht, committed, log, _⟩ := issue_done (c := ⟨.true, true⟩) idle rfl op
    refine ⟨t, ht, ?_, ?_⟩
    · rw [committed.memory]
      have regs : (s.drawn.destWrites (s.maskFor .true) (.r k) (s.drawn.loadLane addr.toNat 0)).foldl Write.onMemory (s.mem.touch addr.toNat)
            = s.mem.touch addr.toNat :=
        foldl_id (fun w hw m => by
          obtain ⟨j, _, hw⟩ := List.mem_flatMap.mp hw
          rw [List.mem_singleton.mp hw]
          rfl) _
      have touched : (s.mem.touch addr.toNat).find addr.toNat = some (PerLane.fill none) := by
        simp [Memory.touch, absent, Memory.find_put, undefWord]
      simpa [State.stepWrites, State.effAddr, Write.onMemory, regs] using touched
    · rw [log]
      simp [State.condWarns, State.stepLater, stepReads, State.event, idle.slot, State.execLanes,
        State.executing_true, Function.comp_def]
  · rw [exec_ld (fun a h => (hd a h).1) (fun k m h => (hp k m h).1) known]
    exact issue_raises idle (loadWord_undef any fault ((s.mem_usedLanes c dst j).mpr hj) undef)
  · rw [exec_ldd (fun a h => (hd a h).2) (fun k m h => (hp k m h).2) known]
    exact issue_raises idle
      (loadPair_undef_first any aligned inRange fault ((s.mem_execLanes _ j).mpr hj) undef)
  · rw [exec_ldd (fun a h => (hd a h).2) (fun k m h => (hp k m h).2) known]
    have none : s.undefLanes (s.effAddr x) (s.execLanes (s.maskFor c.cond)) = [] :=
      State.undefLanes_eq_nil.mpr fun i hi => first i ((s.mem_execLanes _ i).mp hi)
    exact issue_raises idle
      (loadPair_undef_second any aligned inRange fault none ((s.mem_execLanes _ j).mpr hj) undef)

/-! ## Writes to DID (R41) -/

/-- An operation that fails where a lane executes and has no effect where none does. -/
theorem issue_combo {c : Ctl} {op : State → PerLane Bool → OpResult} {s : State} (idle : s.Idle) (eob : c.eob = true)
    (on : s.runsAny c → ∃ ws, op s (s.maskFor c.cond) = .fail ws eCombo)
    (off : ¬ s.runsAny c → ∃ ws, op s (s.maskFor c.cond) = .done ws []) :
    ∃ t, issue c op s = .next t ∧ (s.runsAny c → Raises eCombo 0 s t)
      ∧ (¬ s.runsAny c → Commits c (fun _ => False) s t) := by
  by_cases any : s.runsAny c
  · obtain ⟨t, ht, raises⟩ := issue_raises idle (on any)
    exact ⟨t, ht, fun _ => raises, fun h => absurd any h⟩
  · obtain ⟨ws, done⟩ := off any
    obtain ⟨t, ht, commits, _⟩ := issue_commits (fun _ => False) idle eob done (writesIn_nil _)
    exact ⟨t, ht, fun h => absurd h any, fun _ => commits⟩

theorem destWrites_did (s : State) (mask : PerLane Bool) (v : Lane → Int) : s.destWrites mask .did v = [] := by
  simp [State.destWrites, Handle.writes]

/-- Settles O49. -/
theorem writesToDidRaiseCombo : Obligations.WritesToDidRaiseCombo := by
  intro s c src v addr k m op idle eob known form
  have error : ∀ {b}, s.execAny (s.maskFor c.cond) = b → s.destError (s.maskFor c.cond) .did = b := fun h => by
    simp [State.destError, h]
  have load : ∀ x, s.readable (s.runs c) (s.effAddr x) → s.runsAny c →
      ∃ ws, loadWord .did x s (s.maskFor c.cond) = .fail ws eCombo := fun x readable any =>
    ⟨_, by rw [loadWord_read .did x any (State.readable_lanes (dst := .did) readable), error any, if_pos rfl]⟩
  rw [exec_known known]
  rcases form with rfl | rfl | ⟨rfl, readable⟩ | ⟨rfl, readable⟩
  · refine issue_combo idle eob (fun any => ?_) (fun off => ?_)
    · exact ⟨_, if_pos (error any)⟩
    · have op := moveRegister_done src (error (State.runsAny_false off))
      rw [destWrites_did] at op
      exact ⟨_, op⟩
  · refine issue_combo idle eob (fun any => ?_) (fun off => ?_)
    · exact ⟨_, if_pos (error any)⟩
    · have op := loadImmediate_done v (error (State.runsAny_false off))
      rw [destWrites_did] at op
      exact ⟨_, op⟩
  · exact issue_combo idle eob (load (.direct addr) readable)
      (fun off => ⟨_, loadWord_idle _ _ (State.runsAny_false off)⟩)
  · exact issue_combo idle eob (load (.post k m) readable)
      (fun off => ⟨_, loadWord_idle _ _ (State.runsAny_false off)⟩)

end Sys2Proof.Machine
end

section
/-!
# Cross-lane transfers, the host's commands and reads (R40, R320 to R322, R338, R342, R343)
-/
namespace Sys2Proof.Machine

/-! ## XRD and XWR -/

theorem otherLane_val (act : XAct) (off : Fin 4) (j : Lane) :
    (otherLane act off j).val = (j.val + off.val) % act.n := by
  cases act <;> rfl

theorem eq_otherLane {act : XAct} {off : Fin 4} {j k : Lane} :
    k.val = (j.val + off.val) % act.n ↔ k = otherLane act off j := by
  rw [← otherLane_val, Fin.ext_iff]

theorem Params.xlaneFits_iff (p : Params) (act : XAct) (off : Fin 4) :
    p.xlaneFits act off = true ↔ act.n ≤ p.lanes.n ∧ off.val < p.lanes.n := by
  simp [Params.xlaneFits]

theorem State.mem_xwrLanes (s : State) (mask : PerLane Bool) (act : XAct) (off : Fin 4) (j : Lane) :
    j ∈ s.xwrLanes mask act off ↔ s.executing mask j = true ∧ s.enabled (otherLane act off j) = true := by
  simp [State.xwrLanes, State.mem_execLanes]

/-- Effects of which every one on `k` writes `v`. -/
theorem foldl_onReg_map (dst : Fin 32) (target : Lane → Lane) (value : Lane → Data) {k : Lane} {v : Data} :
    ∀ {js : List Lane} (x : Data), (∀ i ∈ js, target i = k → value i = v) → (x = v ∨ ∃ i ∈ js, target i = k) →
      (js.map fun i => Write.reg dst (target i) (value i)).foldl (Write.onReg dst k) x = v
  | [], _, _, h => h.elim id fun ⟨_, hi, _⟩ => nomatch hi
  | i :: js, x, same, h => by
    rw [List.map_cons, List.foldl_cons]
    refine foldl_onReg_map dst target value _ (fun i' hi' => same i' (by simp [hi'])) ?_
    by_cases hi : target i = k
    · exact Or.inl (by simp [Write.onReg, hi, same i (by simp) hi])
    · have keep : Write.onReg dst k x (.reg dst (target i) (value i)) = x := by simp [Write.onReg, hi]
      rw [keep]
      refine h.imp_right fun ⟨i', hi', ht⟩ => ⟨i', ?_, ht⟩
      exact (List.mem_cons.mp hi').resolve_left fun e => hi (e ▸ ht)

/-- Settles O52. -/
theorem crossLaneResults : Obligations.CrossLaneResults := by
  intro s c dst src act off idle eob hact hoff
  have fits : s.cfg.xlaneFits act off = true := (Params.xlaneFits_iff s.cfg act off).mpr ⟨hact, hoff⟩
  refine ⟨fun known => ?_, fun unique known => ?_⟩ <;> rw [exec_known known]
  · obtain ⟨t, ht, commits, lanes⟩ := issue_lanes (c := c) (fun l => ∃ j, s.runs c j ∧ l = .reg dst j)
      (op := xrdOp dst src act off) idle eob (if_pos fits) (fun j => inLane_cons _ rfl rfl (inLane_nil j))
      (fun j hj => writesIn_cons (fun l hl => by cases hl; exact ⟨j, hj, rfl⟩) (writesIn_nil _))
    refine ⟨t, ht, commits, fun j i hj hi => ?_⟩
    rw [(lanes j hj).reg, eq_otherLane.mp hi]
    simp [Write.onReg]
  · have distinct : sameTarget act off (s.xwrLanes (s.maskFor c.cond) act off) = false := by
      rw [sameTarget, List.any_eq_false]
      intro i hi
      rw [Bool.not_eq_true, List.any_eq_false]
      intro j hj clash
      simp only [Bool.and_eq_true, bne_iff_ne, beq_iff_eq] at clash
      obtain ⟨runsI, _⟩ := (s.mem_xwrLanes _ act off i).mp hi
      obtain ⟨runsJ, enabled⟩ := (s.mem_xwrLanes _ act off j).mp hj
      exact clash.1 (unique i j _ runsI runsJ enabled (eq_otherLane.mpr clash.2.symm) (eq_otherLane.mpr rfl))
    have op : xwrOp dst src act off s (s.maskFor c.cond) = .done []
        ((s.xwrLanes (s.maskFor c.cond) act off).map fun j => .reg dst (otherLane act off j) (s.reg src j)) := by
      simp [xwrOp, fits, distinct]
    obtain ⟨t, ht, commits, committed, _⟩ := issue_commits
      (fun l => ∃ j k, s.runs c j ∧ s.enabled k = true ∧ k.val = (j.val + off.val) % act.n ∧ l = .reg dst k)
      idle eob op (by
        intro w hw l hl
        obtain ⟨j, hj, rfl⟩ := List.mem_map.mp hw
        cases hl
        obtain ⟨runs, enabled⟩ := (s.mem_xwrLanes _ act off j).mp hj
        exact ⟨j, _, runs, enabled, otherLane_val act off j, rfl⟩)
    refine ⟨t, ht, commits, fun j k runs enabled hk => ?_⟩
    rw [committed.reg]
    refine foldl_onReg_map dst _ _ _ (fun i hi hik => ?_) (Or.inr ⟨j, ?_, (eq_otherLane.mp hk).symm⟩)
    · obtain ⟨runsI, _⟩ := (s.mem_xwrLanes _ act off i).mp hi
      rw [unique i j k runsI runs enabled (eq_otherLane.mpr hik.symm) hk]
    · exact (s.mem_xwrLanes _ act off j).mpr ⟨runs, eq_otherLane.mp hk ▸ enabled⟩

/-- Settles O53. -/
theorem crossLaneErrors : Obligations.CrossLaneErrors := by
  intro s c dst src act off idle knownR knownW
  refine ⟨fun i j k hact hoff different runsI runsJ enabled hi hj => ?_, fun outside => ⟨?_, ?_⟩⟩
  · rw [exec_known knownW]
    refine issue_raises idle ⟨[], ?_⟩
    have fits : s.cfg.xlaneFits act off = true := (Params.xlaneFits_iff s.cfg act off).mpr ⟨hact, hoff⟩
    have clash : sameTarget act off (s.xwrLanes (s.maskFor c.cond) act off) = true := by
      rw [sameTarget, List.any_eq_true]
      refine ⟨i, (s.mem_xwrLanes _ act off i).mpr ⟨runsI, eq_otherLane.mp hi ▸ enabled⟩, ?_⟩
      rw [List.any_eq_true]
      refine ⟨j, (s.mem_xwrLanes _ act off j).mpr ⟨runsJ, eq_otherLane.mp hj ▸ enabled⟩, ?_⟩
      simp [different, ← eq_otherLane.mp hi, ← eq_otherLane.mp hj]
    show xwrOp dst src act off s (s.maskFor c.cond) = _
    simp [xwrOp, fits, clash]
  all_goals
    have unfit : s.cfg.xlaneFits act off = false := by
      rw [Bool.eq_false_iff, Ne, Params.xlaneFits_iff]
      omega
  · rw [exec_known knownR]
    exact issue_raises idle ⟨[], if_neg (Bool.eq_false_iff.mp unfit)⟩
  · rw [exec_known knownW]
    refine issue_raises idle ⟨[], ?_⟩
    show xwrOp dst src act off s (s.maskFor c.cond) = _
    simp [xwrOp, unfit]

/-! ## Reads (R40, R48, R338) -/

theorem Flags.bits_getLsbD (f : Flags) :
    f.bits.getLsbD 0 = f.az ∧ f.bits.getLsbD 1 = f.an ∧ f.bits.getLsbD 2 = f.av ∧ f.bits.getLsbD 3 = f.ac
      ∧ f.bits.getLsbD 4 = f.as ∧ f.bits.getLsbD 5 = f.aq ∧ f.bits.getLsbD 6 = f.mv ∧ f.bits.getLsbD 7 = f.ss
      ∧ f.bits.getLsbD 8 = f.sv ∧ f.bits.getLsbD 9 = f.um := by
  simp only [Flags.bits, BitVec.getLsbD_append, BitVec.getLsbD_ofBool]
  simp

/-- Settles O47. -/
theorem readExtensions : Obligations.ReadExtensions := by
  intro s j
  have mstat : s.readLane .mstat j = (s.mstat.latAt s.cycle).toNat := by
    have := (s.mstat.latAt s.cycle).isLt
    simp only [State.readLane, State.lat, BitVec.toNat_setWidth]
    omega
  exact ⟨fun _ => rfl, fun _ => rfl, fun _ => ⟨rfl, rfl, rfl⟩, fun _ => ⟨rfl, rfl, rfl, rfl⟩, rfl, mstat, rfl, rfl,
    rfl, rfl, fun _ => rfl, fun k => (s.flags k j).bits_getLsbD, rfl, rfl, rfl, rfl, rfl, rfl, fun _ => rfl, rfl,
    fun _ => ⟨rfl, rfl, rfl, rfl, rfl, rfl⟩, fun _ => ⟨rfl, rfl, rfl⟩, fun _ => ⟨rfl, rfl, rfl, rfl, rfl⟩⟩

/-- Where nothing is drawn, a read answers the current value (R64, R338). -/
theorem hostRead_held {s : State} (h : s.cfg.uninitRead = .held ∨ s.unwritten = []) {r : Handle} (hr : r ≠ .noReg)
    (j : Lane) : s.hostRead r j = .ok (s.currentLane r j) := by
  have none : s.firstUnset (s.currentPlaces r j) = none := by
    unfold State.firstUnset
    split
    next fault =>
      rcases h with held | nothing
      · rw [held] at fault; cases fault
      · simp [State.unset, nothing]
    all_goals rfl
  have drawn : s.drawn = s := State.drawn_held (h.imp_left fun held => by simp [held])
  unfold State.hostRead
  split
  · exact absurd rfl hr
  · rw [none, drawn]

/-- Of a register that is not hazard-tracked the current value is the one an operation reads. -/
theorem State.currentLane_eq {s : State} {h : Handle} (hh : ∀ r : HazReg, h ≠ r.handle) (j : Lane) :
    s.currentLane h j = s.readLane h j := by
  cases h with
  | i k => exact absurd rfl (hh (.i k))
  | m k => exact absurd rfl (hh (.m k))
  | l k => exact absurd rfl (hh (.l k))
  | b k => exact absurd rfl (hh (.b k))
  | cntr => exact absurd rfl (hh .cntr)
  | mstat => exact absurd rfl (hh .mstat)
  | _ => rfl

/-- A draw leaves a specified register lane as it is. -/
theorem State.drawn_reg {s : State} {k : Fin 32} {j : Lane} (h : s.unset (.reg k j) = false) :
    s.drawn.reg k j = s.reg k j := by
  rcases s.drawn_cases with e | e <;> rw [e]
  simp only [State.reg, State.drawAll, Vector.get_ofFn, PerLane.get_ofFn, h, Bool.false_eq_true, if_false]

theorem hostRead_reg {s : State} {k : Fin 32} {j : Lane}
    (h : s.cfg.uninitRead = .held ∨ s.unset (.reg k j) = false) : s.hostRead (.r k) j = .ok (s.reg k j).toInt := by
  rcases h with held | specified
  · exact hostRead_held (Or.inl held) (by simp) j
  · have none : s.firstUnset (s.currentPlaces (.r k) j) = none := by
      unfold State.firstUnset
      split
      · simp [State.currentPlaces, hazOf, State.handlePlaces, specified]
      all_goals rfl
    simp only [State.hostRead, none, State.currentLane, State.readLane, State.drawn_reg specified]

theorem hostEvaluate_held {s : State} (h : s.cfg.uninitRead = .held ∨ s.unwritten = []) (c : Cond) :
    s.hostEvaluate c = .ok (s.maskFor c) := by
  have none : s.firstUnset (s.condPlaces c) = none := by
    unfold State.firstUnset
    split
    next fault =>
      rcases h with held | nothing
      · rw [held] at fault; cases fault
      · simp [State.unset, nothing]
    all_goals rfl
  simp only [State.hostEvaluate, none]

theorem committed_get (v : Vector (Hazard 16) 8) (k : Fin 8) : (committed v).get k = (v.get k).cur :=
  Vector.get_map v _ k

/-- Settles O51. -/
theorem hostReads : Obligations.HostReads := by
  intro s j
  refine ⟨rfl, fun k held => ?_, fun k h => hostRead_reg h, fun k fault unset => ?_, rfl, rfl, rfl, rfl, rfl,
    fun _ => rfl, fun _ => rfl, fun k => ⟨committed_get _ k, committed_get _ k, committed_get _ k, committed_get _ k⟩,
    rfl, rfl, rfl, rfl, rfl, rfl, rfl, fun _ => rfl, rfl, rfl, rfl, rfl, rfl, rfl, rfl, fun _ => rfl⟩
  · have read := fun r hr => hostRead_held held (r := r) hr j
    exact ⟨read _ (by simp), read _ (by simp), read _ (by simp), read _ (by simp), read _ (by simp), read _ (by simp),
      fun h hn hh => by rw [read h hn, State.currentLane_eq hh], hostEvaluate_held held⟩
  · have found : s.firstUnset (s.currentPlaces (.r k) j) = some (.reg k j) := by
      simp [State.firstUnset, fault, State.currentPlaces, hazOf, State.handlePlaces, unset]
    exact ⟨_, by simp only [State.hostRead, found]; rfl⟩

end Sys2Proof.Machine
end

section
/-!
# The host's commands (R38, R78, R342, R343, R361) and the words of the opcode map (R110)
-/
namespace Sys2Proof.Machine

/-! ## A write between bundles -/

section
variable {w : Nat} {e : Hazard w} {c : Nat}

theorem Hazard.latAt_settled (h : e.settled c) : e.latAt c = e.cur := by
  cases ht : e.tCur with
  | none => simp [Hazard.latAt, Hazard.slotAt, Hazard.value, ht]
  | some t => exact Hazard.latAt_far ht (h t ht)

/-- A write at the cycle of the read shows the value before it (R140, d = 0). -/
theorem Hazard.latAt_push (h : e.settled c) (x : BitVec w) : (e.push x c).latAt c = e.cur := by
  cases ht : e.tCur with
  | none => simp [Hazard.latAt, Hazard.slotAt, Hazard.value, Hazard.push, ht]
  | some t =>
    have : ¬ t + 2 = c := by have := h t ht; omega
    simp [Hazard.latAt, Hazard.slotAt, Hazard.value, Hazard.push, ht, this]

/-- A settled entry after no write or one in this cycle. -/
theorem Hazard.latAt_written {f : Hazard w} (h : e.settled c) (hf : f = e ∨ ∃ x, f = e.push x c) :
    f.latAt c = e.cur := by
  rcases hf with rfl | ⟨x, rfl⟩
  · exact Hazard.latAt_settled h
  · exact Hazard.latAt_push h x

end

/-- A write by the policy of one lane is none, or the write of that lane (R43). -/
theorem destWrites_one (s : State) (mask : PerLane Bool) {h : Handle} (hp : h.policy ≠ .lanes) (v : Lane → Int) :
    s.destWrites mask h v = [] ∨ ∃ j, s.destWrites mask h v = h.writes j (v j) := by
  unfold State.destWrites State.usedLanes
  cases hpol : h.policy with
  | lanes => exact absurd hpol hp
  | master =>
    cases s.masterLane mask with
    | none => exact Or.inl rfl
    | some j => exact Or.inr ⟨j, by simp⟩
  | first =>
    cases s.firstLane mask with
    | none => exact Or.inl rfl
    | some j => exact Or.inr ⟨j, by simp⟩
  | nothing => exact Or.inl rfl

/-- The state after effects, with the clock and the bundle as a commit leaves them. -/
def State.committedTo (s : State) (ws : List Write) : State :=
  { s.applyAll ws with cycle := s.cycle + 1, slot := 0, staged := [], outs := [] }

theorem State.committedTo_committed (s : State) {ws : List Write} (agu : aguLast ws = ws) :
    Committed ws s (s.committedTo ws) where
  reg := s.applyAll_reg ws
  acc := s.applyAll_accLane ws
  flags c j := by rw [← s.applyAll_flags ws c j]; cases c <;> rfl
  umcount := s.applyAll_umcount ws
  ovcnt := s.applyAll_ovcnt ws
  i := agu.symm ▸ s.applyAll_i ws
  m := s.applyAll_m ws
  l := s.applyAll_l ws
  b := s.applyAll_b ws
  cntr := s.applyAll_cntr ws
  mstat := s.applyAll_mstat ws
  ctl c := by rw [← s.applyAll_ctl ws c]; cases c <;> rfl
  en := s.applyAll_en ws
  master := s.applyAll_master ws
  mem := s.applyAll_memLane ws
  memory := s.applyAll_mem ws
  unwritten := agu.symm ▸ s.applyAll_unwritten ws
  same T hT := (s.applyAll_same ws T hT).trans
    (SameExcept.mono (fun _ h => h.elim) (sameReads.same (by simp [sameReads, State.committedTo])))
  cfg := (s.applyAll_book ws).cfg
  cycle := rfl
  slot := rfl
  staged := rfl
  outs := rfl
  input := (s.applyAll_book ws).input
  site := (s.applyAll_book ws).site
  sstatIn := (s.applyAll_book ws).sstatIn
  faultRec := (s.applyAll_book ws).faultRec

/-- What a handle holds after its effects have been applied: a commit adds nothing that a handle reads. -/
theorem written_of_applyAll (s : State) (mask : PerLane Bool) (h : Handle) (v : Lane → Int) :
    WrittenUnder mask s (s.applyAll (s.destWrites mask h v)) v h := by
  have agu : aguLast (s.destWrites mask h v) = s.destWrites mask h v := by
    have := (Around.nil h).aguLast (s := s) (mask := mask) v
    rwa [List.nil_append, List.append_nil] at this
  have written : WrittenUnder mask s (s.committedTo (s.destWrites mask h v)) v h := by
    refine written_of_committed (Around.nil h) ?_
    rw [List.nil_append, List.append_nil]
    exact s.committedTo_committed agu
  cases h with
  | astat k => cases k <;> exact written
  | _ => exact written

/-- One write of Ik, Mm, Lk, Bk, CNTR or MSTAT between bundles. -/
theorem hostWrite_lat (s : State) (mask : PerLane Bool) (v : Lane → Int) {h : Handle} {t : State}
    (ht : t = s.applyAll (s.destWrites mask h v)) :
    (∀ k, (h = .i k → (s.i.get k).settled s.cycle → t.lat (.i k) = (s.i.get k).cur)
      ∧ (h = .m k → (s.m.get k).settled s.cycle → t.lat (.m k) = (s.m.get k).cur)
      ∧ (h = .l k → (s.l.get k).settled s.cycle → t.lat (.l k) = (s.l.get k).cur)
      ∧ (h = .b k → (s.b.get k).settled s.cycle → t.lat (.b k) = (s.b.get k).cur))
    ∧ (h = .cntr → s.cntr.settled s.cycle → t.lat .cntr = s.cntr.cur)
    ∧ (h = .mstat → s.mstat.settled s.cycle → t.mstat.latAt t.cycle = s.mstat.cur) := by
  have cycle : t.cycle = s.cycle := ht ▸ (s.applyAll_book _).cycle
  have one := destWrites_one s mask (h := h)
  refine ⟨fun k => ⟨?_, ?_, ?_, ?_⟩, ?_, ?_⟩
  all_goals
    rintro rfl settled
    simp only [State.lat, cycle]
    refine Hazard.latAt_written settled ?_
    rw [ht]
  · rw [State.applyAll_i]
    rcases one (by simp [Handle.policy]) v with h | ⟨j, h⟩
    · exact Or.inl (by simp [h])
    · exact Or.inr ⟨wrap16 (v j), by simp [h, Handle.writes, Write.onI]⟩
  · rw [State.applyAll_m]
    rcases one (by simp [Handle.policy]) v with h | ⟨j, h⟩
    · exact Or.inl (by simp [h])
    · exact Or.inr ⟨wrap16 (v j), by simp [h, Handle.writes, Write.onM]⟩
  · rw [State.applyAll_l]
    rcases one (by simp [Handle.policy]) v with h | ⟨j, h⟩
    · exact Or.inl (by simp [h])
    · exact Or.inr ⟨wrap16 (v j), by simp [h, Handle.writes, Write.onL]⟩
  · rw [State.applyAll_b]
    rcases one (by simp [Handle.policy]) v with h | ⟨j, h⟩
    · exact Or.inl (by simp [h])
    · exact Or.inr ⟨wrap16 (v j), by simp [h, Handle.writes, Write.onB]⟩
  · rw [State.applyAll_cntr]
    rcases one (by simp [Handle.policy]) v with h | ⟨j, h⟩
    · exact Or.inl (by simp [h])
    · exact Or.inr ⟨wrap16 (v j), by simp [h, Handle.writes, Write.onCntr]⟩
  · rw [State.applyAll_mstat]
    rcases one (by simp [Handle.policy]) v with h | ⟨j, h⟩
    · exact Or.inl (by simp [h])
    · exact Or.inr ⟨(wrap16 (v j)).setWidth 8, by simp [h, Handle.writes, Write.onMstat]⟩

/-- What `set_irptl` changes (R342). -/
theorem State.hostSetIrptl_same (s : State) (v : Half) :
    SameExcept (fun l => l = .ctl .irptl) s (s.hostSetIrptl v) where
  reg _ _ _ := rfl
  acc _ _ _ := rfl
  flags c _ _ := by cases c <;> rfl
  umcount _ _ := rfl
  ovcnt _ _ := rfl
  i _ _ := rfl
  m _ _ := rfl
  l _ _ := rfl
  b _ _ := rfl
  cntr _ := rfl
  mstat _ := rfl
  ctl c h := by
    cases c with
    | irptl => exact absurd rfl h
    | _ => rfl
  en _ := rfl
  master _ := rfl
  mem _ _ _ := rfl
  cfg := rfl
  unset _ _ := rfl

/-- Effects on the lanes `js` of word `a`. -/
theorem foldl_onMem_map (a : Nat) (v : Lane → Data) {j : Lane} :
    ∀ {js : List Lane} (x : Option Data), (x = some (v j) ∨ j ∈ js) →
      (js.map fun i => Write.mem a i (v i)).foldl (Write.onMem a j) x = some (v j)
  | [], _, h => h.elim id (fun hj => nomatch hj)
  | i :: js, x, h => by
    rw [List.map_cons, List.foldl_cons]
    refine foldl_onMem_map a v _ ?_
    by_cases hi : i = j
    · exact Or.inl (by simp [Write.onMem, hi])
    · have keep : Write.onMem a j x (.mem a i (v i)) = x := by simp [Write.onMem, hi]
      rw [keep]
      exact h.imp_right fun hj => (List.mem_cons.mp hj).resolve_left fun e => hi e.symm

/-- Settles O50. -/
theorem hostCommands : Obligations.HostCommands := by
  intro s v mask w a d rest
  have taken := s.withInput_reads rest
  refine ⟨fun h hq notDid => ?_, fun hq => ?_, fun hq => ?_, fun hq => ?_, fun hq => ?_⟩ <;> rw [step_cons hq]
  · have noError : (s.withInput rest).destError mask h = false := by simp [State.destError, notDid]
    have ht : (s.withInput rest).hostWrite h v mask
        = (s.withInput rest).applyAll ((s.withInput rest).destWrites mask h v.get) := by
      simp [State.hostWrite, noError]
    have book := (s.withInput rest).applyAll_book ((s.withInput rest).destWrites mask h v.get)
    refine ⟨_, rfl, ?_, ?_, ?_, ?_, ?_, ?_, hostWrite_lat (s.withInput rest) mask v.get ht⟩ <;> rw [ht]
    · exact (taken.same.mono fun _ h => h.elim).trans (State.applyAll_same _ _ _ (destWrites_in s mask h v.get))
    · exact written_of_applyAll (s.withInput rest) mask h v.get
    · exact book.cycle
    · exact book.faultRec
    · exact book.log
    · exact book.input
  · have error : (s.withInput rest).destError mask .did = s.execAny mask := rfl
    cases any : s.execAny mask with
    | true =>
      have ht : (s.withInput rest).hostWrite .did v mask = (s.withInput rest).raiseAt 0 eCombo :=
        if_pos (error.trans any)
      refine ⟨_, rfl, ?_⟩
      rw [ht]
      refine ⟨(taken.trans (State.raiseAt_reads _ _ _)).same, rfl, rfl, rfl, fun _ none => ?_, fun h => ?_⟩
      · simp [none]
      · cases hf : s.faultRec with
        | none => simp [hf] at h
        | some f => simp [hf]
    | false =>
      have ht : (s.withInput rest).hostWrite .did v mask = s.withInput rest := by
        simp [State.hostWrite, error, any, destWrites_did]
      refine ⟨_, rfl, ?_⟩
      rw [ht]
      exact ⟨taken.same, rfl, rfl, rfl, fun h => (nomatch h), fun _ => rfl⟩
  · exact ⟨_, rfl, (taken.same.mono fun _ h => h.elim).trans (State.hostSetIrptl_same _ w), rfl, rfl, rfl, rfl, rfl⟩
  · have warned := taken.trans (State.warn_reads _ ((s.withInput rest).createWarns a.toNat))
    have lanes : ∀ j, j ∈ allLanes.filter (fun j => s.cfg.active j && mask.get j)
        ↔ s.cfg.active j = true ∧ mask.get j = true := by simp [mem_allLanes]
    have book := (((s.withInput rest).warn ((s.withInput rest).createWarns a.toNat)).applyAll_book
      (.memTouch a.toNat
      :: ((allLanes.filter fun j => s.cfg.active j && mask.get j).map fun j => .mem a.toNat j (d.get j))))
    refine ⟨_, rfl, ?_, fun j active named => ?_, book.cycle, book.faultRec, book.input⟩
    · refine (warned.same.mono fun _ h => h.elim).trans (State.applyAll_same _ _ _ ?_)
      refine writesIn_cons (fun l hl => by cases hl) fun w hw l hl => ?_
      obtain ⟨j, hj, rfl⟩ := List.mem_map.mp hw
      cases hl
      obtain ⟨active, named⟩ := (lanes j).mp hj
      exact ⟨j, active, named, rfl⟩
    · exact ((State.applyAll_memLane _ _ _ _).trans
        (foldl_onMem_map a.toNat d.get _ (Or.inr ((lanes j).mpr ⟨active, named⟩))))
  · exact ⟨_, rfl, sameReads.same (by simp [sameReads, State.hostReset]), rfl, rfl, rfl, rfl, rfl⟩

end Sys2Proof.Machine

namespace Sys2Proof

/-- Settles O1. -/
theorem specWordsDecode : Obligations.SpecWordsDecode := by
  refine ⟨by decide, by decide, by decide, by decide, by decide, by decide, by decide, by decide, by decide, by decide⟩

end Sys2Proof
end

section
/-!
# Bundles of two operations (R130, R131, R137)

The first operation leaves the state as it is, but for the bookkeeping of the bundle; the second one runs there and
ends the bundle, which commits both effects in slot order or raises E_COMBO where they conflict.
-/
namespace Sys2Proof.Machine

/-! ## The state between the two operations -/

/-- `s` with the effects `es` of slot 0 staged, and the bookkeeping of an operation. -/
def State.pending (s : State) (log : List Event) (outs : List SlotOut) (draws : Nat) (es : List Write) : State :=
  { s with log := log, slot := 1, staged := [es], outs := outs, draws := draws }

/-- The first operation of a bundle stages its effects. -/
theorem issue_pending {c : Ctl} {op : State → PerLane Bool → OpResult} {s : State} {warns : List Warn}
    {es : List Write} (idle : s.Idle) (open_ : c.eob = false) (hop : op s (s.maskFor c.cond) = .done warns es) :
    ∃ log outs draws, issue c op s = .next (s.pending log outs draws es) := by
  refine ⟨(s.warn (s.condWarns c.cond ++ warns)).log, [s.slotOut (s.maskFor c.cond)], s.draws + 1, ?_⟩
  simp [issue, idle.noFault, hop, open_, State.stage, State.warn, State.pending, idle.slot, idle.staged, idle.outs]

section
variable (s : State) (log : List Event) (outs : List SlotOut) (draws : Nat) (es : List Write)

theorem State.pending_reads : sameReads s (s.pending log outs draws es) := by
  simp [sameReads, State.pending]

theorem State.pending_bitLanes (b : Src) (js : List Lane) :
    (s.pending log outs draws es).bitLanes b js = s.bitLanes b js := by
  have index : (s.pending log outs draws es).srcIndex b = s.srcIndex b := rfl
  induction js with
  | nil => rfl
  | cons j js ih => simp only [State.bitLanes, index, ih]

end

/-! ## Masks and reads there -/

theorem State.Known.nothing_drawn {s : State} {i : Instr} (h : s.Known i) :
    s.cfg.uninitRead ≠ .draw ∨ s.unwritten = [] := by
  rcases h with held | nothing | ⟨fault, _⟩
  · exact Or.inl (by simp [held])
  · exact Or.inr nothing
  · exact Or.inl (by simp [fault])

/-- Which lanes execute does not depend on the values drawn for disabled lanes (R133, R153). -/
theorem executing_maskFor {s u : State} (reads : sameReads s u) (cycle : u.cycle = s.cycle)
    (h : s.cfg.uninitRead ≠ .draw ∨ s.unwritten = []) (c : Cond) :
    u.executing (u.maskFor c) = s.executing (s.maskFor c) := by
  have drawn : s.drawn = s := State.drawn_held h
  have drawnU : u.drawn = u := State.drawn_held (by
    rcases h with h | h
    · exact Or.inl (reads.same.cfg ▸ h)
    · exact Or.inr (by
        obtain ⟨_, _, _, _, _, _, _, _, _, _, _, _, _, _, _, _, _, _, _, _, _, _, _, _, hun⟩ := reads
        rw [hun, h]))
  have cntr : u.lat .cntr = s.lat .cntr := by
    simp only [State.lat, reads.same.cntr id, cycle]
  funext j
  unfold State.executing
  rw [reads.enabled j]
  cases enabled : s.enabled j with
  | false => rfl
  | true =>
    rw [State.maskFor_enabled ((reads.enabled j).trans enabled), State.maskFor_enabled enabled, drawn, drawnU, cntr,
      reads.same.flags c.copy j id]

section
variable (s : State) {m m' : PerLane Bool} (h : s.executing m' = s.executing m)
include h

theorem State.execLanes_mask : s.execLanes m' = s.execLanes m := by simp only [State.execLanes, h]

theorem State.execAny_mask : s.execAny m' = s.execAny m := by simp only [State.execAny, h]

theorem State.usedLanes_mask {r : Handle} (notMaster : r.policy ≠ .master) : s.usedLanes m' r = s.usedLanes m r := by
  unfold State.usedLanes
  cases hp : r.policy with
  | lanes => exact s.execLanes_mask h
  | first => simp only [State.firstLane, h]
  | nothing => rfl
  | master => exact absurd hp notMaster

theorem State.destWrites_mask {r : Handle} (notMaster : r.policy ≠ .master) (v : Lane → Int) :
    s.destWrites m' r v = s.destWrites m r v := by
  simp only [State.destWrites, s.usedLanes_mask h notMaster]

/-- The places an operation reads depend on which lanes execute, except for a move into a register of the master
lane. -/
theorem State.sourcePlaces_mask (i : Instr) (notMaster : ∀ c dst src, i = .mov c dst src → dst.policy ≠ .master) :
    s.sourcePlaces m' i = s.sourcePlaces m i := by
  cases i with
  | mov c dst src => simp only [State.sourcePlaces, s.usedLanes_mask h (notMaster c dst src rfl)]
  | xwr c dst src act off => simp only [State.sourcePlaces, State.xwrLanes, s.execLanes_mask h]
  | _ => simp only [State.sourcePlaces, State.scalarPlaces, s.execLanes_mask h, s.execAny_mask h]

theorem State.laterPlaces_mask (i : Instr) : s.laterPlaces m' i = s.laterPlaces m i := by
  simp only [State.laterPlaces_eq, s.execLanes_mask h, s.execAny_mask h]

end

/-- What is known of an operation in the state of the bundle is known when its slot comes. -/
theorem State.Known.pending {s : State} {i : Instr} (known : s.Known i)
    (notMaster : ∀ c dst src, i = .mov c dst src → dst.policy ≠ .master) (log : List Event) (outs : List SlotOut)
    (draws : Nat) (es : List Write) : (s.pending log outs draws es).Known i := by
  rcases id known with held | nothing | ⟨fault, specified⟩
  · exact Or.inl held
  · exact Or.inr (Or.inl nothing)
  · refine Or.inr (Or.inr ⟨fault, fun p hp => specified p ?_⟩)
    have executing := executing_maskFor (s.pending_reads log outs draws es) rfl known.nothing_drawn i.ctl.cond
    have places : (s.pending log outs draws es).placesRead i
        = s.condPlaces i.ctl.cond ++ s.sourcePlaces ((s.pending log outs draws es).maskFor i.ctl.cond) i
          ++ s.laterPlaces ((s.pending log outs draws es).maskFor i.ctl.cond) i := by
      cases i with
      | tstbit | setbit | clrbit | tglbit =>
        simp only [State.placesRead, State.sourcePlaces, State.pending_bitLanes]
        rfl
      | stdDirect | stdPost =>
        simp only [State.placesRead, State.laterPlaces_eq]
        rfl
      | _ => rfl
    rwa [places, s.sourcePlaces_mask executing i notMaster, s.laterPlaces_mask executing] at hp

/-! ## The end of the bundle -/

/-- What `Committed` says of a state, it says of one that reads the same. -/
theorem Committed.rebase {ws : List Write} {s u t : State} (h : Committed ws u t) (reads : sameReads s u)
    (cycle : u.cycle = s.cycle) (input : u.input = s.input) (site : u.site = s.site) (sstatIn : u.sstatIn = s.sstatIn)
    (faultRec : u.faultRec = s.faultRec) : Committed ws s t where
  reg k j := reads.same.reg k j id ▸ h.reg k j
  acc n j := reads.same.acc n j id ▸ h.acc n j
  flags c j := reads.same.flags c j id ▸ h.flags c j
  umcount j := reads.same.umcount j id ▸ h.umcount j
  ovcnt j := reads.same.ovcnt j id ▸ h.ovcnt j
  i k := cycle ▸ reads.same.i k id ▸ h.i k
  m k := cycle ▸ reads.same.m k id ▸ h.m k
  l k := cycle ▸ reads.same.l k id ▸ h.l k
  b k := cycle ▸ reads.same.b k id ▸ h.b k
  cntr := cycle ▸ reads.same.cntr id ▸ h.cntr
  mstat := cycle ▸ reads.same.mstat id ▸ h.mstat
  ctl c := reads.same.ctl c id ▸ h.ctl c
  en := reads.same.cfg ▸ reads.same.en id ▸ h.en
  master := reads.same.cfg ▸ reads.same.master id ▸ h.master
  mem a j := reads.same.mem a j id ▸ h.mem a j
  memory := by
    obtain ⟨_, _, _, _, _, _, _, _, _, _, _, _, _, _, _, _, _, _, _, _, _, _, hmem, _, _⟩ := reads
    exact hmem ▸ h.memory
  unwritten := by
    obtain ⟨_, _, _, _, _, _, _, _, _, _, _, _, _, _, _, _, _, _, _, _, _, _, _, _, hun⟩ := reads
    exact hun ▸ h.unwritten
  same T hT := (reads.same.mono fun _ h => h.elim).trans (h.same T hT)
  cfg := h.cfg.trans reads.same.cfg
  cycle := h.cycle.trans (by rw [cycle])
  slot := h.slot
  staged := h.staged
  outs := h.outs
  input := h.input.trans input
  site := h.site.trans site
  sstatIn := h.sstatIn.trans sstatIn
  faultRec := h.faultRec.trans faultRec

/-- The second and last operation of a bundle: the bundle raises E_COMBO in its slot where the effects conflict,
and commits them all otherwise (R137). -/
theorem issue_last {c : Ctl} {op : State → PerLane Bool → OpResult} {s u : State} {log : List Event}
    {outs : List SlotOut} {draws : Nat} {es es' : List Write} {warns : List Warn} (idle : s.Idle) (eob : c.eob = true)
    (hu : u = s.pending log outs draws es) (hop : op u (u.maskFor c.cond) = .done warns es') :
    ∃ t, issue c op u = .next t ∧ (clash es es' = true → Raises eCombo 1 s t)
      ∧ (clash es es' = false → Committed (es ++ es') s t) := by
  have noFault : u.faultRec = none := hu ▸ idle.noFault
  generalize hv : (u.warn (u.condWarns c.cond ++ warns)).stage (u.slotOut (u.maskFor c.cond)) es' = v
  have next : issue c op u = .next v.close := by simp [issue, noFault, hop, eob, hv]
  have reads : sameReads s v := by
    rw [← hv, hu]
    exact (s.pending_reads _ _ _ _).trans ((State.warn_reads _ _).trans (State.stage_reads _ _ _))
  have staged : v.staged = [es, es'] := by simp [← hv, hu, State.pending]
  have book : v.cycle = s.cycle ∧ v.input = s.input ∧ v.site = s.site ∧ v.sstatIn = s.sstatIn
      ∧ v.faultRec = s.faultRec := by
    simp [← hv, hu, State.pending]
  obtain ⟨cycle, input, site, sstatIn, faultRec⟩ := book
  have conflict : firstConflict [] v.staged = if clash es es' = true then some 1 else none := by
    simp [staged, firstConflict]
  refine ⟨v.close, next, fun hc => ?_, fun hc => ?_⟩
  · have raised : v.close = v.raiseAt 1 eCombo := by simp [State.close, conflict, hc]
    rw [raised]
    exact ⟨(reads.trans (State.raiseAt_reads _ _ _)).same, cycle, by simp [faultRec, idle.noFault, site, cycle],
      input, sstatIn⟩
  · have committed : v.close = v.commit := by simp [State.close, conflict, hc]
    rw [committed]
    have := v.commit_committed
    rw [staged, List.flatten_cons, List.flatten_singleton] at this
    exact this.rebase reads cycle input site sstatIn faultRec

/-- Two operations of which the first stages its effects, in slot order. -/
theorem runSlots_two {i i' : Instr} {s u t : State} (first : exec i s = .next u) (noFault : u.faultRec = none)
    (second : exec i' u = .next t) : runSlots [i, i'] s = .next t := by
  simp only [runSlots, first, noFault, second]
  simp

/-- A bundle of two operations that both complete; what the second one does may depend on what it draws. -/
theorem runSlots_pair {i i' : Instr} {s : State} {warns : List Warn} {es : List Write} {P : List Write → Prop}
    {x x' : Cond} (idle : s.Idle) (hi : i.ctl = ⟨x, false⟩) (hi' : i'.ctl = ⟨x', true⟩) (known : s.Known i)
    (known' : s.Known i')
    (notMaster : ∀ c dst src, i' = .mov c dst src → dst.policy ≠ .master)
    (first : opOf i s (s.maskFor x) = .done warns es)
    (second : ∀ log outs draws m', s.executing m' = s.executing (s.maskFor x') →
      ∃ warns' es', opOf i' (s.pending log outs draws es) m' = .done warns' es' ∧ P es') :
    ∃ t es', runSlots [i, i'] s = .next t ∧ P es' ∧ (clash es es' = true → Raises eCombo 1 s t)
      ∧ (clash es es' = false → Committed (es ++ es') s t) := by
  obtain ⟨log, outs, draws, hu⟩ := issue_pending (c := ⟨x, false⟩) idle rfl first
  obtain ⟨warns', es', hop, hP⟩ := second log outs draws _
    (executing_maskFor (s.pending_reads log outs draws es) rfl known'.nothing_drawn x')
  obtain ⟨t, ht, raises, commits⟩ := issue_last (c := ⟨x', true⟩) idle rfl rfl hop
  rw [← hi] at hu
  rw [← hi'] at ht
  exact ⟨t, es', runSlots_two ((exec_known known).trans hu) idle.noFault
    ((exec_known (known'.pending notMaster log outs draws es)).trans ht), hP, raises, commits⟩

/-! ## Conflicts of effects lane by lane -/

theorem clash_iff {xs ys : List Write} : clash xs ys = true ↔ ∃ x ∈ xs, ∃ y ∈ ys, x.conflicts y = true := by
  simp [clash]

theorem clash_flatMap {xs ys : List Lane} {f g : Lane → List Write} :
    clash (xs.flatMap f) (ys.flatMap g) = true ↔ ∃ i ∈ xs, ∃ j ∈ ys, clash (f i) (g j) = true := by
  simp only [clash_iff, List.mem_flatMap]
  constructor
  · rintro ⟨x, ⟨i, hi, hx⟩, y, ⟨j, hj, hy⟩, h⟩
    exact ⟨i, hi, j, hj, x, hx, y, hy, h⟩
  · rintro ⟨i, hi, j, hj, x, hx, y, hy, h⟩
    exact ⟨x, ⟨i, hi, hx⟩, y, ⟨j, hj, hy⟩, h⟩

section
variable {s : State} {m m' : PerLane Bool}

/-- Effects that conflict where they are in one lane. -/
theorem clash_lanes {f g : Lane → List Write} (h : ∀ i j, clash (f i) (g j) = true ↔ i = j) :
    clash ((s.execLanes m).flatMap f) ((s.execLanes m').flatMap g) = true
      ↔ ∃ j, s.executing m j = true ∧ s.executing m' j = true := by
  simp only [clash_flatMap, h, State.mem_execLanes]
  constructor
  · rintro ⟨i, hi, j, hj, rfl⟩
    exact ⟨i, hi, hj⟩
  · rintro ⟨j, hi, hj⟩
    exact ⟨j, hi, j, hj, rfl⟩

/-- Effects of which none conflict. -/
theorem clash_none {f g : Lane → List Write} {xs ys : List Lane} (h : ∀ i j, clash (f i) (g j) = false) :
    clash (xs.flatMap f) (ys.flatMap g) = false := by
  simp [Bool.eq_false_iff, clash_flatMap, h]

end

/-! ## Two moves (R131) -/

theorem foldl_destWrites_reg (s : State) (m : PerLane Bool) (k k' : Fin 32) (v : Lane → Int) (j : Lane) (x : Data) :
    (s.destWrites m (.r k) v).foldl (Write.onReg k' j) x
      = if s.executing m j = true then (if k = k' then wrap12 (v j) else x) else x := by
  rw [State.destWrites]
  refine (foldl_execLanes s m _ _ j x fun i hi y => ?_).trans ?_
  · simp [Handle.writes, Write.onReg, hi]
  · simp [Handle.writes, Write.onReg]

theorem mov_done (s : State) (m : PerLane Bool) (c : Ctl) (k : Fin 32) (src : Handle) :
    ∃ warns, opOf (.mov c (.r k) src) s m = .done warns (s.destWrites m (.r k) (s.readLane src)) :=
  ⟨_, moveRegister_done (s := s) (mask := m) (dst := .r k) src (by simp [State.destError])⟩

/-- Settles O6. -/
theorem movesInOneBundleSwap : Obligations.MovesInOneBundleSwap := by
  intro s c p q idle different known known'
  obtain ⟨_, first⟩ := mov_done s (s.maskFor c) ⟨c, false⟩ p (.r q)
  obtain ⟨t, _, ht, rfl, _, commits⟩ := runSlots_pair
    (P := (· = s.destWrites (s.maskFor c) (.r q) (s.readLane (.r p)))) idle rfl rfl known known'
    (by rintro _ _ _ ⟨⟩; simp [Handle.policy]) first fun log outs draws m' executing => by
      obtain ⟨_, second⟩ := mov_done (s.pending log outs draws _) m' ⟨c, true⟩ q (.r p)
      exact ⟨_, _, second, s.destWrites_mask executing (by simp [Handle.policy]) _⟩
  have committed := commits (clash_none fun i j => by simp [clash, Handle.writes, Write.conflicts, different])
  refine ⟨t, ht, committed.same _ (writesIn_append ?_ ?_), fun j hj => ⟨?_, ?_⟩, committed.cycle,
    committed.faultRec.trans idle.noFault⟩
  · intro w hw l hl
    obtain ⟨j, hj, rfl⟩ := destWrites_in s (s.maskFor c) (.r p) _ w hw l hl
    exact ⟨j, hj, Or.inl rfl⟩
  · intro w hw l hl
    obtain ⟨j, hj, rfl⟩ := destWrites_in s (s.maskFor c) (.r q) _ w hw l hl
    exact ⟨j, hj, Or.inr rfl⟩
  all_goals
    have executes : s.executing (s.maskFor c) j = true := hj
    rw [committed.reg, List.foldl_append, foldl_destWrites_reg, foldl_destWrites_reg]
    simp [executes, different.symm, State.readLane, wrap12]

/-! ## Conflicts of flags, of memory lanes and of address updates -/

/-- Two effects on one copy of ASTAT. -/
theorem aluWrite_none_clash (s : State) (i j : Lane) (o o' : AluOut) :
    clash (s.aluWrite none i o) (s.aluWrite none j o') = true ↔ i = j := by
  simp [clash, State.aluWrite, regWrite, Write.conflicts, FlagUpd.overlaps, FlagUpd.latchAv, AluOut.flags]

theorem not_done (s : State) (m : PerLane Bool) (c : Ctl) (a : Fin 32) :
    ∃ warns, opOf (.not c none a) s m
      = .done warns ((s.execLanes m).flatMap fun j => s.aluWrite none j (aluPlain (~~~(s.reg a j)))) :=
  ⟨_, rfl⟩

theorem clracc_done (s : State) (m : PerLane Bool) (c : Ctl) :
    opOf (.clracc c none) s m = .done [] ((s.execLanes m).flatMap fun j => [.flags .re j (mvFlag false)]) := rfl

theorem ldi_done (s : State) (m : PerLane Bool) (c : Ctl) {h : Handle} (v : Half) (notDid : h ≠ .did) :
    opOf (.ldi c h v) s m = .done [] (s.destWrites m h fun _ => v.toInt) :=
  loadImmediate_done (s := s) (mask := m) (dst := h) v (by simp [State.destError, notDid])

/-- The effects of a direct store: the entry of its word, and the lanes. -/
def State.stored (s : State) (m : PerLane Bool) (a : Nat) (v : Lane → Int) : List Write :=
  (if s.execAny m then [.memTouch a] else []) ++ (s.execLanes m).flatMap fun j => [.mem a j (wrap12 (v j))]

theorem stDirect_done (s : State) (m : PerLane Bool) (c : Ctl) (a : Fin 32) (x : Half) :
    ∃ warns, opOf (.stDirect c (.r a) x) s m = .done warns (s.stored m x.toNat (s.readLane (.r a))) := by
  unfold State.stored
  cases any : s.execAny m with
  | true =>
    have op := storeWord_performed (.r a) (.direct x) any
    rw [State.stepWrites, List.append_nil] at op
    exact ⟨_, op⟩
  | false =>
    have none : s.execLanes m = [] := by
      rw [State.execLanes, List.filter_eq_nil_iff]
      exact List.any_eq_false.mp any
    rw [none]
    exact ⟨_, storeWord_idle (.r a) (.direct x) any⟩

/-- The effects of MODIFY. -/
def State.modified (s : State) (m : PerLane Bool) (k n : Fin 8) : List Write :=
  if s.execAny m then [.agu k (s.stepped k n)] else []

theorem modify_done (s : State) (m : PerLane Bool) (c : Ctl) (k n : Fin 8) :
    ∃ warns, opOf (.modify c k n) s m = .done warns (s.modified m k n) := by
  unfold State.modified
  cases any : s.execAny m with
  | true => exact ⟨_, modifyOp_step k n any⟩
  | false => exact ⟨_, modifyOp_idle k n any⟩

theorem clash_append_left (xs ys zs : List Write) : clash (xs ++ ys) zs = (clash xs zs || clash ys zs) := by
  simp [clash]

theorem clash_append_right (xs ys zs : List Write) : clash xs (ys ++ zs) = (clash xs ys || clash xs zs) := by
  rw [Bool.eq_iff_iff, Bool.or_eq_true]
  simp only [clash_iff, List.mem_append]
  constructor
  · rintro ⟨x, hx, y, hy | hy, h⟩
    · exact Or.inl ⟨x, hx, y, hy, h⟩
    · exact Or.inr ⟨x, hx, y, hy, h⟩
  · rintro (⟨x, hx, y, hy, h⟩ | ⟨x, hx, y, hy, h⟩)
    · exact ⟨x, hx, y, Or.inl hy, h⟩
    · exact ⟨x, hx, y, Or.inr hy, h⟩

/-- The creation of a memory entry conflicts with nothing. -/
theorem touch_conflicts (b : Bool) (a : Nat) (zs : List Write) :
    clash (if b then [.memTouch a] else []) zs = false
      ∧ clash zs (if b then [.memTouch a] else []) = false := by
  constructor
  · cases b <;> simp [clash, Write.conflicts]
  · rw [Bool.eq_false_iff, Ne, clash_iff]
    rintro ⟨x, _, y, hy, h⟩
    cases b with
    | false => cases hy
    | true =>
      cases List.mem_singleton.mp hy
      cases x <;> cases h

/-- Two stores conflict where they store one lane of one address (R137). -/
theorem clash_stored {s : State} {m m' : PerLane Bool} {a a' : Nat} {v v' : Lane → Int} :
    clash (s.stored m a v) (s.stored m' a' v') = true
      ↔ a = a' ∧ ∃ j, s.executing m j = true ∧ s.executing m' j = true := by
  have lanes : clash ((s.execLanes m).flatMap fun j => [.mem a j (wrap12 (v j))])
      ((s.execLanes m').flatMap fun j => [.mem a' j (wrap12 (v' j))]) = true
      ↔ a = a' ∧ ∃ j, s.executing m j = true ∧ s.executing m' j = true := by
    by_cases ha : a = a'
    · rw [clash_lanes fun i j => by simp [clash, Write.conflicts, ha]]
      simp [ha]
    · rw [clash_none fun i j => by simp [clash, Write.conflicts, ha]]
      simp [ha]
  rw [State.stored, State.stored, clash_append_left, (touch_conflicts _ _ _).1, clash_append_right,
    (touch_conflicts _ _ _).2, Bool.false_or, Bool.false_or]
  exact lanes

theorem foldl_stored_mem (s : State) (m : PerLane Bool) (a a' : Nat) (v : Lane → Int) (j : Lane) (x : Option Data) :
    (s.stored m a v).foldl (Write.onMem a' j) x
      = if s.executing m j = true then (if a = a' then some (wrap12 (v j)) else x) else x := by
  have touch : (if s.execAny m then [Write.memTouch a] else []).foldl (Write.onMem a' j) x = x := by
    split <;> rfl
  rw [State.stored, List.foldl_append, touch]
  refine (foldl_execLanes s m _ _ j x fun i hi y => ?_).trans ?_
  · simp [Write.onMem, hi]
  · simp [Write.onMem]

/-- Two post-modify updates conflict where both step one Ik (R137). -/
theorem clash_modified {s : State} {m m' : PerLane Bool} {k k' n n' : Fin 8} :
    clash (s.modified m k n) (s.modified m' k' n') = true ↔ k = k' ∧ s.execAny m = true ∧ s.execAny m' = true := by
  unfold State.modified
  cases s.execAny m <;> cases s.execAny m' <;> simp [clash, Write.conflicts]

theorem modified_agu {s : State} {m : PerLane Bool} {k n : Fin 8} {w : Write} (hw : w ∈ s.modified m k n) :
    w.isAgu = true := by
  unfold State.modified at hw
  split at hw
  · cases List.mem_singleton.mp hw
    rfl
  · cases hw

theorem foldl_modified (s : State) (m : PerLane Bool) (k k' n : Fin 8) (cyc : Nat) (x : Hazard 16) :
    (s.modified m k n).foldl (Write.onI cyc k') x
      = if k = k' ∧ s.execAny m = true then Hazard.agu (s.stepped k n) cyc else x := by
  unfold State.modified
  cases s.execAny m <;> simp [Write.onI]

/-- A bundle of two operations whose effects do not depend on a draw. -/
theorem runSlots_fixed {i i' : Instr} {s : State} {warns : List Warn} {es : List Write}
    (after : PerLane Bool → List Write)    {x x' : Cond} (idle : s.Idle) (hi : i.ctl = ⟨x, false⟩) (hi' : i'.ctl = ⟨x', true⟩) (known : s.Known i)
    (known' : s.Known i')
    (notMaster : ∀ c dst src, i' = .mov c dst src → dst.policy ≠ .master)
    (first : opOf i s (s.maskFor x) = .done warns es)
    (second : ∀ log outs draws m', ∃ warns', opOf i' (s.pending log outs draws es) m' = .done warns' (after m'))
    (lanes : ∀ m m', s.executing m' = s.executing m → after m' = after m) :
    ∃ t, runSlots [i, i'] s = .next t
      ∧ (clash es (after (s.maskFor x')) = true → Raises eCombo 1 s t)
      ∧ (clash es (after (s.maskFor x')) = false →
        Committed (es ++ after (s.maskFor x')) s t ∧ t.faultRec = none ∧ t.cycle = s.cycle + 1) := by
  obtain ⟨t, _, ht, rfl, raises, commits⟩ := runSlots_pair (P := (· = after (s.maskFor x'))) idle hi hi'
    known known' notMaster first fun log outs draws m' executing => by
      obtain ⟨warns', op⟩ := second log outs draws m'
      exact ⟨warns', _, op, lanes _ _ executing⟩
  exact ⟨t, ht, raises, fun h => ⟨commits h, (commits h).faultRec.trans idle.noFault, (commits h).cycle⟩⟩

/-- Two operations that conflict in the lanes that execute both. -/
theorem conflict_in_lanes {s t : State} {c c' : Ctl} {es es' : List Write}
    (conflict : clash es es' = true ↔ ∃ j, s.runs c j ∧ s.runs c' j)
    (raises : clash es es' = true → Raises eCombo 1 s t)
    (commits : clash es es' = false → Committed (es ++ es') s t ∧ t.faultRec = none ∧ t.cycle = s.cycle + 1) :
    ((∃ j, s.runs c j ∧ s.runs c' j) → Raises eCombo 1 s t)
      ∧ ((∀ j, s.runs c j → ¬ s.runs c' j) → t.faultRec = none ∧ t.cycle = s.cycle + 1) := by
  refine ⟨fun both => raises (conflict.mpr both), fun apart => (commits ?_).2⟩
  rw [Bool.eq_false_iff, Ne, conflict]
  rintro ⟨j, hj, hj'⟩
  exact apart j hj hj'

/-- Settles O55. -/
theorem flagMemoryAndAddressConflicts : Obligations.FlagMemoryAndAddressConflicts := by
  intro s c c' a b x y v k m k' m' idle
  refine ⟨?_, ?_, ?_, ?_, ?_⟩ <;> intro known known'
  · obtain ⟨_, first⟩ := not_done s (s.maskFor c) ⟨c, false⟩ a
    obtain ⟨t, ht, raises, commits⟩ := runSlots_fixed
      (fun n => (s.execLanes n).flatMap fun j => s.aluWrite none j (aluPlain (~~~(s.reg b j)))) idle rfl rfl known known'
      (by rintro _ _ _ ⟨⟩) first (fun log outs draws n => not_done (s.pending log outs draws _) n _ b)
      fun n n' h => by rw [s.execLanes_mask h]
    exact ⟨t, ht, conflict_in_lanes (clash_lanes fun i j => aluWrite_none_clash s i j _ _) raises commits⟩
  · obtain ⟨t, ht, raises, commits⟩ := runSlots_fixed (fun n => s.destWrites n (.astat .re) fun _ => v.toInt) idle rfl
      rfl known known' (by rintro _ _ _ ⟨⟩) (clracc_done s (s.maskFor c) ⟨c, false⟩)
      (fun log outs draws n => ⟨_, ldi_done (s.pending log outs draws _) n _ v (by simp)⟩)
      fun n n' h => s.destWrites_mask h (by simp [Handle.policy]) _
    exact ⟨t, ht, conflict_in_lanes (clash_lanes fun i j => by
      simp [clash, Handle.writes, Write.conflicts, FlagUpd.overlaps, mvFlag, FlagUpd.ofBits]) raises commits⟩
  · obtain ⟨t, ht, _, commits⟩ := runSlots_fixed
      (fun n => (s.execLanes n).flatMap fun j => s.aluWrite none j (aluPlain (~~~(s.reg b j)))) idle rfl rfl known known'
      (by rintro _ _ _ ⟨⟩) (clracc_done s (s.maskFor c) ⟨c, false⟩)
      (fun log outs draws n => not_done (s.pending log outs draws _) n _ b)
      fun n n' h => by rw [s.execLanes_mask h]
    obtain ⟨committed, noFault, cycle⟩ := commits (clash_none fun i j => by
      simp [clash, State.aluWrite, regWrite, Write.conflicts, FlagUpd.overlaps, mvFlag, FlagUpd.latchAv, AluOut.flags,
        aluPlain])
    refine ⟨t, ht, noFault, cycle, fun j hj hj' => ?_⟩
    have executes : s.executing (s.maskFor c) j = true := hj
    have executes' : s.executing (s.maskFor c') j = true := hj'
    rw [committed.flags, List.foldl_append, foldl_execLanes s (s.maskFor c) _ _ j _ fun i hi y => ?_, if_pos executes,
      foldl_execLanes s _ _ _ j _ fun i hi y => ?_, if_pos executes']
    · simp [State.aluWrite, regWrite, Write.onFlags, FlagUpd.apply, mvFlag, FlagUpd.latchAv, AluOut.flags, aluPlain,
        State.aluFlags] <;> rfl
    · simp [State.aluWrite, regWrite, Write.onFlags, hi]
    · simp [Write.onFlags, hi]
  · obtain ⟨_, first⟩ := stDirect_done s (s.maskFor c) ⟨c, false⟩ a x
    obtain ⟨t, ht, raises, commits⟩ := runSlots_fixed (fun n => s.stored n y.toNat (s.readLane (.r b))) idle rfl rfl
      known known' (by rintro _ _ _ ⟨⟩) first
      (fun log outs draws n => stDirect_done (s.pending log outs draws _) n _ b y)
      fun n n' h => by simp only [State.stored, s.execLanes_mask h, s.execAny_mask h]
    refine ⟨t, ht, fun same both => raises (clash_stored.mpr ⟨congrArg _ same, both⟩), fun apart => ?_⟩
    have noClash : clash (s.stored (s.maskFor c) x.toNat (s.readLane (.r a)))
        (s.stored (s.maskFor c') y.toNat (s.readLane (.r b))) = false := by
      rw [Bool.eq_false_iff, Ne, clash_stored]
      rintro ⟨same, j, hj, hj'⟩
      rcases apart with different | apart
      · exact different (BitVec.eq_of_toNat_eq same)
      · exact apart j hj hj'
    obtain ⟨committed, noFault, cycle⟩ := commits noClash
    refine ⟨noFault, cycle, fun j hj => ?_, fun j hj => ?_⟩
    · have executes : s.executing (s.maskFor c) j = true := hj
      rw [committed.mem, List.foldl_append, foldl_stored_mem, foldl_stored_mem, if_pos executes, if_pos rfl]
      split
      next executes' =>
        have different : ¬ y.toNat = x.toNat := fun h =>
          apart.elim (fun d => d (BitVec.eq_of_toNat_eq h.symm)) fun apart => apart j hj executes'
        simp [different, State.readLane, wrap12]
      next => simp [State.readLane, wrap12]
    · have executes : s.executing (s.maskFor c') j = true := hj
      rw [committed.mem, List.foldl_append, foldl_stored_mem, if_pos executes, if_pos rfl]
      simp [State.readLane, wrap12]
  · obtain ⟨_, first⟩ := modify_done s (s.maskFor c) ⟨c, false⟩ k m
    obtain ⟨t, ht, raises, commits⟩ := runSlots_fixed (fun n => s.modified n k' m') idle rfl rfl
      known known' (by rintro _ _ _ ⟨⟩) first
      (fun log outs draws n => modify_done (s.pending log outs draws _) n _ k' m')
      fun n n' h => by simp only [State.modified, s.execAny_mask h]
    refine ⟨t, ht, fun same any any' => raises (clash_modified.mpr ⟨same, any, any'⟩), fun apart => ?_⟩
    have noClash : clash (s.modified (s.maskFor c) k m) (s.modified (s.maskFor c') k' m') = false := by
      rw [Bool.eq_false_iff, Ne, clash_modified]
      rintro ⟨same, any, any'⟩
      rcases apart with different | idle | idle
      · exact different same
      · exact idle any
      · exact idle any'
    obtain ⟨committed, noFault, cycle⟩ := commits noClash
    have agu : aguLast (s.modified (s.maskFor c) k m ++ s.modified (s.maskFor c') k' m')
        = s.modified (s.maskFor c) k m ++ s.modified (s.maskFor c') k' m' :=
      aguLast_append (xs := []) (by simp) fun w hw => (List.mem_append.mp hw).elim modified_agu modified_agu
    refine ⟨noFault, cycle, fun any => ?_, fun any => ?_⟩
    · have second : ¬ (k' = k ∧ s.execAny (s.maskFor c') = true) := by
        rintro ⟨same, any'⟩
        rcases apart with different | idle | idle
        · exact different same.symm
        · exact idle any
        · exact idle any'
      rw [committed.i, agu, List.foldl_append, foldl_modified, foldl_modified, if_neg second, if_pos ⟨rfl, any⟩]
      rfl
    · rw [committed.i, agu, List.foldl_append, foldl_modified, if_pos ⟨rfl, any⟩]
      rfl

/-! ## A post-modify update against a write of the same register (R86, R137) -/

/-- Effects that write at most Ik, as a move does, and may create a memory entry. -/
def onlyMoves (k : Fin 8) (es : List Write) : Prop :=
  ∀ w ∈ es, (∃ a, w = .memTouch a) ∨ ∃ v, w = .haz (.i k) v

theorem onlyMoves_dest (s : State) (m : PerLane Bool) (k : Fin 8) (v : Lane → Int) :
    onlyMoves k (s.destWrites m (.i k) v) := by
  rcases destWrites_one s m (h := .i k) (by simp [Handle.policy]) v with h | ⟨j, h⟩
  · rw [h]
    exact fun w hw => nomatch hw
  · rw [h]
    exact fun w hw => Or.inr ⟨_, List.mem_singleton.mp hw⟩

/-- A move, an immediate load and a direct load into Ik write at most Ik, whether they end the bundle or not. -/
theorem writesIk_done {s : State} {m : PerLane Bool} {k : Fin 8} {src : Handle} {v addr : Half} {c : Ctl} {op : Instr}
    (readable : s.cfg.undefRead = .draw ∨ s.undefLanes addr.toNat (s.usedLanes m (.i k)) = [])
    (hop : op ∈ [Instr.mov c (.i k) src, .ldi c (.i k) v, .ldDirect c (.i k) addr]) :
    ∃ warns es, opOf op s m = .done warns es ∧ onlyMoves k es := by
  have noError : s.destError m (.i k) = false := by simp [State.destError]
  simp only [List.mem_cons, List.not_mem_nil, or_false] at hop
  rcases hop with rfl | rfl | rfl
  · exact ⟨_, _, moveRegister_done (s := s) (mask := m) (dst := .i k) src noError, onlyMoves_dest s m k _⟩
  · exact ⟨_, _, loadImmediate_done (s := s) (mask := m) (dst := .i k) v noError, onlyMoves_dest s m k _⟩
  · cases any : s.execAny m with
    | false => exact ⟨_, _, loadWord_idle (s := s) (mask := m) (.i k) (.direct addr) any, fun w hw => nomatch hw⟩
    | true =>
      have op := loadWord_read (.i k) (.direct addr) any readable
      rw [noError, if_neg Bool.false_ne_true, State.stepWrites, List.append_nil] at op
      refine ⟨_, _, op, fun w hw => ?_⟩
      rcases List.mem_cons.mp hw with rfl | hw
      · exact Or.inl ⟨_, rfl⟩
      · exact onlyMoves_dest s m k _ w hw

/-- A move of Ik and a step of it do not conflict, in either order (R137). -/
theorem onlyMoves_clash {k : Fin 8} {es : List Write} (h : onlyMoves k es) (v : Half) :
    clash es [.agu k v] = false ∧ clash [.agu k v] es = false := by
  simp only [Bool.eq_false_iff, Ne, clash_iff, List.mem_singleton]
  constructor
  · rintro ⟨x, hx, y, rfl, conflict⟩
    rcases h x hx with ⟨a, rfl⟩ | ⟨v, rfl⟩ <;> cases conflict
  · rintro ⟨x, rfl, y, hy, conflict⟩
    rcases h y hy with ⟨a, rfl⟩ | ⟨v, rfl⟩ <;> cases conflict

theorem onlyMoves_agu {k : Fin 8} {es : List Write} (h : onlyMoves k es) : ∀ w ∈ es, w.isAgu = false := by
  intro w hw
  rcases h w hw with ⟨a, rfl⟩ | ⟨v, rfl⟩ <;> rfl

/-- The step is committed last, in either order. -/
theorem stepped_last {k : Fin 8} {es : List Write} (h : onlyMoves k es) (v : Half) :
    aguLast (es ++ [.agu k v]) = es ++ [.agu k v] ∧ aguLast (.agu k v :: es) = es ++ [.agu k v] := by
  have moves : es.filter (fun w => !w.isAgu) = es := List.filter_eq_self.mpr fun w hw => by
    simp [onlyMoves_agu h w hw]
  have steps : es.filter Write.isAgu = [] := List.filter_eq_nil_iff.mpr fun w hw => by simp [onlyMoves_agu h w hw]
  have agu : (Write.agu k v).isAgu = true := rfl
  simp [aguLast, moves, steps, agu]

/-- The bundle of a move of Ik and a step of it. -/
theorem Committed.step_beats_move {k : Fin 8} {es ws : List Write} {s t : State} {v : Half} (idle : s.Idle)
    (h : Committed ws s t) (moves : onlyMoves k es) (order : ws = es ++ [.agu k v] ∨ ws = .agu k v :: es) :
    t.faultRec = none ∧ t.cycle = s.cycle + 1 ∧ SameExcept (fun l => l = .haz (.i k)) s t
      ∧ t.i.get k = ⟨v, v, v, some s.cycle, some s.cycle, some s.cycle⟩ := by
  refine ⟨h.faultRec.trans idle.noFault, h.cycle, h.same _ fun w hw l hl => ?_, ?_⟩
  · have cases_ : w ∈ es ∨ w = .agu k v := by
      rcases order with rfl | rfl
      · simpa using hw
      · simpa [or_comm] using hw
    rcases cases_ with hw | rfl
    · rcases moves w hw with ⟨a, rfl⟩ | ⟨v, rfl⟩ <;> cases hl
      rfl
    · cases hl
      rfl
  · have last : aguLast ws = es ++ [.agu k v] := by
      rcases order with rfl | rfl
      · exact (stepped_last moves v).1
      · exact (stepped_last moves v).2
    rw [h.i, last, List.foldl_append]
    simp [Write.onI, Hazard.agu]

/-- Settles O56. -/
theorem addressUpdateBeatsWrites : Obligations.AddressUpdateBeatsWrites := by
  intro s c c' src v addr k m op op' idle any readable ops known knownStep
  have readable := State.readable_lanes readable
  have step : ∀ (u : State) n (ctl : Ctl), u.execAny n = true →
      opOf (.modify ctl k m) u n = .done (u.staleWarns [.i k, .m m, .l k, .b k]) [.agu k (u.stepped k m)] :=
    fun u n ctl h => modifyOp_step k m h
  have form : (op ∈ [Instr.mov ⟨c, false⟩ (.i k) src, .ldi ⟨c, false⟩ (.i k) v, .ldDirect ⟨c, false⟩ (.i k) addr]
      ∧ op.ctl = ⟨c, false⟩)
      ∧ (op' ∈ [Instr.mov ⟨c, true⟩ (.i k) src, .ldi ⟨c, true⟩ (.i k) v, .ldDirect ⟨c, true⟩ (.i k) addr]
      ∧ op'.ctl = ⟨c, true⟩) ∧ s.Known op' ∧ ∀ c dst src, op' = .mov c dst src → dst.policy ≠ .master := by
    simp only [List.mem_cons, Prod.mk.injEq, List.not_mem_nil, or_false] at ops
    rcases ops with ⟨rfl, rfl⟩ | ⟨rfl, rfl⟩ | ⟨rfl, rfl⟩
    · exact ⟨⟨by simp, rfl⟩, ⟨by simp, rfl⟩, known, by rintro _ _ _ ⟨⟩; simp [Handle.policy]⟩
    · exact ⟨⟨by simp, rfl⟩, ⟨by simp, rfl⟩, known, by rintro _ _ _ ⟨⟩⟩
    · exact ⟨⟨by simp, rfl⟩, ⟨by simp, rfl⟩, known, by rintro _ _ _ ⟨⟩⟩
  obtain ⟨⟨mem, ctl⟩, ⟨mem', ctl'⟩, known', notMaster⟩ := form
  obtain ⟨_, es, first, moves⟩ := writesIk_done readable mem
  obtain ⟨t, _, ht, rfl, _, commitsT⟩ := runSlots_pair (P := (· = [.agu k (s.stepped k m)])) idle ctl rfl known knownStep
    (by rintro _ _ _ ⟨⟩) first fun log outs draws n executing =>
      ⟨_, _, step _ n _ ((s.execAny_mask executing).trans any), rfl⟩
  obtain ⟨u, es', hu, moves', _, commitsU⟩ := runSlots_pair (P := onlyMoves k) (i := .modify ⟨c', false⟩ k m) idle rfl
    ctl' knownStep known' notMaster (step s _ _ any) fun log outs draws n executing =>
      writesIk_done (s := s.pending log outs draws _) (m := n)
        (by rwa [← s.usedLanes_mask executing (by simp [Handle.policy])] at readable) mem'
  refine ⟨t, u, ht, hu, fun z hz => ?_⟩
  simp only [List.mem_cons, List.not_mem_nil, or_false] at hz
  rcases hz with rfl | rfl
  · exact (commitsT (onlyMoves_clash moves _).1).step_beats_move idle moves (Or.inl rfl)
  · exact (commitsU (onlyMoves_clash moves' _).2).step_beats_move idle moves' (Or.inr rfl)

/-! ## Two writes to handles (R137) -/

/-- One location holds the same in both states. -/
def SameAt (s t : State) : Loc → Prop
  | .reg k j => t.reg k j = s.reg k j
  | .acc n j => t.accLane n j = s.accLane n j
  | .flags c j => t.flags c j = s.flags c j
  | .umcount j => t.umcount.get j = s.umcount.get j
  | .ovcnt j => t.ovcnt.get j = s.ovcnt.get j
  | .haz (.i k) => t.i.get k = s.i.get k
  | .haz (.m k) => t.m.get k = s.m.get k
  | .haz (.l k) => t.l.get k = s.l.get k
  | .haz (.b k) => t.b.get k = s.b.get k
  | .haz .cntr => t.cntr = s.cntr
  | .haz .mstat => t.mstat = s.mstat
  | .ctl c => t.ctl c = s.ctl c
  | .en => t.en = s.en
  | .master => t.master = s.master
  | .mem a j => t.memLane a j = s.memLane a j

theorem SameExcept.sameAt {T : Loc → Prop} {s t : State} (h : SameExcept T s t) {l : Loc} (hl : ¬ T l) :
    SameAt s t l := by
  cases l with
  | reg k j => exact h.reg k j hl
  | acc n j => exact h.acc n j hl
  | flags c j => exact h.flags c j hl
  | umcount j => exact h.umcount j hl
  | ovcnt j => exact h.ovcnt j hl
  | haz r =>
    cases r with
    | i k => exact h.i k hl
    | m k => exact h.m k hl
    | l k => exact h.l k hl
    | b k => exact h.b k hl
    | cntr => exact h.cntr hl
    | mstat => exact h.mstat hl
  | ctl c => exact h.ctl c hl
  | en => exact h.en hl
  | master => exact h.master hl
  | mem a j => exact h.mem a j hl

theorem SameAt.trans {s t u : State} {l : Loc} (h : SameAt s t l) (g : SameAt t u l) : SameAt s u l := by
  cases l with
  | haz r => cases r <;> exact Eq.trans g h
  | _ => exact Eq.trans g h

theorem SameAt.symm {s t : State} {l : Loc} (h : SameAt s t l) : SameAt t s l := by
  cases l with
  | haz r => cases r <;> exact Eq.symm h
  | _ => exact Eq.symm h

/-- What effects make of a location depends on what it held. -/
theorem SameAt.applyAll {s t : State} {l : Loc} (h : SameAt s t l) (cycle : t.cycle = s.cycle) (cfg : t.cfg = s.cfg)
    (ws : List Write) : SameAt (s.applyAll ws) (t.applyAll ws) l := by
  cases l with
  | reg k j => exact (t.applyAll_reg ws k j).trans (h ▸ (s.applyAll_reg ws k j).symm)
  | acc n j => exact (t.applyAll_accLane ws n j).trans (h ▸ (s.applyAll_accLane ws n j).symm)
  | flags c j => exact (t.applyAll_flags ws c j).trans (h ▸ (s.applyAll_flags ws c j).symm)
  | umcount j => exact (t.applyAll_umcount ws j).trans (h ▸ (s.applyAll_umcount ws j).symm)
  | ovcnt j => exact (t.applyAll_ovcnt ws j).trans (h ▸ (s.applyAll_ovcnt ws j).symm)
  | haz r =>
    cases r with
    | i k => exact (t.applyAll_i ws k).trans (cycle ▸ h ▸ (s.applyAll_i ws k).symm)
    | m k => exact (t.applyAll_m ws k).trans (cycle ▸ h ▸ (s.applyAll_m ws k).symm)
    | l k => exact (t.applyAll_l ws k).trans (cycle ▸ h ▸ (s.applyAll_l ws k).symm)
    | b k => exact (t.applyAll_b ws k).trans (cycle ▸ h ▸ (s.applyAll_b ws k).symm)
    | cntr => exact (t.applyAll_cntr ws).trans (cycle ▸ h ▸ (s.applyAll_cntr ws).symm)
    | mstat => exact (t.applyAll_mstat ws).trans (cycle ▸ h ▸ (s.applyAll_mstat ws).symm)
  | ctl c => exact (t.applyAll_ctl ws c).trans (h ▸ (s.applyAll_ctl ws c).symm)
  | en => exact (t.applyAll_en ws).trans (cfg ▸ h ▸ (s.applyAll_en ws).symm)
  | master => exact (t.applyAll_master ws).trans (cfg ▸ h ▸ (s.applyAll_master ws).symm)
  | mem a j => exact (t.applyAll_memLane ws a j).trans (h ▸ (s.applyAll_memLane ws a j).symm)

/-- A commit holds at each location what applying the effects gives. -/
theorem Committed.sameAt {s t : State} {ws : List Write} (h : Committed ws s t) (agu : aguLast ws = ws) (l : Loc) :
    SameAt (s.applyAll ws) t l := by
  have c := s.committedTo_committed agu
  cases l with
  | reg k j => exact (h.reg k j).trans (c.reg k j).symm
  | acc n j => exact (h.acc n j).trans (c.acc n j).symm
  | flags k j => exact (h.flags k j).trans (s.applyAll_flags ws k j).symm
  | umcount j => exact (h.umcount j).trans (c.umcount j).symm
  | ovcnt j => exact (h.ovcnt j).trans (c.ovcnt j).symm
  | haz r =>
    cases r with
    | i k => exact (h.i k).trans (c.i k).symm
    | m k => exact (h.m k).trans (c.m k).symm
    | l k => exact (h.l k).trans (c.l k).symm
    | b k => exact (h.b k).trans (c.b k).symm
    | cntr => exact h.cntr.trans c.cntr.symm
    | mstat => exact h.mstat.trans c.mstat.symm
  | ctl k => exact (h.ctl k).trans (s.applyAll_ctl ws k).symm
  | en => exact h.en.trans c.en.symm
  | master => exact h.master.trans c.master.symm
  | mem a j => exact (h.mem a j).trans (s.applyAll_memLane ws a j).symm

/-- What a handle holds after a write is a matter of the locations the write may write. -/
theorem WrittenUnder.of_sameAt {mask : PerLane Bool} {s t t' : State} {v : Lane → Int} {h : Handle}
    (written : WrittenUnder mask s t v h) (same : ∀ l, s.targetsUnder mask h l → SameAt t t' l) :
    WrittenUnder mask s t' v h := by
  have any : ∀ {j}, s.firstLaneUnder mask j → s.execAny mask = true := fun hj => (s.execAny_iff mask).mpr ⟨_, hj.1⟩
  have master : ∀ {j}, s.masterLaneUnder mask j → ∃ j, s.masterOpenUnder mask j := fun hj => ⟨_, hj.1⟩
  cases h with
  | r k => exact fun j hj => Eq.trans (same (.reg k j) ⟨j, hj, rfl⟩) (written j hj)
  | acc n => exact fun j hj => (congrArg Acc.word (same (.acc n j) ⟨j, hj, rfl⟩)).trans (written j hj)
  | accH n | accM n | accL n => exact fun j hj => Eq.trans (same (.acc n j) ⟨j, hj, rfl⟩) (written j hj)
  | umcount => exact fun j hj => Eq.trans (same (.umcount j) ⟨j, hj, rfl⟩) (written j hj)
  | astat k => exact fun j hj => (congrArg Flags.bits (same (.flags k j) ⟨j, hj, rfl⟩)).trans (written j hj)
  | i k => exact fun j hj => Eq.trans (same (.haz (.i k)) ⟨any hj, rfl⟩) (written j hj)
  | m k => exact fun j hj => Eq.trans (same (.haz (.m k)) ⟨any hj, rfl⟩) (written j hj)
  | l k => exact fun j hj => Eq.trans (same (.haz (.l k)) ⟨any hj, rfl⟩) (written j hj)
  | b k => exact fun j hj => Eq.trans (same (.haz (.b k)) ⟨any hj, rfl⟩) (written j hj)
  | cntr => exact fun j hj => Eq.trans (same (.haz .cntr) ⟨master hj, rfl⟩) (written j hj)
  | mstat => exact fun j hj => Eq.trans (same (.haz .mstat) ⟨master hj, rfl⟩) (written j hj)
  | lpever => exact fun j hj => Eq.trans (same (.ctl .lpever) ⟨master hj, rfl⟩) (written j hj)
  | pcstack => exact fun j hj => Eq.trans (same (.ctl .pcstack) ⟨master hj, rfl⟩) (written j hj)
  | lpstack => exact fun j hj => Eq.trans (same (.ctl .lpstack) ⟨master hj, rfl⟩) (written j hj)
  | icntl => exact fun j hj => Eq.trans (same (.ctl .icntl) ⟨master hj, rfl⟩) (written j hj)
  | imask => exact fun j hj => Eq.trans (same (.ctl .imask) ⟨master hj, rfl⟩) (written j hj)
  | irptl => exact fun j hj => Eq.trans (same (.ctl .irptl) ⟨master hj, rfl⟩) (written j hj)
  | ivec k => exact fun j hj => Eq.trans (same (.ctl (.ivec k)) ⟨master hj, rfl⟩) (written j hj)
  | dstat0 =>
    intro j hj i
    have en : t'.en = t.en := same .en ⟨master hj, rfl⟩
    rw [en, written j hj i]
  | dstat1 =>
    intro j hj
    have same : t'.master = t.master := same .master ⟨master hj, rfl⟩
    rw [same]
    exact written j hj
  | sstat | did | noReg => trivial

/-- The handles that a location may be written through. -/
def Loc.handles : Loc → List Handle
  | .reg k _ => [.r k]
  | .acc n _ => [.acc n, .accH n, .accM n, .accL n]
  | .flags c _ => [.astat c]
  | .umcount _ => [.umcount]
  | .haz r => [r.handle]
  | .ctl c => [c.handle]
  | .en => [.dstat0]
  | .master => [.dstat1]
  | .ovcnt _ | .mem _ _ => []

theorem State.handles_of_target {s : State} {mask : PerLane Bool} {h : Handle} {l : Loc} (hl : s.targetsUnder mask h l) :
    h ∈ l.handles ∧ ∀ j, l.lane = some j → s.executing mask j = true := by
  cases h <;> simp only [State.targetsUnder] at hl
  case r | acc | accH | accM | accL | umcount | astat =>
    obtain ⟨j, hj, rfl⟩ := hl
    refine ⟨by simp [Loc.handles], ?_⟩
    rintro i ⟨⟩
    exact hj
  all_goals
    obtain ⟨_, rfl⟩ := hl
    exact ⟨by simp [Loc.handles, HazReg.handle, CtlReg.handle], by rintro _ ⟨⟩⟩

/-- The effects of a write to one handle conflict with those of another as the handles share registers (R137). -/
theorem writes_clash (h h' : Handle) (j j' : Lane) (v w : Int) :
    clash (h.writes j v) (h'.writes j' w)
      = (Handle.sharesLanes h h' && j == j' || Handle.sharesScalar h h') := by
  cases h <;> cases h'
  any_goals rfl
  all_goals simp [clash, Handle.writes, Write.conflicts, Handle.sharesLanes, Handle.sharesScalar, AccPart.overlaps,
    FlagUpd.overlaps, FlagUpd.ofBits]

theorem sharesLanes_policy {h h' : Handle} (share : Handle.sharesLanes h h' = true) :
    h.policy = .lanes ∧ h'.policy = .lanes := by
  unfold Handle.sharesLanes at share
  split at share
  any_goals exact ⟨rfl, rfl⟩
  cases share

theorem State.usesLane_iff_runs {s : State} {c : Ctl} {h : Handle} (lanes : h.policy = .lanes) (j : Lane) :
    s.usesLane c h j ↔ s.runs c j := by
  rw [← State.mem_usedLanes, State.usedLanes, lanes]
  exact s.mem_execLanes _ j

/-- Two writes through handles conflict exactly where `collide` says so. -/
theorem destWrites_clash {s u : State} {c c' : Ctl} {h h' : Handle} {v w : Lane → Int} :
    clash (s.destWrites (s.maskFor c.cond) h v) (u.destWrites (u.maskFor c'.cond) h' w) = true
      ↔ s.collide u c c' h h' := by
  simp only [State.destWrites, clash_flatMap, State.mem_usedLanes, writes_clash, Bool.or_eq_true, Bool.and_eq_true,
    beq_iff_eq]
  constructor
  · rintro ⟨i, hi, j, hj, ⟨share, rfl⟩ | share⟩
    · obtain ⟨lanes, lanes'⟩ := sharesLanes_policy share
      exact Or.inl ⟨share, i, (State.usesLane_iff_runs lanes i).mp hi, (State.usesLane_iff_runs lanes' i).mp hj⟩
    · exact Or.inr ⟨share, ⟨i, hi⟩, j, hj⟩
  · rintro (⟨share, j, hi, hj⟩ | ⟨share, ⟨i, hi⟩, j, hj⟩)
    · obtain ⟨lanes, lanes'⟩ := sharesLanes_policy share
      exact ⟨j, (State.usesLane_iff_runs lanes j).mpr hi, j, (State.usesLane_iff_runs lanes' j).mpr hj,
        Or.inl ⟨share, rfl⟩⟩
    · exact ⟨i, hi, j, hj, Or.inr share⟩

/-- A handle that may write a location uses a lane. -/
theorem State.used_of_target {s : State} {mask : PerLane Bool} {h : Handle} {l : Loc} (hl : s.targetsUnder mask h l) :
    ∃ j, j ∈ s.usedLanes mask h := by
  have first : s.execAny mask = true → ∃ j, j ∈ (s.firstLane mask).toList := fun any => by
    simpa [State.firstLane, Option.isSome_iff_exists] using (List.find?_isSome.mpr (List.any_eq_true.mp any))
  have master : (∃ j, s.masterOpenUnder mask j) → ∃ j, j ∈ (s.masterLane mask).toList := fun ⟨j, isMaster, on⟩ => by
    have : (s.masterLane mask).isSome = true :=
      List.find?_isSome.mpr ⟨j, mem_allLanes j, by simp [isMaster, on]⟩
    simpa [Option.isSome_iff_exists] using this
  cases h <;> simp only [State.targetsUnder] at hl <;> simp only [State.usedLanes, Handle.policy]
  case r | acc | accH | accM | accL | umcount | astat =>
    obtain ⟨j, hj, _⟩ := hl
    exact ⟨j, (s.mem_execLanes mask j).mpr hj⟩
  case i | m | l | b => exact first hl.1
  all_goals exact master hl.1

/-- Two handles of one location share it, or are fields of one accumulator. -/
theorem Loc.handles_share {l : Loc} {h h' : Handle} (hl : h ∈ l.handles) (hl' : h' ∈ l.handles) :
    Handle.sameAcc h h' = true ∨ (Handle.sharesLanes h h' = true ∧ ∃ j, l.lane = some j)
      ∨ Handle.sharesScalar h h' = true := by
  cases l with
  | acc n j =>
    simp only [Loc.handles, List.mem_cons, List.not_mem_nil, or_false] at hl hl'
    rcases hl with rfl | rfl | rfl | rfl <;> rcases hl' with rfl | rfl | rfl | rfl <;>
      simp [Handle.sameAcc, Handle.sharesLanes, Loc.lane]
  | reg | flags | umcount =>
    cases List.mem_singleton.mp hl
    cases List.mem_singleton.mp hl'
    simp [Handle.sharesLanes, Loc.lane]
  | haz r =>
    cases List.mem_singleton.mp hl
    cases List.mem_singleton.mp hl'
    cases r <;> simp [Handle.sharesScalar, HazReg.handle]
  | ctl r =>
    cases List.mem_singleton.mp hl
    cases List.mem_singleton.mp hl'
    cases r <;> simp [Handle.sharesScalar, CtlReg.handle]
  | en | master =>
    cases List.mem_singleton.mp hl
    cases List.mem_singleton.mp hl'
    simp [Handle.sharesScalar]
  | ovcnt | mem => cases hl

/-- Writes that do not collide, of handles that are not fields of one accumulator, are at different locations. -/
theorem targets_apart {s u : State} {c c' : Ctl} {h h' : Handle} (apart : ¬ s.collide u c c' h h')
    (fields : Handle.sameAcc h h' = false) {l : Loc} (hl : s.handleTargets c h l) : ¬ u.handleTargets c' h' l := by
  intro hl'
  obtain ⟨named, lanes⟩ := State.handles_of_target hl
  obtain ⟨named', lanes'⟩ := State.handles_of_target hl'
  rcases Loc.handles_share named named' with same | ⟨share, j, hj⟩ | share
  · rw [fields] at same
    cases same
  · exact apart (Or.inl ⟨share, j, lanes j hj, lanes' j hj⟩)
  · obtain ⟨i, hi⟩ := State.used_of_target hl
    obtain ⟨j, hj⟩ := State.used_of_target hl'
    exact apart (Or.inr ⟨share, ⟨i, (s.mem_usedLanes c h i).mp hi⟩, j, (u.mem_usedLanes c' h' j).mp hj⟩)

/-- Settles O54. -/
theorem writeConflicts : Obligations.WriteConflicts := by
  intro s c c' h h' v w idle notDid notDid' known known'
  obtain ⟨log, outs, draws, hu⟩ := issue_pending (c := ⟨c, false⟩) idle rfl
    (ldi_done s (s.maskFor c) ⟨c, false⟩ v notDid)
  generalize hes : s.destWrites (s.maskFor c) h (fun _ => v.toInt) = es at hu
  have knownU := known'.pending (by rintro _ _ _ ⟨⟩) log outs draws es
  have reads := s.pending_reads log outs draws es
  have book : (s.pending log outs draws es).cycle = s.cycle := rfl
  generalize hu' : s.pending log outs draws es = u at *
  have second := ldi_done u (u.maskFor c') ⟨c', true⟩ w notDid'
  obtain ⟨t, ht, raises, commits⟩ := issue_last (c := ⟨c', true⟩) idle rfl hu'.symm second
  refine ⟨u, t, (exec_known known).trans hu, (exec_known knownU).trans ht, fun collide => raises ?_, fun apart => ?_⟩
  · rw [← hes]
    exact (destWrites_clash (c := ⟨c, false⟩) (c' := ⟨c', true⟩)).mpr collide
  have clean : clash es (u.destWrites (u.maskFor c') h' fun _ => w.toInt) = false := by
    rw [Bool.eq_false_iff, ← hes]
    exact fun hc => apart ((destWrites_clash (c := ⟨c, false⟩) (c' := ⟨c', true⟩)).mp hc)
  have inFirst : writesIn (s.handleTargets ⟨c, false⟩ h) es := hes ▸ destWrites_in s _ h _
  generalize hes' : u.destWrites (u.maskFor c') h' (fun _ => w.toInt) = es' at *
  have inSecond : writesIn (u.handleTargets ⟨c', true⟩ h') es' := hes' ▸ destWrites_in u _ h' _
  have committed := commits clean
  have agu : aguLast (es ++ es') = es ++ es' := by
    have := aguLast_append (ys := []) (append_agu (hes ▸ destWrites_agu s _ h _) (hes' ▸ destWrites_agu u _ h' _))
      (fun _ hw => nomatch hw)
    simpa using this
  refine ⟨committed.faultRec.trans idle.noFault, committed.cycle, committed.same _ (writesIn_append
    (fun w hw l hl => Or.inl (inFirst w hw l hl)) fun w hw l hl => Or.inr (inSecond w hw l hl)), fun fields => ?_⟩
  have final : ∀ l, SameAt ((s.applyAll es).applyAll es') t l := fun l => by
    rw [← State.applyAll_append]
    exact committed.sameAt agu l
  constructor
  · have written := written_of_applyAll s (s.maskFor c) h fun _ => v.toInt
    rw [hes] at written
    exact written.of_sameAt fun l hl =>
      ((State.applyAll_same _ es' _ inSecond).sameAt (targets_apart apart fields hl)).trans (final l)
  · have written := written_of_applyAll u (u.maskFor c') h' fun _ => w.toInt
    rw [hes'] at written
    refine written.of_sameAt fun l hl => ?_
    have untouched : SameAt s (s.applyAll es) l :=
      (State.applyAll_same s es _ inFirst).sameAt fun hl' => targets_apart apart fields hl' hl
    have start : SameAt u (s.applyAll es) l := (reads.same.sameAt id).symm.trans untouched
    exact (start.applyAll ((s.applyAll_book es).cycle.trans book.symm)
      ((s.applyAll_book es).cfg.trans reads.same.cfg.symm) es').trans (final l)

end Sys2Proof.Machine
end

section
/-!
# Unspecified values (R64, R335)
-/
namespace Sys2Proof.Machine

/-! ## `UNINIT_READ = fault` -/

theorem State.firstUnset_fault {s : State} (fault : s.cfg.uninitRead = .fault) {p : Place} (hp : s.unset p = true)
    {ps : List Place} (h : p ∈ ps) : ∃ q, s.firstUnset ps = some q := by
  rw [State.firstUnset, fault]
  exact Option.isSome_iff_exists.mp (List.find?_isSome.mpr ⟨p, h, hp⟩)

theorem State.firstUnset_held {s : State} (held : s.cfg.uninitRead = .held) (ps : List Place) :
    s.firstUnset ps = none := by
  rw [State.firstUnset, held]

/-- A store never fails, once its places have been read. -/
theorem stPost_done (c : Ctl) (src : Handle) (k n : Fin 8) (s : State) (m : PerLane Bool) :
    ∃ warns es, opOf (.stPost c src k n) s m = .done warns es := by
  cases any : s.execAny m with
  | true => exact ⟨_, _, storeWord_performed (s := s) (mask := m) src (.post k n) any⟩
  | false => exact ⟨_, _, storeWord_idle (s := s) (mask := m) src (.post k n) any⟩

/-- Only some loads and stores read places after the checks that may fail. -/
theorem laterPlaces_forms {s : State} {m : PerLane Bool} {i : Instr} {p : Place} (h : p ∈ s.laterPlaces m i)
    (notLd : ∀ c dst k n, i ≠ .ldPost c dst k n) (notLdd : ∀ c dst k n, i ≠ .lddPost c dst k n)
    (notStd : ∀ c src a, i ≠ .stdDirect c src a) (notStdPost : ∀ c src k n, i ≠ .stdPost c src k n) :
    ∃ c src k n, i = .stPost c src k n := by
  rw [State.laterPlaces_eq] at h
  split at h
  · cases i with
    | ldPost c dst k n => exact absurd rfl (notLd c dst k n)
    | lddPost c dst k n => exact absurd rfl (notLdd c dst k n)
    | stdDirect c src a => exact absurd rfl (notStd c src a)
    | stdPost c src k n => exact absurd rfl (notStdPost c src k n)
    | stPost c src k n => exact ⟨c, src, k, n, rfl⟩
    | _ => cases h
  · cases h

/-- The state under `UNINIT_READ = held`. -/
def State.asHeld (s : State) : State := { s with cfg := { s.cfg with uninitRead := .held } }

theorem State.maskFor_asHeld {s : State} (fault : s.cfg.uninitRead = .fault) (c : Cond) :
    s.asHeld.maskFor c = s.maskFor c := by
  have drawn : s.drawn = s := State.drawn_held (Or.inl (by simp [fault]))
  have drawnHeld : s.asHeld.drawn = s.asHeld := State.drawn_held (Or.inl (by simp [State.asHeld]))
  simp only [State.maskFor, drawn, drawnHeld]
  rfl

/-- An operation that reads an unspecified place fails: with F_UNINIT, or with an error of its own, which comes
before its last reads. -/
theorem checked_unspecified {s : State} {i : Instr} {m : PerLane Bool} {p : Place} (fault : s.cfg.uninitRead = .fault)
    (hp : p ∈ s.condPlaces i.ctl.cond ++ s.sourcePlaces m i ++ s.laterPlaces m i) (unset : s.unset p = true) :
    (∃ warns q, checked i (opOf i) s m = .fail warns (fUninit q))
      ∨ ∃ warns e, opOf i s m = .fail warns e ∧ checked i (opOf i) s m = .fail warns e ∧ p ∈ s.laterPlaces m i := by
  have drawn : s.drawn = s := State.drawn_held (Or.inl (by simp [fault]))
  have specified : ∀ {ps}, s.firstUnset ps = none → p ∉ ps := by
    intro ps none hp
    obtain ⟨q, hq⟩ := State.firstUnset_fault fault unset hp
    rw [none] at hq
    cases hq
  cases hc : s.firstUnset (s.condPlaces i.ctl.cond) with
  | some q => exact Or.inl ⟨[], q, by simp only [checked, hc]⟩
  | none =>
    cases hs : s.firstUnset (s.sourcePlaces m i) with
    | some q => exact Or.inl ⟨s.warnsUpTo q (s.sourcePlaces m i), q, by simp only [checked, hc, hs]⟩
    | none =>
      have later : p ∈ s.laterPlaces m i := by
        simp only [List.mem_append] at hp
        exact hp.resolve_left fun h => h.elim (specified hc) (specified hs)
      cases op : opOf i s m with
      | done warns es =>
        obtain ⟨q, hq⟩ := State.firstUnset_fault fault unset later
        exact Or.inl ⟨_, q, by simp only [checked, hc, hs, drawn, op, hq]; rfl⟩
      | fail warns e => exact Or.inr ⟨warns, e, rfl, by simp only [checked, hc, hs, drawn, op], later⟩

/-- An error that an operation records of its own it records under `UNINIT_READ = held` too. -/
theorem exec_asHeld {s : State} {i : Instr} {warns : List Warn} {e : CoreErr} (idle : s.Idle)
    (fault : s.cfg.uninitRead = .fault) (op : opOf i s (s.maskFor i.ctl.cond) = .fail warns e) :
    ∃ u, exec i s.asHeld = .next u ∧ Raises e 0 s.asHeld u := by
  have held : s.asHeld.cfg.uninitRead = .held := rfl
  have drawn : s.asHeld.drawn = s.asHeld := State.drawn_held (Or.inl (by simp [held]))
  have opHeld : opOf i s.asHeld (s.asHeld.maskFor i.ctl.cond) = .fail warns e := by
    rw [State.maskFor_asHeld fault, State.asHeld, opOf_uninitRead, op]
  have checks : checked i (opOf i) s.asHeld (s.asHeld.maskFor i.ctl.cond) = .fail warns e := by
    simp only [checked, State.firstUnset_held held, drawn, opHeld]
  have idleHeld : s.asHeld.Idle := ⟨idle.noFault, idle.slot, idle.staged, idle.outs⟩
  obtain ⟨u, hu, raises, _⟩ := issue_fail idleHeld checks
  exact ⟨u, (exec_eq i s.asHeld).trans hu, raises⟩

/-- Settles O58. -/
theorem unspecifiedReadsFault : Obligations.UnspecifiedReadsFault := by
  intro s i p idle fault hp unset
  rw [exec_eq]
  rcases checked_unspecified fault hp unset with ⟨warns, q, fails⟩ | ⟨warns, e, op, fails, later⟩
  · obtain ⟨t, ht, raises, _⟩ := issue_fail idle fails
    exact ⟨t, _, ht, raises, fun _ _ _ _ => rfl, Or.inl rfl⟩
  · obtain ⟨t, ht, raises, _⟩ := issue_fail idle fails
    obtain ⟨u, hu, raisesHeld⟩ := exec_asHeld idle fault op
    refine ⟨t, e, ht, raises, fun notLd notLdd notStd notStdPost => ?_,
      Or.inr ⟨u, hu, raisesHeld.record.trans raises.record.symm⟩⟩
    obtain ⟨c, src, k, n, rfl⟩ := laterPlaces_forms later notLd notLdd notStd notStdPost
    obtain ⟨_, _, done⟩ := stPost_done c src k n s (s.maskFor c.cond)
    cases op.symm.trans done

end Sys2Proof.Machine
end

section
/-!
# `UNINIT_READ = draw` (R64, R335)

An operation that draws does what it does in the state that has the drawn values: the two states agree at every
specified place, and effects keep that.
-/
namespace Sys2Proof.Machine

/-! ## Effects keep the agreement -/

theorem State.unset_before {s : State} {w : Write} {p q : Place} (h : (s.applyWrite w).unset p = false)
    (aged : w.ages q = some p) : s.unset q = false := by
  rw [Bool.eq_false_iff, Ne, State.unset_iff] at *
  exact fun hq => h ((s.mem_applyWrite w p).mpr ⟨q, hq, aged⟩)

section
variable {w : Write}

theorem Write.onReg_agrees {k : Fin 32} {j : Lane} {x y : Data}
    (h : w.ages (.reg k j) = some (.reg k j) → y = x) : w.onReg k j y = w.onReg k j x := by
  cases w with
  | reg k' j' v =>
    by_cases hit : k' = k ∧ j' = j
    · simp only [Write.onReg, hit, and_self, if_true]
    · simp only [Write.onReg, if_neg hit]
      exact h (by simp only [Write.ages, if_neg hit])
  | _ => exact h rfl

/-- The value of one field of an accumulator. -/
def Acc.field (a : Acc) : AccField → Nat
  | .h => a.h.toNat
  | .m => a.m.toNat
  | .l => a.l.toNat

theorem Write.onAcc_agrees {n : Fin 8} {j : Lane} {f : AccField} {x y : Acc}
    (h : w.ages (.acc n j f) = some (.acc n j f) → y.field f = x.field f) :
    (w.onAcc n j y).field f = (w.onAcc n j x).field f := by
  cases w with
  | acc n' j' p v =>
    by_cases hit : n' = n ∧ j' = j
    · by_cases covers : p.covers f = true
      · simp only [Write.onAcc, hit, and_self, if_true]
        cases p <;> cases f
        any_goals rfl
        all_goals cases covers
      · have aged := h (by simp [Write.ages, hit, covers])
        simp only [Write.onAcc, hit, and_self, if_true]
        cases p <;> cases f
        any_goals exact aged
        all_goals exact absurd rfl covers
    · simp only [Write.onAcc, if_neg hit]
      exact h (by simp only [Write.ages]; rw [if_neg fun c => hit ⟨c.1, c.2.1⟩])
  | _ => exact h rfl

/-- What a push leaves in a slot depends on the slot it moves there. -/
theorem Hazard.push_agrees {e f : Hazard 16} {x : Slot} {v : Half} {c : Nat}
    (h : ∀ y, y.older = some x → f.value y = e.value y) : (f.push v c).value x = (e.push v c).value x := by
  cases x with
  | cur => rfl
  | bk0 => exact h .cur rfl
  | bk1 => exact h .bk0 rfl

theorem Write.ages_haz_same {r : HazReg} {v : Half} {x y : Slot} (h : y.older = some x) :
    (Write.haz r v).ages (.haz r y) = some (.haz r x) := by
  simp [Write.ages, h]

theorem Write.ages_haz_other {r r' : HazReg} (h : r' ≠ r) (v : Half) (x : Slot) :
    (Write.haz r' v).ages (.haz r x) = some (.haz r x) := by
  simp [Write.ages, h]

/-- Two entries before one effect: equal in each slot that moves to `x`, they are equal in `x` after it. -/
def SlotsAgree (w : Write) (r : HazReg) (e f : Hazard 16) (x : Slot) : Prop :=
  ∀ y, w.ages (.haz r y) = some (.haz r x) → f.value y = e.value y

variable {e f : Hazard 16} {c : Nat} {k : Fin 8} {x : Slot}

theorem Write.onI_haz (r : HazReg) (v : Half) :
    Write.onI c k e (.haz r v) = if r = .i k then e.push v c else e := by
  cases r <;> simp [Write.onI]

theorem Write.onM_haz (r : HazReg) (v : Half) :
    Write.onM c k e (.haz r v) = if r = .m k then e.push v c else e := by
  cases r <;> simp [Write.onM]

theorem Write.onL_haz (r : HazReg) (v : Half) :
    Write.onL c k e (.haz r v) = if r = .l k then e.push v c else e := by
  cases r <;> simp [Write.onL]

theorem Write.onB_haz (r : HazReg) (v : Half) :
    Write.onB c k e (.haz r v) = if r = .b k then e.push v c else e := by
  cases r <;> simp [Write.onB]

theorem Write.onCntr_haz (r : HazReg) (v : Half) :
    Write.onCntr c e (.haz r v) = if r = .cntr then e.push v c else e := by
  cases r <;> simp [Write.onCntr]

/-- A push of one register or another. -/
theorem push_agrees {r r' : HazReg} {v : Half} (h : SlotsAgree (.haz r' v) r e f x) :
    (if r' = r then f.push v c else f).value x = (if r' = r then e.push v c else e).value x := by
  by_cases hit : r' = r
  · subst hit
    rw [if_pos rfl, if_pos rfl]
    exact Hazard.push_agrees fun y hy => h y (Write.ages_haz_same hy)
  · rw [if_neg hit, if_neg hit]
    exact h x (Write.ages_haz_other hit v x)

theorem Write.onI_agrees (h : SlotsAgree w (.i k) e f x) : (w.onI c k f).value x = (w.onI c k e).value x := by
  cases w with
  | haz r v =>
    rw [Write.onI_haz, Write.onI_haz]
    exact push_agrees h
  | agu k' v =>
    by_cases hit : k' = k
    · simp only [Write.onI, hit, if_true]
    · simp only [Write.onI, if_neg hit]
      exact h x (by simp only [Write.ages, if_neg hit])
  | _ => exact h x rfl

theorem Write.onM_agrees (h : SlotsAgree w (.m k) e f x) : (w.onM c k f).value x = (w.onM c k e).value x := by
  cases w with
  | haz r v =>
    rw [Write.onM_haz, Write.onM_haz]
    exact push_agrees h
  | _ => exact h x rfl

theorem Write.onL_agrees (h : SlotsAgree w (.l k) e f x) : (w.onL c k f).value x = (w.onL c k e).value x := by
  cases w with
  | haz r v =>
    rw [Write.onL_haz, Write.onL_haz]
    exact push_agrees h
  | _ => exact h x rfl

theorem Write.onB_agrees (h : SlotsAgree w (.b k) e f x) : (w.onB c k f).value x = (w.onB c k e).value x := by
  cases w with
  | haz r v =>
    rw [Write.onB_haz, Write.onB_haz]
    exact push_agrees h
  | _ => exact h x rfl

theorem Write.onCntr_agrees (h : SlotsAgree w .cntr e f x) : (w.onCntr c f).value x = (w.onCntr c e).value x := by
  cases w with
  | haz r v =>
    rw [Write.onCntr_haz, Write.onCntr_haz]
    exact push_agrees h
  | _ => exact h x rfl

theorem push_stamps {P : Prop} [Decidable P] {v : Half} (h : f.stamps = e.stamps) :
    (if P then f.push v c else f).stamps = (if P then e.push v c else e).stamps := by
  simp only [Hazard.stamps, Prod.mk.injEq] at h
  obtain ⟨cur, bk0, _⟩ := h
  split
  · simp [Hazard.stamps, Hazard.push, cur, bk0]
  · simpa [Hazard.stamps, cur, bk0]

theorem Write.onI_stamps (w : Write) (h : f.stamps = e.stamps) : (w.onI c k f).stamps = (w.onI c k e).stamps := by
  cases w with
  | haz r v =>
    rw [Write.onI_haz, Write.onI_haz]
    exact push_stamps h
  | agu k' v =>
    simp only [Write.onI]
    split
    · rfl
    · exact h
  | _ => exact h

theorem Write.onM_stamps (w : Write) (h : f.stamps = e.stamps) : (w.onM c k f).stamps = (w.onM c k e).stamps := by
  cases w with
  | haz r v =>
    rw [Write.onM_haz, Write.onM_haz]
    exact push_stamps h
  | _ => exact h

theorem Write.onL_stamps (w : Write) (h : f.stamps = e.stamps) : (w.onL c k f).stamps = (w.onL c k e).stamps := by
  cases w with
  | haz r v =>
    rw [Write.onL_haz, Write.onL_haz]
    exact push_stamps h
  | _ => exact h

theorem Write.onB_stamps (w : Write) (h : f.stamps = e.stamps) : (w.onB c k f).stamps = (w.onB c k e).stamps := by
  cases w with
  | haz r v =>
    rw [Write.onB_haz, Write.onB_haz]
    exact push_stamps h
  | _ => exact h

theorem Write.onCntr_stamps (w : Write) (h : f.stamps = e.stamps) :
    (w.onCntr c f).stamps = (w.onCntr c e).stamps := by
  cases w with
  | haz r v =>
    rw [Write.onCntr_haz, Write.onCntr_haz]
    exact push_stamps h
  | _ => exact h

theorem Write.onCtl_agrees {r : CtlReg} {x y : Half} (h : w.ages (.ctl r) = some (.ctl r) → y = x) :
    w.onCtl r y = w.onCtl r x := by
  cases w with
  | ctl r' v =>
    by_cases hit : r' = r
    · simp only [Write.onCtl, hit, if_true]
    · simp only [Write.onCtl, if_neg hit]
      exact h (by simp only [Write.ages, if_neg hit])
  | _ => exact h rfl

end

section
variable {s v : State}

theorem Agrees.applyWrite (h : Agrees s v) (w : Write) : Agrees (s.applyWrite w) (v.applyWrite w) where
  reg k j hu := by
    rw [State.applyWrite_reg, State.applyWrite_reg]
    exact Write.onReg_agrees fun aged => h.reg k j (State.unset_before hu aged)
  accH n j hu := by
    rw [State.applyWrite_accLane, State.applyWrite_accLane]
    exact BitVec.eq_of_toNat_eq (Write.onAcc_agrees (f := .h) fun aged =>
      congrArg BitVec.toNat (h.accH n j (State.unset_before hu aged)))
  accM n j hu := by
    rw [State.applyWrite_accLane, State.applyWrite_accLane]
    exact BitVec.eq_of_toNat_eq (Write.onAcc_agrees (f := .m) fun aged =>
      congrArg BitVec.toNat (h.accM n j (State.unset_before hu aged)))
  accL n j hu := by
    rw [State.applyWrite_accLane, State.applyWrite_accLane]
    exact BitVec.eq_of_toNat_eq (Write.onAcc_agrees (f := .l) fun aged =>
      congrArg BitVec.toNat (h.accL n j (State.unset_before hu aged)))
  i k x hu := by
    rw [State.applyWrite_i, State.applyWrite_i, h.cycle]
    exact Write.onI_agrees fun y aged => h.i k y (State.unset_before hu aged)
  m k x hu := by
    rw [State.applyWrite_m, State.applyWrite_m, h.cycle]
    exact Write.onM_agrees fun y aged => h.m k y (State.unset_before hu aged)
  l k x hu := by
    rw [State.applyWrite_l, State.applyWrite_l, h.cycle]
    exact Write.onL_agrees fun y aged => h.l k y (State.unset_before hu aged)
  b k x hu := by
    rw [State.applyWrite_b, State.applyWrite_b, h.cycle]
    exact Write.onB_agrees fun y aged => h.b k y (State.unset_before hu aged)
  cntr x hu := by
    rw [State.applyWrite_cntr, State.applyWrite_cntr, h.cycle]
    exact Write.onCntr_agrees fun y aged => h.cntr y (State.unset_before hu aged)
  stamps k := by
    obtain ⟨i, m, l, b, cntr⟩ := h.stamps k
    simp only [State.applyWrite_i, State.applyWrite_m, State.applyWrite_l, State.applyWrite_b, State.applyWrite_cntr,
      h.cycle]
    exact ⟨w.onI_stamps i, w.onM_stamps m, w.onL_stamps l, w.onB_stamps b, w.onCntr_stamps cntr⟩
  ctl r hu := by
    rw [State.applyWrite_ctl, State.applyWrite_ctl]
    exact Write.onCtl_agrees fun aged => h.ctl r (State.unset_before hu aged)
  flags c j := by rw [State.applyWrite_flags, State.applyWrite_flags, h.flags]
  umcount j := by rw [State.applyWrite_umcount, State.applyWrite_umcount, h.umcount]
  ovcnt j := by rw [State.applyWrite_ovcnt, State.applyWrite_ovcnt, h.ovcnt]
  mstat := by rw [State.applyWrite_mstat, State.applyWrite_mstat, h.mstat, h.cycle]
  en := by rw [State.applyWrite_en, State.applyWrite_en, h.en, h.cfg]
  master := by rw [State.applyWrite_master, State.applyWrite_master, h.master, h.cfg]
  mem a j := by rw [State.applyWrite_memLane, State.applyWrite_memLane, h.mem]
  cfg := (v.applyWrite_book w).cfg.trans (h.cfg.trans (s.applyWrite_book w).cfg.symm)
  cycle := (v.applyWrite_book w).cycle.trans (h.cycle.trans (s.applyWrite_book w).cycle.symm)
  faultRec := (v.applyWrite_book w).faultRec.trans (h.faultRec.trans (s.applyWrite_book w).faultRec.symm)
  log := (v.applyWrite_book w).log.trans (h.log.trans (s.applyWrite_book w).log.symm)
  out := (v.applyWrite_book w).out.trans (h.out.trans (s.applyWrite_book w).out.symm)
  sstatIn := (v.applyWrite_book w).sstatIn.trans (h.sstatIn.trans (s.applyWrite_book w).sstatIn.symm)
  site := (v.applyWrite_book w).site.trans (h.site.trans (s.applyWrite_book w).site.symm)

theorem Agrees.applyAll (h : Agrees s v) (ws : List Write) : Agrees (s.applyAll ws) (v.applyAll ws) := by
  induction ws generalizing s v with
  | nil => exact h
  | cons w ws ih => exact ih (h.applyWrite w)

/-- States that read the same agree with what the states they come from agree with. -/
theorem Agrees.of_reads {s' v' : State} (h : Agrees s v) (rs : sameReads s s') (rv : sameReads v v')
    (cycle : v'.cycle = s'.cycle) (faultRec : v'.faultRec = s'.faultRec) (log : v'.log = s'.log)
    (out : v'.out = s'.out) (sstatIn : v'.sstatIn = s'.sstatIn) (site : v'.site = s'.site) : Agrees s' v' := by
  have old : ∀ {p}, s'.unset p = false → s.unset p = false := fun {p} hp => (rs.same.unset p id).symm.trans hp
  have s0 := rs.same
  have v0 := rv.same
  exact {
    reg := fun k j hu => (v0.reg k j id).trans ((h.reg k j (old hu)).trans (s0.reg k j id).symm)
    accH := fun n j hu => by rw [v0.acc n j id, s0.acc n j id, h.accH n j (old hu)]
    accM := fun n j hu => by rw [v0.acc n j id, s0.acc n j id, h.accM n j (old hu)]
    accL := fun n j hu => by rw [v0.acc n j id, s0.acc n j id, h.accL n j (old hu)]
    i := fun k x hu => by rw [v0.i k id, s0.i k id, h.i k x (old hu)]
    m := fun k x hu => by rw [v0.m k id, s0.m k id, h.m k x (old hu)]
    l := fun k x hu => by rw [v0.l k id, s0.l k id, h.l k x (old hu)]
    b := fun k x hu => by rw [v0.b k id, s0.b k id, h.b k x (old hu)]
    cntr := fun x hu => by rw [v0.cntr id, s0.cntr id, h.cntr x (old hu)]
    stamps := fun k => by
      rw [v0.i k id, s0.i k id, v0.m k id, s0.m k id, v0.l k id, s0.l k id, v0.b k id, s0.b k id, v0.cntr id, s0.cntr id]
      exact h.stamps k
    ctl := fun c hu => by rw [v0.ctl c id, s0.ctl c id, h.ctl c (old hu)]
    flags := fun c j => by rw [v0.flags c j id, s0.flags c j id, h.flags c j]
    umcount := fun j => by rw [v0.umcount j id, s0.umcount j id, h.umcount j]
    ovcnt := fun j => by rw [v0.ovcnt j id, s0.ovcnt j id, h.ovcnt j]
    mstat := by rw [v0.mstat id, s0.mstat id, h.mstat]
    en := by rw [v0.en id, s0.en id, h.en]
    master := by rw [v0.master id, s0.master id, h.master]
    mem := fun a j => by rw [v0.mem a j id, s0.mem a j id, h.mem a j]
    cfg := by rw [v0.cfg, s0.cfg, h.cfg]
    cycle := cycle
    faultRec := faultRec
    log := log
    out := out
    sstatIn := sstatIn
    site := site }

end

/-! ## One operation on states that agree -/

section
variable {s v : State} (h : Agrees s v)
include h

theorem Agrees.condWarns (c : Cond) : v.condWarns c = s.condWarns c := by
  obtain ⟨_, _, _, _, cntr⟩ := h.stamps 0
  simp only [Hazard.stamps, Prod.mk.injEq] at cntr
  have stale : v.stale .cntr = s.stale .cntr := by simp only [State.stale, Hazard.staleAt, cntr.1, h.cycle]
  have warns : v.staleWarns [.cntr] = s.staleWarns [.cntr] := by
    simp [State.staleWarns, firstReads, List.filter_cons, stale]
  simp only [State.condWarns, warns]

theorem Agrees.slotOut (m : PerLane Bool) : v.slotOut m = s.slotOut m := by
  have executing : v.executing m = s.executing m := by
    funext j
    simp [State.executing, State.enabled, h.en, h.cfg]
  have master : v.isMaster = s.isMaster := by
    funext j
    simp [State.isMaster, h.master, h.cfg]
  simp only [State.slotOut, State.trueCount, State.execLanes, State.taken, executing, master]

theorem Agrees.event (slot : v.slot = s.slot) : v.event = s.event := by
  funext w
  simp only [State.event, slot, h.site, h.cycle]

/-- The end of a bundle on states that agree. -/
theorem Agrees.close (staged : v.staged = s.staged) (outs : v.outs = s.outs) : Agrees s.close v.close := by
  unfold State.close
  rw [staged]
  cases firstConflict [] s.staged with
  | some k =>
    exact h.of_reads (State.raiseAt_reads _ _ _) (State.raiseAt_reads _ _ _) (by simp [h.cycle])
      (by simp [h.faultRec, h.site, h.cycle]) (by simp [h.log]) (by simp [h.out]) (by simp [h.sstatIn]) (by simp [h.site])
  | none =>
    have applied := h.applyAll (aguLast s.staged.flatten)
    have readsV := v.commit_reads
    rw [staged] at readsV
    refine applied.of_reads s.commit_reads readsV ?_ ?_ ?_ ?_ ?_ ?_
    · rw [v.commit_committed.cycle, s.commit_committed.cycle, h.cycle]
    · rw [v.commit_committed.faultRec, s.commit_committed.faultRec, h.faultRec]
    · rw [v.commit_log, s.commit_log, h.log]
    · rw [v.commit_out, s.commit_out, outs]
    · rw [v.commit_committed.sstatIn, s.commit_committed.sstatIn, h.sstatIn]
    · rw [v.commit_committed.site, s.commit_committed.site, h.site]

/-- The bundle of one operation on states that agree. -/
theorem Agrees.issue_next (idle : s.Idle) (idleV : v.Idle) {c : Ctl} {op : State → PerLane Bool → OpResult}
    (mask : v.maskFor c.cond = s.maskFor c.cond) (same : op v (s.maskFor c.cond) = op s (s.maskFor c.cond)) :
    ∃ t u, issue c op s = .next t ∧ issue c op v = .next u ∧ Agrees t u := by
  have slot : v.slot = s.slot := idleV.slot.trans idle.slot.symm
  have event := h.event slot
  cases hop : op s (s.maskFor c.cond) with
  | fail warns e =>
    refine ⟨_, _, by simp only [issue, idle.noFault, hop]; rfl, by
      simp only [issue, idleV.noFault, mask, same, hop, h.condWarns, slot]; rfl, ?_⟩
    exact h.of_reads ((s.warn_reads _).trans (State.raiseAt_reads _ _ _))
      ((v.warn_reads _).trans (State.raiseAt_reads _ _ _)) (by simp [h.cycle]) (by simp [h.faultRec, h.site, h.cycle])
      (by simp [h.log, event]) (by simp [h.out]) (by simp [h.sstatIn]) (by simp [h.site])
  | done warns es =>
    have staged : Agrees ((s.warn (s.condWarns c.cond ++ warns)).stage (s.slotOut (s.maskFor c.cond)) es)
        ((v.warn (s.condWarns c.cond ++ warns)).stage (s.slotOut (s.maskFor c.cond)) es) :=
      h.of_reads ((s.warn_reads _).trans (State.stage_reads _ _ _)) ((v.warn_reads _).trans (State.stage_reads _ _ _))
        (by simp [h.cycle]) (by simp [h.faultRec]) (by simp [h.log, event]) (by simp [h.out]) (by simp [h.sstatIn])
        (by simp [h.site])
    refine ⟨_, _, by simp only [issue, idle.noFault, hop]; rfl, by
      simp only [issue, idleV.noFault, mask, same, hop, h.condWarns, h.slotOut]; rfl, ?_⟩
    cases c.eob with
    | false => exact staged
    | true => exact staged.close (by simp [idle.staged, idleV.staged]) (by simp [idle.outs, idleV.outs])

end

/-! ## The state that has the drawn values -/

/-- The state with the values that an operation at `s` draws, nothing of it unspecified. -/
def State.settledDraw (s : State) : State := s.drawAll.withUnwritten []

section
variable {s : State} (draw : s.cfg.uninitRead = .draw)
include draw

theorem State.drawn_drawAll : s.drawAll = s.drawn := by rw [State.drawn, draw]

theorem State.agrees_settledDraw : Agrees s s.settledDraw := by
  have drawn := State.drawn_drawAll draw
  exact {
    reg := fun k j hu => by simp [State.settledDraw, State.drawAll, State.reg, Vector.get_ofFn, hu]
    accH := fun n j hu => by
      simp [State.settledDraw, State.drawAll, State.accLane, Vector.get_ofFn, State.drawnAcc, hu]
    accM := fun n j hu => by
      simp [State.settledDraw, State.drawAll, State.accLane, Vector.get_ofFn, State.drawnAcc, hu]
    accL := fun n j hu => by
      simp [State.settledDraw, State.drawAll, State.accLane, Vector.get_ofFn, State.drawnAcc, hu]
    i := fun k x hu => by
      cases x <;> simp [State.settledDraw, State.drawAll, Vector.get_ofFn, State.drawnEntry, Hazard.value, hu]
    m := fun k x hu => by
      cases x <;> simp [State.settledDraw, State.drawAll, Vector.get_ofFn, State.drawnEntry, Hazard.value, hu]
    l := fun k x hu => by
      cases x <;> simp [State.settledDraw, State.drawAll, Vector.get_ofFn, State.drawnEntry, Hazard.value, hu]
    b := fun k x hu => by
      cases x <;> simp [State.settledDraw, State.drawAll, Vector.get_ofFn, State.drawnEntry, Hazard.value, hu]
    cntr := fun x hu => by cases x <;> simp [State.settledDraw, State.drawAll, State.drawnEntry, Hazard.value, hu]
    stamps := fun k => by
      simp [State.settledDraw, State.drawAll, Vector.get_ofFn, State.drawnEntry, Hazard.stamps]
    ctl := fun c hu => by
      cases c <;> simp [State.settledDraw, State.drawAll, State.ctl, Vector.get_ofFn, State.drawnCtl, hu]
    flags := fun c j => by cases c <;> simp [State.settledDraw, drawn, State.flags]
    umcount := fun j => by simp [State.settledDraw, drawn]
    ovcnt := fun j => by simp [State.settledDraw, drawn]
    mstat := by simp [State.settledDraw, drawn]
    en := by simp [State.settledDraw, drawn]
    master := by simp [State.settledDraw, drawn]
    mem := fun a j => by simp [State.settledDraw, drawn, State.memLane]
    cfg := by simp [State.settledDraw, drawn]
    cycle := by simp [State.settledDraw, drawn]
    faultRec := by simp [State.settledDraw, drawn]
    log := by simp [State.settledDraw, drawn]
    out := by simp [State.settledDraw, drawn]
    sstatIn := by simp [State.settledDraw, drawn]
    site := by simp [State.settledDraw, drawn] }

theorem State.settledDraw_idle (idle : s.Idle) : s.settledDraw.Idle := by
  have drawn := State.drawn_drawAll draw
  exact ⟨by simp [State.settledDraw, drawn, idle.noFault], by simp [State.settledDraw, drawn, idle.slot],
    by simp [State.settledDraw, drawn, idle.staged], by simp [State.settledDraw, drawn, idle.outs]⟩

theorem State.settledDraw_maskFor (c : Cond) : s.settledDraw.maskFor c = s.maskFor c := by
  have settled : s.settledDraw.drawn = s.settledDraw := State.drawn_held (Or.inr rfl)
  have drawn := State.drawn_drawAll draw
  have agrees := State.agrees_settledDraw draw
  have cntr : s.settledDraw.lat .cntr = s.drawn.lat .cntr := by simp [State.settledDraw, drawn, State.lat]
  have draws : s.settledDraw.draws = s.draws := by simp [State.settledDraw, drawn]
  have enabled : s.settledDraw.enabled = s.enabled := by
    funext j
    simp [State.enabled, agrees.en, agrees.cfg]
  simp only [State.maskFor, settled, cntr, draws, enabled, agrees.cfg, agrees.flags]

/-- Where operations draw, nothing stops one: it does what it does with the values drawn. -/
theorem checked_draw (i : Instr) (m : PerLane Bool) : checked i (opOf i) s m = opOf i s.drawn m := by
  have none : ∀ ps, s.firstUnset ps = none := fun ps => by rw [State.firstUnset, draw]
  simp only [checked, none]
  cases opOf i s.drawn m <;> rfl

theorem checked_settledDraw (i : Instr) (m : PerLane Bool) :
    checked i (opOf i) s.settledDraw m = checked i (opOf i) s m := by
  have settled : s.settledDraw.drawn = s.settledDraw := State.drawn_held (Or.inr rfl)
  have drawV : s.settledDraw.cfg.uninitRead = .draw := by rw [(State.agrees_settledDraw draw).cfg, draw]
  rw [checked_draw drawV, checked_draw draw, settled, State.settledDraw, opOf_withUnwritten, State.drawn_drawAll draw]

end

/-- Settles O59. -/
theorem unspecifiedReadsDraw : Obligations.UnspecifiedReadsDraw := by
  intro s i idle draw
  have agrees := State.agrees_settledDraw draw
  have idleV := State.settledDraw_idle draw idle
  obtain ⟨t, u, ht, hu, after⟩ := agrees.issue_next idle idleV (c := i.ctl) (State.settledDraw_maskFor draw _)
    (checked_settledDraw draw i _)
  exact ⟨s.settledDraw, t, u, agrees, rfl, idleV, (exec_eq i s).trans ht, (exec_eq i s.settledDraw).trans hu, after⟩

end Sys2Proof.Machine
end

section
/-!
# What a committed operation leaves unspecified (R56, R64, R85)
-/
namespace Sys2Proof.Machine

/-! ## Unspecified places under effects -/

/-- A write of a hazard-tracked register, which moves its history. -/
def Write.isHaz : Write → Bool
  | .haz _ _ => true
  | _ => false

/-- Effects that move no hazard history. -/
def noHaz (ws : List Write) : Prop := ∀ w ∈ ws, w.isHaz = false

/-- The unspecified places after effects. -/
def ageAll (ws : List Write) (ps : List Place) : List Place := ws.foldl (fun ps w => ps.filterMap w.ages) ps

theorem ageAll_append (xs ys : List Write) (ps : List Place) : ageAll (xs ++ ys) ps = ageAll ys (ageAll xs ps) :=
  List.foldl_append ..

/-- Where a place that is unspecified after an effect was before it. -/
theorem Write.ages_from {w : Write} {p q : Place} (h : w.ages q = some p) :
    q = p ∨ ∃ r v x y, w = .haz r v ∧ q = .haz r x ∧ p = .haz r y ∧ x.older = some y := by
  have kept : ∀ {P : Prop} [Decidable P], (if P then none else some q) = some p → q = p := by
    intro P _ h
    split at h
    · cases h
    · exact Option.some.inj h
  unfold Write.ages at h
  split at h
  next => exact Or.inl (kept h)
  next => exact Or.inl (kept h)
  next r v r' x =>
    split at h
    next hr =>
      subst hr
      obtain ⟨y, hy, rfl⟩ := Option.map_eq_some_iff.mp h
      exact Or.inr ⟨r, v, x, y, rfl, rfl, rfl, hy⟩
    next => exact Or.inl (Option.some.inj h)
  next => exact Or.inl (kept h)
  next => exact Or.inl (kept h)
  next => exact Or.inl (Option.some.inj h)

/-- A place that no effect moves another one to is unspecified only if it was and each effect left it so. -/
theorem mem_ageAll {ws : List Write} {ps : List Place} {p : Place}
    (still : ∀ w ∈ ws, ∀ q, w.ages q = some p → q = p) (h : p ∈ ageAll ws ps) :
    p ∈ ps ∧ ∀ w ∈ ws, w.ages p = some p := by
  induction ws generalizing ps with
  | nil => exact ⟨h, fun w hw => nomatch hw⟩
  | cons w ws ih =>
    obtain ⟨before, rest⟩ := ih (fun w hw => still w (List.mem_cons_of_mem _ hw)) h
    obtain ⟨q, hq, aged⟩ := List.mem_filterMap.mp before
    obtain rfl := still w List.mem_cons_self q aged
    exact ⟨hq, List.forall_mem_cons.mpr ⟨aged, rest⟩⟩

theorem mem_ageAll_iff {ws : List Write} {ps : List Place} {p : Place}
    (kept : ∀ w ∈ ws, ∀ q, w.ages q = some p ↔ q = p) : p ∈ ageAll ws ps ↔ p ∈ ps := by
  induction ws generalizing ps with
  | nil => exact Iff.rfl
  | cons w ws ih =>
    refine (ih fun w hw => kept w (List.mem_cons_of_mem _ hw)).trans ?_
    simp [List.mem_filterMap, kept w List.mem_cons_self]

/-- A write of a hazard-tracked register moves its slots. -/
theorem ages_haz_iff {r : HazReg} {v : Half} {q : Place} {y : Slot} :
    (Write.haz r v).ages q = some (.haz r y) ↔ ∃ z, q = .haz r z ∧ z.older = some y := by
  constructor
  · intro h
    rcases Write.ages_from h with rfl | ⟨r', v', x, y', hw, rfl, hp, older⟩
    · simp only [Write.ages, if_true, Option.map_eq_some_iff] at h
      obtain ⟨z, older, same⟩ := h
      cases same
      exact ⟨y, rfl, older⟩
    · cases hw
      cases hp
      exact ⟨x, rfl, older⟩
  · rintro ⟨z, rfl, older⟩
    exact Write.ages_haz_same older

theorem still_of_noHaz {w : Write} (hw : w.isHaz = false) (p q : Place) (h : w.ages q = some p) : q = p := by
  rcases Write.ages_from h with h | ⟨r, v, x, y, rfl, _⟩
  · exact h
  · cases hw

/-- Only a slot of a hazard history is moved. -/
theorem still_of_place {p : Place} (hp : ∀ r x, p ≠ .haz r x) (w : Write) (q : Place) (h : w.ages q = some p) : q = p := by
  rcases Write.ages_from h with h | ⟨r, v, x, y, _, _, rfl, _⟩
  · exact h
  · exact absurd rfl (hp r y)

theorem mem_aguLast {w : Write} {ws : List Write} : w ∈ aguLast ws ↔ w ∈ ws := by
  simp only [aguLast, List.mem_append, List.mem_filter]
  cases w.isAgu <;> simp

theorem noHaz_append {xs ys : List Write} (hx : noHaz xs) (hy : noHaz ys) : noHaz (xs ++ ys) :=
  fun w hw => (List.mem_append.mp hw).elim (hx w) (hy w)

/-- After effects of which at most one moves a history, an unspecified place was so before, or took over a value
that was. -/
theorem unset_after {ws : List Write} {ps : List Place} {p : Place}
    (one : noHaz ws ∨ ∃ pre r v post, ws = pre ++ .haz r v :: post ∧ noHaz pre ∧ noHaz post) (h : p ∈ ageAll ws ps) :
    p ∈ ps ∨ ∃ r, (p = .haz r .bk0 ∧ .haz r .cur ∈ ps) ∨ (p = .haz r .bk1 ∧ .haz r .bk0 ∈ ps) := by
  have kept : ∀ {xs qs} {q : Place}, noHaz xs → q ∈ ageAll xs qs → q ∈ qs := fun no hq =>
    (mem_ageAll (fun w hw q' => still_of_noHaz (no w hw) _ q') hq).1
  rcases one with no | ⟨pre, r, v, post, rfl, noPre, noPost⟩
  · exact Or.inl (kept no h)
  · rw [ageAll_append] at h
    have h : p ∈ (ageAll pre ps).filterMap (Write.haz r v).ages := kept noPost h
    obtain ⟨q, hq, aged⟩ := List.mem_filterMap.mp h
    have before := kept noPre hq
    rcases Write.ages_from aged with rfl | ⟨r', v', x, y, _, rfl, rfl, older⟩
    · exact Or.inl before
    · refine Or.inr ⟨r', ?_⟩
      cases x with
      | cur =>
        cases older
        exact Or.inl ⟨rfl, before⟩
      | bk0 =>
        cases older
        exact Or.inr ⟨rfl, before⟩
      | bk1 => cases older

/-! ## What each operation writes -/

/-- Effects that move no history, write the registers `regs` and accumulators `accs` in each executing lane, and
step Ik where a lane executes. -/
structure Writes (regs : List (Fin 32)) (accs : List (Fin 8)) (step : Option (Fin 8)) (s : State) (m : PerLane Bool)
    (es : List Write) : Prop where
  noHaz : noHaz es
  regs : ∀ k ∈ regs, ∀ j, s.executing m j = true → ∃ v, .reg k j v ∈ es
  accs : ∀ n ∈ accs, ∀ j, s.executing m j = true → ∃ v, .acc n j .whole v ∈ es
  step : ∀ k, step = some k → s.execAny m = true → ∃ v, .agu k v ∈ es

section
variable {s : State} {m : PerLane Bool} {ws : List Warn} {es : List Write}

/-- Effects lane by lane. -/
theorem writes_lanes {regs : List (Fin 32)} {accs : List (Fin 8)} {L : Lane → List Write}
    (no : ∀ j, noHaz (L j)) (hr : ∀ j, ∀ k ∈ regs, ∃ v, .reg k j v ∈ L j)
    (ha : ∀ j, ∀ n ∈ accs, ∃ v, .acc n j .whole v ∈ L j) :
    Writes regs accs none s m ((s.execLanes m).flatMap L) where
  noHaz w hw := by
    obtain ⟨j, _, hw⟩ := List.mem_flatMap.mp hw
    exact no j w hw
  regs k hk j hj := by
    obtain ⟨v, hv⟩ := hr j k hk
    exact ⟨v, List.mem_flatMap.mpr ⟨j, (s.mem_execLanes m j).mpr hj, hv⟩⟩
  accs n hn j hj := by
    obtain ⟨v, hv⟩ := ha j n hn
    exact ⟨v, List.mem_flatMap.mpr ⟨j, (s.mem_execLanes m j).mpr hj, hv⟩⟩
  step _ h := nomatch h

theorem aluReal_writes {dst : Option (Fin 32)} {f : State → Lane → AluOut} (h : aluReal dst f s m = .done ws es) :
    Writes dst.toList [] none s m es := by
  cases h
  cases dst <;> exact writes_lanes (fun j => by simp [noHaz, State.aluWrite, regWrite, Write.isHaz])
    (fun j => by simp [State.aluWrite, regWrite]) fun j => by simp

theorem bitOp_writes {dst : Option (Fin 32)} {sa : Fin 32} {b : Src} {g : Data → Data → Data}
    (h : bitOp dst sa b g s m = .done ws es) : Writes dst.toList [] none s m es := by
  unfold bitOp at h
  split at h
  · cases h
  · exact aluReal_writes h

theorem aluAcc_writes {dst : Option (Fin 8)} {f : State → Lane → Int × Bool} (h : aluAcc dst f s m = .done ws es) :
    Writes [] dst.toList none s m es := by
  cases h
  cases dst <;> exact writes_lanes (fun j => by simp [noHaz, State.accAluWrite, accWrite, Write.isHaz])
    (fun j => by simp) fun j => by simp [State.accAluWrite, accWrite]

theorem aluPair_writes {dst : Option RPair} {f : State → Lane → AluOut × AluOut}
    (h : aluPair dst f s m = .done ws es) : Writes (pairDests dst) [] none s m es := by
  cases h
  cases dst <;> exact writes_lanes
    (fun j => by simp [noHaz, State.pairWrite, regRe, regIm, regWrite, Write.isHaz])
    (fun j => by simp [State.pairWrite, regRe, regIm, regWrite, pairDests]) fun j => by simp

theorem magOp_writes {dst : Option (Fin 32)} {sa : RPair} (h : magOp dst sa s m = .done ws es) :
    Writes dst.toList [] none s m es := by
  cases h
  cases dst <;> exact writes_lanes (fun j => by simp [noHaz, State.magWrite, regWrite, Write.isHaz])
    (fun j => by simp [State.magWrite, regWrite]) fun j => by simp

theorem rectOp_writes {dst : Option RPair} {sa sb : Fin 32} (h : rectOp dst sa sb s m = .done ws es) :
    Writes (pairDests dst) [] none s m es := by
  cases h
  cases dst <;> exact writes_lanes (fun j => by simp [noHaz, regRe, regIm, regWrite, Write.isHaz])
    (fun j => by simp [regRe, regIm, regWrite, pairDests]) fun j => by simp

theorem noHaz_ovCount (j : Lane) (ov : Bool) : noHaz (ovCount j ov) := by
  cases ov <;> simp [noHaz, ovCount, Write.isHaz]

theorem macReal_writes {dst : Option (Fin 8)} {rnd : Bool} {f : State → Lane → Int}
    (h : macReal dst rnd f s m = .done ws es) : Writes [] dst.toList none s m es := by
  cases h
  cases dst <;> exact writes_lanes
    (fun j => noHaz_append (by simp [noHaz, accWrite, Write.isHaz])
      (List.forall_mem_cons.mpr ⟨rfl, noHaz_ovCount j _⟩))
    (fun j => by simp) fun j => by simp [State.macWrite, accWrite]

theorem accPair_mem (dst : Option AccPair) (j : Lane) (t u : AccWord) : ∀ n ∈ accPairDests dst,
    ∃ v, .acc n j .whole v ∈ accWrite (accRe dst) j t ++ accWrite (accIm dst) j u := by
  cases dst with
  | none => exact fun n hn => nomatch hn
  | some p =>
    intro n hn
    simp only [accPairDests, Option.toList_some, List.flatMap_cons, List.flatMap_nil, List.append_nil, List.mem_cons,
      List.not_mem_nil, or_false] at hn
    rcases hn with rfl | rfl
    · exact ⟨t, by simp [accRe, accWrite]⟩
    · exact ⟨u, by simp [accIm, accWrite]⟩

theorem macPair_writes {dst : Option AccPair} {rnd : Bool} {f : State → Lane → Int × Int}
    (h : macPair dst rnd f s m = .done ws es) : Writes [] (accPairDests dst) none s m es := by
  cases h
  cases dst <;> exact writes_lanes
    (fun j => noHaz_append (noHaz_append (by simp [noHaz, accRe, accIm, accWrite, Write.isHaz]) (noHaz_ovCount j _))
      (noHaz_ovCount j _))
    (fun j => by simp) fun j n hn => by
      obtain ⟨v, hv⟩ := accPair_mem _ j _ _ n hn
      exact ⟨v, List.mem_append_left _ (List.mem_append_left _ (List.mem_append_left _ hv))⟩

theorem rndaccOp_writes {dst : Option (Fin 8)} {sa : Fin 8} (h : rndaccOp dst sa s m = .done ws es) :
    Writes [] dst.toList none s m es := by
  cases h
  cases dst <;> exact writes_lanes
    (fun j => noHaz_append (by simp [noHaz, accWrite, Write.isHaz])
      (List.forall_mem_cons.mpr ⟨rfl, noHaz_ovCount j _⟩))
    (fun j => by simp) fun j => by simp [State.rndaccWrite, accWrite]

theorem clraccOp_writes {dst : Option (Fin 8)} (h : clraccOp dst s m = .done ws es) :
    Writes [] dst.toList none s m es := by
  cases h
  cases dst <;> exact writes_lanes (fun j => by simp [noHaz, accWrite, Write.isHaz]) (fun j => by simp)
    fun j => by simp [accWrite]

theorem shiftReal_writes {dst : Option (Fin 8)} {a : ShiftSrc} {f : State → Lane → Int}
    (h : shiftReal dst a f s m = .done ws es) : Writes [] dst.toList none s m es := by
  cases h
  cases dst <;> exact writes_lanes (fun j => by simp [noHaz, State.shiftWrite, accWrite, Write.isHaz])
    (fun j => by simp) fun j => by simp [State.shiftWrite, accWrite]

theorem shiftOr_writes {dst : Option (Fin 8)} {a : ShiftSrc} {f : State → Lane → Int}
    (h : shiftOr dst a f s m = .done ws es) : Writes [] dst.toList none s m es := by
  cases h
  cases dst <;> exact writes_lanes (fun j => by simp [noHaz, State.shiftWrite, accWrite, Write.isHaz])
    (fun j => by simp) fun j => by simp [State.shiftWrite, accWrite]

theorem shiftPair_writes {dst : Option AccPair} {a : ShiftPair} {f : State → Lane → Int × Int}
    (h : shiftPair dst a f s m = .done ws es) : Writes [] (accPairDests dst) none s m es := by
  cases h
  cases dst <;> exact writes_lanes
    (fun j => by simp [noHaz, State.shiftPairWrite, accRe, accIm, accWrite, Write.isHaz])
    (fun j => by simp) fun j => by simp [State.shiftPairWrite, accRe, accIm, accWrite, accPairDests]

theorem xrdOp_writes {dst src : Fin 32} {act : XAct} {off : Fin 4} (h : xrdOp dst src act off s m = .done ws es) :
    Writes [dst] [] none s m es := by
  unfold xrdOp at h
  split at h
  · cases h
    exact writes_lanes (fun j => by simp [noHaz, Write.isHaz]) (fun j => by simp) fun j => by simp
  · cases h

/-! ### Memory -/

/-- The I register that an address steps. -/
def Addr.steps : Addr → Option (Fin 8)
  | .direct _ => none
  | .post k _ => some k

theorem noHaz_stepWrites (x : Addr) : noHaz (s.stepWrites x) := by
  cases x <;> simp [noHaz, State.stepWrites, Write.isHaz]

theorem mem_stepWrites {x : Addr} {k : Fin 8} (h : x.steps = some k) : ∃ v, .agu k v ∈ s.stepWrites x := by
  cases x with
  | direct a => cases h
  | post k' n =>
    cases h
    exact ⟨_, List.mem_singleton_self _⟩

theorem noHaz_lanes {js : List Lane} {L : Lane → List Write} (h : ∀ j, noHaz (L j)) : noHaz (js.flatMap L) := by
  intro w hw
  obtain ⟨j, _, hw⟩ := List.mem_flatMap.mp hw
  exact h j w hw

theorem noHaz_storeWrites (a : Nat) (v : Lane → Int) : noHaz (s.storeWrites m a v) :=
  List.forall_mem_cons.mpr ⟨rfl, noHaz_lanes fun j => by simp [noHaz, Write.isHaz]⟩

theorem noHaz_umWrites (a : Nat) : noHaz (s.umWrites m a) := by
  unfold State.umWrites
  split
  · split
    · exact noHaz_lanes fun j => by simp [noHaz, Write.isHaz]
    · exact fun w hw => nomatch hw
  · exact fun w hw => nomatch hw

/-- Effects that end with the step of their address. -/
theorem writes_step {x : Addr} {front : List Write} (no : noHaz front) :
    Writes [] [] x.steps s m (front ++ s.stepWrites x) where
  noHaz := noHaz_append no (noHaz_stepWrites x)
  regs k hk := nomatch hk
  accs n hn := nomatch hn
  step k hk _ := by
    obtain ⟨v, hv⟩ := mem_stepWrites (s := s) hk
    exact ⟨v, List.mem_append_right _ hv⟩

theorem writes_idle {regs : List (Fin 32)} {accs : List (Fin 8)} {step : Option (Fin 8)} (off : ¬ s.execAny m = true) :
    Writes regs accs step s m [] where
  noHaz _ hw := nomatch hw
  regs _ _ j hj := absurd ((s.execAny_iff m).mpr ⟨j, hj⟩) off
  accs _ _ j hj := absurd ((s.execAny_iff m).mpr ⟨j, hj⟩) off
  step _ _ any := absurd any off

theorem storeWord_writes {src : Handle} {x : Addr} (h : storeWord src x s m = .done ws es) :
    Writes [] [] x.steps s m es := by
  unfold storeWord at h
  split at h
  next =>
    cases h
    exact writes_step (noHaz_storeWrites _ _)
  next off =>
    cases h
    exact writes_idle off

theorem storePair_writes {src : RPair} {x : Addr} (h : storePair src x s m = .done ws es) :
    Writes [] [] x.steps s m es := by
  unfold storePair at h
  split at h
  next =>
    obtain ⟨_, before, h⟩ := pairAccess_done h
    cases h
    exact writes_step (noHaz_append (noHaz_append (noHaz_umWrites _) (noHaz_storeWrites _ _)) (noHaz_storeWrites _ _))
  next off =>
    cases h
    exact writes_idle off

theorem loadPair_writes {dst : Option RPair} {x : Addr} (h : loadPair dst x s m = .done ws es) :
    Writes (pairDests dst) [] x.steps s m es := by
  unfold loadPair at h
  split at h
  next =>
    obtain ⟨_, before, h⟩ := pairAccess_done h
    simp only at h
    split at h
    · cases h
    · cases h
    · cases h
      have lanes : Writes (pairDests dst) [] none s m ((s.execLanes m).flatMap fun j =>
          regWrite (regRe dst) j (wrap12 (s.loadLane (s.effAddr x) 0 j))
            ++ regWrite (regIm dst) j (wrap12 (s.loadLane (s.effAddr x + 1) 1 j))) := by
        cases dst <;> exact writes_lanes (fun j => by simp [noHaz, regRe, regIm, regWrite, Write.isHaz])
          (fun j => by simp [regRe, regIm, regWrite, pairDests]) fun j => by simp
      have step : Writes [] [] x.steps s m _ := writes_step (front := s.umWrites m (s.effAddr x)
        ++ .memTouch (s.effAddr x) :: .memTouch (s.effAddr x + 1) :: ((s.execLanes m).flatMap fun j =>
          regWrite (regRe dst) j (wrap12 (s.loadLane (s.effAddr x) 0 j))
            ++ regWrite (regIm dst) j (wrap12 (s.loadLane (s.effAddr x + 1) 1 j))))
        (noHaz_append (noHaz_umWrites _)
          (List.forall_mem_cons.mpr ⟨rfl, List.forall_mem_cons.mpr ⟨rfl, lanes.noHaz⟩⟩))
      refine ⟨step.noHaz, fun k hk j hj => ?_, fun n hn => (nomatch hn), step.step⟩
      obtain ⟨v, hv⟩ := lanes.regs k hk j hj
      exact ⟨v, List.mem_append_left _ (List.mem_append_right _ (List.mem_cons_of_mem _ (List.mem_cons_of_mem _ hv)))⟩
  next off =>
    cases h
    exact writes_idle off

theorem modifyOp_writes {k n : Fin 8} (h : modifyOp k n s m = .done ws es) : Writes [] [] (some k) s m es := by
  unfold modifyOp at h
  split at h
  next =>
    cases h
    exact writes_step (x := .post k n) (front := []) (fun w hw => nomatch hw)
  next off =>
    cases h
    exact writes_idle off

/-- XWR writes the enabled target lanes of its executing lanes. -/
theorem xwrOp_writes {dst src : Fin 32} {act : XAct} {off : Fin 4} (h : xwrOp dst src act off s m = .done ws es) :
    Writes [] [] none s m es ∧ ∀ j, s.executing m j = true → s.enabled (otherLane act off j) = true →
      ∃ v, .reg dst (otherLane act off j) v ∈ es := by
  unfold xwrOp at h
  split at h
  · cases h
  · split at h
    · cases h
    · cases h
      refine ⟨⟨?_, fun k hk => (nomatch hk), fun n hn => (nomatch hn), fun k hk => (nomatch hk)⟩, fun j hj enabled => ?_⟩
      · intro w hw
        obtain ⟨j, _, rfl⟩ := List.mem_map.mp hw
        rfl
      · exact ⟨_, List.mem_map.mpr ⟨j, (s.mem_xwrLanes m act off j).mpr ⟨hj, enabled⟩, rfl⟩⟩

/-- Say once what an operation without a handle as destination writes. -/
theorem opOf_writes {i : Instr} (noHandle : i.handleDest = none) (h : opOf i s m = .done ws es) :
    Writes i.regDests i.accDests i.steps s m es := by
  unfold opOf at h
  cases i with
  | add | addc | sub | subc | subb | subbc | and | or | xor | not | abs | inc | dec | scr => exact aluReal_writes h
  | tstbit | setbit | clrbit | tglbit => exact bitOp_writes h
  | addA | subA => exact aluAcc_writes h
  | addC | subC | rccwC | rcwC => exact aluPair_writes h
  | magC => exact magOp_writes h
  | rectC => exact rectOp_writes h
  | mpy | mac | mas => exact macReal_writes h
  | mpyC | macC | masC | mpyRC | macRC | masRC => exact macPair_writes h
  | rndacc => exact rndaccOp_writes h
  | clracc => exact clraccOp_writes h
  | ashift | lshift => exact shiftReal_writes h
  | ashiftor | lshiftor => exact shiftOr_writes h
  | ashiftC | lshiftC => exact shiftPair_writes h
  | stDirect _ _ a => exact storeWord_writes (x := .direct a) h
  | stPost _ _ k n => exact storeWord_writes (x := .post k n) h
  | lddDirect _ _ a => exact loadPair_writes (x := .direct a) h
  | lddPost _ _ k n => exact loadPair_writes (x := .post k n) h
  | stdDirect _ _ a => exact storePair_writes (x := .direct a) h
  | stdPost _ _ k n => exact storePair_writes (x := .post k n) h
  | modify => exact modifyOp_writes h
  | xrd => exact xrdOp_writes h
  | xwr => exact (xwrOp_writes h).1
  | nop =>
    cases h
    exact ⟨fun w hw => (nomatch hw), fun k hk => (nomatch hk), fun n hn => (nomatch hn), fun k hk => (nomatch hk)⟩
  | mov | ldi | ldDirect | ldPost => cases noHandle

/-- A write to a handle moves one history or none (R43). -/
theorem destWrites_oneHaz (s : State) (m : PerLane Bool) (h : Handle) (v : Lane → Int) :
    noHaz (s.destWrites m h v) ∨ ∃ r x, s.destWrites m h v = [.haz r x] := by
  by_cases lanes : h.policy = .lanes
  · refine Or.inl (noHaz_lanes fun j => ?_)
    cases h with
    | r | acc | accH | accM | accL | did | umcount | astat => simp [noHaz, Handle.writes, Write.isHaz]
    | _ => cases lanes
  · rcases destWrites_one s m lanes v with none | ⟨j, one⟩
    · exact Or.inl (by rw [none]; exact fun w hw => nomatch hw)
    · rw [one]
      cases h with
      | i | m | l | b | cntr | mstat => exact Or.inr ⟨_, _, rfl⟩
      | _ => exact Or.inl (by simp [noHaz, Handle.writes, Write.isHaz])

/-- Effects of MOV, LDI and LD: the write to the handle, around it the creation of a memory entry and the step. -/
structure DestEffects (i : Instr) (h : Handle) (s : State) (m : PerLane Bool) (pre dest post : List Write) : Prop where
  touches : ∀ w ∈ pre, ∃ a, w = .memTouch a
  writes : ∃ v, dest = s.destWrites m h v
  stepsOnly : ∀ w ∈ post, ∃ k x, w = .agu k x ∧ i.steps = some k
  step : ∀ k, i.steps = some k → ∃ x, .agu k x ∈ post

theorem dests_of_handle {i : Instr} {h : Handle} (dest : i.handleDest = some h) :
    i.regDests = [] ∧ i.accDests = [] ∧ ∀ c dst src act off, i ≠ .xwr c dst src act off := by
  cases i with
  | mov | ldi | ldDirect | ldPost => exact ⟨rfl, rfl, fun _ _ _ _ _ h => nomatch h⟩
  | _ => cases dest

section
variable {i : Instr} {h : Handle} {pre dest post : List Write} (effects : DestEffects i h s m pre dest post)
include effects

theorem DestEffects.noHaz_around : noHaz pre ∧ noHaz post := by
  constructor
  · intro w hw
    obtain ⟨a, rfl⟩ := effects.touches w hw
    rfl
  · intro w hw
    obtain ⟨k, x, rfl, _⟩ := effects.stepsOnly w hw
    rfl

/-- The step is in its place at the end already. -/
theorem DestEffects.last : aguLast (pre ++ dest ++ post) = pre ++ dest ++ post := by
  refine aguLast_append (append_agu (fun w hw => ?_) fun w hw => ?_) fun w hw => ?_
  · obtain ⟨a, rfl⟩ := effects.touches w hw
    rfl
  · obtain ⟨v, rfl⟩ := effects.writes
    exact destWrites_agu s m h v w hw
  · obtain ⟨k, x, rfl, _⟩ := effects.stepsOnly w hw
    rfl

theorem DestEffects.oneHaz : noHaz (pre ++ dest ++ post)
    ∨ ∃ front r v back, pre ++ dest ++ post = front ++ .haz r v :: back ∧ noHaz front ∧ noHaz back := by
  obtain ⟨noPre, noPost⟩ := effects.noHaz_around
  obtain ⟨v, rfl⟩ := effects.writes
  rcases destWrites_oneHaz s m h v with none | ⟨r, x, one⟩
  · exact Or.inl (noHaz_append (noHaz_append noPre none) noPost)
  · exact Or.inr ⟨pre, r, x, post, by simp [one], noPre, noPost⟩

end

theorem loadWord_dest {h : Handle} {x : Addr} {i : Instr} (steps : i.steps = x.steps)
    (hop : loadWord h x s m = .done ws es) :
    (es = [] ∧ ¬ s.execAny m = true) ∨ ∃ pre dest post, es = pre ++ dest ++ post ∧ DestEffects i h s m pre dest post := by
  unfold loadWord at hop
  split at hop
  next =>
    simp only at hop
    split at hop
    · cases hop
    · split at hop
      · cases hop
      · cases hop
        refine Or.inr ⟨[.memTouch (s.effAddr x)], _, s.stepWrites x, rfl, fun w hw => ⟨_, List.mem_singleton.mp hw⟩,
          ⟨_, rfl⟩, fun w hw => ?_, fun k hk => mem_stepWrites (steps ▸ hk)⟩
        cases x with
        | direct a => cases hw
        | post k n => exact ⟨k, _, List.mem_singleton.mp hw, steps⟩
  next off =>
    cases hop
    exact Or.inl ⟨rfl, off⟩

theorem moveRegister_dest {h src : Handle} (hop : moveRegister h src s m = .done ws es) :
    ∃ v, es = s.destWrites m h v := by
  unfold moveRegister at hop
  simp only at hop
  split at hop
  · cases hop
  · cases hop
    exact ⟨_, rfl⟩

theorem loadImmediate_dest {h : Handle} {x : Half} (hop : loadImmediate h x s m = .done ws es) :
    ∃ v, es = s.destWrites m h v := by
  unfold loadImmediate at hop
  split at hop
  · cases hop
  · cases hop
    exact ⟨_, rfl⟩

/-- Say once what MOV, LDI and LD write. -/
theorem opOf_dest {i : Instr} {h : Handle} (dest : i.handleDest = some h) (hop : opOf i s m = .done ws es) :
    (es = [] ∧ ¬ s.execAny m = true ∧ ((∃ c a, i = .ldDirect c h a) ∨ ∃ c k n, i = .ldPost c h k n))
      ∨ ∃ pre dest post, es = pre ++ dest ++ post ∧ DestEffects i h s m pre dest post := by
  have plain : i.steps = none → ∀ v, es = s.destWrites m h v →
      ∃ pre dest post, es = pre ++ dest ++ post ∧ DestEffects i h s m pre dest post := fun steps v hes =>
    ⟨[], es, [], by simp, fun _ hw => (nomatch hw), ⟨v, hes⟩, fun _ hw => (nomatch hw), fun k hk => by
      rw [steps] at hk
      cases hk⟩
  unfold opOf at hop
  cases i with
  | mov c dst src =>
    cases dest
    obtain ⟨v, hes⟩ := moveRegister_dest hop
    exact Or.inr (plain rfl v hes)
  | ldi c dst v =>
    cases dest
    obtain ⟨v, hes⟩ := loadImmediate_dest hop
    exact Or.inr (plain rfl v hes)
  | ldDirect c dst a =>
    cases dest
    exact (loadWord_dest (i := .ldDirect c h a) (x := .direct a) rfl hop).imp_left fun ⟨nothing, off⟩ => ⟨nothing, off, Or.inl ⟨c, a, rfl⟩⟩
  | ldPost c dst k n =>
    cases dest
    exact (loadWord_dest (i := .ldPost c h k n) (x := .post k n) rfl hop).imp_left fun ⟨nothing, off⟩ => ⟨nothing, off, Or.inr ⟨c, k, n, rfl⟩⟩
  | _ => cases dest

end

/-! ## After the commit -/

section
variable {s t : State} {es : List Write} (committed : Committed es s t)
include committed

theorem Committed.unset_iff (p : Place) : t.unset p = true ↔ p ∈ ageAll (aguLast es) s.unwritten := by
  rw [State.unset_iff, committed.unwritten]
  rfl

/-- An effect specifies the place it writes, unless that is a slot of a hazard history. -/
theorem Committed.specified {w : Write} {p : Place} (hw : w ∈ es) (gone : w.ages p = none)
    (hp : ∀ r x, p ≠ .haz r x) : t.unset p = false := by
  rw [Bool.eq_false_iff, Ne, committed.unset_iff]
  intro h
  obtain ⟨_, kept⟩ := mem_ageAll (fun w _ q => still_of_place hp w q) h
  have := kept w (mem_aguLast.mpr hw)
  rw [gone] at this
  cases this

/-- A post-modify update specifies the three slots: it is committed last (R137). -/
theorem Committed.specified_step {k : Fin 8} {v : Half} (hw : .agu k v ∈ es) (x : Slot) :
    t.unset (.haz (.i k) x) = false := by
  rw [Bool.eq_false_iff, Ne, committed.unset_iff, aguLast, ageAll_append]
  intro h
  have steps : ∀ w ∈ es.filter Write.isAgu, w.isHaz = false := by
    intro w hw
    obtain ⟨k, v, rfl⟩ := Write.eq_agu (List.mem_filter.mp hw).2
    rfl
  obtain ⟨_, kept⟩ := mem_ageAll (fun w hw q => still_of_noHaz (steps w hw) _ q) h
  have := kept (.agu k v) (List.mem_filter.mpr ⟨hw, rfl⟩)
  simp [Write.ages] at this

/-- Unspecified places after a commit of effects of which at most one moves a history. -/
theorem Committed.unset_from
    (one : noHaz (aguLast es) ∨ ∃ pre r v post, aguLast es = pre ++ .haz r v :: post ∧ noHaz pre ∧ noHaz post) (p : Place)
    (h : t.unset p = true) : s.unset p = true
      ∨ ∃ r, (p = .haz r .bk0 ∧ s.unset (.haz r .cur) = true) ∨ (p = .haz r .bk1 ∧ s.unset (.haz r .bk0) = true) := by
  simp only [State.unset_iff s]
  exact unset_after one ((committed.unset_iff p).mp h)

end

/-! ## The places that the write to a handle specifies -/

section
variable {s t : State} {m : PerLane Bool} {pre post es : List Write} {h : Handle} {v : Lane → Int}

theorem mem_destWrites {j : Lane} (hj : j ∈ s.usedLanes m h) {w : Write} (hw : w ∈ h.writes j (v j)) :
    w ∈ s.destWrites m h v :=
  List.mem_flatMap.mpr ⟨j, hj, hw⟩

/-- What a write to the lane-replicated handle `h` specifies in lane `j` (a write of M specifies H too). -/
structure LaneSpecified (t : State) (h : Handle) (j : Lane) : Prop where
  r : ∀ k, h = .r k → t.unset (.reg k j) = false
  acc : ∀ n, h = .acc n → ∀ f, t.unset (.acc n j f) = false
  accH : ∀ n, h = .accH n → t.unset (.acc n j .h) = false
  accM : ∀ n, h = .accM n → t.unset (.acc n j .m) = false ∧ t.unset (.acc n j .h) = false
  accL : ∀ n, h = .accL n → t.unset (.acc n j .l) = false

/-- In an executing lane the write to an R register, an accumulator or a field specifies it. -/
theorem specified_lanes (committed : Committed es s t) (hes : ∀ w ∈ s.destWrites m h v, w ∈ es) {j : Lane}
    (hj : s.executing m j = true) :
    LaneSpecified t h j := by
  have lane := (s.mem_execLanes m j).mpr hj
  have place : ∀ {p : Place} {w : Write}, h.policy = .lanes → w ∈ h.writes j (v j) → w.ages p = none →
      (∀ r x, p ≠ .haz r x) → t.unset p = false := fun lanes hw gone hp =>
    committed.specified (hes _ (mem_destWrites (by rwa [State.usedLanes, lanes]) hw)) gone hp
  refine ⟨?_, ?_, ?_, ?_, ?_⟩
  · rintro k rfl
    exact place rfl (List.mem_singleton_self _) (by simp [Write.ages]) (by simp)
  · rintro n rfl f
    exact place rfl (List.mem_singleton_self _) (by simp [Write.ages, AccPart.covers]) (by simp)
  · rintro n rfl
    exact place rfl (List.mem_singleton_self _) (by simp [Write.ages, AccPart.covers]) (by simp)
  · rintro n rfl
    exact ⟨place rfl (List.mem_singleton_self _) (by simp [Write.ages, AccPart.covers]) (by simp),
      place rfl (List.mem_singleton_self _) (by simp [Write.ages, AccPart.covers]) (by simp)⟩
  · rintro n rfl
    exact place rfl (List.mem_singleton_self _) (by simp [Write.ages, AccPart.covers]) (by simp)

theorem specified_ctl (committed : Committed es s t) (hes : ∀ w ∈ s.destWrites m h v, w ∈ es) {r : CtlReg}
    (hr : h = r.handle) (used : ∃ j, j ∈ s.usedLanes m h) : t.unset (.ctl r) = false := by
  obtain ⟨j, hj⟩ := used
  subst hr
  have wrote : Write.ctl r (wrap16 (v j)) ∈ es := hes _ (mem_destWrites hj (by cases r <;> exact List.mem_singleton_self _))
  exact committed.specified wrote (by simp [Write.ages]) (by simp)

/-- The history of a hazard-tracked register moves one slot. -/
theorem shifted_haz (committed : Committed (pre ++ s.destWrites m h v ++ post) s t)
    (last : aguLast (pre ++ s.destWrites m h v ++ post) = pre ++ s.destWrites m h v ++ post)
    (hpre : ∀ w ∈ pre, ∃ a, w = .memTouch a) {r : HazReg} (hr : h = r.handle)
    (hpost : ∀ w ∈ post, ∃ k x, w = .agu k x ∧ r ≠ .i k) (used : ∃ j, j ∈ s.usedLanes m h) :
    t.unset (.haz r .cur) = false ∧ t.unset (.haz r .bk0) = s.unset (.haz r .cur)
      ∧ t.unset (.haz r .bk1) = s.unset (.haz r .bk0) := by
  obtain ⟨x, hx⟩ : ∃ x, s.destWrites m h v = [.haz r x] := by
    subst hr
    rcases destWrites_one s m (h := r.handle) (by cases r <;> simp [HazReg.handle, Handle.policy]) v with nothing | ⟨j, one⟩
    · obtain ⟨j, hj⟩ := used
      have wrote : Write.haz r (wrap16 (v j)) ∈ s.destWrites m r.handle v :=
        mem_destWrites hj (by cases r <;> exact List.mem_singleton_self _)
      rw [nothing] at wrote
      cases wrote
    · exact ⟨wrap16 (v j), one.trans (by cases r <;> rfl)⟩
  have touched : ∀ w ∈ pre, ∀ p q, w.ages q = some p ↔ q = p := by
    intro w hw p q
    obtain ⟨a, rfl⟩ := hpre w hw
    exact Option.some_inj
  have stepped : ∀ w ∈ post, ∀ y q, w.ages q = some (.haz r y) ↔ q = .haz r y := by
    intro w hw y q
    obtain ⟨k, u, rfl, other⟩ := hpost w hw
    refine ⟨still_of_noHaz rfl _ q, ?_⟩
    rintro rfl
    cases r with
    | i k' => exact if_neg fun same => other (congrArg HazReg.i same.symm)
    | _ => rfl
  have slot : ∀ y, t.unset (.haz r y) = true ↔ ∃ z, z.older = some y ∧ s.unset (.haz r z) = true := by
    intro y
    rw [committed.unset_iff, last, hx, ageAll_append, ageAll_append, mem_ageAll_iff fun w hw => stepped w hw y]
    simp only [State.unset_iff]
    show _ ∈ (ageAll pre s.unwritten).filterMap (Write.haz r x).ages ↔ _
    rw [List.mem_filterMap]
    constructor
    · rintro ⟨q, hq, aged⟩
      obtain ⟨z, rfl, older⟩ := ages_haz_iff.mp aged
      exact ⟨z, older, (mem_ageAll_iff fun w hw => touched w hw _).mp hq⟩
    · rintro ⟨z, older, hz⟩
      exact ⟨_, (mem_ageAll_iff fun w hw => touched w hw _).mpr hz, ages_haz_iff.mpr ⟨z, rfl, older⟩⟩
  refine ⟨?_, ?_, ?_⟩
  · rw [Bool.eq_false_iff, Ne, slot]
    rintro ⟨z, older, _⟩
    cases z <;> cases older
  · rw [Bool.eq_iff_iff, slot]
    refine ⟨fun ⟨z, older, hz⟩ => ?_, fun hz => ⟨.cur, rfl, hz⟩⟩
    cases z with
    | cur => exact hz
    | bk0 | bk1 => cases older
  · rw [Bool.eq_iff_iff, slot]
    refine ⟨fun ⟨z, older, hz⟩ => ?_, fun hz => ⟨.bk0, rfl, hz⟩⟩
    cases z with
    | bk0 => exact hz
    | cur | bk1 => cases older

end

/-- Settles O60. -/
theorem writesEndUnspecified : Obligations.WritesEndUnspecified := by
  intro s t i idle eob ht
  rw [exec_eq] at ht
  cases hop : checked i (opOf i) s (s.maskFor i.ctl.cond) with
  | fail warns e =>
    obtain ⟨u, hu, raises, _⟩ := issue_fail idle hop
    cases ht.symm.trans hu
    refine ⟨fun p hp => Or.inl ((raises.same.unset p id).symm.trans hp), fun none => ?_⟩
    rw [raises.record] at none
    cases none
  | done warns es =>
    obtain ⟨u, hu, committed, _⟩ := issue_done idle eob hop
    cases ht.symm.trans hu
    have op := checked_done hop
    have executing : s.drawn.executing (s.maskFor i.ctl.cond) = s.executing (s.maskFor i.ctl.cond) :=
      funext (s.drawn_executing _)
    have any : s.drawn.execAny (s.maskFor i.ctl.cond) = s.execAny (s.maskFor i.ctl.cond) := by
      simp only [State.execAny, executing]
    have runs : ∀ {j}, s.runs i.ctl j → s.drawn.executing (s.maskFor i.ctl.cond) j = true := fun hj => by
      rw [executing]
      exact hj
    cases dest : i.handleDest with
    | none =>
      have writes := opOf_writes dest op
      refine ⟨committed.unset_from (Or.inl fun w hw => writes.noHaz w (mem_aguLast.mp hw)), fun _ => ⟨?_, ?_, ?_, ?_, ?_⟩⟩
      · intro k hk j hj
        obtain ⟨v, hv⟩ := writes.regs k hk j (runs hj)
        exact committed.specified hv (by simp [Write.ages]) (by simp)
      · intro n hn j f hj
        obtain ⟨v, hv⟩ := writes.accs n hn j (runs hj)
        exact committed.specified hv (by simp [Write.ages, AccPart.covers]) (by simp)
      · rintro c dst src act off rfl j l hj enabled target
        rw [eq_otherLane.mp target] at enabled ⊢
        obtain ⟨v, hv⟩ := (xwrOp_writes op).2 j (runs hj) ((s.drawn_enabled _).trans enabled)
        exact committed.specified hv (by simp [Write.ages]) (by simp)
      · intro k x hk some
        obtain ⟨v, hv⟩ := writes.step k hk (any.trans some)
        exact committed.specified_step hv x
      · intro h hh
        cases hh
    | some h =>
      obtain ⟨noRegs, noAccs, notXwr⟩ := dests_of_handle dest
      rcases opOf_dest dest op with ⟨rfl, off, isLoad⟩ | ⟨pre, written, post, rfl, effects⟩
      · have off : ¬ s.runsAny i.ctl := fun some => off (any.trans some)
        refine ⟨committed.unset_from (Or.inl fun w hw => (nomatch hw)), fun _ => ⟨?_, ?_, ?_, ?_, ?_⟩⟩
        · simp [noRegs]
        · simp [noAccs]
        · exact fun c dst src act o hi => absurd hi (notXwr c dst src act o)
        · exact fun k x _ some => absurd some off
        · rintro _ ⟨⟩ (some | ⟨notLd, notPost⟩)
          · exact absurd some off
          · rcases isLoad with ⟨c, a, hi⟩ | ⟨c, k, n, hi⟩
            · exact absurd hi (notLd c a)
            · exact absurd hi (notPost c k n)
      · obtain ⟨v, rfl⟩ := effects.writes
        have same : s.drawn.destWrites (s.maskFor i.ctl.cond) h v = s.destWrites (s.maskFor i.ctl.cond) h v := by
          simp only [State.destWrites, s.drawn_usedLanes]
        have last := effects.last
        rw [same] at committed last
        have inside : ∀ w ∈ s.destWrites (s.maskFor i.ctl.cond) h v,
            w ∈ pre ++ s.destWrites (s.maskFor i.ctl.cond) h v ++ post := fun w hw =>
          List.mem_append_left _ (List.mem_append_right _ hw)
        refine ⟨committed.unset_from ?_, fun _ => ⟨?_, ?_, ?_, ?_, ?_⟩⟩
        · rw [last]
          exact same ▸ effects.oneHaz
        · simp [noRegs]
        · simp [noAccs]
        · exact fun c dst src act o hi => absurd hi (notXwr c dst src act o)
        · intro k x hk _
          obtain ⟨u, hu⟩ := effects.step k hk
          exact committed.specified_step (List.mem_append_right _ hu) x
        · rintro _ ⟨⟩ _
          have lanes := fun {j} (hj : s.runs i.ctl j) => specified_lanes committed inside hj
          refine ⟨fun k hk j hj => (lanes hj).r k hk, fun n hn j f hj => (lanes hj).acc n hn f,
            fun n hn j hj => (lanes hj).accH n hn, fun n hn j hj => (lanes hj).accM n hn,
            fun n hn j hj => (lanes hj).accL n hn, fun r hr other used => ?_, fun r hr used => ?_⟩
          · refine shifted_haz committed last effects.touches hr (fun w hw => ?_) ?_
            · obtain ⟨k, x, rfl, hk⟩ := effects.stepsOnly w hw
              exact ⟨k, x, rfl, fun hr => other k hr hk⟩
            · simpa only [State.mem_usedLanes] using used
          · exact specified_ctl committed inside hr (by simpa only [State.mem_usedLanes] using used)

end Sys2Proof.Machine
end

section
/-!
# The places that each operation reads (R64, R141, log 29)
-/
namespace Sys2Proof.Machine

/-! ## The places of one operand -/

section
variable {p : Place} {j : Lane}

theorem mem_srcPlaces {b : Src} : p ∈ srcPlaces b j ↔ ∃ k, b = .reg k ∧ p = .reg k j := by
  cases b <;> simp [srcPlaces]

theorem mem_accPlaces {n : Fin 8} : p ∈ accPlaces n j ↔ ∃ f, p = .acc n j f := by
  simp only [accPlaces, List.mem_cons, List.not_mem_nil, or_false]
  constructor
  · rintro (h | h | h)
    · exact ⟨.h, h⟩
    · exact ⟨.m, h⟩
    · exact ⟨.l, h⟩
  · rintro ⟨f, rfl⟩
    cases f <;> simp

theorem mem_accSrcPlaces {b : AccSrc} :
    p ∈ accSrcPlaces b j ↔ (∃ n f, b = .acc n ∧ p = .acc n j f) ∨ ∃ k, b = .reg k ∧ p = .reg k j := by
  cases b <;> simp [accSrcPlaces, mem_accPlaces]

theorem mem_priorPlaces {dst : Option (Fin 8)} : p ∈ priorPlaces dst j ↔ ∃ k f, dst = some k ∧ p = .acc k j f := by
  cases dst <;> simp [priorPlaces, mem_accPlaces]

theorem mem_priorPairPlaces {dst : Option AccPair} :
    p ∈ priorPairPlaces dst j ↔ ∃ k f, dst = some k ∧ (p = .acc k.re j f ∨ p = .acc k.im j f) := by
  cases dst <;> simp [priorPairPlaces, accRe, accIm, mem_priorPlaces, exists_or]

theorem mem_shiftPlaces {a : ShiftSrc} :
    p ∈ shiftPlaces a j ↔ (∃ k, a = .reg k ∧ p = .reg k j) ∨ ∃ k g, a = .acc k ∧ p = .acc k j g := by
  cases a <;> simp [shiftPlaces, mem_accPlaces]

theorem mem_shiftPairPlaces {a : ShiftPair} {n : AmountPair} :
    p ∈ shiftPairPlaces a n j ↔ ((∃ k, a = .regs k ∧ (p = .reg k.re j ∨ p = .reg k.im j))
        ∨ ∃ k g, a = .accs k ∧ (p = .acc k.re j g ∨ p = .acc k.im j g))
      ∨ ∃ k, n = .regs k ∧ (p = .reg k.re j ∨ p = .reg k.im j) := by
  cases a <;> cases n <;>
    simp [shiftPairPlaces, shiftPlaces, shiftRe, shiftIm, amountRePlaces, amountImPlaces, mem_accPlaces, exists_or] <;>
    tauto

/-- The register handles whose places a read of `src` reads in lane `j`. -/
theorem State.mem_handlePlaces {s : State} {src : Handle} : p ∈ s.handlePlaces src j ↔
    (∃ k, src = .r k ∧ p = .reg k j)
      ∨ (∃ n f, (src = .acc n ∨ (src = .accH n ∧ f = .h) ∨ (src = .accM n ∧ f = .m) ∨ (src = .accL n ∧ f = .l))
          ∧ p = .acc n j f)
      ∨ (∃ h : HazReg, src = h.handle ∧ p = s.latPlace h) ∨ ∃ r : CtlReg, src = r.handle ∧ p = .ctl r := by
  constructor
  · intro h
    cases src with
    | r k => exact Or.inl ⟨k, rfl, List.mem_singleton.mp h⟩
    | acc n =>
      obtain ⟨f, hf⟩ := mem_accPlaces.mp h
      exact Or.inr (Or.inl ⟨n, f, Or.inl rfl, hf⟩)
    | accH n => exact Or.inr (Or.inl ⟨n, .h, Or.inr (Or.inl ⟨rfl, rfl⟩), List.mem_singleton.mp h⟩)
    | accM n => exact Or.inr (Or.inl ⟨n, .m, Or.inr (Or.inr (Or.inl ⟨rfl, rfl⟩)), List.mem_singleton.mp h⟩)
    | accL n => exact Or.inr (Or.inl ⟨n, .l, Or.inr (Or.inr (Or.inr ⟨rfl, rfl⟩)), List.mem_singleton.mp h⟩)
    | i k => exact Or.inr (Or.inr (Or.inl ⟨.i k, rfl, List.mem_singleton.mp h⟩))
    | m k => exact Or.inr (Or.inr (Or.inl ⟨.m k, rfl, List.mem_singleton.mp h⟩))
    | l k => exact Or.inr (Or.inr (Or.inl ⟨.l k, rfl, List.mem_singleton.mp h⟩))
    | b k => exact Or.inr (Or.inr (Or.inl ⟨.b k, rfl, List.mem_singleton.mp h⟩))
    | cntr => exact Or.inr (Or.inr (Or.inl ⟨.cntr, rfl, List.mem_singleton.mp h⟩))
    | mstat => exact Or.inr (Or.inr (Or.inl ⟨.mstat, rfl, List.mem_singleton.mp h⟩))
    | lpever => exact Or.inr (Or.inr (Or.inr ⟨.lpever, rfl, List.mem_singleton.mp h⟩))
    | pcstack => exact Or.inr (Or.inr (Or.inr ⟨.pcstack, rfl, List.mem_singleton.mp h⟩))
    | lpstack => exact Or.inr (Or.inr (Or.inr ⟨.lpstack, rfl, List.mem_singleton.mp h⟩))
    | icntl => exact Or.inr (Or.inr (Or.inr ⟨.icntl, rfl, List.mem_singleton.mp h⟩))
    | imask => exact Or.inr (Or.inr (Or.inr ⟨.imask, rfl, List.mem_singleton.mp h⟩))
    | irptl => exact Or.inr (Or.inr (Or.inr ⟨.irptl, rfl, List.mem_singleton.mp h⟩))
    | ivec k => exact Or.inr (Or.inr (Or.inr ⟨.ivec k, rfl, List.mem_singleton.mp h⟩))
    | sstat | did | umcount | astat | dstat0 | dstat1 | noReg => cases h
  · rintro (⟨k, rfl, rfl⟩ | ⟨n, f, h, rfl⟩ | ⟨r, rfl, rfl⟩ | ⟨r, rfl, rfl⟩)
    · simp [State.handlePlaces]
    · rcases h with rfl | ⟨rfl, rfl⟩ | ⟨rfl, rfl⟩ | ⟨rfl, rfl⟩
      · exact mem_accPlaces.mpr ⟨f, rfl⟩
      all_goals simp [State.handlePlaces]
    · cases r <;> simp [State.handlePlaces, HazReg.handle]
    · cases r <;> simp [State.handlePlaces, CtlReg.handle]

end

/-! ## The lanes of a bit operation (R198) -/

theorem State.mem_bitLanes {s : State} {b : Src} {j : Lane} : ∀ {js : List Lane}, js.Pairwise (· < ·) →
    (j ∈ s.bitLanes b js ↔ j ∈ js ∧ ∀ i ∈ js, i < j → badIndex (s.srcIndex b i) = false)
  | [], _ => by simp [State.bitLanes]
  | i :: js, sorted => by
    obtain ⟨first, rest⟩ := List.pairwise_cons.mp sorted
    have ih := State.mem_bitLanes (s := s) (b := b) (j := j) rest
    cases bad : badIndex (s.srcIndex b i) with
    | true =>
      have only : s.bitLanes b (i :: js) = [i] := by simp [State.bitLanes, bad]
      rw [only, List.mem_singleton]
      constructor
      · rintro rfl
        refine ⟨List.mem_cons_self, fun l hl hlt => ?_⟩
        rcases List.mem_cons.mp hl with rfl | hl
        · exact absurd hlt (lt_irrefl l)
        · exact absurd (first l hl) (not_lt_of_gt hlt)
      · rintro ⟨hj, good⟩
        rcases List.mem_cons.mp hj with rfl | hj
        · rfl
        · have := good i List.mem_cons_self (first j hj)
          rw [bad] at this
          cases this
    | false =>
      have more : s.bitLanes b (i :: js) = i :: s.bitLanes b js := by simp [State.bitLanes, bad]
      rw [more, List.mem_cons, ih]
      constructor
      · rintro (rfl | ⟨hj, good⟩)
        · refine ⟨List.mem_cons_self, fun l hl hlt => ?_⟩
          rcases List.mem_cons.mp hl with rfl | hl
          · exact bad
          · exact absurd (first l hl) (not_lt_of_gt hlt)
        · refine ⟨List.mem_cons_of_mem _ hj, fun l hl hlt => ?_⟩
          rcases List.mem_cons.mp hl with rfl | hl
          · exact bad
          · exact good l hl hlt
      · rintro ⟨hj, good⟩
        rcases List.mem_cons.mp hj with rfl | hj
        · exact Or.inl rfl
        · exact Or.inr ⟨hj, fun l hl => good l (List.mem_cons_of_mem _ hl)⟩

theorem State.execLanes_sorted (s : State) (m : PerLane Bool) : (s.execLanes m).Pairwise (· < ·) :=
  List.Pairwise.filter _ (by decide : allLanes.Pairwise (· < ·))

/-! ## The places of a whole operation -/

section
variable {s : State} {i : Instr} {c : Ctl} {p : Place}

/-- What the condition reads (R152). -/
def State.readsCond (s : State) (c : Ctl) (p : Place) : Prop := c.cond = .notCe ∧ p = s.latPlace .cntr

theorem State.mem_condPlaces : p ∈ s.condPlaces c.cond ↔ s.readsCond c p := by
  unfold State.condPlaces State.readsCond
  split
  next h => simp [h]
  next h => simp [h]

theorem State.mem_placesRead (hc : i.ctl = c) : p ∈ s.placesRead i ↔
    s.readsCond c p ∨ p ∈ s.sourcePlaces (s.maskFor c.cond) i ∨ p ∈ s.laterPlaces (s.maskFor c.cond) i := by
  subst hc
  rw [State.placesRead, List.mem_append, List.mem_append, State.mem_condPlaces, or_assoc]

theorem State.mem_lanes {f : Lane → List Place} :
    p ∈ (s.execLanes (s.maskFor c.cond)).flatMap f ↔ ∃ j, s.runs c j ∧ p ∈ f j := by
  simp only [List.mem_flatMap, State.mem_execLanes]
  rfl

/-- An operation that reads lane by lane, and nothing after its checks. -/
theorem placesRead_lanes {f : Lane → List Place} {g : Lane → Prop} (hc : i.ctl = c)
    (source : s.sourcePlaces (s.maskFor c.cond) i = (s.execLanes (s.maskFor c.cond)).flatMap f)
    (later : s.laterPlaces (s.maskFor c.cond) i = []) (hg : ∀ j, p ∈ f j ↔ g j) :
    p ∈ s.placesRead i ↔ s.readsCond c p ∨ ∃ j, s.runs c j ∧ g j := by
  rw [State.mem_placesRead hc, source, later, State.mem_lanes]
  simp [hg]

end

section
variable (s : State) (c : Ctl) (p : Place)

theorem placesRead_alu (dst : Option (Fin 32)) (sa : Fin 32) (b : Src) :
    ∀ op ∈ [Instr.add c dst sa b, .addc c dst sa b, .sub c dst sa b, .subc c dst sa b, .subb c dst sa b,
        .subbc c dst sa b, .and c dst sa b, .or c dst sa b, .xor c dst sa b, .scr c dst sa b],
      (p ∈ s.placesRead op ↔ s.readsCond c p
        ∨ ∃ j, s.runs c j ∧ (p = s.latPlace .mstat ∨ p = .reg sa j ∨ ∃ k, b = .reg k ∧ p = .reg k j)) := by
  have operands : ∀ j, p ∈ Place.reg sa j :: srcPlaces b j ++ [s.modePlace]
      ↔ p = s.latPlace .mstat ∨ p = .reg sa j ∨ ∃ k, b = .reg k ∧ p = .reg k j := by
    intro j
    simp only [List.cons_append, List.mem_append, List.mem_cons, List.not_mem_nil, or_false, mem_srcPlaces,
      State.modePlace]
    grind
  simp only [List.forall_mem_cons, List.not_mem_nil, false_imp_iff, implies_true, and_true]
  refine ⟨?_, ?_, ?_, ?_, ?_, ?_, ?_, ?_, ?_, ?_⟩ <;>
    exact placesRead_lanes rfl rfl (by simp [State.laterPlaces_eq]) operands

theorem placesRead_bits (dst : Option (Fin 32)) (sa : Fin 32) (b : Src) :
    ∀ op ∈ [Instr.tstbit c dst sa b, .setbit c dst sa b, .clrbit c dst sa b, .tglbit c dst sa b],
      (p ∈ s.placesRead op ↔ s.readsCond c p
        ∨ ∃ j, s.runs c j ∧ (∀ i, i < j → s.runs c i → 0 ≤ s.srcIndex b i ∧ s.srcIndex b i ≤ 11)
          ∧ ((p = s.latPlace .mstat ∧ 0 ≤ s.srcIndex b j ∧ s.srcIndex b j ≤ 11)
            ∨ p = .reg sa j ∨ ∃ k, b = .reg k ∧ p = .reg k j)) := by
  have lanes : ∀ j, j ∈ s.bitLanes b (s.execLanes (s.maskFor c.cond))
      ↔ s.runs c j ∧ ∀ i, i < j → s.runs c i → 0 ≤ s.srcIndex b i ∧ s.srcIndex b i ≤ 11 := by
    intro j
    simp only [State.mem_bitLanes (s.execLanes_sorted _), State.mem_execLanes, badIndex_eq_false]
    exact and_congr_right fun _ => ⟨fun h i hlt hi => h i hi hlt, fun h i hi hlt => h i hlt hi⟩
  have operands : ∀ j, p ∈ s.bitPlaces sa b j ↔ (p = s.latPlace .mstat ∧ 0 ≤ s.srcIndex b j ∧ s.srcIndex b j ≤ 11)
      ∨ p = .reg sa j ∨ ∃ k, b = .reg k ∧ p = .reg k j := by
    intro j
    have mode : p ∈ (if badIndex (s.srcIndex b j) then [] else [s.modePlace])
        ↔ p = s.latPlace .mstat ∧ 0 ≤ s.srcIndex b j ∧ s.srcIndex b j ≤ 11 := by
      rw [← badIndex_eq_false]
      cases badIndex (s.srcIndex b j) <;> simp [State.modePlace]
    simp only [State.bitPlaces, List.cons_append, List.mem_cons, List.mem_append, mem_srcPlaces, mode]
    grind
  have form : ∀ {i : Instr}, i.ctl = c → s.sourcePlaces (s.maskFor c.cond) i
      = (s.bitLanes b (s.execLanes (s.maskFor c.cond))).flatMap (fun j => s.bitPlaces sa b j) →
      s.laterPlaces (s.maskFor c.cond) i = [] → (p ∈ s.placesRead i ↔ s.readsCond c p
        ∨ ∃ j, s.runs c j ∧ (∀ i, i < j → s.runs c i → 0 ≤ s.srcIndex b i ∧ s.srcIndex b i ≤ 11)
          ∧ ((p = s.latPlace .mstat ∧ 0 ≤ s.srcIndex b j ∧ s.srcIndex b j ≤ 11)
            ∨ p = .reg sa j ∨ ∃ k, b = .reg k ∧ p = .reg k j)) := by
    intro i hc hs hl
    rw [State.mem_placesRead hc, hs, hl]
    simp only [List.mem_flatMap, lanes, operands, and_assoc, List.not_mem_nil, or_false]
  simp only [List.forall_mem_cons, List.not_mem_nil, false_imp_iff, implies_true, and_true]
  refine ⟨?_, ?_, ?_, ?_⟩ <;> exact form rfl rfl (by simp [State.laterPlaces_eq])

theorem placesRead_unary (dst : Option (Fin 32)) (sa : Fin 32) :
    ∀ op ∈ [Instr.not c dst sa, .abs c dst sa, .inc c dst sa, .dec c dst sa],
      (p ∈ s.placesRead op ↔ s.readsCond c p ∨ ∃ j, s.runs c j ∧ (p = s.latPlace .mstat ∨ p = .reg sa j)) := by
  have operands : ∀ j, p ∈ [Place.reg sa j, s.modePlace] ↔ p = s.latPlace .mstat ∨ p = .reg sa j := by
    intro j
    simp only [List.mem_cons, List.not_mem_nil, or_false, State.modePlace]
    exact or_comm
  simp only [List.forall_mem_cons, List.not_mem_nil, false_imp_iff, implies_true, and_true]
  refine ⟨?_, ?_, ?_, ?_⟩ <;> exact placesRead_lanes rfl rfl (by simp [State.laterPlaces_eq]) operands

theorem placesRead_accAlu (dst : Option (Fin 8)) (sa : Fin 8) (b : AccSrc) :
    ∀ op ∈ [Instr.addA c dst sa b, .subA c dst sa b],
      (p ∈ s.placesRead op ↔ s.readsCond c p ∨ ∃ j, s.runs c j ∧ (p = s.latPlace .mstat ∨ (∃ f, p = .acc sa j f)
        ∨ (∃ n f, b = .acc n ∧ p = .acc n j f) ∨ ∃ k, b = .reg k ∧ p = .reg k j)) := by
  have operands : ∀ j, p ∈ accPlaces sa j ++ accSrcPlaces b j ++ [s.modePlace] ↔ p = s.latPlace .mstat
      ∨ (∃ f, p = .acc sa j f) ∨ (∃ n f, b = .acc n ∧ p = .acc n j f) ∨ ∃ k, b = .reg k ∧ p = .reg k j := by
    intro j
    simp only [List.mem_append, List.mem_cons, List.not_mem_nil, or_false, mem_accPlaces, mem_accSrcPlaces,
      State.modePlace]
    grind
  simp only [List.forall_mem_cons, List.not_mem_nil, false_imp_iff, implies_true, and_true]
  refine ⟨?_, ?_⟩ <;> exact placesRead_lanes rfl rfl (by simp [State.laterPlaces_eq]) operands

theorem placesRead_pairs (dst : Option RPair) (d1 : Option (Fin 32)) (sa sb : RPair) (b : Src) (x y : Fin 32) :
    (∀ op ∈ [Instr.addC c dst sa sb, .subC c dst sa sb],
      (p ∈ s.placesRead op ↔ s.readsCond c p ∨ ∃ j, s.runs c j
        ∧ (p = s.latPlace .mstat ∨ p = .reg sa.re j ∨ p = .reg sa.im j ∨ p = .reg sb.re j ∨ p = .reg sb.im j)))
    ∧ (∀ op ∈ [Instr.rccwC c dst sa b, .rcwC c dst sa b],
      (p ∈ s.placesRead op ↔ s.readsCond c p ∨ ∃ j, s.runs c j
        ∧ (p = s.latPlace .mstat ∨ p = .reg sa.re j ∨ p = .reg sa.im j ∨ ∃ k, b = .reg k ∧ p = .reg k j)))
    ∧ (p ∈ s.placesRead (.magC c d1 sa) ↔ s.readsCond c p
        ∨ ∃ j, s.runs c j ∧ (p = s.latPlace .mstat ∨ p = .reg sa.re j ∨ p = .reg sa.im j))
    ∧ (p ∈ s.placesRead (.rectC c dst x y) ↔ s.readsCond c p
        ∨ ∃ j, s.runs c j ∧ (p = .reg x j ∨ p = .reg y j)) := by
  have sums : ∀ j, p ∈ [Place.reg sa.re j, .reg sb.re j, s.modePlace, .reg sa.im j, .reg sb.im j] ↔ p = s.latPlace .mstat
      ∨ p = .reg sa.re j ∨ p = .reg sa.im j ∨ p = .reg sb.re j ∨ p = .reg sb.im j := by
    intro j
    simp only [List.mem_cons, List.not_mem_nil, or_false, State.modePlace]
    grind
  have turns : ∀ j, p ∈ pairPlaces sa j ++ srcPlaces b j ++ [s.modePlace] ↔ p = s.latPlace .mstat
      ∨ p = .reg sa.re j ∨ p = .reg sa.im j ∨ ∃ k, b = .reg k ∧ p = .reg k j := by
    intro j
    simp only [pairPlaces, List.mem_append, List.mem_cons, List.not_mem_nil, or_false, mem_srcPlaces, State.modePlace]
    grind
  have mag : ∀ j, p ∈ pairPlaces sa j ++ [s.modePlace] ↔ p = s.latPlace .mstat
      ∨ p = .reg sa.re j ∨ p = .reg sa.im j := by
    intro j
    simp only [pairPlaces, List.mem_append, List.mem_cons, List.not_mem_nil, or_false, State.modePlace]
    grind
  have rect : ∀ j, p ∈ [Place.reg x j, .reg y j] ↔ p = .reg x j ∨ p = .reg y j := by simp
  simp only [List.forall_mem_cons, List.not_mem_nil, false_imp_iff, implies_true, and_true]
  refine ⟨⟨?_, ?_⟩, ⟨?_, ?_⟩, ?_, ?_⟩
  · exact placesRead_lanes rfl rfl (by simp [State.laterPlaces_eq]) sums
  · exact placesRead_lanes rfl rfl (by simp [State.laterPlaces_eq]) sums
  · exact placesRead_lanes rfl rfl (by simp [State.laterPlaces_eq]) turns
  · exact placesRead_lanes rfl rfl (by simp [State.laterPlaces_eq]) turns
  · exact placesRead_lanes rfl rfl (by simp [State.laterPlaces_eq]) mag
  · exact placesRead_lanes rfl rfl (by simp [State.laterPlaces_eq]) rect

theorem placesRead_mac (dst : Option (Fin 8)) (x y : Fin 32) (n : Fin 8) (sign : SignMode) (rnd : Bool) :
    (p ∈ s.placesRead (.mpy c dst x y sign rnd) ↔
      s.readsCond c p ∨ ∃ j, s.runs c j ∧ (p = s.latPlace .mstat ∨ p = .reg x j ∨ p = .reg y j))
    ∧ (∀ op ∈ [Instr.mac c dst x y sign rnd, .mas c dst x y sign rnd],
      (p ∈ s.placesRead op ↔ s.readsCond c p ∨ ∃ j, s.runs c j
        ∧ (p = s.latPlace .mstat ∨ p = .reg x j ∨ p = .reg y j ∨ ∃ k f, dst = some k ∧ p = .acc k j f)))
    ∧ (p ∈ s.placesRead (.rndacc c dst n) ↔
      s.readsCond c p ∨ ∃ j, s.runs c j ∧ (p = s.latPlace .mstat ∨ ∃ f, p = .acc n j f)) := by
  have factors : ∀ j, p ∈ [Place.reg x j, .reg y j, s.modePlace] ↔ p = s.latPlace .mstat ∨ p = .reg x j ∨ p = .reg y j := by
    intro j
    simp only [List.mem_cons, List.not_mem_nil, or_false, State.modePlace]
    grind
  have sums : ∀ j, p ∈ [Place.reg x j, .reg y j, s.modePlace] ++ priorPlaces dst j ↔ p = s.latPlace .mstat
      ∨ p = .reg x j ∨ p = .reg y j ∨ ∃ k f, dst = some k ∧ p = .acc k j f := by
    intro j
    rw [List.mem_append, factors, mem_priorPlaces]
    grind
  have source : ∀ j, p ∈ accPlaces n j ++ [s.modePlace] ↔ p = s.latPlace .mstat ∨ ∃ f, p = .acc n j f := by
    intro j
    simp only [List.mem_append, List.mem_cons, List.not_mem_nil, or_false, mem_accPlaces, State.modePlace]
    exact or_comm
  simp only [List.forall_mem_cons, List.not_mem_nil, false_imp_iff, implies_true, and_true]
  refine ⟨?_, ⟨?_, ?_⟩, ?_⟩
  · exact placesRead_lanes rfl rfl (by simp [State.laterPlaces_eq]) factors
  · exact placesRead_lanes rfl rfl (by simp [State.laterPlaces_eq]) sums
  · exact placesRead_lanes rfl rfl (by simp [State.laterPlaces_eq]) sums
  · exact placesRead_lanes rfl rfl (by simp [State.laterPlaces_eq]) source

theorem placesRead_macPairs (dp : Option AccPair) (x : Fin 32) (sa sb : RPair) (sign : SignMode) (rnd : Bool) :
    (p ∈ s.placesRead (.mpyC c dp sa sb sign rnd) ↔ s.readsCond c p ∨ ∃ j, s.runs c j
      ∧ (p = s.latPlace .mstat ∨ p = .reg sa.re j ∨ p = .reg sa.im j ∨ p = .reg sb.re j ∨ p = .reg sb.im j))
    ∧ (∀ op ∈ [Instr.macC c dp sa sb sign rnd, .masC c dp sa sb sign rnd],
      (p ∈ s.placesRead op ↔ s.readsCond c p ∨ ∃ j, s.runs c j
        ∧ (p = s.latPlace .mstat ∨ p = .reg sa.re j ∨ p = .reg sa.im j ∨ p = .reg sb.re j ∨ p = .reg sb.im j
          ∨ ∃ k f, dp = some k ∧ (p = .acc k.re j f ∨ p = .acc k.im j f))))
    ∧ (p ∈ s.placesRead (.mpyRC c dp x sb sign rnd) ↔ s.readsCond c p ∨ ∃ j, s.runs c j
      ∧ (p = s.latPlace .mstat ∨ p = .reg x j ∨ p = .reg sb.re j ∨ p = .reg sb.im j))
    ∧ (∀ op ∈ [Instr.macRC c dp x sb sign rnd, .masRC c dp x sb sign rnd],
      (p ∈ s.placesRead op ↔ s.readsCond c p ∨ ∃ j, s.runs c j
        ∧ (p = s.latPlace .mstat ∨ p = .reg x j ∨ p = .reg sb.re j ∨ p = .reg sb.im j
          ∨ ∃ k f, dp = some k ∧ (p = .acc k.re j f ∨ p = .acc k.im j f)))) := by
  have full : ∀ j, p ∈ s.productPlacesC sa sb j ↔ p = s.latPlace .mstat
      ∨ p = .reg sa.re j ∨ p = .reg sa.im j ∨ p = .reg sb.re j ∨ p = .reg sb.im j := by
    intro j
    simp only [State.productPlacesC, List.mem_cons, List.not_mem_nil, or_false, State.modePlace]
    grind
  have half : ∀ j, p ∈ s.productPlacesRC x sb j ↔ p = s.latPlace .mstat
      ∨ p = .reg x j ∨ p = .reg sb.re j ∨ p = .reg sb.im j := by
    intro j
    simp only [State.productPlacesRC, List.mem_cons, List.not_mem_nil, or_false, State.modePlace]
    grind
  have fullSum : ∀ j, p ∈ s.productPlacesC sa sb j ++ priorPairPlaces dp j ↔ p = s.latPlace .mstat
      ∨ p = .reg sa.re j ∨ p = .reg sa.im j ∨ p = .reg sb.re j ∨ p = .reg sb.im j
      ∨ ∃ k f, dp = some k ∧ (p = .acc k.re j f ∨ p = .acc k.im j f) := by
    intro j
    simp only [List.mem_append, full, mem_priorPairPlaces, or_assoc]
  have halfSum : ∀ j, p ∈ s.productPlacesRC x sb j ++ priorPairPlaces dp j ↔ p = s.latPlace .mstat
      ∨ p = .reg x j ∨ p = .reg sb.re j ∨ p = .reg sb.im j
      ∨ ∃ k f, dp = some k ∧ (p = .acc k.re j f ∨ p = .acc k.im j f) := by
    intro j
    simp only [List.mem_append, half, mem_priorPairPlaces, or_assoc]
  simp only [List.forall_mem_cons, List.not_mem_nil, false_imp_iff, implies_true, and_true]
  refine ⟨?_, ⟨?_, ?_⟩, ?_, ?_, ?_⟩
  · exact placesRead_lanes rfl rfl (by simp [State.laterPlaces_eq]) full
  · exact placesRead_lanes rfl rfl (by simp [State.laterPlaces_eq]) fullSum
  · exact placesRead_lanes rfl rfl (by simp [State.laterPlaces_eq]) fullSum
  · exact placesRead_lanes rfl rfl (by simp [State.laterPlaces_eq]) half
  · exact placesRead_lanes rfl rfl (by simp [State.laterPlaces_eq]) halfSum
  · exact placesRead_lanes rfl rfl (by simp [State.laterPlaces_eq]) halfSum

theorem placesRead_shifts (dst : Option (Fin 8)) (dp : Option AccPair) (sa : ShiftSrc) (n : Src) (sp : ShiftPair)
    (np : AmountPair) (f : Field) (rnd : Bool) :
    (∀ op ∈ [Instr.ashift c dst sa n f rnd, .lshift c dst sa n f rnd],
      (p ∈ s.placesRead op ↔ s.readsCond c p ∨ ∃ j, s.runs c j
        ∧ (((∃ k, sa = .reg k ∧ p = .reg k j) ∨ ∃ k g, sa = .acc k ∧ p = .acc k j g)
          ∨ ∃ k, n = .reg k ∧ p = .reg k j)))
    ∧ (∀ op ∈ [Instr.ashiftor c dst sa n f rnd, .lshiftor c dst sa n f rnd],
      (p ∈ s.placesRead op ↔ s.readsCond c p ∨ ∃ j, s.runs c j
        ∧ (((∃ k, sa = .reg k ∧ p = .reg k j) ∨ ∃ k g, sa = .acc k ∧ p = .acc k j g)
          ∨ (∃ k, n = .reg k ∧ p = .reg k j) ∨ ∃ k g, dst = some k ∧ p = .acc k j g)))
    ∧ ∀ op ∈ [Instr.ashiftC c dp sp np f rnd, .lshiftC c dp sp np f rnd],
      (p ∈ s.placesRead op ↔ s.readsCond c p ∨ ∃ j, s.runs c j
        ∧ (((∃ k, sp = .regs k ∧ (p = .reg k.re j ∨ p = .reg k.im j))
            ∨ ∃ k g, sp = .accs k ∧ (p = .acc k.re j g ∨ p = .acc k.im j g))
          ∨ ∃ k, np = .regs k ∧ (p = .reg k.re j ∨ p = .reg k.im j))) := by
  simp only [List.forall_mem_cons, List.not_mem_nil, false_imp_iff, implies_true, and_true]
  refine ⟨⟨?_, ?_⟩, ⟨?_, ?_⟩, ?_, ?_⟩
  all_goals
    refine placesRead_lanes rfl rfl (by simp [State.laterPlaces_eq]) fun j => ?_
    simp only [List.mem_append, mem_shiftPlaces, mem_srcPlaces, mem_priorPlaces, mem_shiftPairPlaces, or_assoc]

theorem placesRead_cross (dst src : Fin 32) (act : XAct) (off : Fin 4) (hact : act.n ≤ s.cfg.lanes.n)
    (hoff : off.val < s.cfg.lanes.n) :
    (p ∈ s.placesRead (.xrd c dst src act off) ↔ s.readsCond c p
      ∨ ∃ j i : Lane, s.runs c j ∧ i.val = (j.val + off.val) % act.n ∧ p = .reg src i)
    ∧ (p ∈ s.placesRead (.xwr c dst src act off) ↔ s.readsCond c p
      ∨ ∃ j i : Lane, s.runs c j ∧ i.val = (j.val + off.val) % act.n ∧ s.enabled i = true ∧ p = .reg src j) := by
  have fits : s.cfg.xlaneFits act off = true := (Params.xlaneFits_iff s.cfg act off).mpr ⟨hact, hoff⟩
  have none : ∀ {i : Instr}, (i = .xrd c dst src act off ∨ i = .xwr c dst src act off) →
      s.laterPlaces (s.maskFor c.cond) i = [] := by
    rintro i (rfl | rfl) <;> simp [State.laterPlaces_eq]
  rw [State.mem_placesRead (c := c) rfl, State.mem_placesRead (c := c) rfl, none (Or.inl rfl), none (Or.inr rfl)]
  simp only [State.sourcePlaces, fits, if_true, List.not_mem_nil, or_false, List.mem_map, State.mem_execLanes,
    State.mem_xwrLanes, eq_otherLane]
  refine ⟨or_congr_right ?_, or_congr_right ?_⟩
  · constructor
    · rintro ⟨j, hj, rfl⟩
      exact ⟨j, _, hj, rfl, rfl⟩
    · rintro ⟨j, _, hj, rfl, rfl⟩
      exact ⟨j, hj, rfl⟩
  · constructor
    · rintro ⟨j, ⟨hj, enabled⟩, rfl⟩
      exact ⟨j, _, hj, rfl, enabled, rfl⟩
    · rintro ⟨j, _, hj, rfl, enabled, rfl⟩
      exact ⟨j, ⟨hj, enabled⟩, rfl⟩

/-! ### Loads, stores and moves -/

/-- What reaching the effective address of a post-modify access reads (R84). -/
def State.readsAccess (k : Fin 8) : Prop := s.runsAny c ∧ (p = s.latPlace .mstat ∨ p = s.latPlace (.i k))

/-- What the post-modify update reads besides Ik (R85). -/
def State.readsStep (k m : Fin 8) : Prop :=
  s.runsAny c ∧ (p = s.latPlace (.m m) ∨ p = s.latPlace (.l k) ∨ p = s.latPlace (.b k))

/-- What a direct double-word access reads besides its registers: UMA_EN at an odd address (R80). -/
def State.readsOdd (a : Half) : Prop := s.runsAny c ∧ p = s.latPlace .mstat ∧ a.toNat % 2 = 1

variable {s c p}

theorem State.mem_scalarPlaces {hs : List HazReg} :
    p ∈ s.scalarPlaces (s.maskFor c.cond) hs ↔ s.runsAny c ∧ ∃ h ∈ hs, s.latPlace h = p := by
  unfold State.scalarPlaces State.runsAny
  split
  next any => simp [any]
  next off => simp [off]

theorem State.mem_accessPlaces {k n : Fin 8} :
    p ∈ s.scalarPlaces (s.maskFor c.cond) (addrReads (.post k n)) ↔ s.readsAccess c p k := by
  simp only [State.mem_scalarPlaces, addrReads, State.readsAccess]
  grind

theorem State.mem_pairAccessPlaces {k n : Fin 8} {a : Nat} :
    p ∈ s.scalarPlaces (s.maskFor c.cond) (pairReads (.post k n) a) ↔ s.readsAccess c p k := by
  simp only [State.mem_scalarPlaces, pairReads, addrReads, State.readsAccess]
  grind

theorem State.mem_oddPlaces {a : Half} :
    p ∈ s.scalarPlaces (s.maskFor c.cond) (pairReads (.direct a) a.toNat) ↔ s.readsOdd c p a := by
  simp only [State.mem_scalarPlaces, pairReads, addrReads, State.readsOdd, ← oddAddr_iff]
  grind

theorem State.mem_stepPlaces {k n : Fin 8} : (s.runsAny c ∧ p ∈ (stepReads (.post k n)).map s.latPlace)
    ↔ s.readsStep c p k n := by
  simp only [stepReads, List.map_cons, List.map_nil, List.mem_cons, List.not_mem_nil, or_false, State.readsStep]

/-- A lane that executes makes `exec_any`. -/
theorem State.any_and_lanes {g : Lane → Prop} :
    (s.runsAny c ∧ ∃ j, s.runs c j ∧ g j) ↔ ∃ j, s.runs c j ∧ g j :=
  ⟨And.right, fun ⟨j, hj, hg⟩ => ⟨(s.execAny_iff _).mpr ⟨j, hj⟩, j, hj, hg⟩⟩

theorem State.mem_if_any {ps : List Place} :
    p ∈ (if s.execAny (s.maskFor c.cond) then ps else []) ↔ s.runsAny c ∧ p ∈ ps := by
  unfold State.runsAny
  split
  next any => simp [any]
  next off => simp [off]

/-- The registers that a double-word store reads, each before it stores it. -/
theorem State.mem_pairSource {sp : RPair} : (s.runsAny c ∧ p ∈ ((s.execLanes (s.maskFor c.cond)).map fun j => Place.reg sp.re j)
      ++ (s.execLanes (s.maskFor c.cond)).map fun j => Place.reg sp.im j)
    ↔ ∃ j, s.runs c j ∧ (p = .reg sp.re j ∨ p = .reg sp.im j) := by
  have lanes : p ∈ ((s.execLanes (s.maskFor c.cond)).map fun j => Place.reg sp.re j)
      ++ (s.execLanes (s.maskFor c.cond)).map (fun j => Place.reg sp.im j)
      ↔ ∃ j, s.runs c j ∧ (p = .reg sp.re j ∨ p = .reg sp.im j) := by
    simp only [List.mem_append, List.mem_map, State.mem_execLanes, State.runs]
    grind
  rw [lanes, State.any_and_lanes]

variable (s c p)

theorem placesRead_loads (dst : Handle) (dp : Option RPair) (addr v : Half) (k m : Fin 8) (da : Option (Fin 8)) :
    (∀ op ∈ [Instr.clracc c da, .ldDirect c dst addr, .ldi c dst v, .nop c], (p ∈ s.placesRead op ↔ s.readsCond c p))
    ∧ (p ∈ s.placesRead (.lddDirect c dp addr) ↔ s.readsCond c p ∨ s.readsOdd c p addr)
    ∧ (∀ op ∈ [Instr.ldPost c dst k m, .lddPost c dp k m],
      (p ∈ s.placesRead op ↔ s.readsCond c p ∨ s.readsAccess c p k ∨ s.readsStep c p k m))
    ∧ (p ∈ s.placesRead (.modify c k m) ↔
      s.readsCond c p ∨ s.readsStep c p k m ∨ (s.runsAny c ∧ p = s.latPlace (.i k))) := by
  simp only [List.forall_mem_cons, List.not_mem_nil, false_imp_iff, implies_true, and_true]
  refine ⟨⟨?_, ?_, ?_, ?_⟩, ?_, ⟨?_, ?_⟩, ?_⟩ <;> rw [State.mem_placesRead (c := c) rfl, State.laterPlaces_eq]
  case refine_1 | refine_2 | refine_3 | refine_4 => simp [State.sourcePlaces]
  case refine_5 => simp [State.sourcePlaces, State.mem_oddPlaces]
  case refine_6 => rw [State.sourcePlaces, State.mem_accessPlaces, State.mem_if_any, State.mem_stepPlaces]
  case refine_7 => rw [State.sourcePlaces, State.mem_pairAccessPlaces, State.mem_if_any, State.mem_stepPlaces]
  case refine_8 =>
    simp only [State.sourcePlaces, State.mem_scalarPlaces, State.readsStep]
    grind

theorem placesRead_stores (dst src : Handle) (sp : RPair) (addr : Half) (k m : Fin 8) :
    (p ∈ s.placesRead (.stDirect c src addr) ↔ s.readsCond c p ∨ ∃ j, s.runs c j ∧ p ∈ s.handlePlaces src j)
    ∧ (p ∈ s.placesRead (.stPost c src k m) ↔ s.readsCond c p ∨ s.readsAccess c p k ∨ s.readsStep c p k m
      ∨ ∃ j, s.runs c j ∧ p ∈ s.handlePlaces src j)
    ∧ (p ∈ s.placesRead (.stdDirect c sp addr) ↔ s.readsCond c p ∨ s.readsOdd c p addr
      ∨ ∃ j, s.runs c j ∧ (p = .reg sp.re j ∨ p = .reg sp.im j))
    ∧ (p ∈ s.placesRead (.stdPost c sp k m) ↔ s.readsCond c p ∨ s.readsAccess c p k ∨ s.readsStep c p k m
      ∨ ∃ j, s.runs c j ∧ (p = .reg sp.re j ∨ p = .reg sp.im j))
    ∧ (p ∈ s.placesRead (.mov c dst src) ↔ s.readsCond c p
      ∨ ∃ j, s.usesLane c dst j ∧ p ∈ s.handlePlaces src j) := by
  refine ⟨?_, ?_, ?_, ?_, ?_⟩ <;> rw [State.mem_placesRead (c := c) rfl, State.laterPlaces_eq]
  case refine_1 => simp [State.sourcePlaces, State.mem_execLanes, State.runs]
  case refine_2 =>
    rw [State.sourcePlaces, List.mem_append, State.mem_accessPlaces, State.mem_lanes, State.mem_if_any,
      State.mem_stepPlaces]
    grind
  case refine_3 => rw [State.sourcePlaces, State.mem_oddPlaces, State.mem_if_any, State.mem_pairSource]
  case refine_4 =>
    rw [State.sourcePlaces, State.mem_pairAccessPlaces, State.mem_if_any, List.mem_append, and_or_left,
      State.mem_pairSource, State.mem_stepPlaces]
    grind
  case refine_5 => simp [State.sourcePlaces, ← State.mem_usedLanes]

end

/-! ## The table -/

/-- A hazard-tracked register counts by the slot that `lat` returns (R141). -/
theorem latPlace_value (s : State) (k : Fin 8) :
    (∃ x, s.latPlace (.i k) = .haz (.i k) x ∧ s.lat (.i k) = (s.i.get k).value x)
      ∧ (∃ x, s.latPlace (.m k) = .haz (.m k) x ∧ s.lat (.m k) = (s.m.get k).value x)
      ∧ (∃ x, s.latPlace (.l k) = .haz (.l k) x ∧ s.lat (.l k) = (s.l.get k).value x)
      ∧ (∃ x, s.latPlace (.b k) = .haz (.b k) x ∧ s.lat (.b k) = (s.b.get k).value x)
      ∧ ∃ x, s.latPlace .cntr = .haz .cntr x ∧ s.lat .cntr = s.cntr.value x :=
  ⟨⟨_, rfl, rfl⟩, ⟨_, rfl, rfl⟩, ⟨_, rfl, rfl⟩, ⟨_, rfl, rfl⟩, ⟨_, rfl, rfl⟩⟩

/-- Settles O57. -/
theorem placesReadByEachOperation : Obligations.PlacesReadByEachOperation := by
  intro s c p cond mode hcond hmode
  obtain rfl : cond = s.readsCond c p := propext hcond
  obtain rfl : mode = (p = s.latPlace .mstat) := propext hmode
  refine ⟨fun dst sa b => ⟨placesRead_alu s c p dst sa b, placesRead_bits s c p dst sa b, placesRead_unary s c p dst sa⟩,
    placesRead_accAlu s c p, placesRead_pairs s c p, fun dst dp x y sa sb n sign rnd => ?_,
    fun dst dp sa n sp np f rnd src amount pairSrc pairAmount hsrc hamount hpairSrc hpairAmount => ?_,
    fun dst src dp sp addr v k m da read access step odd hread haccess hodd hstep => ?_, placesRead_cross s c p,
    latPlace_value s⟩
  · obtain ⟨mpy, mac, rnd'⟩ := placesRead_mac s c p dst x y n sign rnd
    obtain ⟨mpyC, macC, mpyRC, macRC⟩ := placesRead_macPairs s c p dp x sa sb sign rnd
    exact ⟨mpy, mac, mpyC, macC, mpyRC, macRC, rnd'⟩
  · simp only [hsrc, hamount, hpairSrc, hpairAmount]
    exact placesRead_shifts s c p dst dp sa n sp np f rnd
  · have hread : ∀ j, read j ↔ p ∈ s.handlePlaces src j := fun j => (hread j).trans State.mem_handlePlaces.symm
    obtain rfl : access = s.readsAccess c p k := propext haccess
    obtain rfl : odd = s.readsOdd c p addr := propext hodd
    obtain rfl : step = s.readsStep c p k m := propext hstep
    simp only [hread]
    obtain ⟨plain, lddDirect, post, modify⟩ := placesRead_loads s c p dst dp addr v k m da
    obtain ⟨stDirect, stPost, stdDirect, stdPost, mov⟩ := placesRead_stores s c p dst src sp addr k m
    exact ⟨plain, lddDirect, post, stDirect, stPost, stdDirect, stdPost, modify, mov⟩

end Sys2Proof.Machine
end
